-- ==== Sys2Proof/Word.lean ====
section
/-! DEFINITION. The bit words of the bus and the widths of a port and of a chip (00_scope.md R11). -/

namespace Sys2Proof

/-- One byte: of the array, of a command opcode, of a status lane. -/
abbrev Byte := BitVec 8

/-- A port word (00_scope.md R11): the data lines of the widest port. On a narrower port only the
low `PW` bits exist (30_encoding.md R51). -/
abbrev Word := BitVec 32

/-- A manufacturer or device code (10_state.md R19, `mfr_id` and `device_id`). -/
abbrev ChipId := BitVec 16

/-- `port_width` (10_state.md R19). -/
inductive PortWidth where
  | w8 | w16 | w32
  deriving DecidableEq, Repr

/-- `chip_width` (10_state.md R19). -/
inductive ChipWidth where
  | w8 | w16
  deriving DecidableEq, Repr

/-- `PW`, in bits (R11). -/
def PortWidth.bits : PortWidth → Nat
  | .w8 => 8
  | .w16 => 16
  | .w32 => 32

/-- `W`, the port width in bytes (R11). -/
def PortWidth.bytes : PortWidth → Nat
  | .w8 => 1
  | .w16 => 2
  | .w32 => 4

/-- `CWb`, in bits (R11). -/
def ChipWidth.bits : ChipWidth → Nat
  | .w8 => 8
  | .w16 => 16

/-- `2 ^ ADDR_WIDTH` (00_scope.md R8): no address reaches it. -/
def addrLimit : Nat := 4294967296

end Sys2Proof
end

