-- ==== Sys2Proof/Config.lean ====
section
/-! DEFINITION. The parameters of 00_scope.md R8 as one record, the value the record has in the spec's
vectors, and the free values: what the spec calls a draw, as constants without a body. -/

namespace Sys2Proof

/-! ### Free values (00_scope.md R12 "draw"; log 7 to 10)

Nothing constrains them: no proof can know a value of one of these. The first argument is always the
count of draws made so far (`Env.draws`), so that two draws need not agree. -/

/-- A port word read in `Command` mode, or where no array byte exists (20_memory.md R43). -/
opaque Config.freeRead : Nat → Word

/-- How far the timer advances beyond one millisecond (60_exceptions.md R123, law 3). -/
opaque Config.freeAdvance : Nat → Nat

/-- The byte at an address of a range that a failed or interrupted sequence addressed (20_memory.md
R44, 70_reset_and_hazards.md R129). Arguments: the draw, the address. -/
opaque Config.freeByte : Nat → Nat → Byte

/-- A device lock bit the spec leaves open (93_implementation_defined.md I8, I9). Arguments: the
draw, the bank, the sector. -/
opaque Config.freeLock : Nat → Nat → Nat → Bool

/-! ### Legal values of the enumerated registers and parameters -/

/-- `vendor_id` (00_scope.md R2, 10_state.md R19). -/
inductive VendorId where
  | unknown | intel | sharp | amd | fujitsu
  deriving DecidableEq, Repr

/-- `cmdset` (10_state.md R19): the command-set variant, if one has been selected. -/
inductive CmdSet where
  | none | intelStyle | amdStyle
  deriving DecidableEq, Repr

/-- `HOST_BYTE_ORDER` (20_memory.md R35). -/
inductive ByteOrder where
  | little | big
  deriving DecidableEq, Repr

/-- The native unit of a CFI timeout field (30_encoding.md R63). -/
inductive TimeUnit where
  | us | ms
  deriving DecidableEq, Repr

/-- The command words by name (30_encoding.md R53). -/
inductive Command where
  | readId | cfiQuery
  | resetIntel | clearStatus | blockErase | eraseConfirm | resume | program | writeToBuffer
  | bufferConfirm | lockSetup | lockSet | lockClear
  | resetAmd | unlock1 | unlock2 | eraseSetup | sectorErase | amdProgram
  deriving DecidableEq, Repr

/-- The parameter `CMD`: the byte of each command (30_encoding.md R53). -/
structure CommandBytes where
  readId : Byte := 0x90
  cfiQuery : Byte := 0x98
  resetIntel : Byte := 0xFF
  clearStatus : Byte := 0x50
  blockErase : Byte := 0x20
  eraseConfirm : Byte := 0xD0
  resume : Byte := 0xD0
  program : Byte := 0x40
  writeToBuffer : Byte := 0xE8
  bufferConfirm : Byte := 0xD0
  lockSetup : Byte := 0x60
  lockSet : Byte := 0x01
  lockClear : Byte := 0xD0
  resetAmd : Byte := 0xF0
  unlock1 : Byte := 0xAA
  unlock2 : Byte := 0x55
  eraseSetup : Byte := 0x80
  sectorErase : Byte := 0x30
  amdProgram : Byte := 0xA0
  deriving DecidableEq, Repr

/-- The parameter `CFI_OFF` (30_encoding.md R61, R63): command offsets of the CFI fields, the primary
command set ids and the native units of the timeout fields. -/
structure CfiLayout where
  query : Nat := 0x55
  qry : Nat := 0x10
  primaryId : Nat := 0x13
  wordTyp : Nat := 0x1F
  bufferTyp : Nat := 0x20
  eraseTyp : Nat := 0x21
  wordMax : Nat := 0x23
  bufferMax : Nat := 0x24
  eraseMax : Nat := 0x25
  bufferExp : Nat := 0x2A
  regionCount : Nat := 0x2C
  regions : Nat := 0x2D
  intelIds : List Nat := [1, 3]
  amdIds : List Nat := [2]
  wordUnit : TimeUnit := .us
  bufferUnit : TimeUnit := .us
  eraseUnit : TimeUnit := .ms
  deriving DecidableEq, Repr

/-- The parameter `STATUS_BITS` (30_encoding.md R55): masks of the Intel-style status lane. -/
structure StatusBits where
  ready : Byte := 0x80
  eraseErr : Byte := 0x20
  progErr : Byte := 0x10
  vppLow : Byte := 0x08
  locked : Byte := 0x02
  deriving DecidableEq, Repr

/-- One entry of `LEGACY_ID_TABLE` (30_encoding.md R64). -/
structure LegacyEntry where
  mfrId : ChipId
  deviceId : ChipId
  vendor : VendorId
  cmdset : CmdSet
  sectorCount : Nat
  uniformSectorSize : Nat
  deriving DecidableEq, Repr

/-- The implementation parameters (00_scope.md R8): "The model takes each as an argument." They are
fixed for the machine; `State.params` holds them, and nothing writes it. -/
structure Params where
  /-- `NUM_BANKS` is its length, `BANK_BASE[b]` its entry `b`. -/
  bankBase : List Nat
  minPortWidth : PortWidth
  maxSectors : Nat
  hostByteOrder : ByteOrder
  defaultEraseTimeoutMs : Nat
  defaultWriteTimeoutMs : Nat
  defaultBufferWriteTimeoutMs : Nat
  legacyTable : List LegacyEntry
  noResumeDevices : List ChipId
  mfrCodes : List (ChipId × VendorId) :=
    [(0x89, .intel), (0xB0, .sharp), (0x01, .amd), (0x04, .fujitsu)]
  cmd : CommandBytes := {}
  cfi : CfiLayout := {}
  status : StatusBits := {}
  amdToggleMask : Byte := 0x80
  amdUnlockOff1 : Nat := 0x555
  amdUnlockOff2 : Nat := 0x2AA
  protectOffset : Nat := 2
  protectBit : Byte := 0x01
  maxBufferWords : Nat := 256
  deriving DecidableEq, Repr

/-- The values the spec's test vectors use for the `OPEN` parameters (00_scope.md R8,
95_test_vectors.md). DESIGN CHOICE (log 3): the reset state carries them; unsafe only for a claim
about the reset state itself. -/
def Params.vectors : Params where
  bankBase := [0]
  minPortWidth := .w8
  maxSectors := 512
  hostByteOrder := .little
  defaultEraseTimeoutMs := 1000
  defaultWriteTimeoutMs := 1
  defaultBufferWriteTimeoutMs := 1
  legacyTable := []
  noResumeDevices := []

end Sys2Proof
end

