-- ==== Sys2Proof/Syntax.lean ====
section
/-! DEFINITION. The instructions: one constructor per row of spec/opcode_table.json, in the table's
order and with the operands its rule gives it. Indices, addresses, lengths and budgets are naturals
(00_scope.md R10); data words are port words. -/

namespace Sys2Proof

/-- `flag ∈ {Set, Clear}` of `flash_protect` (30_encoding.md R65). -/
inductive ProtectFlag where
  | set | clear
  deriving DecidableEq, Repr

/-- The timeout kinds a poll can report (42_sequencer.md R91). -/
inductive TimeoutKind where
  | erase | program | bufferWrite | protect
  deriving DecidableEq, Repr

/-- One instruction: a host operation (R65), a bus word (R53, R32, R55, R56, R100) or a sequence of
40_identification.md to 43_facade.md. Where the rule fixes a word's address (an unlock offset, the CFI
query offset) the word has no address operand. -/
inductive Instr where
  -- host operations
  | flashInit
  | flashGetSize (bank : Nat)
  | flashErase (bank first last : Nat)
  | writeBuff (bank : Nat) (src : List Byte) (dest len : Nat)
  | flashProtect (flag : ProtectFlag) (addrStart addrEnd bank : Nat)
  | flashPrintInfo (bank : Nat)
  -- command words
  | readId (bank : Nat)
  | cfiQuery (bank : Nat)
  | resetIntel (bank addr : Nat)
  | clearStatus (bank addr : Nat)
  | blockErase (bank addr : Nat)
  | eraseConfirm (bank addr : Nat)
  | resume (bank addr : Nat)
  | program (bank addr : Nat)
  | writeToBuffer (bank addr : Nat)
  | bufferConfirm (bank addr : Nat)
  | lockSetup (bank addr : Nat)
  | lockSet (bank addr : Nat)
  | lockClear (bank addr : Nat)
  | resetAmd (bank addr : Nat)
  | unlock1 (bank : Nat)
  | unlock2 (bank : Nat)
  | eraseSetup (bank : Nat)
  | sectorErase (bank addr : Nat)
  | amdProgram (bank : Nat)
  -- count, data and status words
  | count (bank addr : Nat) (nMinusOne : Byte)
  | data (bank addr : Nat) (d : Word)
  | statusIntel (bank addr : Nat)
  | statusAmd (bank addr : Nat)
  -- sequences
  | bankReset (bank addr : Nat)
  | identReset (bank : Nat)
  | readIdEnter (bank : Nat)
  | identify (bank : Nat)
  | identCfi (bank : Nat)
  | identLegacy (bank : Nat) (mfr dev : ChipId)
  | decodeCfi (bank : Nat)
  | decodeLegacy (bank : Nat)
  | probeProtection (bank : Nat)
  | poll (bank addr budget : Nat) (kind : TimeoutKind)
  | pollReady (bank addr budget : Nat)
  | eraseIntel (bank sector : Nat)
  | eraseAmd (bank sector : Nat)
  | programWordIntel (bank addr : Nat) (d : Word)
  | programWordAmd (bank addr : Nat) (d : Word)
  | programBufferIntel (bank addr : Nat) (ds : List Word)
  | protectIntel (bank sector : Nat) (lock : Bool)
  | protectAmd (bank sector : Nat) (lock : Bool)
  | writeMerged (bank addr off : Nat) (bytes : List Byte)
  | protectSector (bank sector : Nat) (lock : Bool)
  deriving DecidableEq, Repr

end Sys2Proof
end

