-- ==== Sys2Proof/WellFormed.lean ====
section
/-! DEFINITION. When an instruction can be written as a call: every natural operand fits the 32 bits
its field has (10_state.md R19, 30_encoding.md R65), and so does the length of a list. -/

namespace Sys2Proof

/-- A natural that fits a 32-bit field. -/
def fits (n : Nat) : Bool := decide (n < addrLimit)

/-- The operands fit their fields. It does not ask that an operand make sense to a bank: that is
checked when the instruction runs. -/
def Instr.wellFormed : Instr → Bool
  | .flashInit => true
  | .flashGetSize b => fits b
  | .flashErase b f l => fits b && fits f && fits l
  | .writeBuff b src d n => fits b && fits src.length && fits d && fits n
  | .flashProtect _ a e b => fits a && fits e && fits b
  | .flashPrintInfo b => fits b
  | .readId b => fits b
  | .cfiQuery b => fits b
  | .resetIntel b a => fits b && fits a
  | .clearStatus b a => fits b && fits a
  | .blockErase b a => fits b && fits a
  | .eraseConfirm b a => fits b && fits a
  | .resume b a => fits b && fits a
  | .program b a => fits b && fits a
  | .writeToBuffer b a => fits b && fits a
  | .bufferConfirm b a => fits b && fits a
  | .lockSetup b a => fits b && fits a
  | .lockSet b a => fits b && fits a
  | .lockClear b a => fits b && fits a
  | .resetAmd b a => fits b && fits a
  | .unlock1 b => fits b
  | .unlock2 b => fits b
  | .eraseSetup b => fits b
  | .sectorErase b a => fits b && fits a
  | .amdProgram b => fits b
  | .count b a _ => fits b && fits a
  | .data b a _ => fits b && fits a
  | .statusIntel b a => fits b && fits a
  | .statusAmd b a => fits b && fits a
  | .bankReset b a => fits b && fits a
  | .identReset b => fits b
  | .readIdEnter b => fits b
  | .identify b => fits b
  | .identCfi b => fits b
  | .identLegacy b _ _ => fits b
  | .decodeCfi b => fits b
  | .decodeLegacy b => fits b
  | .probeProtection b => fits b
  | .poll b a n _ => fits b && fits a && fits n
  | .pollReady b a n => fits b && fits a && fits n
  | .eraseIntel b s => fits b && fits s
  | .eraseAmd b s => fits b && fits s
  | .programWordIntel b a _ => fits b && fits a
  | .programWordAmd b a _ => fits b && fits a
  | .programBufferIntel b a ds => fits b && fits a && fits ds.length
  | .protectIntel b s _ => fits b && fits s
  | .protectAmd b s _ => fits b && fits s
  | .writeMerged b a o bs => fits b && fits a && fits o && fits bs.length
  | .protectSector b s _ => fits b && fits s

end Sys2Proof
end

