-- ==== Sys2Proof/Decode.lean ====
section
/-! DEFINITION. A call as bytes: the decoder, total on any bytes and rejecting by name, and the encoder.

The spec gives each row of its table one byte (its `match`) and gives operands no bits
(opcode_table.json, 30_encoding.md R53 and R65), and one byte may name several rows: "What a write of
`0xD0` means is fixed by its position in a sequence, never by the value alone" (R53). A call is
therefore laid out as: the row's table byte; a form byte, which tells apart the rows that share the
byte (0 for the first); then the operands in the order of the constructor. DESIGN CHOICE (log 1), safe:
the host's calls are function calls in the spec and have no bit layout there. -/

namespace Sys2Proof

/-- Why a byte string is no call. -/
inductive DecodeError where
  /-- it ends before the operands do -/
  | truncated
  /-- no row of the table has this byte and form (30_encoding.md R66) -/
  | unknownRow (op form : Nat)
  /-- an enumerated operand holds a value outside its set -/
  | badField (value : Nat)
  /-- something other than zero padding follows the call -/
  | trailing
  deriving DecidableEq, Repr

/-! ### Reading operands -/

/-- A 32-bit natural, least significant byte first. -/
def needNat {α : Type} (bs : List Byte) (k : Nat → List Byte → Except DecodeError α) :
    Except DecodeError α :=
  match bs with
  | b0 :: b1 :: b2 :: b3 :: rest =>
    k (b0.toNat + 256 * (b1.toNat + 256 * (b2.toNat + 256 * b3.toNat))) rest
  | _ => .error .truncated

/-- A port word, least significant byte first. -/
def needWord {α : Type} (bs : List Byte) (k : Word → List Byte → Except DecodeError α) :
    Except DecodeError α :=
  needNat bs fun n rest => k (BitVec.ofNat 32 n) rest

/-- One byte. -/
def needByte {α : Type} (bs : List Byte) (k : Byte → List Byte → Except DecodeError α) :
    Except DecodeError α :=
  match bs with
  | b :: rest => k b rest
  | [] => .error .truncated

/-- A 16-bit code, least significant byte first. -/
def needId {α : Type} (bs : List Byte) (k : ChipId → List Byte → Except DecodeError α) :
    Except DecodeError α :=
  match bs with
  | b0 :: b1 :: rest => k (b1 ++ b0) rest
  | _ => .error .truncated

/-- A bool: 0 or 1. -/
def needBool {α : Type} (bs : List Byte) (k : Bool → List Byte → Except DecodeError α) :
    Except DecodeError α :=
  needByte bs fun b rest =>
    if b = 0 then k false rest else if b = 1 then k true rest else .error (.badField b.toNat)

/-- `Set` (0) or `Clear` (1). -/
def needFlag {α : Type} (bs : List Byte) (k : ProtectFlag → List Byte → Except DecodeError α) :
    Except DecodeError α :=
  needByte bs fun b rest =>
    if b = 0 then k .set rest else if b = 1 then k .clear rest else .error (.badField b.toNat)

/-- A timeout kind, 0 to 3. -/
def needKind {α : Type} (bs : List Byte) (k : TimeoutKind → List Byte → Except DecodeError α) :
    Except DecodeError α :=
  needByte bs fun b rest =>
    if b = 0 then k .erase rest else if b = 1 then k .program rest
    else if b = 2 then k .bufferWrite rest else if b = 3 then k .protect rest
    else .error (.badField b.toNat)

/-- A byte list after its 32-bit length. -/
def needBytes {α : Type} (bs : List Byte) (k : List Byte → List Byte → Except DecodeError α) :
    Except DecodeError α :=
  needNat bs fun n rest =>
    if rest.length < n then .error .truncated else k (rest.take n) (rest.drop n)

/-- `n` port words, and what follows them. -/
def takeWords : Nat → List Byte → Option (List Word × List Byte)
  | 0, bs => some ([], bs)
  | n + 1, b0 :: b1 :: b2 :: b3 :: rest =>
    (takeWords n rest).map fun r => ((b3 ++ b2 ++ b1 ++ b0 : Word) :: r.1, r.2)
  | _ + 1, _ => none

/-- A list of port words after its 32-bit length. -/
def needWords {α : Type} (bs : List Byte) (k : List Word → List Byte → Except DecodeError α) :
    Except DecodeError α :=
  needNat bs fun n rest =>
    match takeWords n rest with
    | some (ws, rest) => k ws rest
    | none => .error .truncated

/-! ### Decoding -/

/-- The call whose table byte is `op` and whose form is `form`, and the bytes after it. -/
def decodeRow (op form : Nat) (bs : List Byte) : Except DecodeError (Instr × List Byte) :=
  match op with
  | 0x00 => match form with
    | 0 => needNat bs fun a bs => needNat bs fun b bs => .ok (.statusAmd a b, bs)
    | 1 => needNat bs fun a bs => needNat bs fun b bs => needByte bs fun c bs => .ok (.count a b c, bs)
    | 2 => needNat bs fun a bs => needNat bs fun b bs => needWord bs fun c bs => .ok (.data a b c, bs)
    | 3 => needNat bs fun a bs => .ok (.identCfi a, bs)
    | 4 => needNat bs fun a bs => needId bs fun b bs => needId bs fun c bs => .ok (.identLegacy a b c, bs)
    | 5 => needNat bs fun a bs => .ok (.decodeCfi a, bs)
    | 6 => needNat bs fun a bs => .ok (.decodeLegacy a, bs)
    | 7 => needNat bs fun a bs => needNat bs fun b bs => needNat bs fun c bs => needKind bs fun d bs => .ok (.poll a b c d, bs)
    | 8 => needNat bs fun a bs => needNat bs fun b bs => needNat bs fun c bs => .ok (.pollReady a b c, bs)
    | 9 => needNat bs fun a bs => needNat bs fun b bs => needBool bs fun c bs => .ok (.protectAmd a b c, bs)
    | 10 => needNat bs fun a bs => needNat bs fun b bs => needNat bs fun c bs => needBytes bs fun d bs => .ok (.writeMerged a b c d, bs)
    | _ => .error (.unknownRow op form)
  | 0x01 => match form with
    | 0 => .ok (.flashInit, bs)
    | 1 => needNat bs fun a bs => needNat bs fun b bs => .ok (.lockSet a b, bs)
    | _ => .error (.unknownRow op form)
  | 0x02 => match form with
    | 0 => needNat bs fun a bs => .ok (.flashGetSize a, bs)
    | _ => .error (.unknownRow op form)
  | 0x03 => match form with
    | 0 => needNat bs fun a bs => needNat bs fun b bs => needNat bs fun c bs => .ok (.flashErase a b c, bs)
    | _ => .error (.unknownRow op form)
  | 0x04 => match form with
    | 0 => needNat bs fun a bs => needBytes bs fun b bs => needNat bs fun c bs => needNat bs fun d bs => .ok (.writeBuff a b c d, bs)
    | _ => .error (.unknownRow op form)
  | 0x05 => match form with
    | 0 => needFlag bs fun a bs => needNat bs fun b bs => needNat bs fun c bs => needNat bs fun d bs => .ok (.flashProtect a b c d, bs)
    | _ => .error (.unknownRow op form)
  | 0x06 => match form with
    | 0 => needNat bs fun a bs => .ok (.flashPrintInfo a, bs)
    | _ => .error (.unknownRow op form)
  | 0x20 => match form with
    | 0 => needNat bs fun a bs => needNat bs fun b bs => .ok (.blockErase a b, bs)
    | _ => .error (.unknownRow op form)
  | 0x30 => match form with
    | 0 => needNat bs fun a bs => needNat bs fun b bs => .ok (.sectorErase a b, bs)
    | _ => .error (.unknownRow op form)
  | 0x40 => match form with
    | 0 => needNat bs fun a bs => needNat bs fun b bs => .ok (.program a b, bs)
    | _ => .error (.unknownRow op form)
  | 0x50 => match form with
    | 0 => needNat bs fun a bs => needNat bs fun b bs => .ok (.clearStatus a b, bs)
    | 1 => needNat bs fun a bs => needNat bs fun b bs => needWord bs fun c bs => .ok (.programWordIntel a b c, bs)
    | 2 => needNat bs fun a bs => needNat bs fun b bs => needBool bs fun c bs => .ok (.protectIntel a b c, bs)
    | 3 => needNat bs fun a bs => needNat bs fun b bs => needBool bs fun c bs => .ok (.protectSector a b c, bs)
    | _ => .error (.unknownRow op form)
  | 0x55 => match form with
    | 0 => needNat bs fun a bs => .ok (.unlock2 a, bs)
    | _ => .error (.unknownRow op form)
  | 0x60 => match form with
    | 0 => needNat bs fun a bs => needNat bs fun b bs => .ok (.lockSetup a b, bs)
    | _ => .error (.unknownRow op form)
  | 0x80 => match form with
    | 0 => needNat bs fun a bs => .ok (.eraseSetup a, bs)
    | 1 => needNat bs fun a bs => needNat bs fun b bs => .ok (.statusIntel a b, bs)
    | _ => .error (.unknownRow op form)
  | 0x90 => match form with
    | 0 => needNat bs fun a bs => .ok (.readId a, bs)
    | _ => .error (.unknownRow op form)
  | 0x98 => match form with
    | 0 => needNat bs fun a bs => .ok (.cfiQuery a, bs)
    | _ => .error (.unknownRow op form)
  | 0xA0 => match form with
    | 0 => needNat bs fun a bs => .ok (.amdProgram a, bs)
    | _ => .error (.unknownRow op form)
  | 0xAA => match form with
    | 0 => needNat bs fun a bs => .ok (.unlock1 a, bs)
    | 1 => needNat bs fun a bs => .ok (.readIdEnter a, bs)
    | 2 => needNat bs fun a bs => .ok (.probeProtection a, bs)
    | 3 => needNat bs fun a bs => needNat bs fun b bs => .ok (.eraseAmd a b, bs)
    | 4 => needNat bs fun a bs => needNat bs fun b bs => needWord bs fun c bs => .ok (.programWordAmd a b c, bs)
    | _ => .error (.unknownRow op form)
  | 0xD0 => match form with
    | 0 => needNat bs fun a bs => needNat bs fun b bs => .ok (.eraseConfirm a b, bs)
    | 1 => needNat bs fun a bs => needNat bs fun b bs => .ok (.resume a b, bs)
    | 2 => needNat bs fun a bs => needNat bs fun b bs => .ok (.bufferConfirm a b, bs)
    | 3 => needNat bs fun a bs => needNat bs fun b bs => .ok (.lockClear a b, bs)
    | _ => .error (.unknownRow op form)
  | 0xE8 => match form with
    | 0 => needNat bs fun a bs => needNat bs fun b bs => .ok (.writeToBuffer a b, bs)
    | 1 => needNat bs fun a bs => needNat bs fun b bs => needWords bs fun c bs => .ok (.programBufferIntel a b c, bs)
    | _ => .error (.unknownRow op form)
  | 0xF0 => match form with
    | 0 => needNat bs fun a bs => needNat bs fun b bs => .ok (.resetAmd a b, bs)
    | 1 => needNat bs fun a bs => .ok (.identReset a, bs)
    | 2 => needNat bs fun a bs => .ok (.identify a, bs)
    | _ => .error (.unknownRow op form)
  | 0xFF => match form with
    | 0 => needNat bs fun a bs => needNat bs fun b bs => .ok (.resetIntel a b, bs)
    | 1 => needNat bs fun a bs => needNat bs fun b bs => .ok (.bankReset a b, bs)
    | 2 => needNat bs fun a bs => needNat bs fun b bs => .ok (.eraseIntel a b, bs)
    | _ => .error (.unknownRow op form)
  | _ => .error (.unknownRow op form)

/-- The call at the head of the bytes, and the bytes after it. -/
def decode (bs : List Byte) : Except DecodeError (Instr × List Byte) :=
  match bs with
  | op :: form :: rest => decodeRow op.toNat form.toNat rest
  | _ => .error .truncated

/-- The one call a byte string holds; only zero bytes may follow it. -/
def decodeCall (bs : List Byte) : Except DecodeError Instr :=
  match decode bs with
  | .ok (i, rest) => if rest.all (· == 0) then .ok i else .error .trailing
  | .error e => .error e

/-! ### Encoding -/

/-- A natural as 32 bits, least significant byte first. -/
def putNat (n : Nat) : List Byte :=
  [BitVec.ofNat 8 n, BitVec.ofNat 8 (n / 256), BitVec.ofNat 8 (n / 65536),
    BitVec.ofNat 8 (n / 16777216)]

/-- A port word, least significant byte first. -/
def putWord (w : Word) : List Byte := putNat w.toNat

/-- One byte. -/
def putByte (b : Byte) : List Byte := [b]

/-- A 16-bit code, least significant byte first. -/
def putId (m : ChipId) : List Byte := [m.extractLsb' 0 8, m.extractLsb' 8 8]

/-- A bool as 0 or 1. -/
def putBool (b : Bool) : List Byte := [if b then 1 else 0]

/-- A protect flag as 0 or 1. -/
def putFlag : ProtectFlag → List Byte
  | .set => [0]
  | .clear => [1]

/-- A timeout kind as 0 to 3. -/
def putKind : TimeoutKind → List Byte
  | .erase => [0]
  | .program => [1]
  | .bufferWrite => [2]
  | .protect => [3]

/-- A byte list with its length. -/
def putBytes (bs : List Byte) : List Byte := putNat bs.length ++ bs

/-- A list of port words with its length. -/
def putWords (ws : List Word) : List Byte := putNat ws.length ++ ws.flatMap putWord

/-- The bytes of a call. -/
def encode : Instr → List Byte
  | .flashInit => [0x01, 0]
  | .flashGetSize a => [0x02, 0] ++ putNat a
  | .flashErase a b c => [0x03, 0] ++ putNat a ++ putNat b ++ putNat c
  | .writeBuff a b c d => [0x04, 0] ++ putNat a ++ putBytes b ++ putNat c ++ putNat d
  | .flashProtect a b c d => [0x05, 0] ++ putFlag a ++ putNat b ++ putNat c ++ putNat d
  | .flashPrintInfo a => [0x06, 0] ++ putNat a
  | .readId a => [0x90, 0] ++ putNat a
  | .cfiQuery a => [0x98, 0] ++ putNat a
  | .resetIntel a b => [0xFF, 0] ++ putNat a ++ putNat b
  | .clearStatus a b => [0x50, 0] ++ putNat a ++ putNat b
  | .blockErase a b => [0x20, 0] ++ putNat a ++ putNat b
  | .eraseConfirm a b => [0xD0, 0] ++ putNat a ++ putNat b
  | .resume a b => [0xD0, 1] ++ putNat a ++ putNat b
  | .program a b => [0x40, 0] ++ putNat a ++ putNat b
  | .writeToBuffer a b => [0xE8, 0] ++ putNat a ++ putNat b
  | .bufferConfirm a b => [0xD0, 2] ++ putNat a ++ putNat b
  | .lockSetup a b => [0x60, 0] ++ putNat a ++ putNat b
  | .lockSet a b => [0x01, 1] ++ putNat a ++ putNat b
  | .lockClear a b => [0xD0, 3] ++ putNat a ++ putNat b
  | .resetAmd a b => [0xF0, 0] ++ putNat a ++ putNat b
  | .unlock1 a => [0xAA, 0] ++ putNat a
  | .unlock2 a => [0x55, 0] ++ putNat a
  | .eraseSetup a => [0x80, 0] ++ putNat a
  | .sectorErase a b => [0x30, 0] ++ putNat a ++ putNat b
  | .amdProgram a => [0xA0, 0] ++ putNat a
  | .count a b c => [0x00, 1] ++ putNat a ++ putNat b ++ putByte c
  | .data a b c => [0x00, 2] ++ putNat a ++ putNat b ++ putWord c
  | .statusIntel a b => [0x80, 1] ++ putNat a ++ putNat b
  | .statusAmd a b => [0x00, 0] ++ putNat a ++ putNat b
  | .bankReset a b => [0xFF, 1] ++ putNat a ++ putNat b
  | .identReset a => [0xF0, 1] ++ putNat a
  | .readIdEnter a => [0xAA, 1] ++ putNat a
  | .identify a => [0xF0, 2] ++ putNat a
  | .identCfi a => [0x00, 3] ++ putNat a
  | .identLegacy a b c => [0x00, 4] ++ putNat a ++ putId b ++ putId c
  | .decodeCfi a => [0x00, 5] ++ putNat a
  | .decodeLegacy a => [0x00, 6] ++ putNat a
  | .probeProtection a => [0xAA, 2] ++ putNat a
  | .poll a b c d => [0x00, 7] ++ putNat a ++ putNat b ++ putNat c ++ putKind d
  | .pollReady a b c => [0x00, 8] ++ putNat a ++ putNat b ++ putNat c
  | .eraseIntel a b => [0xFF, 2] ++ putNat a ++ putNat b
  | .eraseAmd a b => [0xAA, 3] ++ putNat a ++ putNat b
  | .programWordIntel a b c => [0x50, 1] ++ putNat a ++ putNat b ++ putWord c
  | .programWordAmd a b c => [0xAA, 4] ++ putNat a ++ putNat b ++ putWord c
  | .programBufferIntel a b c => [0xE8, 1] ++ putNat a ++ putNat b ++ putWords c
  | .protectIntel a b c => [0x50, 2] ++ putNat a ++ putNat b ++ putBool c
  | .protectAmd a b c => [0x00, 9] ++ putNat a ++ putNat b ++ putBool c
  | .writeMerged a b c d => [0x00, 10] ++ putNat a ++ putNat b ++ putNat c ++ putBytes d
  | .protectSector a b c => [0x50, 3] ++ putNat a ++ putNat b ++ putBool c

/-! ### A word of the opcode table -/

/-- The low `n` bytes of `w`, least significant first. -/
def bytesOfNat : Nat → Nat → List Byte
  | 0, _ => []
  | n + 1, w => BitVec.ofNat 8 w :: bytesOfNat n (w / 256)

/-- The operand bytes of the longest call without a list. -/
def operandPad : Nat := 20

/-- A table word as a call: its `nbits` bits, then operand bytes of zeros. -/
def tableCall (nbits w : Nat) : List Byte :=
  bytesOfNat (nbits / 8) w ++ List.replicate (operandPad + 2 - nbits / 8) 0

/-- The instruction the decoder reads from a word of the opcode table. -/
def decodeTableWord (nbits w : Nat) : Option Instr :=
  match decodeCall (tableCall nbits w) with
  | .ok i => some i
  | .error _ => none

end Sys2Proof
end

