-- ==== Sys2Proof/Machine/State.lean ====
section
/-! DEFINITION. The architectural state (10_state.md), the results an operation returns
(60_exceptions.md R114, R115), the reasons a step can stop, and the state after reset
(70_reset_and_hazards.md R128). -/

namespace Sys2Proof.Machine

/-! ### Results -/

/-- The `HardwareError` sub-kinds (60_exceptions.md R115). -/
inductive SubKind where
  | commandSequence | eraseOrLockBit | locking | vppLow
  deriving DecidableEq, Repr

/-- The result kinds with the info they carry (60_exceptions.md R114). `ok` is also a sequence's
`Done` (42_sequencer.md R104). -/
inductive Kind where
  | ok
  | unknownDevice
  | invalidSectorRange
  | protectedSector
  | notErased (addr : Nat)
  | eraseTimeout
  | programTimeout
  | bufferWriteTimeout
  | protectTimeout
  | hardwareError (sub : SubKind)
  deriving DecidableEq, Repr

/-- What one status word says (30_encoding.md R56, R57). -/
inductive Verdict where
  | notDone
  | done
  | error (sub : SubKind)
  deriving DecidableEq, Repr

/-- The record `flash_print_info` reports (43_facade.md R112). -/
structure InfoRecord where
  vendorId : VendorId
  mfrId : ChipId
  deviceId : ChipId
  size : Nat
  sectorCount : Nat
  sectors : List (Nat × Bool)
  truncationWarnings : Nat
  deriving DecidableEq, Repr

/-- What an operation returns (10_state.md R26). -/
inductive Result where
  /-- `write_buff`, `flash_protect` and every sequencer operation -/
  | status (k : Kind)
  /-- `flash_erase`: the status, the sectors erased and the sectors skipped -/
  | erase (k : Kind) (erased skipped : Nat)
  /-- `flash_init`: the total of the bank sizes -/
  | total (bytes : Nat)
  /-- `flash_get_size` -/
  | size (bytes : Nat)
  /-- `flash_print_info` -/
  | info (r : InfoRecord)
  /-- PollReady seeing ready (42_sequencer.md R90) -/
  | ready
  /-- IdentCFI and the legacy match: accepted or rejected (40_identification.md R74, R75) -/
  | ident (accepted : Bool)
  /-- a status word read and tested by itself -/
  | verdict (v : Verdict)
  deriving DecidableEq, Repr

/-! ### Banks -/

/-- `lane_order` (10_state.md R19). -/
inductive LaneOrder where
  | le | be
  deriving DecidableEq, Repr

/-- `geometry_path` (10_state.md R19). -/
inductive GeometryPath where
  | none | cfi | legacy
  deriving DecidableEq, Repr

/-- The device mode (20_memory.md R42). -/
inductive DeviceMode where
  | readArray | command
  deriving DecidableEq, Repr

/-- `sectors[i]` (10_state.md R19). -/
structure Sector where
  startAddress : Nat
  isProtected : Bool
  deriving DecidableEq, Repr

/-- The devices of one bank as far as the spec gives them state: the mode (20_memory.md R42), whether
the last write was `RESET_AMD`, the first write of the two-write reset (30_encoding.md R53; log 12),
and the hardware lock register, one bit a sector (10_state.md R28; log 10). A lock register whose length
is not the number of sectors holds no record: the bits are open. External to the block (R27). -/
structure Device where
  mode : DeviceMode
  afterResetAmd : Bool := false
  lockBits : List Bool
  deriving DecidableEq, Repr

/-- The bank register file (10_state.md R19), with the bank's devices beside it. `sector_count` is the
length of `sectors`. -/
structure Bank where
  baseAddress : Nat
  portWidth : PortWidth
  chipWidth : ChipWidth
  laneOrder : LaneOrder
  vendorId : VendorId
  mfrId : ChipId
  deviceId : ChipId
  cmdset : CmdSet
  geometryPath : GeometryPath
  resumeAfterErase : Bool
  sectors : List Sector
  size : Nat
  bufferSize : Nat
  eraseTimeout : Nat
  writeTimeout : Nat
  bufferWriteTimeout : Nat
  truncationWarnings : Nat
  device : Device
  deriving DecidableEq, Repr

/-- The reset values of a bank (10_state.md R19, 70_reset_and_hazards.md R128). `port_width` and
`chip_width` are unspecified there: DESIGN CHOICE 8 and 8 (log 4), unsafe. -/
def Bank.atReset (base : Nat) : Bank where
  baseAddress := base
  portWidth := .w8
  chipWidth := .w8
  laneOrder := .le
  vendorId := .unknown
  mfrId := 0
  deviceId := 0
  cmdset := .none
  geometryPath := .none
  resumeAfterErase := false
  sectors := []
  size := 0
  bufferSize := 0
  eraseTimeout := 0
  writeTimeout := 0
  bufferWriteTimeout := 0
  truncationWarnings := 0
  device := { mode := .readArray, lockBits := [] }

/-! ### Sequencer, memory, environment, observation -/

/-- `sm_state` (10_state.md R23). -/
inductive SmState where
  | idle | commandIssued | polling | done | timedOut | hardwareError
  deriving DecidableEq, Repr

/-- The sequencer registers (10_state.md R23). -/
structure Sequencer where
  smState : SmState
  pollAddr : Nat
  pollBudget : Nat
  pollStart : Nat
  pollPrev : Word
  savedIrq : Bool
  deriving DecidableEq, Repr

/-- The sequencer at reset (10_state.md R23). All but `sm_state` are unspecified there: DESIGN CHOICE
zero (log 4), unsafe. -/
def Sequencer.atReset : Sequencer where
  smState := .idle
  pollAddr := 0
  pollBudget := 0
  pollStart := 0
  pollPrev := 0
  savedIrq := false

/-- The arrays `M_b` of all banks (20_memory.md R43), by bus address, in one canonical form
(`Memory.wf`): addresses strictly rising, no entry equal to what an unlisted address reads as. -/
abbrev Memory := List Host.Cell

/-- The place a running operation has reached (10_state.md R18): the operation and how many
micro-steps (bus accesses and timer reads) it has taken. `range` is the byte range, start and length,
that the running erase or program sequence addresses (70_reset_and_hazards.md R129). -/
structure Position where
  op : Instr
  step : Nat
  range : Option (Nat × Nat)
  deriving DecidableEq, Repr

/-- What the block reads and does not own (10_state.md R27) and the draws of the model's environment.
`ie` is the host's interrupt enable, `timer` the millisecond timer. The other fields are the model's
own (log 7, 8, 11): answers the devices have ready for `Command`-mode reads, advances of the timer at
its next reads, the micro-steps left until the platform asserts system reset, and the count of free
values drawn. -/
structure Env where
  ie : Bool
  timer : Nat
  busInput : List Word
  timerInput : List Nat
  resetIn : Option Nat
  draws : Nat
  deriving DecidableEq, Repr

/-- One event of a bus trace (00_scope.md R13). -/
inductive BusEvent where
  /-- `W a v` -/
  | write (addr : Nat) (v : Word)
  /-- `R a -> v` -/
  | read (addr : Nat) (v : Word)
  /-- `T -> t` -/
  | timer (t : Nat)
  /-- `I off` -/
  | irqOff
  /-- `I restore` -/
  | irqRestore
  deriving DecidableEq, Repr

/-- What an observer of the bus has seen (00_scope.md R13) and the values `sm_state` took, both oldest
first. The model's own (log 20): no rule reads them. -/
structure Log where
  trace : List BusEvent
  smTrace : List SmState
  deriving DecidableEq, Repr

/-- The machine: the parameters, the banks with their devices, the sequencer, `init_done`
(10_state.md R25), the arrays, the environment, the position, the calls placed and not yet taken, the
last result and the log. -/
structure State where
  params : Params
  banks : List Bank
  seq : Sequencer
  initDone : Bool
  memory : Memory
  env : Env
  position : Option Position
  calls : List (List Byte)
  result : Option Result
  log : Log
  deriving DecidableEq, Repr

/-! ### Stops -/

/-- The faults. -/
inductive Fault where
  /-- A bus access at an address that is no multiple of `W` (20_memory.md R37,
  93_implementation_defined.md I21: "fault; no rule issues one"). Raised by `busRead` and `busWrite`,
  only for an address operand of a bus word or a sequence run by itself. Safe. -/
  | misalignedAccess (addr : Nat)
  deriving DecidableEq, Repr

/-- The refusals: the cases the spec gives no meaning (00_scope.md R14, 93_implementation_defined.md
part 1). All are safe: a claim may become unprovable, none becomes wrongly provable. -/
inductive Refusal where
  /-- An instruction without a meaning yet. Raised by exec only. Safe. -/
  | notModelled (mnemonic : String)
  /-- The bytes placed as a call are no call: I19, 30_encoding.md R66. Raised by step. Safe. -/
  | badCall (e : DecodeError)
  /-- The parameters are not well formed, or detection produced a range that overlaps another bank's
  or reaches `2 ^ ADDR_WIDTH`: I20, 00_scope.md R9, 20_memory.md R30, 41_geometry.md R81. Safe. -/
  | illFormedConfig
  /-- `bank ≥ NUM_BANKS`: I19, 30_encoding.md R65. Safe. -/
  | noSuchBank
  /-- A second caller while an operation runs: I16, 60_exceptions.md R125. Safe. -/
  | busy
  /-- A second `flash_init`: I18, 43_facade.md R105. Safe. -/
  | secondInit
  /-- A part of identification run after `flash_init` returned or on a bank already known: 10_state.md
  R20, 40_identification.md R72 and R80. Safe. -/
  | identificationClosed
  /-- `write_buff` with `len ≠` length of `src`: I19, 30_encoding.md R65. Safe. -/
  | lengthMismatch
  /-- A bus access outside the bank's window: I1, 20_memory.md R33. Safe. -/
  | outsideWindow
  /-- A word or sequence of one command-set variant on a bank of the other: I2, 40_identification.md
  R80. Safe. -/
  | variantMixed
  /-- A buffered program on a bank without a buffer: I22, 42_sequencer.md R101. Safe. -/
  | noBuffer
  /-- A sector index or address that names no sector of the bank, in a sequence whose operands are
  sectors of the bank: 42_sequencer.md R94 to R102. Safe. -/
  | noSuchSector
  /-- Operands outside the range a sequence states for them: 42_sequencer.md R100, 43_facade.md R108.
  Safe. -/
  | badOperands
  /-- The timer did not keep its laws: I13, 60_exceptions.md R123. No state of this model reaches it. -/
  | unfairTimer
  deriving DecidableEq, Repr

/-! ### Reset -/

/-- The state at launch under parameters `p`: 10_state.md R19, R23, R25 and 70_reset_and_hazards.md
R128. The environment's values and the array are the platform's; the values here are DESIGN CHOICE
(log 5, 6, 7, 8, 11), unsafe for a claim about this state only. -/
def State.atReset (p : Params) : State where
  params := p
  banks := p.bankBase.map Bank.atReset
  seq := Sequencer.atReset
  initDone := false
  memory := []
  env := { ie := false, timer := 0, busInput := [], timerInput := [], resetIn := none, draws := 0 }
  position := none
  calls := []
  result := none
  log := { trace := [], smTrace := [] }

/-- The machine right after reset, under the parameters of the spec's vectors (log 3). -/
def State.reset : State := State.atReset Params.vectors

end Sys2Proof.Machine
end

