-- ==== Sys2Proof/Machine/Memory.lean ====
section
/-! DEFINITION. The arrays `M_b` (20_memory.md R43, R44): one byte per bus address, kept as a list of
cells in one canonical form. -/

namespace Sys2Proof.Machine

/-- What an address that no cell lists reads as. The content at launch is a draw (20_memory.md R43).
DESIGN CHOICE 0xFF, an erased array (log 6): unsafe for a claim about a run from the reset state; a
claim about every state covers every content. -/
def unlistedByte : Byte := 0xFF

/-- The byte at an address. -/
def Memory.read : Memory → Nat → Byte
  | [], _ => unlistedByte
  | (k, v) :: m, a => if a = k then v else Memory.read m a

/-- A cell put in front, unless it says what an unlisted address reads as. -/
def Memory.cons (a : Nat) (v : Byte) (m : Memory) : Memory :=
  if v = unlistedByte then m else (a, v) :: m

/-- One byte written. -/
def Memory.write : Memory → Nat → Byte → Memory
  | [], a, v => Memory.cons a v []
  | (k, x) :: m, a, v =>
    if a < k then Memory.cons a v ((k, x) :: m)
    else if a = k then Memory.cons a v m
    else (k, x) :: Memory.write m a v

/-- Bytes written from address `a` upward. -/
def Memory.writeBytes : Memory → Nat → List Byte → Memory
  | m, _, [] => m
  | m, a, v :: vs => Memory.writeBytes (Memory.write m a v) (a + 1) vs

/-- The `n` bytes from address `a` upward. -/
def Memory.readBytes (m : Memory) (a : Nat) : Nat → List Byte
  | 0 => []
  | n + 1 => Memory.read m a :: Memory.readBytes m (a + 1) n

/-- Every byte of `[a, a + n)` becomes 0xFF (20_memory.md R44, an Erase that ends in `Done`). -/
def Memory.eraseRange (m : Memory) (a n : Nat) : Memory :=
  if unlistedByte = 0xFF then m.filter fun c => decide (c.1 < a ∨ a + n ≤ c.1)
  else Memory.writeBytes m a (List.replicate n 0xFF)

/-- Every byte of `[a, a + n)` becomes a draw (20_memory.md R44, a sequence that ends in `TimedOut` or
`HardwareError`). `k` is the draw. -/
def Memory.drawRange (k : Nat) : Memory → Nat → Nat → Memory
  | m, _, 0 => m
  | m, a, n + 1 => Memory.drawRange k (Memory.write m a (Config.freeByte k a)) (a + 1) n

/-- The canonical form: addresses strictly rising, no cell that says what an unlisted address reads
as. -/
def Memory.wf (m : Memory) : Bool :=
  decide (m.Pairwise fun x y => x.1 < y.1) && m.all fun c => c.2 != unlistedByte

end Sys2Proof.Machine
end

