-- ==== Sys2Proof/Machine/Operands.lean ====
section
/-! DEFINITION. Widths, lanes, addresses, sector extents, byte order and the readers of query and
identification words: 00_scope.md R9 to R11, 10_state.md R22, 20_memory.md R30 and R35,
30_encoding.md R51, R52, R58, R59. -/

namespace Sys2Proof.Machine

/-! ### Widths and lanes -/

/-- `MUX`, the mux ratio (00_scope.md R11). -/
def mux (p : PortWidth) (c : ChipWidth) : Nat := p.bits / c.bits

/-- The data lines of a port as a mask: `2 ^ PW - 1`. -/
def portMask : PortWidth → Word
  | .w8 => 0xFF
  | .w16 => 0xFFFF
  | .w32 => 0xFFFFFFFF

/-- The part of a word that a port of this width carries. DEDUCED (log 16): a port word is a number
below `2 ^ PW` (R11), its bits are the data lines (20_memory.md R34). -/
def toPort (p : PortWidth) (v : Word) : Word := v &&& portMask p

/-- `replicate(v, PW, CWb)`, the sum of `v << (k * CWb)` over the lanes (30_encoding.md R52). -/
def replicate (v : Byte) (p : PortWidth) (c : ChipWidth) : Word :=
  (List.range (mux p c)).foldl (fun acc k => acc + (v.setWidth 32 <<< (k * c.bits))) 0

/-- Bits `[7:0]` of lane `k` (00_scope.md R11, 30_encoding.md R55). -/
def laneByte (c : ChipWidth) (k : Nat) (w : Word) : Byte := (w >>> (k * c.bits)).setWidth 8

/-- Byte `j` of a word, counted from the least significant. -/
def byteOf (j : Nat) (w : Word) : Byte := (w >>> (8 * j)).setWidth 8

/-- The byte a query read yields (30_encoding.md R58). -/
def queryByteOf (p : PortWidth) : LaneOrder → Word → Byte
  | .le, w => byteOf 0 w
  | .be, w => byteOf (p.bytes - 1) w

/-- The code an identification read yields (30_encoding.md R59). -/
def idValueOf (p : PortWidth) : ChipWidth → LaneOrder → Word → ChipId
  | .w8, .le, w => (byteOf 0 w).setWidth 16
  | .w8, .be, w => (byteOf (p.bytes - 1) w).setWidth 16
  | .w16, .le, w => byteOf 1 w ++ byteOf 0 w
  | .w16, .be, w => byteOf (p.bytes - 2) w ++ byteOf (p.bytes - 1) w

/-! ### Byte order of data words -/

/-- The word whose bytes, least significant first, are these. -/
def leWord : List Byte → Word
  | [] => 0
  | b :: bs => b.setWidth 32 ||| (leWord bs <<< 8)

/-- `word_of(B)` (20_memory.md R35). -/
def wordOf : ByteOrder → List Byte → Word
  | .little, bs => leWord bs
  | .big, bs => leWord bs.reverse

/-- `bytes_of(v)` at a port of `n` bytes (20_memory.md R35). -/
def bytesOf (o : ByteOrder) (n : Nat) (v : Word) : List Byte :=
  let le := (List.range n).map fun j => byteOf j v
  match o with
  | .little => le
  | .big => le.reverse

/-! ### Commands -/

/-- The byte of a command under the parameter `CMD` (30_encoding.md R53). -/
def commandByte (t : CommandBytes) : Command → Byte
  | .readId => t.readId
  | .cfiQuery => t.cfiQuery
  | .resetIntel => t.resetIntel
  | .clearStatus => t.clearStatus
  | .blockErase => t.blockErase
  | .eraseConfirm => t.eraseConfirm
  | .resume => t.resume
  | .program => t.program
  | .writeToBuffer => t.writeToBuffer
  | .bufferConfirm => t.bufferConfirm
  | .lockSetup => t.lockSetup
  | .lockSet => t.lockSet
  | .lockClear => t.lockClear
  | .resetAmd => t.resetAmd
  | .unlock1 => t.unlock1
  | .unlock2 => t.unlock2
  | .eraseSetup => t.eraseSetup
  | .sectorErase => t.sectorErase
  | .amdProgram => t.amdProgram

/-- The reset-to-read-array command of a variant (30_encoding.md R53). -/
def resetCommand : CmdSet → Option Command
  | .intelStyle => some .resetIntel
  | .amdStyle => some .resetAmd
  | .none => none

/-- The writes of a reset to read-array (30_encoding.md R53): the variant's own command; while no
command set is selected, `RESET_AMD` then `RESET_INTEL`. -/
def resetWords : CmdSet → List Command
  | .intelStyle => [.resetIntel]
  | .amdStyle => [.resetAmd]
  | .none => [.resetAmd, .resetIntel]

/-- The mode a write leaves the devices in (20_memory.md R42): `ReadArray` after a reset to read-array,
`Command` after any other write. `c` is the command written, `none` for a count or data word. A reset is
the bank's own reset command, or `RESET_INTEL` right after `RESET_AMD`: the two writes of 30_encoding.md
R53, after which 40_identification.md R70 has `ReadArray` whatever the command set (log 12). -/
def modeAfter (cs : CmdSet) (afterResetAmd : Bool) (c : Option Command) : DeviceMode :=
  match c with
  | none => .command
  | some c =>
    if resetCommand cs = some c ∨ (afterResetAmd = true ∧ c = .resetIntel) then .readArray
    else .command

/-- The devices of a bank of command set `cs` after a write: their mode is a function of the write
history alone (20_memory.md R42). -/
def deviceAfter (cs : CmdSet) (d : Device) (c : Option Command) : Device :=
  { d with
    mode := modeAfter cs d.afterResetAmd c
    afterResetAmd := decide (c = some .resetAmd) }

/-! ### The bank's addresses -/

/-- The command offsets every bank must have room for (00_scope.md R9: `0x556`). -/
def commandSpan : Nat := 0x556

/-- The highest command offsets that identification and the AMD-style sequences use (30_encoding.md
R54, R61, 40_identification.md R71 to R74, 41_geometry.md R81: 255 descriptors of 4 bytes). -/
def commandOffsets (p : Params) : List Nat :=
  [p.amdUnlockOff1, p.amdUnlockOff2, p.cfi.query, p.cfi.qry + 2, p.cfi.primaryId + 1,
    p.cfi.wordTyp, p.cfi.bufferTyp, p.cfi.eraseTyp, p.cfi.wordMax, p.cfi.bufferMax, p.cfi.eraseMax,
    p.cfi.bufferExp + 1, p.cfi.regionCount, p.cfi.regions + 4 * 255 - 1]

/-- Command offsets below this one belong to the bank's window (20_memory.md R33: "a command offset of
the bank base"): those R9 makes room for, and any the parameters place higher (log 18). -/
def windowSpan (p : Params) : Nat := (commandOffsets p).foldl (fun m o => max m (o + 1)) commandSpan

/-- `W` of a bank. -/
def Bank.bytes (bk : Bank) : Nat := bk.portWidth.bytes

/-- `R(v)` of a bank (00_scope.md R12). -/
def Bank.rep (bk : Bank) (v : Byte) : Word := replicate v bk.portWidth bk.chipWidth

/-- `MUX` of a bank. -/
def Bank.mux (bk : Bank) : Nat := Machine.mux bk.portWidth bk.chipWidth

/-- `sector_count`. -/
def Bank.sectorCount (bk : Bank) : Nat := bk.sectors.length

/-- `make_base_addr(bank, off)` (20_memory.md R30). -/
def Bank.baseAddr (bk : Bank) (off : Nat) : Nat := bk.baseAddress + off * bk.bytes

/-- `start_i`; the bank's end for an index past the table. -/
def Bank.sectorStart (bk : Bank) (i : Nat) : Nat :=
  match bk.sectors[i]? with
  | some s => s.startAddress
  | none => bk.baseAddress + bk.size

/-- `end_i`, the end of the extent of sector `i` (10_state.md R22): the next sector's start, or the
bank's end for the last one. -/
def Bank.sectorEnd (bk : Bank) (i : Nat) : Nat := bk.sectorStart (i + 1)

/-- `make_addr(bank, sector, off)` (20_memory.md R30). -/
def Bank.makeAddr (bk : Bank) (i off : Nat) : Nat := bk.sectorStart i + off * bk.bytes

/-- `sectors[i].protected`. -/
def Bank.sectorProtected (bk : Bank) (i : Nat) : Bool :=
  match bk.sectors[i]? with
  | some s => s.isProtected
  | none => false

/-- `sector_of(a)`: the index whose extent holds `a` (42_sequencer.md, 10_state.md R22). -/
def Bank.sectorOf (bk : Bank) (a : Nat) : Option Nat :=
  (List.range bk.sectorCount).find? fun i => decide (bk.sectorStart i ≤ a ∧ a < bk.sectorEnd i)

/-- The `n` bytes at `a` lie in the bank's array `[base, base + size)` (20_memory.md R43). -/
def Bank.inArray (bk : Bank) (a n : Nat) : Bool :=
  decide (bk.baseAddress ≤ a ∧ a + n ≤ bk.baseAddress + bk.size)

/-- The bank's window (20_memory.md R33): its array and the command offsets of its base. -/
def Bank.inWindow (p : Params) (bk : Bank) (a : Nat) : Bool :=
  bk.inArray a bk.bytes ||
    decide (bk.baseAddress ≤ a ∧ a < bk.baseAddress + windowSpan p * bk.bytes)

/-- Two detected ranges have no byte in common (00_scope.md R9); a bank of size 0 has none. -/
def rangesDisjoint (x y : Bank) : Bool :=
  decide (x.size = 0 ∨ y.size = 0 ∨ x.baseAddress + x.size ≤ y.baseAddress ∨
    y.baseAddress + y.size ≤ x.baseAddress)

/-- `sectors[i].protected <- v`. -/
def Bank.setProtected (bk : Bank) (i : Nat) (v : Bool) : Bank :=
  match bk.sectors[i]? with
  | some s => { bk with sectors := bk.sectors.set i { s with isProtected := v } }
  | none => bk

/-! ### The parameters -/

/-- `PortWidth` in increasing order. -/
def portLe (p q : PortWidth) : Bool := decide (p.bits ≤ q.bits)

/-- A legacy entry within the ranges of 30_encoding.md R64. -/
def legacyEntryWf (e : LegacyEntry) : Bool :=
  e.vendor != .unknown && e.cmdset != .none && decide (1 ≤ e.sectorCount) &&
    decide (128 ≤ e.uniformSectorSize) && decide (e.uniformSectorSize % 128 = 0)

/-- The static part of a well-formed configuration. 00_scope.md R9: at least one bank; bases that are
multiples of 4 and leave room for command offset 0x555. 20_memory.md R30: no command offset of the
parameters reaches `2 ^ ADDR_WIDTH`. Beyond these only the values the parameters can have (00_scope.md
R8, log 29): `MAX_SECTORS` at least 1, timeouts of 32 bits (10_state.md R19), legacy entries as
30_encoding.md R64 has them, manufacturer codes of a vendor tag (40_identification.md R78), a buffer
whose count fits the count word (30_encoding.md R52). That detected ranges do not overlap or pass the
address space is checked where they are detected (`storeTable`). -/
def paramsWf (p : Params) : Bool :=
  decide (1 ≤ p.bankBase.length) &&
  p.bankBase.all (fun a => decide (a % 4 = 0) && decide (a + commandSpan * 4 < addrLimit) &&
    (commandOffsets p).all fun o => decide (a + o * 4 < addrLimit)) &&
  decide (1 ≤ p.maxSectors) &&
  decide (p.defaultEraseTimeoutMs < addrLimit) && decide (p.defaultWriteTimeoutMs < addrLimit) &&
  decide (p.defaultBufferWriteTimeoutMs < addrLimit) &&
  p.legacyTable.all legacyEntryWf &&
  p.mfrCodes.all (fun e => e.2 != .unknown) &&
  decide (p.maxBufferWords ≤ 256)

end Sys2Proof.Machine
end

