-- ==== Sys2Proof/Machine/Flags.lean ====
section
/-! DEFINITION. The status words (30_encoding.md R55 to R57), the result codes (60_exceptions.md R114
to R116) and the timeout kinds (42_sequencer.md R91). The block keeps no condition code (10_state.md
R26): these are all the status there is. -/

namespace Sys2Proof.Machine

/-- `done_I(s)` (30_encoding.md R56): READY set in every lane. -/
def doneIntel (st : StatusBits) (p : PortWidth) (c : ChipWidth) (w : Word) : Bool :=
  (w &&& replicate st.ready p c) == replicate st.ready p c

/-- `done_A(prev, s)` (30_encoding.md R56): no toggle bit changed in any lane. -/
def doneAmd (mask : Byte) (p : PortWidth) (c : ChipWidth) (prev w : Word) : Bool :=
  ((prev ^^^ w) &&& replicate mask p c) == 0

/-- The sub-kind of one lane's status byte (30_encoding.md R57, steps 1 to 6). -/
def laneError (st : StatusBits) (l : Byte) : Option SubKind :=
  if l &&& (st.eraseErr ||| st.progErr) = st.eraseErr ||| st.progErr then some .commandSequence
  else if l &&& st.eraseErr ≠ 0 then some .eraseOrLockBit
  else if l &&& st.progErr ≠ 0 then some .locking
  else if l &&& st.locked ≠ 0 then some .eraseOrLockBit
  else if l &&& st.vppLow ≠ 0 then some .vppLow
  else none

/-- The order in which a word's sub-kind is chosen among its lanes' (30_encoding.md R57). -/
def subKindOrder : List SubKind := [.commandSequence, .eraseOrLockBit, .locking, .vppLow]

/-- The sub-kind of a whole status word (30_encoding.md R57): the first of the order that any lane
has. -/
def wordError (st : StatusBits) (p : PortWidth) (c : ChipWidth) (w : Word) : Option SubKind :=
  let lanes := (List.range (mux p c)).map fun k => laneError st (laneByte c k w)
  subKindOrder.find? fun sub => lanes.contains (some sub)

/-- The Intel-style reading of a status word: completion, then the error decode. -/
def intelVerdict (st : StatusBits) (p : PortWidth) (c : ChipWidth) (w : Word) : Verdict :=
  if doneIntel st p c w then
    match wordError st p c w with
    | some sub => .error sub
    | none => .done
  else .notDone

/-- The AMD-style reading of two consecutive status words: no error bit is decoded (R57). -/
def amdVerdict (mask : Byte) (p : PortWidth) (c : ChipWidth) (prev w : Word) : Verdict :=
  if doneAmd mask p c prev w then .done else .notDone

/-- What a poll of this bank reads off a status word (42_sequencer.md R89). A bank without a command
set has no done pattern. -/
def pollVerdict (p : Params) (bk : Bank) (prev w : Word) : Verdict :=
  match bk.cmdset with
  | .intelStyle => intelVerdict p.status bk.portWidth bk.chipWidth w
  | .amdStyle => amdVerdict p.amdToggleMask bk.portWidth bk.chipWidth prev w
  | .none => .notDone

/-- What PollReady reads off a status word (42_sequencer.md R90): ready or not, no error bits. -/
def readyVerdict (p : Params) (bk : Bank) (_prev w : Word) : Verdict :=
  if doneIntel p.status bk.portWidth bk.chipWidth w then .done else .notDone

/-- The kind a poll reports on expiry (42_sequencer.md R91). -/
def kindOfTimeout : TimeoutKind → Kind
  | .erase => .eraseTimeout
  | .program => .programTimeout
  | .bufferWrite => .bufferWriteTimeout
  | .protect => .protectTimeout

/-- The code of a result kind (60_exceptions.md R114). -/
def kindCode : Kind → Nat
  | .ok => 0
  | .unknownDevice => 1
  | .invalidSectorRange => 2
  | .protectedSector => 3
  | .notErased _ => 4
  | .eraseTimeout => 5
  | .programTimeout => 6
  | .bufferWriteTimeout => 7
  | .protectTimeout => 8
  | .hardwareError _ => 9

/-- The code of a sub-kind (60_exceptions.md R115). -/
def subKindCode : SubKind → Nat
  | .commandSequence => 0
  | .eraseOrLockBit => 1
  | .locking => 2
  | .vppLow => 3

/-- The public status code of a kind (60_exceptions.md R116): `Ok` 0, `Timeout` 1, `NotErased` 2,
`Invalid` 3. `ProtectedSector` is never a failure result (R114); as a warning it is inside `Ok`. -/
def publicCode : Kind → Nat
  | .ok => 0
  | .protectedSector => 0
  | .eraseTimeout => 1
  | .programTimeout => 1
  | .bufferWriteTimeout => 1
  | .protectTimeout => 1
  | .notErased _ => 2
  | .unknownDevice => 3
  | .invalidSectorRange => 3
  | .hardwareError _ => 3

/-- The `ProtectedSector` warning of an erase (43_facade.md R107, 60_exceptions.md R117): reported,
with its count, when sectors were skipped. -/
def warningOf : Result → Option (Kind × Nat)
  | .erase _ _ skipped => if 0 < skipped then some (.protectedSector, skipped) else none
  | _ => none

end Sys2Proof.Machine
end

