-- ==== Sys2Proof/Machine/Ops.lean ====
section
/-! DEFINITION. The shared operations: how operations are strung together, the micro-step and the
system reset, bus reads and writes, the timer, the interrupt-masked window, the array's changes, the
device lock bits, and how a call starts and returns its result (60_exceptions.md R118: an error is a
returned result; the block takes no trap). -/

namespace Sys2Proof.Machine

/-- What a piece of an operation ends in: a value and a state; the state a system reset left, which
ends the operation with no result (70_reset_and_hazards.md R129); a fault; a refusal. -/
inductive Res (α : Type) where
  | ok (a : α) (s : State)
  | reset (s : State)
  | fault (f : Fault)
  | refused (r : Refusal)

/-- The next piece, run where the first one ended. -/
def Res.bind {α β : Type} (r : Res α) (k : α → State → Res β) : Res β :=
  match r with
  | .ok a s => k a s
  | .reset s => .reset s
  | .fault f => .fault f
  | .refused e => .refused e

/-! ### Registers -/

/-- Bank `b`. Every operation runs only after `onBank` has seen that there is one. -/
def State.bank (s : State) (b : Nat) : Bank := (s.banks[b]?).getD (Bank.atReset 0)

/-- Bank `b` replaced. -/
def State.setBank (s : State) (b : Nat) (bk : Bank) : State :=
  { s with banks := s.banks.set b bk }

/-- `sm_state <- x` (10_state.md R23). -/
def State.setSm (s : State) (x : SmState) : State :=
  { s with seq := { s.seq with smState := x }, log := { s.log with smTrace := s.log.smTrace ++ [x] } }

/-- `poll_addr` and `poll_budget` written (42_sequencer.md R89). -/
def State.setPoll (s : State) (a budget : Nat) : State :=
  { s with seq := { s.seq with pollAddr := a, pollBudget := budget } }

/-- `poll_start <- t` (42_sequencer.md R89). -/
def State.setPollStart (s : State) (t : Nat) : State :=
  { s with seq := { s.seq with pollStart := t } }

/-- `poll_prev <- w` (42_sequencer.md R89). -/
def State.setPollPrev (s : State) (w : Word) : State :=
  { s with seq := { s.seq with pollPrev := w } }

/-- The environment replaced. -/
def State.setEnv (s : State) (e : Env) : State := { s with env := e }

/-- `init_done <- true` (43_facade.md R105). -/
def State.setInitDone (s : State) : State := { s with initDone := true }

/-- One more event of the bus trace (00_scope.md R13). -/
def State.note (s : State) (e : BusEvent) : State :=
  { s with log := { s.log with trace := s.log.trace ++ [e] } }

/-- The devices of bank `b` replaced. -/
def State.setDevice (s : State) (b : Nat) (d : Device) : State :=
  s.setBank b { s.bank b with device := d }

/-- The devices' lock bits of bank `b`. -/
def State.setLocks (s : State) (b : Nat) (l : List Bool) : State :=
  s.setDevice b { (s.bank b).device with lockBits := l }

/-- The arrays replaced. -/
def State.setMemory (s : State) (m : Memory) : State := { s with memory := m }

/-- One free value has been drawn. -/
def State.drawn (s : State) : State := { s with env := { s.env with draws := s.env.draws + 1 } }

/-- The byte range the running sequence addresses (70_reset_and_hazards.md R129). -/
def State.setRange (s : State) (r : Option (Nat × Nat)) : State :=
  { s with position := s.position.map fun p => { p with range := r } }

/-- The position after one micro-step (10_state.md R18). -/
def State.advance (s : State) : State :=
  { s with position := s.position.map fun p => { p with step := p.step + 1 } }

/-! ### Device lock bits (10_state.md R28, 70_reset_and_hazards.md R133; log 10) -/

/-- `n` lock bits left open (93_implementation_defined.md I9). -/
def freeLocks (k b n : Nat) : List Bool := (List.range n).map fun i => Config.freeLock k b i

/-- Every lock bit of bank `b` becomes a draw. -/
def State.drawLocks (s : State) (b : Nat) : State :=
  (s.setLocks b (freeLocks s.env.draws b (s.bank b).sectorCount)).drawn

/-- Every lock bit of bank `b` but that of sector `i` becomes a draw, and that one becomes `v`. -/
def State.drawLocksBut (s : State) (b i : Nat) (v : Bool) : State :=
  (s.setLocks b ((freeLocks s.env.draws b (s.bank b).sectorCount).set i v)).drawn

/-- A lock register with one bit a sector: the one on record, or draws where there is none. The spec
gives no bits of a bank that identification has found and no probe has read (10_state.md R28). DESIGN
CHOICE (log 10): a free value each. -/
def State.openLocks (s : State) (b : Nat) : State :=
  if (s.bank b).device.lockBits.length = (s.bank b).sectorCount then s else s.drawLocks b

/-- The lock bit of sector `i` becomes a draw. -/
def State.drawLock (s : State) (b i : Nat) : State :=
  (s.setLocks b ((s.bank b).device.lockBits.set i (Config.freeLock s.env.draws b i))).drawn

/-! ### System reset (70_reset_and_hazards.md R127 to R129) -/

/-- A bank after a system reset: the reset values (R128); its devices' lock bits are not the block's
and stay. -/
def Bank.afterReset (bk : Bank) : Bank :=
  { Bank.atReset bk.baseAddress with
    device := { mode := .readArray, lockBits := bk.device.lockBits } }

/-- A system reset with no operation running (R128): every register of the block takes its reset
value; the array, `IE`, the timer and what the environment holds ready stay. So do the calls the host has
placed and the block has not taken, which run after the reset: the spec has no such queue. DESIGN CHOICE
(log 2, 11): the calls are the host's. -/
def State.systemReset (s : State) : State :=
  { s with
    banks := s.banks.map Bank.afterReset
    seq := Sequencer.atReset
    initDone := false
    env := { s.env with resetIn := none }
    position := none
    result := none }

/-- The lock bits of a bank whose devices a reset may have caught: draws, but for an AMD-style bank,
which has none (R129). -/
def Bank.interrupted (k b : Nat) (bk : Bank) : Bank :=
  if bk.cmdset = .amdStyle then bk
  else { bk with
    device := { bk.device with lockBits := freeLocks k b bk.device.lockBits.length } }

/-- A system reset while an operation runs (R129): the bytes of the range the interrupted sequence
addresses and the lock bits become draws, then the reset as above, which keeps the calls not yet taken
(log 2, 11). -/
def State.interruptedReset (s : State) : State :=
  let m := match s.position.bind Position.range with
    | some (a, n) => Memory.drawRange s.env.draws s.memory a n
    | none => s.memory
  ({ s with
    memory := m
    banks := s.banks.mapIdx (Bank.interrupted (s.env.draws + 1))
    env := { s.env with draws := s.env.draws + 2 } }).systemReset

/-- One micro-step (10_state.md R18): the position advances, unless the platform asserts system reset
here (log 11). -/
def microStep (s : State) : Res Unit :=
  match s.env.resetIn with
  | some 0 => .reset s.interruptedReset
  | some (n + 1) => .ok () (s.setEnv { s.env with resetIn := some n }).advance
  | none => .ok () s.advance

/-! ### Bus (20_memory.md R32, R33, R42, R43) -/

/-- A port word drawn by the environment (00_scope.md R12): the next answer the devices have ready,
else a free value (log 7). -/
def drawWord (p : PortWidth) (s : State) : Word × State :=
  match s.env.busInput with
  | w :: ws => (toPort p w, s.setEnv { s.env with busInput := ws })
  | [] => (toPort p (Config.freeRead s.env.draws), s.drawn)

/-- What a read of bank `b` at `a` returns (20_memory.md R43): array data in `ReadArray` mode, a draw
in `Command` mode and where the array has no byte (log 17). -/
def answer (b a : Nat) (s : State) : Word × State :=
  let bk := s.bank b
  if bk.device.mode = .readArray ∧ bk.inArray a bk.bytes = true then
    (wordOf s.params.hostByteOrder (Memory.readBytes s.memory a bk.bytes), s)
  else drawWord bk.portWidth s

/-- `BusRead(a)` on bank `b` (00_scope.md R12, 20_memory.md R32). The spec gives no order of its two stops,
the fault at a misaligned address (R37, 93_implementation_defined.md I21) and the refusal outside the
bank's window (R33, I1). DESIGN CHOICE (log 31): alignment is tested first. -/
def busRead (b a : Nat) (s : State) : Res Word :=
  if a % (s.bank b).bytes ≠ 0 then .fault (.misalignedAccess a)
  else if (s.bank b).inWindow s.params a = false then .refused .outsideWindow
  else (microStep s).bind fun _ s =>
    .ok (answer b a s).1 ((answer b a s).2.note (.read a (answer b a s).1))

/-- `BusWrite(a, v)` on bank `b` (00_scope.md R12, 20_memory.md R32), of the command `c` or of a count
or data word, which moves the devices as 20_memory.md R42 has it. DESIGN CHOICE (log 31): a misaligned
address faults outside the window too. -/
def busWrite (b a : Nat) (v : Word) (c : Option Command) (s : State) : Res Unit :=
  if a % (s.bank b).bytes ≠ 0 then .fault (.misalignedAccess a)
  else if (s.bank b).inWindow s.params a = false then .refused .outsideWindow
  else (microStep s).bind fun _ s =>
    .ok () ((s.setDevice b (deviceAfter (s.bank b).cmdset (s.bank b).device c)).note (.write a v))

/-- The port word of a command on bank `b`: `R(CMD)` (30_encoding.md R51 to R53). -/
def State.commandWord (s : State) (b : Nat) (c : Command) : Word :=
  (s.bank b).rep (commandByte s.params.cmd c)

/-- A command word written at `a`. -/
def writeCommand (b a : Nat) (c : Command) (s : State) : Res Unit :=
  busWrite b a (s.commandWord b c) (some c) s

/-- A count word written at `a`: `R(n - 1)` (30_encoding.md R52, 42_sequencer.md R100). -/
def writeCount (b a : Nat) (nMinusOne : Byte) (s : State) : Res Unit :=
  busWrite b a ((s.bank b).rep nMinusOne) none s

/-- A data word written at `a` as given (20_memory.md R32). -/
def writeData (b a : Nat) (d : Word) (s : State) : Res Unit :=
  busWrite b a (toPort (s.bank b).portWidth d) none s

/-- Command words written in order. -/
def writeCommands (b : Nat) : List (Nat × Command) → State → Res Unit
  | [], s => .ok () s
  | (a, c) :: cs, s => (writeCommand b a c s).bind fun _ s => writeCommands b cs s

/-- The command words that open a sequence: the first one moves `sm_state` to `CommandIssued`
(42_sequencer.md R88). -/
def issue (b : Nat) : List (Nat × Command) → State → Res Unit
  | [], s => .ok () s
  | (a, c) :: cs, s =>
    (writeCommand b a c s).bind fun _ s => writeCommands b cs (s.setSm .commandIssued)

/-- Data words written at ascending word addresses. -/
def writeDataFrom (b : Nat) : Nat → List Word → State → Res Unit
  | _, [], s => .ok () s
  | a, d :: ds, s =>
    (writeData b a d s).bind fun _ s => writeDataFrom b (a + (s.bank b).bytes) ds s

/-- `n` port words read at ascending word addresses. -/
def readWords (b : Nat) : Nat → Nat → State → Res (List Word)
  | _, 0, s => .ok [] s
  | a, n + 1, s =>
    (busRead b a s).bind fun w s =>
    (readWords b (a + (s.bank b).bytes) n s).bind fun ws s => .ok (w :: ws) s

/-! ### Timer (60_exceptions.md R123) -/

/-- The environment moves the timer on: by the next advance it has ready, which may be 0, else by at
least one millisecond. So reads never decrease (law 1), no value holds forever (law 2), and nothing
else is fixed (law 3; log 8). -/
def tickTimer (s : State) : State :=
  match s.env.timerInput with
  | d :: ds => s.setEnv { s.env with timer := s.env.timer + d, timerInput := ds }
  | [] =>
    s.setEnv { s.env with
      timer := s.env.timer + 1 + Config.freeAdvance s.env.draws
      draws := s.env.draws + 1 }

/-- `Timer()` (00_scope.md R12). -/
def readTimer (s : State) : Res Nat :=
  (microStep s).bind fun _ s =>
    .ok (tickTimer s).env.timer ((tickTimer s).note (.timer (tickTimer s).env.timer))

/-! ### The interrupt-masked window (42_sequencer.md R93) -/

/-- `saved_irq <- IrqSave()`. -/
def irqSave (s : State) : State :=
  { s with
    seq := { s.seq with savedIrq := s.env.ie }
    env := { s.env with ie := false } }.note .irqOff

/-- `IrqRestore(saved_irq)`: the state saved, so interrupts that were disabled stay disabled. -/
def irqRestore (s : State) : State :=
  { s with env := { s.env with ie := s.seq.savedIrq } }.note .irqRestore

/-! ### Changes of the array (20_memory.md R44) -/

/-- The bytes of `[a, a + n)` become draws. -/
def State.drawMemory (s : State) (a n : Nat) : State :=
  (s.setMemory (Memory.drawRange s.env.draws s.memory a n)).drawn

/-- One word becomes `old & d`, where `old` is the word before (20_memory.md R44). -/
def programWordAt (o : ByteOrder) (w : Nat) (m : Memory) (a : Nat) (d : Word) : Memory :=
  Memory.writeBytes m a (bytesOf o w (wordOf o (Memory.readBytes m a w) &&& d))

/-- Words at ascending addresses become `old & d`. -/
def programWordsAt (o : ByteOrder) (w : Nat) : Memory → Nat → List Word → Memory
  | m, _, [] => m
  | m, a, d :: ds => programWordsAt o w (programWordAt o w m a d) (a + w) ds

/-- The array after a program sequence of `ds` at `a` that ended in `k`: programmed on `Done`, draws
on a timeout or a hardware error. -/
def programEffect (b a : Nat) (ds : List Word) (k : Kind) (s : State) : State :=
  let w := (s.bank b).bytes
  if k = .ok then s.setMemory (programWordsAt s.params.hostByteOrder w s.memory a ds)
  else s.drawMemory a (ds.length * w)

/-- The array after an Erase of the extent `[a, a + n)` that ended in `k`: all-ones on `Done`, draws on
a timeout or a hardware error. -/
def eraseEffect (a n : Nat) (k : Kind) (s : State) : State :=
  if k = .ok then s.setMemory (Memory.eraseRange s.memory a n) else s.drawMemory a n

/-! ### Calls -/

/-- A piece that runs with the byte range it addresses on record (70_reset_and_hazards.md R129). -/
def withRange {α : Type} (a n : Nat) (body : State → Res α) (s : State) : Res α :=
  (body (s.setRange (some (a, n)))).bind fun x s => .ok x (s.setRange none)

/-- A piece on a bank, which must exist (30_encoding.md R65). -/
def onBank {α : Type} (b : Nat) (body : State → Res α) (s : State) : Res α :=
  if b < s.banks.length then body s else .refused .noSuchBank

/-- A piece of one command-set variant, not to be run on a bank of the other (40_identification.md
R80, 93_implementation_defined.md I2). -/
def onVariant {α : Type} (b : Nat) (v : CmdSet) (body : State → Res α) (s : State) : Res α :=
  if (s.bank b).cmdset = .none ∨ (s.bank b).cmdset = v then body s else .refused .variantMixed

/-- A sequence on a bank that identification has found; on any other bank "every operation fails
immediately with `UnknownDevice` before touching hardware" (43_facade.md R113, 60_exceptions.md R114;
log 14). -/
def onKnown (b : Nat) (body : State → Res (Option Result)) (s : State) : Res (Option Result) :=
  if (s.bank b).vendorId = .unknown then .ok (some (.status .unknownDevice)) s else body s

/-- A piece with a sector of the bank as operand. -/
def onSector {α : Type} (b i : Nat) (body : State → Res α) (s : State) : Res α :=
  if i < (s.bank b).sectorCount then body s else .refused .noSuchSector

/-- A part of identification: only `flash_init`'s run of it constructs a bank, once (10_state.md
R20; log 15). -/
def beforeInit {α : Type} (body : State → Res α) (s : State) : Res α :=
  if s.initDone = true then .refused .identificationClosed else body s

/-- The state in which the body of a call starts: the position is that of the operation, no micro-step
taken (10_state.md R18). -/
def State.enter (s : State) (i : Instr) : State :=
  { s with position := some { op := i, step := 0, range := none } }

/-- The state a call returns in: no position, the result in place. -/
def State.leave (s : State) (r : Option Result) : State := { s with position := none, result := r }

/-- One call, run to its result (60_exceptions.md R118, R119, R125): refused while another operation
runs and under an ill-formed configuration (00_scope.md R14); the position is set on entry and none on
return, when the result is in place. A system reset ends the call with no result (R129). -/
def call (i : Instr) (body : State → Res (Option Result)) (s : State) :
    Host.Outcome State Fault Refusal :=
  if s.position ≠ none then .refused .busy
  else if paramsWf s.params = false then .refused .illFormedConfig
  else
    match body (s.enter i) with
    | .ok r s' => .next (s'.leave r)
    | .reset s' => .next s'
    | .fault f => .fault f
    | .refused r => .refused r

end Sys2Proof.Machine
end

