-- ==== Sys2Proof/Machine/Sequencer.lean ====
section
/-! DEFINITION. The Status State Machine (42_sequencer.md): reset to read-array, the poller, erase,
single-word and buffered program, protect; and the meanings of their rows. -/

namespace Sys2Proof.Machine

/-! ### Reset to read-array (R87) -/

/-- `BankReset(b, A)` (R87). While no command set is selected the reset is both writes
(30_encoding.md R53; log 21). -/
def bankReset (b a : Nat) (s : State) : Res Unit :=
  (writeCommands b ((resetWords (s.bank b).cmdset).map fun c => (a, c)) s).bind fun _ s =>
    .ok () (s.setSm .idle)

/-! ### The status poller (R89 to R91) -/

/-- How the loop of a poll ends. -/
inductive PollEnd where
  /-- a status word was not `notDone` -/
  | answered (v : Verdict)
  /-- the budget was exceeded -/
  | expired
  deriving DecidableEq, Repr

/-- Entry to a poll (R89): `sm_state`, the poll registers, the start time, and on an AMD-style bank
the first toggle reference. -/
def pollEnter (b a budget : Nat) (s : State) : Res Unit :=
  let s := s.setSm .polling
  (readTimer (s.setPoll a budget)).bind fun t s =>
  let s := s.setPollStart t
  if (s.bank b).cmdset = .amdStyle then
    (busRead b s.seq.pollAddr s).bind fun w s =>
      .ok () (s.setPollPrev w)
  else .ok () s

/-- The loop of a poll (R89): the status read first, then the timer test, which is strict. `test` reads
a verdict off the previous and the new status word. The first argument bounds the iterations; the
timer's laws keep it from running out (`pollFuel`). -/
def pollLoop (test : Word → Word → Verdict) (b : Nat) : Nat → State → Res PollEnd
  | 0, _ => .refused .unfairTimer
  | fuel + 1, s =>
    (busRead b s.seq.pollAddr s).bind fun w s =>
    match test s.seq.pollPrev w with
    | .notDone =>
      (readTimer s).bind fun t s =>
      if s.seq.pollBudget < t - s.seq.pollStart then .ok .expired s
      else pollLoop test b fuel (s.setPollPrev w)
    | v => .ok (.answered v) s

/-- More iterations than a poll can take: one for each advance the environment has ready, which may be
0, and then each read moves the timer on by at least one millisecond (60_exceptions.md R123). -/
def pollFuel (s : State) : Nat := s.env.timerInput.length + s.seq.pollBudget + 2

/-- The end of a poll that leaves the device in read-array mode (R89). -/
def pollExit (b a : Nat) (x : SmState) (k : Kind) (s : State) : Res Kind :=
  (bankReset b a (s.setSm x)).bind fun _ s => .ok k s

/-- `Poll(b, A, budget, tkind)` (R89). -/
def poll (b a budget : Nat) (tkind : Kind) (s : State) : Res Kind :=
  (pollEnter b a budget s).bind fun _ s =>
  (pollLoop (pollVerdict s.params (s.bank b)) b (pollFuel s) s).bind fun e s =>
  match e with
  | .answered (.error sub) => pollExit b a .hardwareError (.hardwareError sub) s
  | .answered _ => pollExit b a .done .ok s
  | .expired => pollExit b a .timedOut tkind s

/-- `PollReady(b, A, budget)` (R90): true is `Ready`; on expiry the device has been reset and the kind
is `BufferWriteTimeout`. The entry is that of Poll with `cmdset = IntelStyle`: no toggle reference. -/
def pollReady (b a budget : Nat) (s : State) : Res Bool :=
  let s := s.setSm .polling
  (readTimer (s.setPoll a budget)).bind fun t s =>
  let s := s.setPollStart t
  (pollLoop (readyVerdict s.params (s.bank b)) b (pollFuel s) s).bind fun e s =>
  match e with
  | .answered _ => .ok true (s.setSm .commandIssued)
  | .expired => (pollExit b a .timedOut .bufferWriteTimeout s).bind fun _ s => .ok false s

/-! ### Erase (R94 to R96) -/

/-- The lock bits after the Intel-style lock gate of sector `i` (93_implementation_defined.md I9,
91_not_in_source.md N9): the sector's is clear when the gate succeeded, every other one is a draw. -/
def gateLocks (b i : Nat) (k : Kind) (s : State) : State :=
  if k = .ok then s.drawLocksBut b i false else s.drawLocks b

/-- The command writes of the lock gate (30_encoding.md R54). -/
def gateWrites (a : Nat) : List (Nat × Command) :=
  [(a, .resetIntel), (a, .clearStatus), (a, .lockSetup), (a, .lockClear)]

/-- The command writes of an Intel-style block erase (30_encoding.md R54). -/
def blockEraseWrites (a : Nat) (withResume : Bool) : List (Nat × Command) :=
  [(a, .clearStatus), (a, .blockErase), (a, .eraseConfirm)] ++
    if withResume then [(a, .resume)] else []

/-- `EraseIntel(b, i)` (R94) up to its effect on the array. -/
def eraseIntelSteps (b i : Nat) (s : State) : Res Kind :=
  let a := (s.bank b).sectorStart i
  let budget := (s.bank b).eraseTimeout
  let withResume := (s.bank b).resumeAfterErase
  (issue b (gateWrites a) s).bind fun _ s =>
  (poll b a budget .eraseTimeout s).bind fun r s =>
  let s := gateLocks b i r s
  if r ≠ .ok then .ok r s
  else
    (issue b (blockEraseWrites a withResume) s).bind fun _ s =>
    poll b a budget .eraseTimeout s

/-- The AMD-style unlock prefix followed by a command at the first unlock offset (30_encoding.md
R54). -/
def amdPrefix (p : Params) (bk : Bank) (c : Command) : List (Nat × Command) :=
  [(bk.baseAddr p.amdUnlockOff1, .unlock1), (bk.baseAddr p.amdUnlockOff2, .unlock2),
    (bk.baseAddr p.amdUnlockOff1, c)]

/-- The command writes of an AMD-style sector erase (30_encoding.md R54). -/
def amdEraseWrites (p : Params) (bk : Bank) (a : Nat) : List (Nat × Command) :=
  amdPrefix p bk .eraseSetup ++
    [(bk.baseAddr p.amdUnlockOff1, .unlock1), (bk.baseAddr p.amdUnlockOff2, .unlock2),
      (a, .sectorErase)]

/-- `EraseAmd(b, i)` (R95) up to its effect on the array. -/
def eraseAmdSteps (b i : Nat) (s : State) : Res Kind :=
  let a := (s.bank b).sectorStart i
  (issue b (amdEraseWrites s.params (s.bank b) a) s).bind fun _ s =>
  poll b a (s.bank b).eraseTimeout .eraseTimeout s

/-- A sequence that erases the extent of sector `i`, with its effect on the array (20_memory.md R44). -/
def erasing (b i : Nat) (steps : State → Res Kind) (s : State) : Res Kind :=
  let a := (s.bank b).sectorStart i
  let n := (s.bank b).sectorEnd i - a
  withRange a n (fun s => (steps s).bind fun r s => .ok r (eraseEffect a n r s)) s

/-- `EraseIntel(b, i)` (R94). No flag changes (R96). -/
def eraseIntel (b i : Nat) (s : State) : Res Kind := erasing b i (eraseIntelSteps b i) s

/-- `EraseAmd(b, i)` (R95). No flag changes (R96). -/
def eraseAmd (b i : Nat) (s : State) : Res Kind := erasing b i (eraseAmdSteps b i) s

/-- `Erase(b, i)` of the bank's variant (40_identification.md R80). -/
def erase (b i : Nat) (s : State) : Res Kind :=
  match (s.bank b).cmdset with
  | .intelStyle => eraseIntel b i s
  | .amdStyle => eraseAmd b i s
  | .none => .refused .variantMixed

/-! ### Single-word program (R97 to R99) -/

/-- The precondition (R97): `(old & d) = d`. R98 contradicts itself on a word of all ones: its corner case
and vector PW-3 pass it for any `old`, its pseudocode, R97 and 'old = 0 and d ≠ 0 fail' do not. DESIGN
CHOICE (log 32): no exception is made for it, so it passes over an erased word only. -/
def programmable (old d : Word) : Bool := (old &&& d) == d

/-- The tail of a single-word program inside its masked window (R93): the command writes, the data
write, the restore, the poll. -/
def programSteps (b a : Nat) (d : Word) (cmds : List (Nat × Command)) (pollAt : Nat) (s : State) :
    Res Kind :=
  (issue b cmds (irqSave s)).bind fun _ s =>
  (writeData b a d s).bind fun _ s =>
  poll b pollAt (s.bank b).writeTimeout .programTimeout (irqRestore s)

/-- A single-word program (R97): the precondition read, then the sequence and its effect on the array
(20_memory.md R44). `steps` is given the sector's index. -/
def programming (b a : Nat) (d : Word) (steps : Nat → State → Res Kind) (s : State) : Res Kind :=
  match (s.bank b).sectorOf a with
  | none => .refused .noSuchSector
  | some i =>
    withRange a (s.bank b).bytes (fun s =>
      (busRead b a s).bind fun old s =>
      if programmable old d = false then .ok (.notErased a) s
      else (steps i s).bind fun r s => .ok r (programEffect b a [d] r s)) s

/-- `ProgramWordIntel(b, a, d)` (R98): commands and poll at the sector's start. -/
def programWordIntel (b a : Nat) (d : Word) (s : State) : Res Kind :=
  programming b a d (fun i s =>
    let base := (s.bank b).sectorStart i
    programSteps b a d [(base, .clearStatus), (base, .program)] base s) s

/-- `ProgramWordAmd(b, a, d)` (R99): unlock cycles at the bank's offsets, poll at the data address. -/
def programWordAmd (b a : Nat) (d : Word) (s : State) : Res Kind :=
  programming b a d (fun _ s =>
    programSteps b a d (amdPrefix s.params (s.bank b) .amdProgram) a s) s

/-- `ProgramWord(b, a, d)` of the bank's variant (40_identification.md R80). -/
def programWord (b a : Nat) (d : Word) (s : State) : Res Kind :=
  match (s.bank b).cmdset with
  | .intelStyle => programWordIntel b a d s
  | .amdStyle => programWordAmd b a d s
  | .none => .refused .variantMixed

/-! ### Buffered program (R100, R101) -/

/-- The address of the first word that fails the precondition (R100). -/
def firstNotErased (w : Nat) : Nat → List Word → List Word → Option Nat
  | a, old :: olds, d :: ds =>
    if programmable old d = false then some a else firstNotErased w (a + w) olds ds
  | _, _, _ => none

/-- The operands R100 asks for: at least one word, no more than the buffer holds, all inside one
sector and one buffer window. -/
def bufferFits (bk : Bank) (a n i : Nat) : Bool :=
  decide (1 ≤ n) && decide (n * bk.bytes ≤ bk.bufferSize) &&
  decide (a + n * bk.bytes ≤ bk.sectorEnd i) &&
  decide ((a - bk.baseAddress) % bk.bufferSize + n * bk.bytes ≤ bk.bufferSize)

/-- The sequence of R100 inside its masked window (R93). The restore follows `BUFFER_CONFIRM`, or the
reset of a ready poll that expired. -/
def bufferSteps (b a : Nat) (ds : List Word) (base : Nat) (s : State) : Res Kind :=
  let budget := (s.bank b).bufferWriteTimeout
  (issue b [(base, .writeToBuffer)] (irqSave s)).bind fun _ s =>
  (pollReady b base budget s).bind fun isReady s =>
  if isReady = false then .ok .bufferWriteTimeout (irqRestore s)
  else
    (writeCount b base (BitVec.ofNat 8 (ds.length - 1)) s).bind fun _ s =>
    (writeDataFrom b a ds s).bind fun _ s =>
    (writeCommand b base .bufferConfirm s).bind fun _ s =>
    poll b base budget .bufferWriteTimeout (irqRestore s)

/-- `ProgramBufferIntel(b, a, d[0..n-1])` (R100): every word is read, then checked in order, before any
command. On an AMD-style bank, and on one without a buffer, "A call would be refused" (R101). -/
def programBufferIntel (b a : Nat) (ds : List Word) (s : State) : Res Kind :=
  if (s.bank b).bufferSize = 0 ∨ (s.bank b).cmdset = .amdStyle then .refused .noBuffer
  else
    match (s.bank b).sectorOf a with
    | none => .refused .noSuchSector
    | some i =>
      if bufferFits (s.bank b) a ds.length i = false then .refused .badOperands
      else
        withRange a (ds.length * (s.bank b).bytes) (fun s =>
          (readWords b a ds.length s).bind fun olds s =>
          match firstNotErased (s.bank b).bytes a olds ds with
          | some bad => .ok (.notErased bad) s
          | none =>
            (bufferSteps b a ds ((s.bank b).sectorStart i) s).bind fun r s =>
              .ok r (programEffect b a ds r s)) s

/-! ### Protect (R102, R103) -/

/-- The lock bits after a Protect of sector `i` that ended in `k` (10_state.md R28,
70_reset_and_hazards.md R133; log 10): a lock sets the sector's bit, an unlock clears the whole
register, and what a failed one leaves is a draw. A lock on a bank whose register no probe has read
starts from draws (`State.openLocks`). -/
def protectLocks (b i : Nat) (lock : Bool) (k : Kind) (s : State) : State :=
  if lock then
    let s := s.openLocks b
    if k = .ok then s.setLocks b ((s.bank b).device.lockBits.set i true) else s.drawLock b i
  else if k = .ok then s.setLocks b (List.replicate (s.bank b).sectorCount false)
  else s.drawLocks b

/-- `sectors[i].protected <- lock`, on `Done` only (R102). -/
def protectFlag (b i : Nat) (lock : Bool) (k : Kind) (s : State) : State :=
  if k = .ok then s.setBank b ((s.bank b).setProtected i lock) else s

/-- `ProtectIntel(b, i, lock)` (R102). -/
def protectIntel (b i : Nat) (lock : Bool) (s : State) : Res Kind :=
  let a := (s.bank b).sectorStart i
  let budget := (s.bank b).eraseTimeout
  (issue b [(a, .clearStatus), (a, .lockSetup), (a, if lock then .lockSet else .lockClear)] s).bind
    fun _ s =>
  (poll b a budget .protectTimeout s).bind fun r s =>
    .ok r (protectFlag b i lock r (protectLocks b i lock r s))

/-- `ProtectAmd(b, i, lock)` (R103): the flag only, no bus access. -/
def protectAmd (b i : Nat) (lock : Bool) (s : State) : Res Kind :=
  .ok .ok (s.setBank b ((s.bank b).setProtected i lock))

/-- `Protect(b, i, lock)` of the bank's variant (40_identification.md R80). -/
def protect (b i : Nat) (lock : Bool) (s : State) : Res Kind :=
  match (s.bank b).cmdset with
  | .intelStyle => protectIntel b i lock s
  | .amdStyle => protectAmd b i lock s
  | .none => .refused .variantMixed

/-! ### The rows -/

/-- A sequencer operation's result as the call's result (R104). -/
def asStatus (r : Res Kind) : Res (Option Result) := r.bind fun k s => .ok (some (.status k)) s

/-- BankReset, R87. -/
def execBankReset (b a : Nat) (s : State) : Host.Outcome State Fault Refusal :=
  call (.bankReset b a) (onBank b fun s => (bankReset b a s).bind fun _ s => .ok none s) s

/-- Poll, R89. -/
def execPoll (b a budget : Nat) (kind : TimeoutKind) (s : State) :
    Host.Outcome State Fault Refusal :=
  call (.poll b a budget kind) (onBank b fun s =>
    asStatus (poll b a budget (kindOfTimeout kind) s)) s

/-- PollReady, R90. -/
def execPollReady (b a budget : Nat) (s : State) : Host.Outcome State Fault Refusal :=
  call (.pollReady b a budget) (onBank b (onVariant b .intelStyle fun s =>
    (pollReady b a budget s).bind fun isReady s =>
      .ok (some (if isReady then .ready else .status .bufferWriteTimeout)) s)) s

/-- EraseIntel, R94. -/
def execEraseIntel (b i : Nat) (s : State) : Host.Outcome State Fault Refusal :=
  call (.eraseIntel b i) (onBank b (onKnown b (onVariant b .intelStyle (onSector b i fun s =>
    asStatus (eraseIntel b i s))))) s

/-- EraseAmd, R95. -/
def execEraseAmd (b i : Nat) (s : State) : Host.Outcome State Fault Refusal :=
  call (.eraseAmd b i) (onBank b (onKnown b (onVariant b .amdStyle (onSector b i fun s =>
    asStatus (eraseAmd b i s))))) s

/-- ProgramWordIntel, R98. -/
def execProgramWordIntel (b a : Nat) (d : Word) (s : State) : Host.Outcome State Fault Refusal :=
  call (.programWordIntel b a d) (onBank b (onKnown b (onVariant b .intelStyle fun s =>
    asStatus (programWordIntel b a (toPort (s.bank b).portWidth d) s)))) s

/-- ProgramWordAmd, R99. -/
def execProgramWordAmd (b a : Nat) (d : Word) (s : State) : Host.Outcome State Fault Refusal :=
  call (.programWordAmd b a d) (onBank b (onKnown b (onVariant b .amdStyle fun s =>
    asStatus (programWordAmd b a (toPort (s.bank b).portWidth d) s)))) s

/-- ProgramBufferIntel, R100 and R101. -/
def execProgramBufferIntel (b a : Nat) (ds : List Word) (s : State) :
    Host.Outcome State Fault Refusal :=
  call (.programBufferIntel b a ds) (onBank b (onKnown b (onVariant b .intelStyle fun s =>
    asStatus (programBufferIntel b a (ds.map (toPort (s.bank b).portWidth)) s)))) s

/-- ProtectIntel, R102. -/
def execProtectIntel (b i : Nat) (lock : Bool) (s : State) : Host.Outcome State Fault Refusal :=
  call (.protectIntel b i lock) (onBank b (onKnown b (onVariant b .intelStyle (onSector b i fun s =>
    asStatus (protectIntel b i lock s))))) s

/-- ProtectAmd, R103. -/
def execProtectAmd (b i : Nat) (lock : Bool) (s : State) : Host.Outcome State Fault Refusal :=
  call (.protectAmd b i lock) (onBank b (onKnown b (onVariant b .amdStyle (onSector b i fun s =>
    asStatus (protectAmd b i lock s))))) s

end Sys2Proof.Machine
end

