-- ==== Sys2Proof/Machine/Geometry.lean ====
section
/-! DEFINITION. The Geometry Decoder and the protection probe (41_geometry.md), the readers of the CFI
table (30_encoding.md R58 to R63), the identification reset and read-ID entry (40_identification.md
R70, R71); and the meanings of their rows. -/

namespace Sys2Proof.Machine

/-! ### Identification writes and readers -/

/-- `IdentReset(b)` (R70): both reset commands at the base; afterwards the mode is `ReadArray`
(`modeAfter`). -/
def identReset (b : Nat) (s : State) : Res Unit :=
  writeCommands b [((s.bank b).baseAddress, .resetAmd), ((s.bank b).baseAddress, .resetIntel)] s

/-- `ReadIdEnter(b)` (R71). -/
def readIdEnter (b : Nat) (s : State) : Res Unit :=
  writeCommands b (amdPrefix s.params (s.bank b) .readId) s

/-- `query_byte(b, off)` (30_encoding.md R58). -/
def queryByte (b off : Nat) (s : State) : Res Byte :=
  (busRead b ((s.bank b).baseAddr off) s).bind fun w s =>
    .ok (queryByteOf (s.bank b).portWidth (s.bank b).laneOrder w) s

/-- `id_value(b, off)` (30_encoding.md R59). -/
def idValue (b off : Nat) (s : State) : Res ChipId :=
  (busRead b ((s.bank b).baseAddr off) s).bind fun w s =>
    .ok (idValueOf (s.bank b).portWidth (s.bank b).chipWidth (s.bank b).laneOrder w) s

/-- `cfi_u16(b, off)` (30_encoding.md R60). -/
def cfiU16 (b off : Nat) (s : State) : Res Nat :=
  (queryByte b off s).bind fun lo s =>
  (queryByte b (off + 1) s).bind fun hi s => .ok (hi ++ lo : BitVec 16).toNat s

/-- The manufacturer and device codes, read in ID mode: `id_value(b, 0)`, then `id_value(b, 1)`. -/
def readIds (b : Nat) (s : State) : Res (ChipId × ChipId) :=
  (idValue b 0 s).bind fun m s => (idValue b 1 s).bind fun d s => .ok (m, d) s

/-! ### Timeouts and buffer size -/

/-- `2 ^ 32 - 1`, where a timeout saturates (30_encoding.md R63). -/
def timeoutMax : Nat := 4294967295

/-- A CFI timeout in milliseconds (30_encoding.md R63, `norm_ms` and `norm_us` of R81). -/
def normTimeout (u : TimeUnit) (typ max : Nat) : Nat :=
  match u with
  | .ms => min (2 ^ (typ + max)) timeoutMax
  | .us => min ((2 ^ (typ + max) + 999) / 1000) timeoutMax

/-- `buffer_bytes(bexp)` (R84). -/
def bufferBytes (p : Params) (bk : Bank) (bexp : Nat) : Nat :=
  if bk.cmdset = .amdStyle ∨ bexp = 0 ∨ 16 ≤ bexp ∨ 2 ^ bexp * bk.mux < bk.bytes then 0
  else min (2 ^ bexp * bk.mux) (p.maxBufferWords * bk.bytes)

/-! ### Sector tables -/

/-- `n` sectors of `size` bytes from `addr` upward, unprotected. -/
def sectorRun (addr size : Nat) : Nat → List Sector
  | 0 => []
  | n + 1 => { startAddress := addr, isProtected := false } :: sectorRun (addr + size) size n

/-- A sector table laid out: the sectors, the address after the last one, and whether sectors were
left out (R83). -/
structure Table where
  sectors : List Sector
  endAddr : Nat
  truncated : Bool
  deriving DecidableEq, Repr

/-- The per-chip block size of a region code (30_encoding.md R62). -/
def blockBytes (code : Nat) : Nat := if code = 0 then 128 else code * 256

/-- The walk over the regions `(sector_count_minus_1, region_size_code)` in the order stored (R81).
`room` is how many entries the table still holds: `MAX_SECTORS` at the start. -/
def layRegions (mux : Nat) : (room addr : Nat) → List (Nat × Nat) → Table
  | _, addr, [] => { sectors := [], endAddr := addr, truncated := false }
  | room, addr, (cm1, code) :: rs =>
    let size := blockBytes code * mux
    let n := min (cm1 + 1) room
    let rest := layRegions mux (room - n) (addr + n * size) rs
    { sectors := sectorRun addr size n ++ rest.sectors
      endAddr := rest.endAddr
      truncated := decide (n < cm1 + 1) || rest.truncated }

/-- The bank with a sector table, sized by what was retained (R82), the warning counted (R83). -/
def Bank.withTable (bk : Bank) (t : Table) : Bank :=
  { bk with
    sectors := t.sectors
    size := t.endAddr - bk.baseAddress
    truncationWarnings := bk.truncationWarnings + if t.truncated then 1 else 0 }

/-- The range of `bk`, to be that of bank `b`, has no byte of another bank's detected range
(00_scope.md R9). -/
def State.fitsBeside (s : State) (b : Nat) (bk : Bank) : Bool :=
  (List.range s.banks.length).all fun c => c == b || rangesDisjoint bk (s.bank c)

/-- The table is stored if the bank's detected range stays below `2 ^ ADDR_WIDTH` and overlaps no other
bank's; otherwise the configuration is refused (00_scope.md R9, R81; log 22). -/
def storeTable (b : Nat) (t : Table) (finish : Bank → Bank) (s : State) : Res Unit :=
  let bk := finish ((s.bank b).withTable t)
  if t.endAddr < addrLimit ∧ s.fitsBeside b bk = true then .ok () (s.setBank b bk)
  else .refused .illFormedConfig

/-! ### CFI variant (R81) -/

/-- The region descriptors from command offset `off`, `n` of them (30_encoding.md R62). -/
def readRegions (b : Nat) : (off n : Nat) → State → Res (List (Nat × Nat))
  | _, 0, s => .ok [] s
  | off, n + 1, s =>
    (cfiU16 b off s).bind fun cm1 s =>
    (cfiU16 b (off + 2) s).bind fun code s =>
    (readRegions b (off + 4) n s).bind fun rs s => .ok ((cm1, code) :: rs) s

/-- What DecodeCFI reads (R81): exponents, buffer exponent, regions. -/
structure CfiFields where
  tw : Byte
  tb : Byte
  te : Byte
  mw : Byte
  mb : Byte
  me : Byte
  bexp : Nat
  regions : List (Nat × Nat)
  deriving DecidableEq, Repr

/-- The reads of DecodeCFI, in order (R81). -/
def readCfiFields (b : Nat) (s : State) : Res CfiFields :=
  let cfi := s.params.cfi
  (queryByte b cfi.wordTyp s).bind fun tw s =>
  (queryByte b cfi.bufferTyp s).bind fun tb s =>
  (queryByte b cfi.eraseTyp s).bind fun te s =>
  (queryByte b cfi.wordMax s).bind fun mw s =>
  (queryByte b cfi.bufferMax s).bind fun mb s =>
  (queryByte b cfi.eraseMax s).bind fun me s =>
  (cfiU16 b cfi.bufferExp s).bind fun bexp s =>
  (queryByte b cfi.regionCount s).bind fun n s =>
  (readRegions b cfi.regions n.toNat s).bind fun regions s =>
    .ok { tw, tb, te, mw, mb, me, bexp, regions } s

/-- The timeouts and the buffer size DecodeCFI writes (R81, R84). -/
def Bank.withCfi (p : Params) (f : CfiFields) (bk : Bank) : Bank :=
  { bk with
    eraseTimeout := normTimeout p.cfi.eraseUnit f.te.toNat f.me.toNat
    writeTimeout := normTimeout p.cfi.wordUnit f.tw.toNat f.mw.toNat
    bufferWriteTimeout := normTimeout p.cfi.bufferUnit f.tb.toNat f.mb.toNat
    bufferSize := bufferBytes p bk f.bexp }

/-- The table of a CFI bank. -/
def cfiTable (p : Params) (bk : Bank) (f : CfiFields) : Table :=
  layRegions bk.mux p.maxSectors bk.baseAddress f.regions

/-- `DecodeCFI(b)` (R81). -/
def decodeCfi (b : Nat) (s : State) : Res Unit :=
  (readCfiFields b s).bind fun f s =>
    storeTable b (cfiTable s.params (s.bank b) f) (Bank.withCfi s.params f) s

/-! ### Legacy variant (R85) -/

/-- The entry of `LEGACY_ID_TABLE` for a pair of codes, matched exactly (30_encoding.md R64). -/
def legacyEntry (p : Params) (m d : ChipId) : Option LegacyEntry :=
  p.legacyTable.find? fun e => e.mfrId == m && e.deviceId == d

/-- The table of a legacy bank: uniform sectors, as many as the table holds (R85). -/
def legacyTableOf (p : Params) (bk : Bank) (e : LegacyEntry) : Table :=
  let size := e.uniformSectorSize * bk.mux
  let n := min e.sectorCount p.maxSectors
  { sectors := sectorRun bk.baseAddress size n
    endAddr := bk.baseAddress + n * size
    truncated := decide (p.maxSectors < e.sectorCount) }

/-- The timeouts and the buffer size DecodeLegacy writes (R85). -/
def Bank.withLegacy (p : Params) (bk : Bank) : Bank :=
  { bk with
    eraseTimeout := p.defaultEraseTimeoutMs
    writeTimeout := p.defaultWriteTimeoutMs
    bufferWriteTimeout := p.defaultBufferWriteTimeoutMs
    bufferSize := 0 }

/-- `DecodeLegacy(b)` with its entry (R85). -/
def decodeLegacy (b : Nat) (e : LegacyEntry) (s : State) : Res Unit :=
  storeTable b (legacyTableOf s.params (s.bank b) e) (Bank.withLegacy s.params) s

/-! ### Protection probe (R86) -/

/-- The lock reads of the probe, sector `i` upward, `n` of them. -/
def probeSectors (b : Nat) : (i n : Nat) → State → Res Unit
  | _, 0, s => .ok () s
  | i, n + 1, s =>
    (busRead b ((s.bank b).makeAddr i s.params.protectOffset) s).bind fun w s =>
    probeSectors b (i + 1) n
      (s.setBank b ((s.bank b).setProtected i
        ((w &&& (s.bank b).rep s.params.protectBit) != 0)))

/-- The lock register of an Intel-style bank is what the probe has just read (10_state.md R28; log
10). -/
def probeLocks (b : Nat) (s : State) : State :=
  if (s.bank b).cmdset = .intelStyle then
    s.setLocks b ((s.bank b).sectors.map Sector.isProtected)
  else s

/-- `ProbeProtection(b)` (R86). -/
def probeProtection (b : Nat) (s : State) : Res Unit :=
  if (s.bank b).sectorCount = 0 then .ok () s
  else
    (readIdEnter b s).bind fun _ s =>
    (probeSectors b 0 (s.bank b).sectorCount s).bind fun _ s =>
    bankReset b (s.bank b).baseAddress (probeLocks b s)

/-! ### The rows -/

/-- A piece that returns nothing to its caller. -/
def asNothing (r : Res Unit) : Res (Option Result) := r.bind fun _ s => .ok none s

/-- IdentReset, R70. -/
def execIdentReset (b : Nat) (s : State) : Host.Outcome State Fault Refusal :=
  call (.identReset b) (onBank b fun s => asNothing (identReset b s)) s

/-- ReadIdEnter, R71. -/
def execReadIdEnter (b : Nat) (s : State) : Host.Outcome State Fault Refusal :=
  call (.readIdEnter b) (onBank b fun s => asNothing (readIdEnter b s)) s

/-- DecodeCFI, R81, on a bank whose command set is already set (log 14, 15). -/
def execDecodeCfi (b : Nat) (s : State) : Host.Outcome State Fault Refusal :=
  call (.decodeCfi b) (onBank b (beforeInit (onKnown b fun s => asNothing (decodeCfi b s)))) s

/-- DecodeLegacy, R85, on the entry of the codes of a known bank (log 14, 15); a pair that is not in
the table "does not match" (30_encoding.md R66; log 28). -/
def execDecodeLegacy (b : Nat) (s : State) : Host.Outcome State Fault Refusal :=
  call (.decodeLegacy b) (onBank b (beforeInit (onKnown b fun s =>
    match legacyEntry s.params (s.bank b).mfrId (s.bank b).deviceId with
    | some e => (decodeLegacy b e s).bind fun _ s => .ok (some (.ident true)) s
    | none => .ok (some (.ident false)) s))) s

/-- ProbeProtection, R86: "bank `b` with `vendor_id ≠ Unknown`" (log 14, 15). -/
def execProbeProtection (b : Nat) (s : State) : Host.Outcome State Fault Refusal :=
  call (.probeProtection b)
    (onBank b (beforeInit (onKnown b fun s => asNothing (probeProtection b s)))) s

end Sys2Proof.Machine
end

