-- ==== Sys2Proof/Machine/Identification.lean ====
section
/-! DEFINITION. Chip identification (40_identification.md): the width pairs, one pass, IdentCFI,
IdentLegacy, Identify; and the meanings of their rows. -/

namespace Sys2Proof.Machine

/-- The candidate width pairs in order (R69). -/
def allPairs : List (PortWidth × ChipWidth) :=
  [(.w8, .w8), (.w16, .w8), (.w16, .w16), (.w32, .w8), (.w32, .w16)]

/-- The pairs tried: those whose port is not narrower than `MIN_PORT_WIDTH` (R69). -/
def candidates (least : PortWidth) : List (PortWidth × ChipWidth) :=
  allPairs.filter fun pc => portLe least pc.1

/-- The command set of a CFI primary id (30_encoding.md R61, R74). -/
def cmdsetOfPrimary (cfi : CfiLayout) (pid : Nat) : CmdSet :=
  if cfi.intelIds.contains pid then .intelStyle
  else if cfi.amdIds.contains pid then .amdStyle
  else .none

/-- `vendor_of(m, cs)` (R78). -/
def vendorOf (p : Params) (m : ChipId) (cs : CmdSet) : VendorId :=
  match p.mfrCodes.find? fun e => e.1 == m with
  | some e => e.2
  | none => if cs = .amdStyle then .amd else .intel

/-- The erase resume capability (R79). -/
def resumeCapable (p : Params) (cs : CmdSet) (d : ChipId) : Bool :=
  cs == .intelStyle && !p.noResumeDevices.contains d

/-- What IdentCFI writes once the codes are read (R74). -/
def Bank.asCfi (p : Params) (cs : CmdSet) (m d : ChipId) (bk : Bank) : Bank :=
  { bk with
    mfrId := m
    deviceId := d
    vendorId := vendorOf p m cs
    geometryPath := .cfi
    resumeAfterErase := resumeCapable p cs d }

/-- What IdentLegacy writes before DecodeLegacy (R75). -/
def Bank.asLegacy (p : Params) (e : LegacyEntry) (m d : ChipId) (bk : Bank) : Bank :=
  { bk with
    vendorId := e.vendor
    cmdset := e.cmdset
    mfrId := m
    deviceId := d
    geometryPath := .legacy
    resumeAfterErase := resumeCapable p e.cmdset d }

/-- `IdentCFI(b)` (R74), with the device in query mode: true is accepted. A rejected bank is written
nothing. -/
def identCfi (b : Nat) (s : State) : Res Bool :=
  (cfiU16 b s.params.cfi.primaryId s).bind fun pid s =>
  let cs := cmdsetOfPrimary s.params.cfi pid
  if cs = .none then .ok false s
  else
    (decodeCfi b (s.setBank b { s.bank b with cmdset := cs })).bind fun _ s =>
    (identReset b s).bind fun _ s =>
    (readIdEnter b s).bind fun _ s =>
    (readIds b s).bind fun ids s =>
    (identReset b s).bind fun _ s =>
      .ok true (s.setBank b (Bank.asCfi s.params cs ids.1 ids.2 (s.bank b)))

/-- `IdentLegacy(b, m, d)` with its entry (R75). -/
def identLegacy (b : Nat) (e : LegacyEntry) (m d : ChipId) (s : State) : Res Unit :=
  decodeLegacy b e (s.setBank b (Bank.asLegacy s.params e m d (s.bank b)))

/-- How one pass over a width pair ends (R72). -/
inductive PassEnd where
  /-- the bank is identified -/
  | accepted
  /-- both response bytes are non-zero: the other lane order is worth trying (R76) -/
  | flip
  /-- nothing answers at this pair -/
  | next
  deriving DecidableEq, Repr

/-- The CFI half of a pass (R72, R73): true when IdentCFI accepted the bank. -/
def cfiHalf (b : Nat) (s : State) : Res Bool :=
  (identReset b s).bind fun _ s =>
  (writeCommand b ((s.bank b).baseAddr s.params.cfi.query) .cfiQuery s).bind fun _ s =>
  (queryByte b s.params.cfi.qry s).bind fun q0 s =>
  (queryByte b (s.params.cfi.qry + 1) s).bind fun q1 s =>
  (queryByte b (s.params.cfi.qry + 2) s).bind fun q2 s =>
  if q0 = 0x51 ∧ q1 = 0x52 ∧ q2 = 0x59 then identCfi b s else .ok false s

/-- The read-ID half of a pass (R72, R75, R76). -/
def legacyHalf (b : Nat) (s : State) : Res PassEnd :=
  (identReset b s).bind fun _ s =>
  (readIdEnter b s).bind fun _ s =>
  (readIds b s).bind fun ids s =>
  match legacyEntry s.params ids.1 ids.2 with
  | some e =>
    (identLegacy b e ids.1 ids.2 s).bind fun _ s =>
    (identReset b s).bind fun _ s => .ok .accepted s
  | none => .ok (if ids.1 ≠ 0 ∧ ids.2 ≠ 0 then .flip else .next) s

/-- One pass at the bank's widths and lane order (R72). -/
def identPass (b : Nat) (s : State) : Res PassEnd :=
  (cfiHalf b s).bind fun isCfi s => if isCfi then .ok .accepted s else legacyHalf b s

/-- `port_width`, `chip_width` and `lane_order` of a pass. -/
def Bank.atWidths (p : PortWidth) (c : ChipWidth) (o : LaneOrder) (bk : Bank) : Bank :=
  { bk with portWidth := p, chipWidth := c, laneOrder := o }

/-- The passes over one width pair, at most two (R76): true when the bank is identified. -/
def tryPair (b : Nat) (p : PortWidth) (c : ChipWidth) (s : State) : Res Bool :=
  (identPass b (s.setBank b (Bank.atWidths p c .le (s.bank b)))).bind fun e s =>
  match e with
  | .accepted => .ok true s
  | .next => .ok false s
  | .flip =>
    (identPass b (s.setBank b (Bank.atWidths p c .be (s.bank b)))).bind fun e s =>
      .ok (decide (e = .accepted)) s

/-- The pairs in order until one identifies the bank (R72). -/
def tryPairs (b : Nat) : List (PortWidth × ChipWidth) → State → Res Bool
  | [], s => .ok false s
  | (p, c) :: rest, s =>
    (tryPair b p c s).bind fun found s => if found then .ok true s else tryPairs b rest s

/-- The outcome when no pair succeeds (R72, R77). -/
def Bank.unidentified (bk : Bank) : Bank :=
  { bk with vendorId := .unknown, cmdset := .none, geometryPath := .none, sectors := [], size := 0 }

/-- `Identify(b)` (R72). -/
def identify (b : Nat) (s : State) : Res Unit :=
  (tryPairs b (candidates s.params.minPortWidth) s).bind fun found s =>
  if found then .ok () s
  else (identReset b s).bind fun _ s => .ok () (s.setBank b (s.bank b).unidentified)

/-! ### The rows -/

/-- A part of identification on a bank still `Unknown` (R72, R80; log 15). -/
def onUnknown {α : Type} (b : Nat) (body : State → Res α) (s : State) : Res α :=
  if (s.bank b).vendorId = .unknown then body s else .refused .identificationClosed

/-- Identify, R72. -/
def execIdentify (b : Nat) (s : State) : Host.Outcome State Fault Refusal :=
  call (.identify b) (onBank b (beforeInit (onUnknown b fun s => asNothing (identify b s)))) s

/-- IdentCFI, R74. -/
def execIdentCfi (b : Nat) (s : State) : Host.Outcome State Fault Refusal :=
  call (.identCfi b) (onBank b (beforeInit (onUnknown b fun s =>
    (identCfi b s).bind fun accepted s => .ok (some (.ident accepted)) s))) s

/-- IdentLegacy, R75; a pair that is not in the table "does not match" (30_encoding.md R66; log 28). -/
def execIdentLegacy (b : Nat) (m d : ChipId) (s : State) : Host.Outcome State Fault Refusal :=
  call (.identLegacy b m d) (onBank b (beforeInit (onUnknown b fun s =>
    match legacyEntry s.params m d with
    | some e => (identLegacy b e m d s).bind fun _ s => .ok (some (.ident true)) s
    | none => .ok (some (.ident false)) s))) s

end Sys2Proof.Machine
end

