-- ==== Sys2Proof/Machine/Facade.lean ====
section
/-! DEFINITION. The Bank Facade (43_facade.md): the six host operations, WriteMerged and
ProtectSector, and their meanings. -/

namespace Sys2Proof.Machine

/-! ### flash_init (R105) -/

/-- One bank of `flash_init`: Identify, and the probe if a device was found. A bank that an Identify
row has made known before is not identified again: R72 runs on a bank still `Unknown`, and its command
set is fixed for its lifetime (40_identification.md R80, 10_state.md R21; log 15). -/
def initBank (b : Nat) (s : State) : Res Unit :=
  (if (s.bank b).vendorId = .unknown then identify b s else .ok () s).bind fun _ s =>
  if (s.bank b).vendorId = .unknown then .ok () s else probeProtection b s

/-- The banks from `b` upward, `n` of them, in index order. -/
def initBanks : (b n : Nat) → State → Res Unit
  | _, 0, s => .ok () s
  | b, n + 1, s => (initBank b s).bind fun _ s => initBanks (b + 1) n s

/-- The sum of the bank sizes; an Unknown bank contributes 0. -/
def totalSize (bks : List Bank) : Nat := (bks.map Bank.size).sum

/-- `flash_init()` (R105). -/
def flashInit (s : State) : Res (Option Result) :=
  if s.initDone = true then .refused .secondInit
  else
    (initBanks 0 s.banks.length s).bind fun _ s =>
      .ok (some (.total (totalSize s.banks))) s.setInitDone

/-! ### flash_erase (R107) -/

/-- The sectors from `i` upward, `n` of them, in ascending order: the status, the sectors erased and
the sectors skipped, on top of those already counted. -/
def eraseSectors (b : Nat) : (i n erased skipped : Nat) → State → Res (Kind × Nat × Nat)
  | _, 0, erased, skipped, s => .ok (.ok, erased, skipped) s
  | i, n + 1, erased, skipped, s =>
    if (s.bank b).sectorProtected i = true then eraseSectors b (i + 1) n erased (skipped + 1) s
    else
      (erase b i s).bind fun r s =>
      if r ≠ .ok then .ok (r, erased, skipped) s
      else eraseSectors b (i + 1) n (erased + 1) skipped s

/-- `flash_erase(b, first, last)` (R107). -/
def flashErase (b first last : Nat) (s : State) : Res (Option Result) :=
  if (s.bank b).vendorId = .unknown then .ok (some (.erase .unknownDevice 0 0)) s
  else if ¬ (first ≤ last ∧ last < (s.bank b).sectorCount) then
    .ok (some (.erase .invalidSectorRange 0 0)) s
  else
    (eraseSectors b first (last + 1 - first) 0 0 s).bind fun r s =>
      .ok (some (.erase r.1 r.2.1 r.2.2)) s

/-! ### write_buff (R108, R109) -/

/-- The bytes of a word with `bytes` overlaid from position `off` (R108). -/
def overlay (old : List Byte) (off : Nat) (bytes : List Byte) : List Byte :=
  old.take off ++ bytes ++ old.drop (off + bytes.length)

/-- `WriteMerged(b, wa, off, bytes)` (R108). -/
def writeMerged (b wa off : Nat) (bytes : List Byte) (s : State) : Res Kind :=
  if bytes = [] ∨ (s.bank b).bytes < off + bytes.length then .refused .badOperands
  else
    (busRead b wa s).bind fun cur s =>
    let old := bytesOf s.params.hostByteOrder (s.bank b).bytes cur
    programWord b wa (wordOf s.params.hostByteOrder (overlay old off bytes)) s

/-- The words of a byte list, `w` bytes each, `n` of them. -/
def wordsOf (o : ByteOrder) (w : Nat) : Nat → List Byte → List Word
  | 0, _ => []
  | n + 1, bs => wordOf o (bs.take w) :: wordsOf o w n (bs.drop w)

/-- The size of the next chunk of the buffered body at `p` (R109, step 2a): up to the next buffer
window, and never across a sector. -/
def chunkBytes (bk : Bank) (p : Nat) : Nat :=
  let window := bk.bufferSize - (p - bk.baseAddress) % bk.bufferSize
  match bk.sectorOf p with
  | some i => min window (bk.sectorEnd i - p)
  | none => window

/-- What a part of `write_buff` leaves: the status, and the address and bytes still to write. -/
structure Progress where
  kind : Kind
  at_ : Nat
  rest : List Byte
  deriving DecidableEq, Repr

/-- Step 1, the unaligned head (R109). -/
def writeHead (b p : Nat) (bs : List Byte) (s : State) : Res Progress :=
  let w := (s.bank b).bytes
  let off := p % w
  if off = 0 then .ok { kind := .ok, at_ := p, rest := bs } s
  else
    let k := min (w - off) bs.length
    (writeMerged b (p - off) off (bs.take k) s).bind fun r s =>
      .ok { kind := r, at_ := p + k, rest := bs.drop k } s

/-- Step 2a, the buffered body (R109). Every chunk holds at least one byte, so as many iterations as
bytes are enough; the first argument bounds them. -/
def writeBuffered (b : Nat) : (fuel p : Nat) → List Byte → State → Res Progress
  | 0, p, bs, s => .ok { kind := .ok, at_ := p, rest := bs } s
  | fuel + 1, p, bs, s =>
    let bk := s.bank b
    if bk.bufferSize = 0 ∨ bs.length < bk.bufferSize then
      .ok { kind := .ok, at_ := p, rest := bs } s
    else
      let nb := chunkBytes bk p
      (programBufferIntel b p
        (wordsOf s.params.hostByteOrder bk.bytes (nb / bk.bytes) (bs.take nb)) s).bind fun r s =>
      if r ≠ .ok then .ok { kind := r, at_ := p, rest := bs } s
      else writeBuffered b fuel (p + nb) (bs.drop nb) s

/-- Step 2b, the body word by word (R109); bounded as step 2a. -/
def writeBody (b : Nat) : (fuel p : Nat) → List Byte → State → Res Progress
  | 0, p, bs, s => .ok { kind := .ok, at_ := p, rest := bs } s
  | fuel + 1, p, bs, s =>
    let w := (s.bank b).bytes
    if bs.length < w then .ok { kind := .ok, at_ := p, rest := bs } s
    else
      (programWord b p (wordOf s.params.hostByteOrder (bs.take w)) s).bind fun r s =>
      if r ≠ .ok then .ok { kind := r, at_ := p, rest := bs } s
      else writeBody b fuel (p + w) (bs.drop w) s

/-- Step 3, the unaligned tail (R109). -/
def writeTail (b p : Nat) (bs : List Byte) (s : State) : Res Kind :=
  if bs = [] then .ok .ok s else writeMerged b p 0 bs s

/-- The steps of `write_buff` in order; the first failure ends them (R109). -/
def writeSteps (b : Nat) (src : List Byte) (dest : Nat) (s : State) : Res Kind :=
  (writeHead b dest src s).bind fun h s =>
  if h.kind ≠ .ok then .ok h.kind s
  else
    (writeBuffered b h.rest.length h.at_ h.rest s).bind fun u s =>
    if u.kind ≠ .ok then .ok u.kind s
    else
      (writeBody b u.rest.length u.at_ u.rest s).bind fun v s =>
      if v.kind ≠ .ok then .ok v.kind s
      else writeTail b v.at_ v.rest s

/-- `write_buff(b, src, dest, len)` (R109); `len ≠` length of `src` is refused (30_encoding.md
R65). -/
def writeBuff (b : Nat) (src : List Byte) (dest len : Nat) (s : State) : Res (Option Result) :=
  if len ≠ src.length then .refused .lengthMismatch
  else if (s.bank b).vendorId = .unknown then .ok (some (.status .unknownDevice)) s
  else if len = 0 then .ok (some (.status .ok)) s
  else if dest < (s.bank b).baseAddress ∨ (s.bank b).baseAddress + (s.bank b).size < dest + len then
    .ok (some (.status .invalidSectorRange)) s
  else asStatus (writeSteps b src dest s)

/-! ### flash_protect (R110, R111) -/

/-- The sectors other than `i` that are flagged protected, ascending (R110). -/
def othersProtected (bk : Bank) (i : Nat) : List Nat :=
  (List.range bk.sectorCount).filter fun j => j != i && bk.sectorProtected j

/-- The re-locks (R110): in order, the first failure ends them. -/
def relock (b : Nat) : List Nat → State → Res Kind
  | [], s => .ok .ok s
  | j :: js, s =>
    (protectIntel b j true s).bind fun r s => if r ≠ .ok then .ok r s else relock b js s

/-- `ProtectSector(b, i, lock)` (R110). -/
def protectSector (b i : Nat) (lock : Bool) (s : State) : Res Kind :=
  if (s.bank b).cmdset = .intelStyle ∧ lock = false then
    let others := othersProtected (s.bank b) i
    (protectIntel b i false s).bind fun r s => if r ≠ .ok then .ok r s else relock b others s
  else protect b i lock s

/-- The extent of sector `i` meets the inclusive range `[start, stop]` (R111). -/
def sectorMeets (bk : Bank) (i start stop : Nat) : Bool :=
  decide (bk.sectorStart i ≤ stop ∧ start < bk.sectorEnd i)

/-- The sectors from `i` upward, `n` of them, that meet the range (R111). -/
def protectSectors (b start stop : Nat) (lock : Bool) : (i n : Nat) → State → Res Kind
  | _, 0, s => .ok .ok s
  | i, n + 1, s =>
    if sectorMeets (s.bank b) i start stop = true then
      (protectSector b i lock s).bind fun r s =>
      if r ≠ .ok then .ok r s else protectSectors b start stop lock (i + 1) n s
    else protectSectors b start stop lock (i + 1) n s

/-- `flash_protect(flag, start, end, b)` (R111). -/
def flashProtect (flag : ProtectFlag) (start stop b : Nat) (s : State) : Res (Option Result) :=
  if (s.bank b).vendorId = .unknown then .ok (some (.status .unknownDevice)) s
  else if stop < start then .ok (some (.status .invalidSectorRange)) s
  else asStatus (protectSectors b start stop (decide (flag = .set)) 0 (s.bank b).sectorCount s)

/-! ### flash_print_info (R112) -/

/-- The record of a bank (R112). -/
def infoOf (bk : Bank) : InfoRecord where
  vendorId := bk.vendorId
  mfrId := bk.mfrId
  deviceId := bk.deviceId
  size := bk.size
  sectorCount := bk.sectorCount
  sectors := bk.sectors.map fun x => (x.startAddress, x.isProtected)
  truncationWarnings := bk.truncationWarnings

/-! ### The rows -/

/-- flash_init, R105. -/
def execFlashInit (s : State) : Host.Outcome State Fault Refusal :=
  call .flashInit flashInit s

/-- flash_get_size, R106. -/
def execFlashGetSize (b : Nat) (s : State) : Host.Outcome State Fault Refusal :=
  call (.flashGetSize b) (onBank b fun s => .ok (some (.size (s.bank b).size)) s) s

/-- flash_erase, R107. -/
def execFlashErase (b first last : Nat) (s : State) : Host.Outcome State Fault Refusal :=
  call (.flashErase b first last) (onBank b (flashErase b first last)) s

/-- write_buff, R109. -/
def execWriteBuff (b : Nat) (src : List Byte) (dest len : Nat) (s : State) :
    Host.Outcome State Fault Refusal :=
  call (.writeBuff b src dest len) (onBank b (writeBuff b src dest len)) s

/-- flash_protect, R111. -/
def execFlashProtect (flag : ProtectFlag) (start stop b : Nat) (s : State) :
    Host.Outcome State Fault Refusal :=
  call (.flashProtect flag start stop b) (onBank b (flashProtect flag start stop b)) s

/-- flash_print_info, R112. -/
def execFlashPrintInfo (b : Nat) (s : State) : Host.Outcome State Fault Refusal :=
  call (.flashPrintInfo b) (onBank b fun s => .ok (some (.info (infoOf (s.bank b)))) s) s

/-- WriteMerged, R108. -/
def execWriteMerged (b wa off : Nat) (bytes : List Byte) (s : State) :
    Host.Outcome State Fault Refusal :=
  call (.writeMerged b wa off bytes) (onBank b (onKnown b fun s =>
    asStatus (writeMerged b wa off bytes s))) s

/-- ProtectSector, R110. -/
def execProtectSector (b i : Nat) (lock : Bool) (s : State) : Host.Outcome State Fault Refusal :=
  call (.protectSector b i lock) (onBank b (onKnown b (onSector b i fun s =>
    asStatus (protectSector b i lock s)))) s

end Sys2Proof.Machine
end

