-- ==== Sys2Proof/Machine/BusWords.lean ====
section
/-! DEFINITION. The rows that are one bus word (opcode_table.json: cmd_word, count_word, data_word,
status_word), each run by itself: one bus access, and what it does to `sm_state` (log 13). -/

namespace Sys2Proof.Machine

/-- A command word of a sequence, at `a`: one write, after which the sequence has issued a command
(42_sequencer.md R88). -/
def commandRow (b a : Nat) (c : Command) (s : State) : Res (Option Result) :=
  (writeCommand b a c s).bind fun _ s => .ok none (s.setSm .commandIssued)

/-- A command word of identification, which has no part in `sm_state` (40_identification.md). -/
def identRow (b off : Nat) (c : Command) (s : State) : Res (Option Result) :=
  asNothing (writeCommand b ((s.bank b).baseAddr off) c s)

/-- A reset command word at `a`: the bank's own one takes `sm_state` to `Idle` (42_sequencer.md R87,
70_reset_and_hazards.md R127); any other changes only the device (log 13). -/
def resetRow (b a : Nat) (c : Command) (s : State) : Res (Option Result) :=
  (writeCommand b a c s).bind fun _ s =>
    .ok none (if resetCommand (s.bank b).cmdset = some c then s.setSm .idle else s)

/-- `sm_state` after a status word (42_sequencer.md R89). -/
def smOfVerdict : Verdict → SmState
  | .notDone => .polling
  | .done => .done
  | .error _ => .hardwareError

/-- A status word at `a`: one read and its test (30_encoding.md R56, R57). On "not done" the word is the
reference of the next AMD-style comparison (42_sequencer.md R89). -/
def statusRow (b a : Nat) (test : Word → Word → Verdict) (s : State) : Res (Option Result) :=
  (busRead b a s).bind fun w s =>
    let v := test s.seq.pollPrev w
    let s := s.setSm (smOfVerdict v)
    let s := if v = .notDone then s.setPollPrev w else s
    .ok (some (.verdict v)) s

/-- READ_ID, R53: at `AMD_UNLOCK_OFF1`. -/
def execReadId (b : Nat) (s : State) : Host.Outcome State Fault Refusal :=
  call (.readId b) (onBank b fun s => identRow b s.params.amdUnlockOff1 .readId s) s

/-- CFI_QUERY, R53: at command offset 0x55. -/
def execCfiQuery (b : Nat) (s : State) : Host.Outcome State Fault Refusal :=
  call (.cfiQuery b) (onBank b fun s => identRow b s.params.cfi.query .cfiQuery s) s

/-- RESET_INTEL, R53. -/
def execResetIntel (b a : Nat) (s : State) : Host.Outcome State Fault Refusal :=
  call (.resetIntel b a) (onBank b (resetRow b a .resetIntel)) s

/-- CLEAR_STATUS, R53. -/
def execClearStatus (b a : Nat) (s : State) : Host.Outcome State Fault Refusal :=
  call (.clearStatus b a) (onBank b (onVariant b .intelStyle (commandRow b a .clearStatus))) s

/-- BLOCK_ERASE, R53. -/
def execBlockErase (b a : Nat) (s : State) : Host.Outcome State Fault Refusal :=
  call (.blockErase b a) (onBank b (onVariant b .intelStyle (commandRow b a .blockErase))) s

/-- ERASE_CONFIRM, R53. -/
def execEraseConfirm (b a : Nat) (s : State) : Host.Outcome State Fault Refusal :=
  call (.eraseConfirm b a) (onBank b (onVariant b .intelStyle (commandRow b a .eraseConfirm))) s

/-- RESUME, R53. -/
def execResume (b a : Nat) (s : State) : Host.Outcome State Fault Refusal :=
  call (.resume b a) (onBank b (onVariant b .intelStyle (commandRow b a .resume))) s

/-- PROGRAM, R53. -/
def execProgram (b a : Nat) (s : State) : Host.Outcome State Fault Refusal :=
  call (.program b a) (onBank b (onVariant b .intelStyle (commandRow b a .program))) s

/-- WRITE_TO_BUFFER, R53. -/
def execWriteToBuffer (b a : Nat) (s : State) : Host.Outcome State Fault Refusal :=
  call (.writeToBuffer b a) (onBank b (onVariant b .intelStyle (commandRow b a .writeToBuffer))) s

/-- BUFFER_CONFIRM, R53. -/
def execBufferConfirm (b a : Nat) (s : State) : Host.Outcome State Fault Refusal :=
  call (.bufferConfirm b a) (onBank b (onVariant b .intelStyle (commandRow b a .bufferConfirm))) s

/-- LOCK_SETUP, R53. -/
def execLockSetup (b a : Nat) (s : State) : Host.Outcome State Fault Refusal :=
  call (.lockSetup b a) (onBank b (onVariant b .intelStyle (commandRow b a .lockSetup))) s

/-- LOCK_SET, R53. -/
def execLockSet (b a : Nat) (s : State) : Host.Outcome State Fault Refusal :=
  call (.lockSet b a) (onBank b (onVariant b .intelStyle (commandRow b a .lockSet))) s

/-- LOCK_CLEAR, R53. -/
def execLockClear (b a : Nat) (s : State) : Host.Outcome State Fault Refusal :=
  call (.lockClear b a) (onBank b (onVariant b .intelStyle (commandRow b a .lockClear))) s

/-- RESET_AMD, R53. -/
def execResetAmd (b a : Nat) (s : State) : Host.Outcome State Fault Refusal :=
  call (.resetAmd b a) (onBank b (resetRow b a .resetAmd)) s

/-- UNLOCK1, R53: at `AMD_UNLOCK_OFF1`. On an AMD-style bank it opens a command sequence
(30_encoding.md R54); elsewhere it is the read-ID prefix (40_identification.md R71). -/
def execUnlock1 (b : Nat) (s : State) : Host.Outcome State Fault Refusal :=
  call (.unlock1 b) (onBank b fun s =>
    if (s.bank b).cmdset = .amdStyle then
      commandRow b ((s.bank b).baseAddr s.params.amdUnlockOff1) .unlock1 s
    else identRow b s.params.amdUnlockOff1 .unlock1 s) s

/-- UNLOCK2, R53: at `AMD_UNLOCK_OFF2`; as UNLOCK1. -/
def execUnlock2 (b : Nat) (s : State) : Host.Outcome State Fault Refusal :=
  call (.unlock2 b) (onBank b fun s =>
    if (s.bank b).cmdset = .amdStyle then
      commandRow b ((s.bank b).baseAddr s.params.amdUnlockOff2) .unlock2 s
    else identRow b s.params.amdUnlockOff2 .unlock2 s) s

/-- ERASE_SETUP, R53: at `AMD_UNLOCK_OFF1` (30_encoding.md R54). -/
def execEraseSetup (b : Nat) (s : State) : Host.Outcome State Fault Refusal :=
  call (.eraseSetup b) (onBank b (onVariant b .amdStyle fun s =>
    commandRow b ((s.bank b).baseAddr s.params.amdUnlockOff1) .eraseSetup s)) s

/-- SECTOR_ERASE, R53: at the sector start. -/
def execSectorErase (b a : Nat) (s : State) : Host.Outcome State Fault Refusal :=
  call (.sectorErase b a) (onBank b (onVariant b .amdStyle (commandRow b a .sectorErase))) s

/-- AMD_PROGRAM, R53: at `AMD_UNLOCK_OFF1` (30_encoding.md R54). -/
def execAmdProgram (b : Nat) (s : State) : Host.Outcome State Fault Refusal :=
  call (.amdProgram b) (onBank b (onVariant b .amdStyle fun s =>
    commandRow b ((s.bank b).baseAddr s.params.amdUnlockOff1) .amdProgram s)) s

/-- COUNT, R100: `R(n - 1)`. -/
def execCount (b a : Nat) (nMinusOne : Byte) (s : State) : Host.Outcome State Fault Refusal :=
  call (.count b a nMinusOne) (onBank b (onVariant b .intelStyle fun s =>
    (writeCount b a nMinusOne s).bind fun _ s => .ok none (s.setSm .commandIssued))) s

/-- DATA, R32: written as given, not replicated. -/
def execData (b a : Nat) (d : Word) (s : State) : Host.Outcome State Fault Refusal :=
  call (.data b a d) (onBank b fun s =>
    (writeData b a d s).bind fun _ s => .ok none (s.setSm .commandIssued)) s

/-- STATUS_INTEL, R55 to R57. -/
def execStatusIntel (b a : Nat) (s : State) : Host.Outcome State Fault Refusal :=
  call (.statusIntel b a) (onBank b (onVariant b .intelStyle fun s =>
    statusRow b a (fun _ w =>
      intelVerdict s.params.status (s.bank b).portWidth (s.bank b).chipWidth w) s)) s

/-- STATUS_AMD, R56. -/
def execStatusAmd (b a : Nat) (s : State) : Host.Outcome State Fault Refusal :=
  call (.statusAmd b a) (onBank b (onVariant b .amdStyle fun s =>
    statusRow b a (amdVerdict s.params.amdToggleMask (s.bank b).portWidth (s.bank b).chipWidth)
      s)) s

end Sys2Proof.Machine
end

