-- ==== Sys2Proof/Machine/Fetch.lean ====
section
/-! DEFINITION. How a step finds what to do: a system reset that is due, else the next call placed
(log 2, 11). The block fetches no instruction from memory (10_state.md R18, 20_memory.md R49): calls
come from the host. -/

namespace Sys2Proof.Machine

/-- What a step does. -/
inductive Next where
  /-- the platform asserts system reset now (70_reset_and_hazards.md R127) -/
  | reset
  /-- no call is placed: the block, which acts only when called, does nothing -/
  | idle
  /-- the next call, and the calls after it -/
  | run (i : Instr) (rest : List (List Byte))
  /-- what was placed is no call (30_encoding.md R66) -/
  | bad (e : DecodeError)
  deriving DecidableEq, Repr

/-- What a step from `s` does. -/
def State.next (s : State) : Next :=
  if s.env.resetIn = some 0 then .reset
  else
    match s.calls with
    | [] => .idle
    | c :: cs =>
      match decodeCall c with
      | .ok i => .run i cs
      | .error e => .bad e

/-- A system reset asserted between steps (R127, R128), or on a state in mid-operation (R129). -/
def State.resetNow (s : State) : State :=
  if s.position = none then s.systemReset else s.interruptedReset

/-- The calls still placed. -/
def State.withCalls (s : State) (cs : List (List Byte)) : State := { s with calls := cs }

end Sys2Proof.Machine
end

