-- ==== Sys2Proof/Machine/Dispatch.lean ====
section
/-! DEFINITION. One arm per row of spec/opcode_table.json, in the table's order: one call of the row's
meaning. -/

namespace Sys2Proof.Machine

/-- An instruction run to its end. -/
def exec (i : Instr) (s : State) : Host.Outcome State Fault Refusal :=
  match i with
  | .flashInit => Sys2Proof.Machine.execFlashInit s
  | .flashGetSize bank => Sys2Proof.Machine.execFlashGetSize bank s
  | .flashErase bank first last => Sys2Proof.Machine.execFlashErase bank first last s
  | .writeBuff bank src dest len => Sys2Proof.Machine.execWriteBuff bank src dest len s
  | .flashProtect flag addrStart addrEnd bank => Sys2Proof.Machine.execFlashProtect flag addrStart addrEnd bank s
  | .flashPrintInfo bank => Sys2Proof.Machine.execFlashPrintInfo bank s
  | .readId bank => Sys2Proof.Machine.execReadId bank s
  | .cfiQuery bank => Sys2Proof.Machine.execCfiQuery bank s
  | .resetIntel bank addr => Sys2Proof.Machine.execResetIntel bank addr s
  | .clearStatus bank addr => Sys2Proof.Machine.execClearStatus bank addr s
  | .blockErase bank addr => Sys2Proof.Machine.execBlockErase bank addr s
  | .eraseConfirm bank addr => Sys2Proof.Machine.execEraseConfirm bank addr s
  | .resume bank addr => Sys2Proof.Machine.execResume bank addr s
  | .program bank addr => Sys2Proof.Machine.execProgram bank addr s
  | .writeToBuffer bank addr => Sys2Proof.Machine.execWriteToBuffer bank addr s
  | .bufferConfirm bank addr => Sys2Proof.Machine.execBufferConfirm bank addr s
  | .lockSetup bank addr => Sys2Proof.Machine.execLockSetup bank addr s
  | .lockSet bank addr => Sys2Proof.Machine.execLockSet bank addr s
  | .lockClear bank addr => Sys2Proof.Machine.execLockClear bank addr s
  | .resetAmd bank addr => Sys2Proof.Machine.execResetAmd bank addr s
  | .unlock1 bank => Sys2Proof.Machine.execUnlock1 bank s
  | .unlock2 bank => Sys2Proof.Machine.execUnlock2 bank s
  | .eraseSetup bank => Sys2Proof.Machine.execEraseSetup bank s
  | .sectorErase bank addr => Sys2Proof.Machine.execSectorErase bank addr s
  | .amdProgram bank => Sys2Proof.Machine.execAmdProgram bank s
  | .count bank addr nMinusOne => Sys2Proof.Machine.execCount bank addr nMinusOne s
  | .data bank addr d => Sys2Proof.Machine.execData bank addr d s
  | .statusIntel bank addr => Sys2Proof.Machine.execStatusIntel bank addr s
  | .statusAmd bank addr => Sys2Proof.Machine.execStatusAmd bank addr s
  | .bankReset bank addr => Sys2Proof.Machine.execBankReset bank addr s
  | .identReset bank => Sys2Proof.Machine.execIdentReset bank s
  | .readIdEnter bank => Sys2Proof.Machine.execReadIdEnter bank s
  | .identify bank => Sys2Proof.Machine.execIdentify bank s
  | .identCfi bank => Sys2Proof.Machine.execIdentCfi bank s
  | .identLegacy bank mfr dev => Sys2Proof.Machine.execIdentLegacy bank mfr dev s
  | .decodeCfi bank => Sys2Proof.Machine.execDecodeCfi bank s
  | .decodeLegacy bank => Sys2Proof.Machine.execDecodeLegacy bank s
  | .probeProtection bank => Sys2Proof.Machine.execProbeProtection bank s
  | .poll bank addr budget kind => Sys2Proof.Machine.execPoll bank addr budget kind s
  | .pollReady bank addr budget => Sys2Proof.Machine.execPollReady bank addr budget s
  | .eraseIntel bank sector => Sys2Proof.Machine.execEraseIntel bank sector s
  | .eraseAmd bank sector => Sys2Proof.Machine.execEraseAmd bank sector s
  | .programWordIntel bank addr d => Sys2Proof.Machine.execProgramWordIntel bank addr d s
  | .programWordAmd bank addr d => Sys2Proof.Machine.execProgramWordAmd bank addr d s
  | .programBufferIntel bank addr ds => Sys2Proof.Machine.execProgramBufferIntel bank addr ds s
  | .protectIntel bank sector lock => Sys2Proof.Machine.execProtectIntel bank sector lock s
  | .protectAmd bank sector lock => Sys2Proof.Machine.execProtectAmd bank sector lock s
  | .writeMerged bank addr off bytes => Sys2Proof.Machine.execWriteMerged bank addr off bytes s
  | .protectSector bank sector lock => Sys2Proof.Machine.execProtectSector bank sector lock s

end Sys2Proof.Machine
end

