-- ==== Sys2Proof/Machine/Step.lean ====
section
/-! DEFINITION. One step of the machine, and a word of the opcode table placed where the next step
takes its call. -/

namespace Sys2Proof.Machine

/-- One step: a system reset that is due, else the next call run to its end, else nothing. -/
def step (s : State) : Host.Outcome State Fault Refusal :=
  match s.next with
  | .reset => .next s.resetNow
  | .idle => .next s
  | .run i rest => exec i (s.withCalls rest)
  | .bad e => .refused (.badCall e)

/-- The table word `w` of `nbits` bits, its operand bytes zero, placed as the next call (log 2). -/
def State.withFetchWord (s : State) (nbits w : Nat) : State :=
  s.withCalls (tableCall nbits w :: s.calls)

end Sys2Proof.Machine
end

