-- ==== Sys2Proof/Safety.lean ====
section
/-! DEFINITION. What claims about the machine are stated in: the invariants of 10_state.md R21, the
machine at rest (10_state.md R23, 70_reset_and_hazards.md R132), when a call can run, what an
operation leaves unchanged, the legal transitions of `sm_state` (10_state.md R24), and readers of the
bus trace. -/

namespace Sys2Proof.Machine

/-! ### Invariants -/

/-- The registers of one bank fit together (10_state.md R21 items 1, 2, 3, 5 and 6, 20_memory.md R37,
41_geometry.md R82 and R84), whatever bus words have been run by themselves: sectors strictly
increasing, within the bank, multiples of 128 bytes, the first at the base; the bank inside the
address space; timeouts of 32 bits; on a known bank a command set and a buffer of whole words. -/
structure Bank.Wf (p : Params) (bk : Bank) : Prop where
  increasing : bk.sectors.Pairwise fun x y => x.startAddress < y.startAddress
  capacity : bk.sectorCount ≤ p.maxSectors
  widths : bk.chipWidth.bits ≤ bk.portWidth.bits
  inBank : ∀ x ∈ bk.sectors, bk.baseAddress ≤ x.startAddress ∧
    x.startAddress + 128 ≤ bk.baseAddress + bk.size ∧ (x.startAddress - bk.baseAddress) % 128 = 0
  first : bk.sectorStart 0 = bk.baseAddress
  sizeUnit : bk.size % 128 = 0
  baseAligned : bk.baseAddress % 4 = 0
  baseRoom : bk.baseAddress + commandSpan * 4 < addrLimit
  sizeRoom : bk.baseAddress + bk.size < addrLimit
  timeouts : bk.eraseTimeout < addrLimit ∧ bk.writeTimeout < addrLimit ∧
    bk.bufferWriteTimeout < addrLimit
  variant : bk.vendorId ≠ .unknown → bk.cmdset ≠ .none
  buffer : bk.vendorId ≠ .unknown → bk.bufferSize % bk.bytes = 0 ∧
    bk.bufferSize ≤ p.maxBufferWords * bk.bytes ∧ (bk.cmdset = .amdStyle → bk.bufferSize = 0)

/-- An Unknown bank is empty (10_state.md R21 item 4). -/
def Bank.EmptyIfUnknown (bk : Bank) : Prop :=
  bk.vendorId = .unknown → bk.sectors = [] ∧ bk.size = 0 ∧ bk.cmdset = .none

/-- The invariant of every step: well-formed parameters, banks at their bases and well formed, Unknown
banks empty, detected ranges apart (00_scope.md R9), the array in canonical form, no operation left
running. -/
structure State.Inv (s : State) : Prop where
  params : paramsWf s.params = true
  bases : s.banks.map Bank.baseAddress = s.params.bankBase
  banks : ∀ bk ∈ s.banks, Bank.Wf s.params bk
  empty : ∀ bk ∈ s.banks, bk.EmptyIfUnknown
  apart : s.banks.Pairwise fun x y => rangesDisjoint x y = true
  memory : Memory.wf s.memory = true
  idle : s.position = none

/-- The machine between host operations (10_state.md R18 and R23, 70_reset_and_hazards.md R132): no
operation running, the sequencer idle, every bank's devices in read-array mode. -/
structure State.AtRest (s : State) : Prop where
  position : s.position = none
  sequencer : s.seq.smState = .idle
  devices : ∀ bk ∈ s.banks, bk.device.mode = .readArray

/-! ### When a call can run -/

/-- A call on bank `b` can run, and no system reset is about to cut it short. -/
structure State.Ready (s : State) (b : Nat) : Prop where
  idle : s.position = none
  noReset : s.env.resetIn = none
  params : paramsWf s.params = true
  bank : b < s.banks.length

/-- As `Ready`, for the sequences: the machine's invariant holds and identification has found the
bank. -/
structure State.Known (s : State) (b : Nat) : Prop where
  ready : s.Ready b
  inv : s.Inv
  known : (s.bank b).vendorId ≠ .unknown

/-- A bus access of bank `b` at `a` can be made: aligned (20_memory.md R37) and inside the bank's
window (R33). -/
def Bank.Accepts (p : Params) (bk : Bank) (a : Nat) : Prop :=
  a % bk.bytes = 0 ∧ bk.inWindow p a = true

/-! ### What stays -/

/-- The registers of a bank, its devices left out. -/
def Bank.SameRegs (x y : Bank) : Prop := { y with device := x.device } = x

/-- The registers of a bank that are constant after `flash_init` (10_state.md R20): all but the
protection flags, which is to say that the flags are what can tell the two apart. -/
def Bank.SameBuilt (x y : Bank) : Prop :=
  { y with device := x.device, sectors := x.sectors } = x ∧
    y.sectors.map Sector.startAddress = x.sectors.map Sector.startAddress

/-- What every operation on bank `b` leaves as it was: the parameters, `init_done`, the calls, the
number of banks, every other bank, the host's interrupt enable (42_sequencer.md R93); no operation
stays running, and the timer has not gone back (60_exceptions.md R123). -/
structure State.Frame (b : Nat) (s t : State) : Prop where
  params : t.params = s.params
  initDone : t.initDone = s.initDone
  calls : t.calls = s.calls
  position : t.position = none
  count : t.banks.length = s.banks.length
  others : ∀ c, c ≠ b → t.bank c = s.bank c
  ie : t.env.ie = s.env.ie
  noReset : t.env.resetIn = none
  timer : s.env.timer ≤ t.env.timer

/-- Every byte of the array outside `[a, a + n)` reads as before. -/
def State.SameOutside (a n : Nat) (s t : State) : Prop :=
  ∀ x, x < a ∨ a + n ≤ x → Memory.read t.memory x = Memory.read s.memory x

/-! ### Instructions -/

/-- The host operations (30_encoding.md R65). -/
def isHostOp : Instr → Bool
  | .flashInit => true
  | .flashGetSize _ => true
  | .flashErase _ _ _ => true
  | .writeBuff _ _ _ _ => true
  | .flashProtect _ _ _ _ => true
  | .flashPrintInfo _ => true
  | _ => false

/-- The bank an instruction names. -/
def bankOf : Instr → Option Nat
  | .flashInit => none
  | .flashGetSize b | .flashErase b _ _ | .writeBuff b _ _ _ | .flashProtect _ _ _ b => some b
  | .flashPrintInfo b | .readId b | .cfiQuery b | .resetIntel b _ | .clearStatus b _ => some b
  | .blockErase b _ | .eraseConfirm b _ | .resume b _ | .program b _ | .writeToBuffer b _ => some b
  | .bufferConfirm b _ | .lockSetup b _ | .lockSet b _ | .lockClear b _ | .resetAmd b _ => some b
  | .unlock1 b | .unlock2 b | .eraseSetup b | .sectorErase b _ | .amdProgram b => some b
  | .count b _ _ | .data b _ _ | .statusIntel b _ | .statusAmd b _ | .bankReset b _ => some b
  | .identReset b | .readIdEnter b | .identify b | .identCfi b | .identLegacy b _ _ => some b
  | .decodeCfi b | .decodeLegacy b | .probeProtection b | .poll b _ _ _ => some b
  | .pollReady b _ _ | .eraseIntel b _ | .eraseAmd b _ | .programWordIntel b _ _ => some b
  | .programWordAmd b _ _ | .programBufferIntel b _ _ | .protectIntel b _ _ => some b
  | .protectAmd b _ _ | .writeMerged b _ _ _ | .protectSector b _ _ => some b

/-! ### Transitions of `sm_state` (10_state.md R24) -/

/-- The legal transitions. A value written over itself outside them is no transition. -/
def legalStep : SmState → SmState → Bool
  | .idle, .commandIssued => true
  | .commandIssued, .commandIssued => true
  | .commandIssued, .polling => true
  | .polling, .polling => true
  | .polling, .commandIssued => true
  | .polling, .done => true
  | .polling, .timedOut => true
  | .polling, .hardwareError => true
  | .done, .idle => true
  | .timedOut, .idle => true
  | .hardwareError, .idle => true
  | x, y => x == y

/-- A list of values each of which follows the one before it legally, from `x`. -/
def legalPath (x : SmState) : List SmState → Bool
  | [] => true
  | y :: ys => legalStep x y && legalPath y ys

/-! ### The bus trace (00_scope.md R13) -/

/-- The writes of a trace, address and value, in order. -/
def writesOf (es : List BusEvent) : List (Nat × Word) :=
  es.filterMap fun e => match e with
    | .write a v => some (a, v)
    | _ => none

/-- The addresses a trace reads or writes. -/
def accessesOf (es : List BusEvent) : List Nat :=
  es.filterMap fun e => match e with
    | .write a _ => some a
    | .read a _ => some a
    | _ => none

/-- The times a trace read. -/
def timesOf (es : List BusEvent) : List Nat :=
  es.filterMap fun e => match e with
    | .timer t => some t
    | _ => none

/-- The command writes of bank `b` as a trace shows them. -/
def State.commandWrites (s : State) (b : Nat) (cs : List (Nat × Command)) : List (Nat × Word) :=
  cs.map fun ac => (ac.1, s.commandWord b ac.2)

/-- The writes of a reset to read-array of bank `b` at `a` (30_encoding.md R53). -/
def State.resetWrites (s : State) (b a : Nat) : List (Nat × Word) :=
  s.commandWrites b ((resetWords (s.bank b).cmdset).map fun c => (a, c))

/-! ### Next states written out -/

/-- `s` with the events `es` added to the bus trace. -/
def State.saw (s : State) (es : List BusEvent) : State :=
  { s with log := { s.log with trace := s.log.trace ++ es } }

/-- `s` after bus accesses of bank `b` that show as `es` and leave its devices in mode `m`, with the
last write `RESET_AMD` or not. -/
def State.ran (s : State) (b : Nat) (m : DeviceMode) (lastResetAmd : Bool) (es : List BusEvent) :
    State :=
  (s.setDevice b { (s.bank b).device with mode := m, afterResetAmd := lastResetAmd }).saw es

/-- Writes as events. -/
def writeEvents (ws : List (Nat × Word)) : List BusEvent := ws.map fun w => .write w.1 w.2

/-- The Intel-style command words with an address operand, each with the command it writes
(30_encoding.md R53). -/
def intelCommandRows (b a : Nat) : List (Instr × Command) :=
  [(.clearStatus b a, .clearStatus), (.blockErase b a, .blockErase),
    (.eraseConfirm b a, .eraseConfirm), (.resume b a, .resume), (.program b a, .program),
    (.writeToBuffer b a, .writeToBuffer), (.bufferConfirm b a, .bufferConfirm),
    (.lockSetup b a, .lockSetup), (.lockSet b a, .lockSet), (.lockClear b a, .lockClear)]

/-- The AMD-style command words, each with its address and the command it writes (30_encoding.md
R53, R54). -/
def amdCommandRows (p : Params) (bk : Bank) (b a : Nat) : List (Instr × Nat × Command) :=
  [(.unlock1 b, bk.baseAddress + p.amdUnlockOff1 * bk.bytes, .unlock1),
    (.unlock2 b, bk.baseAddress + p.amdUnlockOff2 * bk.bytes, .unlock2),
    (.eraseSetup b, bk.baseAddress + p.amdUnlockOff1 * bk.bytes, .eraseSetup),
    (.amdProgram b, bk.baseAddress + p.amdUnlockOff1 * bk.bytes, .amdProgram),
    (.sectorErase b a, a, .sectorErase)]

/-- The command words of identification, each with its address and the command it writes: READ_ID and
CFI_QUERY, and on a bank that is not AMD-style the unlock words (30_encoding.md R53, R54,
40_identification.md R71). -/
def identCommandRows (p : Params) (bk : Bank) (b : Nat) : List (Instr × Nat × Command) :=
  [(.readId b, bk.baseAddress + p.amdUnlockOff1 * bk.bytes, .readId),
    (.cfiQuery b, bk.baseAddress + p.cfi.query * bk.bytes, .cfiQuery)] ++
  if bk.cmdset = .amdStyle then []
  else [(.unlock1 b, bk.baseAddress + p.amdUnlockOff1 * bk.bytes, .unlock1),
    (.unlock2 b, bk.baseAddress + p.amdUnlockOff2 * bk.bytes, .unlock2)]

/-! ### Polls as traces (42_sequencer.md R89, R90) -/

/-- How the loop of a poll at `a` ends, read off its events from the loop head on: `none` when they are
no run of the loop; `some (some v)` when a status word gave `v`; `some none` when the budget ran out.
`prev` is the status word before, `t0` the start time. -/
def pollOutcome (test : Word → Word → Verdict) (a t0 budget : Nat) :
    Word → List BusEvent → Option (Option Verdict)
  | prev, [.read x w] => if x = a ∧ test prev w ≠ .notDone then some (some (test prev w)) else none
  | prev, [.read x w, .timer t] =>
    if x = a ∧ test prev w = .notDone ∧ budget < t - t0 then some none else none
  | prev, .read x w :: .timer t :: es =>
    if x = a ∧ test prev w = .notDone ∧ t - t0 ≤ budget then
      pollOutcome test a t0 budget w es
    else none
  | _, _ => none

/-- As `pollOutcome`, from the entry of a poll on: on an AMD-style bank the first read is the toggle
reference. -/
def pollTraceOutcome (p : Params) (bk : Bank) (a t0 budget : Nat) (es : List BusEvent) :
    Option (Option Verdict) :=
  if bk.cmdset = .amdStyle then
    match es with
    | .read x w :: rest =>
      if x = a then pollOutcome (pollVerdict p bk) a t0 budget w rest else none
    | _ => none
  else pollOutcome (pollVerdict p bk) a t0 budget 0 es

/-- The kind a poll reports (42_sequencer.md R89). -/
def kindOfOutcome (tkind : Kind) : Option Verdict → Kind
  | some (.error sub) => .hardwareError sub
  | some _ => .ok
  | none => tkind

/-- The reference of the next comparison, `poll_prev`, after the events of a poll's loop: the last status
word that was not done and did not end the poll (42_sequencer.md R89). -/
def pollPrevAfter : Word → List BusEvent → Word
  | _, .read _ w :: .timer _ :: e :: es => pollPrevAfter w (e :: es)
  | prev, _ => prev

/-- As `pollPrevAfter`, from the entry of a poll on: on an AMD-style bank the first read is the first
reference. -/
def pollPrevOf (cs : CmdSet) (prev : Word) (es : List BusEvent) : Word :=
  if cs = .amdStyle then
    match es with
    | .read _ w :: rest => pollPrevAfter w rest
    | _ => prev
  else pollPrevAfter prev es

/-- The sequencer registers after a poll that ended in a reset to read-array (10_state.md R23,
42_sequencer.md R89): idle, the poll registers of this poll, the interrupt state saved before it. -/
def polledSeq (a budget t0 : Nat) (prev : Word) (saved : Bool) : Sequencer where
  smState := .idle
  pollAddr := a
  pollBudget := budget
  pollStart := t0
  pollPrev := prev
  savedIrq := saved

/-- The devices of bank `b` have their next `n` answers ready, all one word that a poll takes as done.
-/
def State.DoneNext (s : State) (b n : Nat) : Prop :=
  ∃ w rest, s.env.busInput = List.replicate n w ++ rest ∧
    pollVerdict s.params (s.bank b) (toPort (s.bank b).portWidth w)
      (toPort (s.bank b).portWidth w) = .done

/-! ### Sequences -/

/-- The writes of an Intel-style Protect of sector `i` that ran its poll (42_sequencer.md R102). -/
def State.protectWrites (s : State) (b i : Nat) (lock : Bool) : List (Nat × Word) :=
  let a := (s.bank b).sectorStart i
  s.commandWrites b [(a, .clearStatus), (a, .lockSetup), (a, if lock then .lockSet else .lockClear)]
    ++ s.resetWrites b a

/-- The port word the array holds at `a` on bank `b` (20_memory.md R43). -/
def State.arrayWord (s : State) (b a : Nat) : Word :=
  wordOf s.params.hostByteOrder (Memory.readBytes s.memory a (s.bank b).bytes)

/-- What an operation on bank `b` that ran to its result leaves, beside what `State.Frame` says: the
sequencer idle and the devices in read-array mode (10_state.md R23, 70_reset_and_hazards.md R132). -/
structure State.Settled (b : Nat) (s t : State) : Prop where
  frame : State.Frame b s t
  sequencer : t.seq.smState = .idle
  device : (t.bank b).device.mode = .readArray

/-- The rows that write a protection flag after `flash_init` (10_state.md R20). -/
def isProtectOp : Instr → Bool
  | .flashProtect _ _ _ _ => true
  | .protectIntel _ _ _ => true
  | .protectAmd _ _ _ => true
  | .protectSector _ _ _ => true
  | _ => false

/-- The rows that erase or program (20_memory.md R44). -/
def isArrayOp : Instr → Bool
  | .flashErase _ _ _ => true
  | .writeBuff _ _ _ _ => true
  | .eraseIntel _ _ => true
  | .eraseAmd _ _ => true
  | .programWordIntel _ _ _ => true
  | .programWordAmd _ _ _ => true
  | .programBufferIntel _ _ _ => true
  | .writeMerged _ _ _ _ => true
  | _ => false

/-- The addresses whose byte of the array a row can change on bank `bk`, whatever its result and
wherever a system reset cuts it (20_memory.md R44, 70_reset_and_hazards.md R129): the sector of an
erase, the words of a program, for `flash_erase` the unprotected sectors of its range, for `write_buff`
the words that cover its range. -/
def mayChange (bk : Bank) (x : Nat) : Instr → Prop
  | .eraseIntel _ i => bk.sectorStart i ≤ x ∧ x < bk.sectorEnd i
  | .eraseAmd _ i => bk.sectorStart i ≤ x ∧ x < bk.sectorEnd i
  | .flashErase _ f l => ∃ j, f ≤ j ∧ j ≤ l ∧ bk.sectorProtected j = false ∧
      bk.sectorStart j ≤ x ∧ x < bk.sectorEnd j
  | .programWordIntel _ a _ => a ≤ x ∧ x < a + bk.bytes
  | .programWordAmd _ a _ => a ≤ x ∧ x < a + bk.bytes
  | .programBufferIntel _ a ds => a ≤ x ∧ x < a + ds.length * bk.bytes
  | .writeMerged _ a _ _ => a ≤ x ∧ x < a + bk.bytes
  | .writeBuff _ src d _ => d / bk.bytes * bk.bytes ≤ x ∧
      x < (d + src.length + bk.bytes - 1) / bk.bytes * bk.bytes
  | _ => False

/-- The rows that decode a geometry: all a bank's range is compared with the other banks' in
(00_scope.md R9). -/
def isDecodeRow : Instr → Bool
  | .identify _ => true
  | .identCfi _ => true
  | .identLegacy _ _ _ => true
  | .decodeCfi _ => true
  | .decodeLegacy _ => true
  | _ => false

/-! ### What the devices' answers identify

The rules of 30_encoding.md R58 to R64, 40_identification.md R72 to R79 and 41_geometry.md R81 to R85
written a second time, as functions of the words read. -/

/-- The `k`-th answer from here on, while nothing else is drawn: those held ready, then free values
(log 7). -/
def State.answerAt (s : State) (k : Nat) : Word :=
  (s.env.busInput[k]?).getD (Config.freeRead (s.env.draws + (k - s.env.busInput.length)))

/-- The port word that answer is to a bank of the widths of `bk`. -/
def State.wordAt (s : State) (bk : Bank) (k : Nat) : Word := toPort bk.portWidth (s.answerAt k)

/-- The words that reads of bank `b` at command offsets yield, in order: the array's in read-array mode
inside the array, else the next answers, `k` of which are taken (20_memory.md R43; log 7, 17). -/
def State.wordsAt (s : State) (b : Nat) : (k : Nat) → List Nat → List Word
  | _, [] => []
  | k, off :: offs =>
    let bk := s.bank b
    if bk.device.mode = .readArray ∧ bk.inArray (bk.baseAddr off) bk.bytes = true then
      s.arrayWord b (bk.baseAddr off) :: s.wordsAt b k offs
    else s.wordAt bk k :: s.wordsAt b (k + 1) offs

/-- The byte a query read yields (30_encoding.md R58): `w[7:0]`, or `w[PW-1 : PW-8]`. -/
def queryByteIn (bk : Bank) (w : Word) : Byte :=
  (w >>> (if bk.laneOrder = .be then bk.portWidth.bits - 8 else 0)).setWidth 8

/-- The code an identification read yields (30_encoding.md R59): `w[CWb-1 : 0]`; or of
`v = w[PW-1 : PW-CWb]`, `v` on 8 bits, `v[7:0]` above `v[15:8]` on 16. -/
def idCodeIn (bk : Bank) (w : Word) : ChipId :=
  let v := w >>> (if bk.laneOrder = .be then bk.portWidth.bits - bk.chipWidth.bits else 0)
  match bk.chipWidth, bk.laneOrder with
  | .w8, _ => (v.setWidth 8).setWidth 16
  | .w16, .le => v.setWidth 16
  | .w16, .be => v.setWidth 8 ++ (v >>> 8).setWidth 8

/-- A 16-bit field from two query bytes, the least significant first (30_encoding.md R60). -/
def u16At (q : Nat → Byte) (k : Nat) : Nat := (q k).toNat + 256 * (q (k + 1)).toNat

/-- The command set of a primary id (30_encoding.md R61, 40_identification.md R74). -/
def primarySet (c : CfiLayout) (pid : Nat) : CmdSet :=
  if pid ∈ c.intelIds then .intelStyle else if pid ∈ c.amdIds then .amdStyle else .none

/-- The command offsets DecodeCFI reads, in order, with `n` regions (30_encoding.md R61,
41_geometry.md R81). -/
def cfiOffsets (c : CfiLayout) (n : Nat) : List Nat :=
  [c.wordTyp, c.bufferTyp, c.eraseTyp, c.wordMax, c.bufferMax, c.eraseMax, c.bufferExp,
    c.bufferExp + 1, c.regionCount] ++ (List.range (4 * n)).map (c.regions + ·)

/-- Reads of bank `bk` at command offsets, in order, the `k`-th of which answers `w k`. -/
def readEvents (bk : Bank) (w : Nat → Word) (offs : List Nat) : List BusEvent :=
  offs.mapIdx fun k off => .read (bk.baseAddr off) (w k)

/-- The sector table DecodeCFI lays when its reads yield the bytes `q 0`, `q 1`, ... (41_geometry.md
R81, 30_encoding.md R62). -/
def cfiWalk (p : Params) (bk : Bank) (q : Nat → Byte) : Table :=
  layRegions (bk.portWidth.bits / bk.chipWidth.bits) p.maxSectors bk.baseAddress
    ((List.range (q 8).toNat).map fun i => (u16At q (9 + 4 * i), u16At q (11 + 4 * i)))

/-- The buffer size of a write-buffer exponent (41_geometry.md R84). -/
def bufferOf (p : Params) (bk : Bank) (bexp : Nat) : Nat :=
  let all := 2 ^ bexp * (bk.portWidth.bits / bk.chipWidth.bits)
  if bk.cmdset = .amdStyle ∨ bexp = 0 ∨ 16 ≤ bexp ∨ all < bk.portWidth.bytes then 0
  else min all (p.maxBufferWords * bk.portWidth.bytes)

/-- The bank DecodeCFI makes of `bk` when its reads yield the bytes `q 0`, `q 1`, ... (41_geometry.md
R81 to R84). -/
def cfiBank (p : Params) (bk : Bank) (q : Nat → Byte) : Bank :=
  let t := cfiWalk p bk q
  { bk with
    sectors := t.sectors
    size := t.endAddr - bk.baseAddress
    eraseTimeout := normTimeout p.cfi.eraseUnit (q 2).toNat (q 5).toNat
    writeTimeout := normTimeout p.cfi.wordUnit (q 0).toNat (q 3).toNat
    bufferWriteTimeout := normTimeout p.cfi.bufferUnit (q 1).toNat (q 4).toNat
    bufferSize := bufferOf p bk (u16At q 6)
    truncationWarnings := bk.truncationWarnings + if t.truncated then 1 else 0 }

/-- What IdentCFI writes of the codes `m` and `d` on a bank whose command set is set
(40_identification.md R74, R78, R79). -/
def cfiNamed (p : Params) (bk : Bank) (m d : ChipId) : Bank :=
  { bk with
    mfrId := m
    deviceId := d
    vendorId := match p.mfrCodes.find? fun e => e.1 == m with
      | some e => e.2
      | none => if bk.cmdset = .amdStyle then .amd else .intel
    geometryPath := .cfi
    resumeAfterErase := bk.cmdset == .intelStyle && !p.noResumeDevices.contains d }

/-- The bank DecodeLegacy makes of `bk` with the entry `e` (41_geometry.md R85). -/
def legacyGeometry (p : Params) (bk : Bank) (e : LegacyEntry) : Bank :=
  let ssize := e.uniformSectorSize * (bk.portWidth.bits / bk.chipWidth.bits)
  let count := min e.sectorCount p.maxSectors
  { bk with
    sectors := (List.range count).map fun i =>
      { startAddress := bk.baseAddress + i * ssize, isProtected := false }
    size := count * ssize
    eraseTimeout := p.defaultEraseTimeoutMs
    writeTimeout := p.defaultWriteTimeoutMs
    bufferWriteTimeout := p.defaultBufferWriteTimeoutMs
    bufferSize := 0
    truncationWarnings := bk.truncationWarnings + if p.maxSectors < e.sectorCount then 1 else 0 }

/-- The bank IdentLegacy makes of `bk` with the entry `e` of the codes `m` and `d`
(40_identification.md R75, R79). -/
def legacyBank (p : Params) (bk : Bank) (e : LegacyEntry) (m d : ChipId) : Bank :=
  legacyGeometry p
    { bk with
      vendorId := e.vendor
      cmdset := e.cmdset
      mfrId := m
      deviceId := d
      geometryPath := .legacy
      resumeAfterErase := e.cmdset == .intelStyle && !p.noResumeDevices.contains d } e

/-- The entry of the legacy table for a pair of codes (30_encoding.md R64). -/
def entryOf (p : Params) (m d : ChipId) : Option LegacyEntry :=
  p.legacyTable.find? fun e => e.mfrId == m && e.deviceId == d

/-- A detected range of bank `b` that ends at `hi` is one the configuration allows: below
`2 ^ ADDR_WIDTH` (log 22) and without a byte of another bank's range (00_scope.md R9). -/
def State.RangeOk (s : State) (b hi : Nat) : Prop :=
  hi < 2 ^ 32 ∧ ∀ c < s.banks.length, c ≠ b → hi ≤ (s.bank b).baseAddress ∨
    (s.bank c).size = 0 ∨ hi ≤ (s.bank c).baseAddress ∨
    (s.bank c).baseAddress + (s.bank c).size ≤ (s.bank b).baseAddress

/-- The width pairs tried, in order (40_identification.md R69). -/
def pairsFrom (least : PortWidth) : List (PortWidth × ChipWidth) :=
  [(.w8, .w8), (.w16, .w8), (.w16, .w16), (.w32, .w8), (.w32, .w16)].filter fun pc =>
    decide (least.bits ≤ pc.1.bits)

/-- Command writes of a bank of the widths of `bk`, as events. -/
def Bank.commandEvents (bk : Bank) (p : Params) (cs : List (Nat × Command)) : List BusEvent :=
  cs.map fun ac => .write ac.1 (replicate (commandByte p.cmd ac.2) bk.portWidth bk.chipWidth)

/-- One pass of Identify (40_identification.md R72): the bank's registers as the pass sets them, its
events, how many answers it takes, the bank it identifies, and whether both response bytes are non-zero
(R76). -/
structure Pass where
  bank : Bank
  events : List BusEvent
  answers : Nat
  found : Option Bank
  flip : Bool

/-- The pass at the widths and the lane order of `bk` when the `n`-th answer is its first
(40_identification.md R70 to R76): both resets, the query and the three bytes, all of them; on "QRY" the
primary id; if it names a command set, the table, both resets, the read-ID entry, the codes, both resets;
else both resets, the read-ID entry and the codes, and if the legacy table has them, both resets. -/
def State.pass (s : State) (bk : Bank) (n : Nat) : Pass :=
  let p := s.params
  let c := p.cfi
  let w := fun k => s.wordAt bk (n + k)
  let q := fun k => queryByteIn bk (w k)
  let code := fun k => idCodeIn bk (w k)
  let resets := bk.commandEvents p [(bk.baseAddress, .resetAmd), (bk.baseAddress, .resetIntel)]
  let readId := bk.commandEvents p [(bk.baseAddr p.amdUnlockOff1, .unlock1),
    (bk.baseAddr p.amdUnlockOff2, .unlock2), (bk.baseAddr p.amdUnlockOff1, .readId)]
  let reads := fun k offs => readEvents bk (fun j => w (k + j)) offs
  let query := resets ++ bk.commandEvents p [(bk.baseAddr c.query, .cfiQuery)] ++
    reads 0 [c.qry, c.qry + 1, c.qry + 2]
  let isQry := q 0 = 0x51 ∧ q 1 = 0x52 ∧ q 2 = 0x59
  let cs := primarySet c (u16At q 3)
  if isQry ∧ cs ≠ .none then
    let ids := 14 + 4 * (q 13).toNat
    { bank := bk
      events := query ++ reads 3 ([c.primaryId, c.primaryId + 1] ++ cfiOffsets c (q 13).toNat) ++
        resets ++ readId ++ reads ids [0, 1] ++ resets
      answers := ids + 2
      found := some (cfiNamed p (cfiBank p { bk with cmdset := cs } fun k => q (5 + k))
        (code ids) (code (ids + 1)))
      flip := false }
  else
    let ids := if isQry then 5 else 3
    let tried := query ++ (if isQry then reads 3 [c.primaryId, c.primaryId + 1] else []) ++ resets ++
      readId ++ reads ids [0, 1]
    let m := code ids
    let d := code (ids + 1)
    match entryOf p m d with
    | some e =>
      { bank := bk, events := tried ++ resets, answers := ids + 2
        found := some (legacyBank p bk e m d), flip := false }
    | none =>
      { bank := bk, events := tried, answers := ids + 2
        found := none, flip := decide (m ≠ 0 ∧ d ≠ 0) }

/-- The passes of Identify of a bank `bk` over width pairs, from the `n`-th answer on
(40_identification.md R69, R72, R76): each pair in order, the little-endian lane order first and the
other one only after two non-zero response bytes, up to the first pass that identifies the bank. -/
def State.passes (s : State) (bk : Bank) : List (PortWidth × ChipWidth) → Nat → List Pass
  | [], _ => []
  | (p, c) :: rest, n =>
    let le := s.pass { bk with portWidth := p, chipWidth := c, laneOrder := .le } n
    let be := s.pass { bk with portWidth := p, chipWidth := c, laneOrder := .be } (n + le.answers)
    if le.found.isSome = true then [le]
    else if le.flip = false then le :: s.passes bk rest (n + le.answers)
    else if be.found.isSome = true then [le, be]
    else le :: be :: s.passes bk rest (n + le.answers + be.answers)

/-- The answers to come identify bank `b` as `bk'` at a pass over some candidate pair and lane order
(40_identification.md R69, R72). -/
def State.Detects (s : State) (b : Nat) (bk' : Bank) : Prop :=
  ∃ pc ∈ pairsFrom s.params.minPortWidth, ∃ o n,
    (s.pass { s.bank b with portWidth := pc.1, chipWidth := pc.2, laneOrder := o } n).found = some bk'

/-- An outcome with its next state changed. -/
def mapNext (f : State → State) : Host.Outcome State Fault Refusal → Host.Outcome State Fault Refusal
  | .next t => .next (f t)
  | .fault e => .fault e
  | .refused r => .refused r

/-! ### Host operations as rows

43_facade.md's operations call the parts of identification and the sequences; these are the rows they
run, written from its pseudocode. -/

/-- Rows that report a status, run one after another: the first that is not `Ok` ends them, with its
status (43_facade.md R109, R111). -/
def runRows : List Instr → State → Host.Outcome State Fault Refusal
  | [], s => .next (s.leave (some (.status .ok)))
  | i :: is, s =>
    match exec i s with
    | .next t => if t.result = some (.status .ok) then runRows is t else .next t
    | .fault e => .fault e
    | .refused r => .refused r

/-- The row of a single-word program of the variant of `bk`, which has one. -/
def programRow (bk : Bank) (b a : Nat) (d : Word) : Instr :=
  if bk.cmdset = .amdStyle then .programWordAmd b a d else .programWordIntel b a d

/-- The rows that write `bs` from the word address `p` on (43_facade.md R109, steps 2a, 2b and 3;
decision D30): while a whole buffer of bytes is left, a buffered program up to the next buffer window of
the bank and not past the sector; while a whole word is left, a single-word program; then the rest as a
merged word. The first argument bounds the rows; each takes at least one byte. -/
def bodyRows (o : ByteOrder) (bk : Bank) (b : Nat) : (fuel p : Nat) → List Byte → List Instr
  | 0, _, _ => []
  | fuel + 1, p, bs =>
    let w := bk.bytes
    if bk.bufferSize ≠ 0 ∧ bk.bufferSize ≤ bs.length then
      let window := bk.bufferSize - (p - bk.baseAddress) % bk.bufferSize
      let nb := match bk.sectorOf p with
        | some i => min window (bk.sectorEnd i - p)
        | none => window
      .programBufferIntel b p ((List.range (nb / w)).map fun j =>
        wordOf o ((bs.drop (j * w)).take w)) :: bodyRows o bk b fuel (p + nb) (bs.drop nb)
    else if w ≤ bs.length then
      programRow bk b p (wordOf o (bs.take w)) :: bodyRows o bk b fuel (p + w) (bs.drop w)
    else if bs = [] then []
    else [.writeMerged b p 0 bs]

/-- The rows of `write_buff` (43_facade.md R109): an unaligned head as a merged word, then the body and
the tail. -/
def writeRows (o : ByteOrder) (bk : Bank) (b dest : Nat) (src : List Byte) : List Instr :=
  let off := dest % bk.bytes
  let k := min (bk.bytes - off) src.length
  if off = 0 then bodyRows o bk b src.length dest src
  else .writeMerged b (dest - off) off (src.take k) ::
    bodyRows o bk b src.length (dest + k) (src.drop k)

/-- Identify of each bank still Unknown and ProbeProtection of each bank then known, as rows, from bank
`b` upward, `n` of them (43_facade.md R105; a bank known before: log 15). -/
def initRows : (b n : Nat) → State → Host.Outcome State Fault Refusal
  | _, 0, s => .next s
  | b, n + 1, s =>
    match if (s.bank b).vendorId = .unknown then exec (.identify b) s else .next s with
    | .next t =>
      match if (t.bank b).vendorId = .unknown then .next t else exec (.probeProtection b) t with
      | .next u => initRows (b + 1) n u
      | .fault e => .fault e
      | .refused r => .refused r
    | .fault e => .fault e
    | .refused r => .refused r

/-- The table's bytes: those of its rows with fixed bits, and 0 for the rows without. -/
def tableBytes : List Byte :=
  [0x00, 0x01, 0x02, 0x03, 0x04, 0x05, 0x06, 0x20, 0x30, 0x40, 0x50, 0x55, 0x60, 0x80, 0x90, 0x98,
    0xA0, 0xAA, 0xD0, 0xE8, 0xF0, 0xFF]

end Sys2Proof.Machine
end

