-- ==== Sys2Proof/Certificates/Slice0/Obligations.lean ====
section
/-! DEFINITION. The statements about the model. Each docstring names the rules of spec/ it rests on; a
clause that rests on a choice of the model names its log entry. -/

open Sys2Proof Sys2Proof.Machine

/-! ### Calls and steps -/

/-- Decoding the bytes of a well-formed call gives the call back, whatever follows it. The layout is
the model's own (log 1). -/
def Obligations.EncodeDecodeRoundTrip : Prop :=
  ∀ (i : Instr) (rest : List Byte), i.wellFormed = true →
    decode (encode i ++ rest) = .ok (i, rest) ∧ decodeCall (encode i) = .ok i

/-- Whatever bytes decode, the call they give is well formed. The layout is the model's own (log 1). -/
def Obligations.DecodedCallsAreWellFormed : Prop :=
  ∀ (bs : List Byte) (i : Instr), decodeCall bs = .ok i → i.wellFormed = true

/-- Words of the opcode table, each its row's byte with operands of zero: 0x03 and 0x06 of R65, 0x20,
0x40, 0xE8, 0xF0 and 0x30 of R53, the two reserved bytes 0x07 and 0xAB of R66. That a table byte with
zeros after it is a call, its form byte 0 and its operands 0, is the model's layout (log 1). -/
def Obligations.TableWordsDecode : Prop :=
  decodeTableWord 8 0x03 = some (.flashErase 0 0 0) ∧
  decodeTableWord 8 0x06 = some (.flashPrintInfo 0) ∧
  decodeTableWord 8 0x20 = some (.blockErase 0 0) ∧
  decodeTableWord 8 0x40 = some (.program 0 0) ∧
  decodeTableWord 8 0xE8 = some (.writeToBuffer 0 0) ∧
  decodeTableWord 8 0xF0 = some (.resetAmd 0 0) ∧
  decodeTableWord 8 0x30 = some (.sectorErase 0 0) ∧
  decodeTableWord 8 0x07 = none ∧ decodeTableWord 8 0xAB = none

/-- A step runs the decoded call: `exec` of it on the state with the call taken, and nothing around it;
so does a step on a table word placed as the next call. With no call placed a step changes nothing
(10_state.md R18, 60_exceptions.md R121), and an operation code outside the table is refused
(30_encoding.md R66). How calls are placed is the model's own (log 1, 2). -/
def Obligations.StepRunsDecodedCall : Prop :=
  ∀ s : State, s.env.resetIn ≠ some 0 →
    (∀ c cs i, s.calls = c :: cs → decodeCall c = .ok i → step s = exec i (s.withCalls cs)) ∧
    (∀ nbits w i, decodeTableWord nbits w = some i →
      step (s.withFetchWord nbits w) = exec i s) ∧
    (s.calls = [] → step s = .next s) ∧
    ∀ (op form : Byte) rest cs, s.calls = (op :: form :: rest) :: cs → op ∉ tableBytes →
      step s = .refused (.badCall (.unknownRow op.toNat form.toNat))

/-! ### Reset -/

/-- The state at launch has the values 70_reset_and_hazards.md R128 gives: Unknown banks without a
geometry at their bases, devices in read-array mode, an idle sequencer, no position, `init_done`
false. A system reset asserted between operations (R127) takes every register back to its value at
launch and keeps the array, the interrupt enable and the timer. (The launch values of the registers
R128 leaves unspecified, of the array, `IE` and the timer are the model's, log 3 to 6; so is when a
reset is asserted, log 11; that the devices' lock bits stay, log 10; and that the calls placed and not
yet taken stay, log 2 and 11.) -/
def Obligations.LaunchAndResetValues : Prop :=
  (∀ p : Params, (State.atReset p).seq.smState = .idle ∧ (State.atReset p).position = none ∧
    (State.atReset p).initDone = false ∧
    (State.atReset p).banks.map Bank.baseAddress = p.bankBase ∧
    ∀ bk ∈ (State.atReset p).banks, bk.laneOrder = .le ∧ bk.vendorId = .unknown ∧ bk.mfrId = 0 ∧
      bk.deviceId = 0 ∧ bk.cmdset = .none ∧ bk.geometryPath = .none ∧
      bk.resumeAfterErase = false ∧ bk.sectors = [] ∧ bk.sectorCount = 0 ∧ bk.size = 0 ∧
      bk.bufferSize = 0 ∧ bk.eraseTimeout = 0 ∧ bk.writeTimeout = 0 ∧ bk.bufferWriteTimeout = 0 ∧
      bk.truncationWarnings = 0 ∧ bk.device.mode = .readArray) ∧
  ∀ s : State, s.env.resetIn = some 0 → s.position = none →
    ∃ t, step s = .next t ∧ t.memory = s.memory ∧ t.env.ie = s.env.ie ∧
      t.env.timer = s.env.timer ∧ t.seq.smState = .idle ∧ t.initDone = false ∧ t.position = none ∧
      t.params = s.params ∧ t.calls = s.calls ∧
      t.banks = s.banks.map fun bk =>
        { Bank.atReset bk.baseAddress with
          device := { mode := .readArray, lockBits := bk.device.lockBits } }

/-- The invariant holds at launch under every well-formed configuration, and at `State.reset`. -/
def Obligations.InvariantAtReset : Prop :=
  State.reset.Inv ∧ ∀ p : Params, paramsWf p = true → (State.atReset p).Inv

/-- The invariant is kept by every step, from every state that has it: banks well formed and Unknown
banks empty (10_state.md R21, 20_memory.md R37), detected ranges apart (00_scope.md R9), the array in
canonical form, no operation left running. -/
def Obligations.InvariantKeptByStep : Prop :=
  ∀ s t : State, s.Inv → step s = .next t → t.Inv

/-- A system reset that catches a running operation ends it with no result and leaves the registers at
their reset values; unless the operation erases or programs, the array is as it was, and if it does, every
byte outside what it addresses is (70_reset_and_hazards.md R129). When a reset is asserted is the model's
input (log 11), and so are the widths 8 and 8 of `Bank.atReset` (log 4), the lock bits (log 10) and that
the calls not yet taken stay (log 2, 11). -/
def Obligations.InterruptedOperationResets : Prop :=
  ∀ (i : Instr) (s t : State), s.env.resetIn ≠ none → exec i s = .next t → t.env.resetIn = none →
    t.result = none ∧ t.position = none ∧ t.initDone = false ∧ t.seq.smState = .idle ∧
    t.params = s.params ∧ t.calls = s.calls ∧ t.banks.length = s.banks.length ∧
    (∀ b < s.banks.length, ∃ l, t.bank b =
      { Bank.atReset (s.bank b).baseAddress with device := { mode := .readArray, lockBits := l } }) ∧
    (isArrayOp i = false → t.memory = s.memory) ∧
    (s.Inv → ∀ b, bankOf i = some b → ∀ x, ¬ mayChange (s.bank b) x i →
      Memory.read t.memory x = Memory.read s.memory x)

/-! ### The whole machine -/

/-- Calls the block refuses: while an operation runs (60_exceptions.md R125, I16); under an ill-formed
configuration (00_scope.md R9, 20_memory.md R30, and beyond them the ranges of the parameters, log 29);
on a bank that is not configured and with a `len` that is not the length of `src` (30_encoding.md R65); a
second `flash_init` (43_facade.md R105); a buffered program on a bank without a buffer (42_sequencer.md
R101, I22). A configuration that R9 and R30 allow and whose parameters have values of their kinds is not
ill formed. -/
def Obligations.CallsRefusedOutright : Prop :=
  (∀ (i : Instr) (s : State),
    (s.position ≠ none → exec i s = .refused .busy) ∧
    (s.position = none → paramsWf s.params = false → exec i s = .refused .illFormedConfig) ∧
    (s.position = none → paramsWf s.params = true →
      (∀ b, bankOf i = some b → s.banks.length ≤ b → exec i s = .refused .noSuchBank) ∧
      (s.initDone = true → exec .flashInit s = .refused .secondInit) ∧
      (∀ b < s.banks.length, ∀ d n src, n ≠ List.length src →
        exec (.writeBuff b src d n) s = .refused .lengthMismatch) ∧
      ∀ b < s.banks.length, ∀ a ds, (s.bank b).vendorId ≠ .unknown →
        (s.bank b).cmdset = .intelStyle → (s.bank b).bufferSize = 0 →
        exec (.programBufferIntel b a ds) s = .refused .noBuffer)) ∧
  ∀ p : Params, p.bankBase ≠ [] →
    (∀ a ∈ p.bankBase, a % 4 = 0 ∧ a + 0x556 * 4 < 2 ^ 32 ∧
      ∀ o ∈ commandOffsets p, a + o * 4 < 2 ^ 32) →
    1 ≤ p.maxSectors → p.defaultEraseTimeoutMs < 2 ^ 32 → p.defaultWriteTimeoutMs < 2 ^ 32 →
    p.defaultBufferWriteTimeoutMs < 2 ^ 32 → p.maxBufferWords ≤ 256 →
    (∀ e ∈ p.legacyTable, e.vendor ≠ .unknown ∧ e.cmdset ≠ .none ∧ 1 ≤ e.sectorCount ∧
      128 ≤ e.uniformSectorSize ∧ e.uniformSectorSize % 128 = 0) →
    (∀ e ∈ p.mfrCodes, e.2 ≠ .unknown) → paramsWf p = true

/-- A sequence, a status word, a count word or one of the listed command words of one variant is refused
on a bank of the other (40_identification.md R80, 93_implementation_defined.md I2). The lists leave out
RESET_INTEL, RESET_AMD, UNLOCK1 and UNLOCK2, which run on any bank: identification writes both resets and
the unlock words whatever the variant (40_identification.md R70, R71; log 12, 13; ResetCountAndDataWordsRun
and IdentCommandWordsRun). -/
def Obligations.VariantsNeverMix : Prop :=
  ∀ (s : State) (b a i : Nat) (d : Word) (ds : List Word) (n : Byte) (lock : Bool), s.Ready b →
    (s.bank b).vendorId ≠ .unknown →
    ((s.bank b).cmdset = .amdStyle →
      (∀ p ∈ intelCommandRows b a, exec p.1 s = .refused .variantMixed) ∧
      ∀ j ∈ [Instr.count b a n, .statusIntel b a, .pollReady b a i, .eraseIntel b i,
        .programWordIntel b a d, .programBufferIntel b a ds, .protectIntel b i lock],
        exec j s = .refused .variantMixed) ∧
    ((s.bank b).cmdset = .intelStyle →
      ∀ j ∈ [Instr.eraseSetup b, .amdProgram b, .sectorErase b a, .statusAmd b a, .eraseAmd b i,
        .programWordAmd b a d, .protectAmd b i lock],
        exec j s = .refused .variantMixed)

/-- A bus access at an address that is no multiple of `W` faults (20_memory.md R37,
93_implementation_defined.md I21); outside the bank's window too, where the spec gives no order of the two
stops (log 31). An aligned one outside the window is refused (R33; the window is log 18). So of every row
with an address operand, on a bank of its variant, and of WriteMerged with operands in range. The program
rows, whose sector is found first, fault at a misaligned address of a sector. -/
def Obligations.BadAddressesStop : Prop :=
  ∀ (s : State) (b a n off i : Nat) (d : Word) (k : TimeoutKind) (c : Byte) (bs : List Byte)
    (ds : List Word), s.Ready b →
    let bk := s.bank b
    let known := bk.vendorId ≠ .unknown
    let stops := fun j => (a % bk.bytes ≠ 0 → exec j s = .fault (.misalignedAccess a)) ∧
      (a % bk.bytes = 0 → bk.inWindow s.params a = false → exec j s = .refused .outsideWindow)
    let faults := fun j => a % bk.bytes ≠ 0 → exec j s = .fault (.misalignedAccess a)
    (∀ j ∈ [Instr.data b a d, .resetIntel b a, .resetAmd b a, .bankReset b a, .poll b a n k],
      stops j) ∧
    (bk.cmdset ≠ .amdStyle →
      (∀ p ∈ intelCommandRows b a, stops p.1) ∧
      ∀ j ∈ [Instr.count b a c, .statusIntel b a, .pollReady b a n], stops j) ∧
    (bk.cmdset ≠ .intelStyle → ∀ j ∈ [Instr.sectorErase b a, .statusAmd b a], stops j) ∧
    (known → bs ≠ [] → off + bs.length ≤ bk.bytes → stops (.writeMerged b a off bs)) ∧
    (known → bk.sectorOf a = some i →
      (bk.cmdset ≠ .amdStyle → faults (.programWordIntel b a d)) ∧
      (bk.cmdset ≠ .intelStyle → faults (.programWordAmd b a d)) ∧
      (bk.cmdset = .intelStyle → bk.bufferSize ≠ 0 → bufferFits bk a ds.length i = true →
        faults (.programBufferIntel b a ds)))

/-- After `flash_init` a bank's registers are constant but for the protection flags, which only the
Protect rules write, and `init_done` stays set (10_state.md R20, R25, 42_sequencer.md R96). Before it
too, a bank once known keeps its command set and its vendor until a reset: no row and no `flash_init`
identifies it again (10_state.md R21 item 5, 40_identification.md R80; log 15). -/
def Obligations.BanksConstantAfterInit : Prop :=
  (∀ (i : Instr) (s t : State) (b : Nat), s.initDone = true → s.env.resetIn = none →
    exec i s = .next t →
    t.initDone = true ∧ (s.bank b).SameBuilt (t.bank b) ∧
    (isProtectOp i = false → (t.bank b).sectors = (s.bank b).sectors)) ∧
  ∀ (i : Instr) (s t : State) (b : Nat), s.env.resetIn = none → (s.bank b).vendorId ≠ .unknown →
    exec i s = .next t →
    (t.bank b).cmdset = (s.bank b).cmdset ∧ (t.bank b).vendorId = (s.bank b).vendorId

/-- An operation on one bank neither reads nor writes another bank's registers or devices
(60_exceptions.md R125, "Banks are independent"). A row that decodes a geometry depends on the other
bank's detected range only, with which its own must not overlap (00_scope.md R9). -/
def Obligations.BanksAreIndependent : Prop :=
  ∀ (i : Instr) (s : State) (b c : Nat) (bk : Bank), bankOf i = some b → c ≠ b →
    s.env.resetIn = none →
    (isDecodeRow i = true →
      bk.baseAddress = (s.bank c).baseAddress ∧ bk.size = (s.bank c).size) →
    exec i (s.setBank c bk) = mapNext (fun t => t.setBank c bk) (exec i s)

/-- No operation moves the timer back, none takes an event off the bus trace (60_exceptions.md R123,
20_memory.md R46), and every operation that runs to its result leaves the host's interrupt enable as it
found it (42_sequencer.md R93, 60_exceptions.md R118). -/
def Obligations.TimeTraceAndInterruptEnable : Prop :=
  ∀ (i : Instr) (s t : State), exec i s = .next t →
    s.env.timer ≤ t.env.timer ∧ s.log.trace <+: t.log.trace ∧
    (s.env.resetIn = none → t.env.ie = s.env.ie)

/-- The timer's laws (60_exceptions.md R123): successive reads do not decrease, and every value is
passed after finitely many reads, whatever the environment draws. -/
def Obligations.TimerIsMonotoneAndFair : Prop :=
  ∀ s : State, (∀ k, (tickTimer^[k] s).env.timer ≤ (tickTimer^[k + 1] s).env.timer) ∧
    ∀ v, ∃ k, v < (tickTimer^[k] s).env.timer

/-- A host operation started at rest returns at rest: no position, an idle sequencer, every bank's
devices in read-array mode, whatever the result and even when a reset cuts it short
(70_reset_and_hazards.md R132, 10_state.md R18, R23). On the way `sm_state` takes only the legal
transitions, starting from `Idle` (10_state.md R24). -/
def Obligations.HostOperationsReturnToRest : Prop :=
  ∀ (i : Instr) (s t : State), isHostOp i = true → s.AtRest → exec i s = .next t →
    t.AtRest ∧ (s.env.resetIn = none →
      ∃ ms, t.log.smTrace = s.log.smTrace ++ ms ∧ legalPath .idle ms = true)

/-- Every row keeps an Unknown bank empty (10_state.md R21, item 4). -/
def Obligations.UnknownBanksStayEmpty : Prop :=
  ∀ (i : Instr) (s t : State), (∀ bk ∈ s.banks, bk.EmptyIfUnknown) →
    exec i s = .next t → ∀ bk ∈ t.banks, bk.EmptyIfUnknown

/-! ### Bus words -/

/-- The Intel-style command words with an address: one write of the replicated command byte, after
which the devices are in Command mode and `sm_state` is `CommandIssued`; nothing else changes
(30_encoding.md R52, R53, 20_memory.md R32, R42, 42_sequencer.md R88; log 13). -/
def Obligations.IntelCommandWordsRun : Prop :=
  ∀ (s : State) (b a : Nat), s.Ready b → (s.bank b).cmdset ≠ .amdStyle →
    (s.bank b).Accepts s.params a →
    ∀ p ∈ intelCommandRows b a,
      exec p.1 s = .next (((s.ran b .command false [.write a
        (replicate (commandByte s.params.cmd p.2) (s.bank b).portWidth
          (s.bank b).chipWidth)]).setSm .commandIssued).leave none)

/-- The AMD-style command words on an AMD-style bank: as the Intel-style ones, the unlock words, the
erase setup and the program command at the bank's unlock offsets (30_encoding.md R52, R53, R54,
42_sequencer.md R88; log 13). -/
def Obligations.AmdCommandWordsRun : Prop :=
  ∀ (s : State) (b a : Nat), s.Ready b → s.Inv → (s.bank b).cmdset = .amdStyle →
    (s.bank b).Accepts s.params a →
    ∀ p ∈ amdCommandRows s.params (s.bank b) b a,
      exec p.1 s = .next (((s.ran b .command false [.write p.2.1
        (replicate (commandByte s.params.cmd p.2.2) (s.bank b).portWidth
          (s.bank b).chipWidth)]).setSm .commandIssued).leave none)

/-- The command words of identification, READ_ID and CFI_QUERY on a bank of any variant, the unlock
words on a bank that is not AMD-style: one write at the bank's command offset; `sm_state`, which
identification has no part in, stays (30_encoding.md R52 to R54, 40_identification.md R71, R72; log
13). -/
def Obligations.IdentCommandWordsRun : Prop :=
  ∀ (s : State) (b : Nat), s.Ready b → s.Inv →
    ∀ p ∈ identCommandRows s.params (s.bank b) b,
      exec p.1 s = .next ((s.ran b .command false [.write p.2.1
        (replicate (commandByte s.params.cmd p.2.2) (s.bank b).portWidth
          (s.bank b).chipWidth)]).leave none)

/-- The reset words: the bank's own reset-to-read-array command takes the devices to read-array mode
and `sm_state` to `Idle`; RESET_INTEL right after RESET_AMD, the two writes of a reset while no command
set is selected, takes the devices to read-array mode whatever the bank; any other reset word is a write
like any other (30_encoding.md R53, 20_memory.md R42, 40_identification.md R70, 42_sequencer.md R87; log
12). A count word is replicated like a command byte, a data word is written as given (30_encoding.md
R52, 20_memory.md R32, 42_sequencer.md R100; log 13, 16). -/
def Obligations.ResetCountAndDataWordsRun : Prop :=
  ∀ (s : State) (b a : Nat) (n : Byte) (d : Word), s.Ready b → (s.bank b).Accepts s.params a →
    let rep := fun v => replicate v (s.bank b).portWidth (s.bank b).chipWidth
    let wrote := fun m last w => s.ran b m last [.write a w]
    exec (.resetIntel b a) s = .next (
      (if (s.bank b).cmdset = .intelStyle then
        (wrote .readArray false (rep s.params.cmd.resetIntel)).setSm .idle
        else wrote (if (s.bank b).device.afterResetAmd = true then .readArray else .command) false
          (rep s.params.cmd.resetIntel)).leave none) ∧
    exec (.resetAmd b a) s = .next (
      (if (s.bank b).cmdset = .amdStyle then
        (wrote .readArray true (rep s.params.cmd.resetAmd)).setSm .idle
        else wrote .command true (rep s.params.cmd.resetAmd)).leave none) ∧
    ((s.bank b).cmdset ≠ .amdStyle →
      exec (.count b a n) s =
        .next (((wrote .command false (rep n)).setSm .commandIssued).leave none)) ∧
    exec (.data b a d) s =
      .next (((wrote .command false (toPort (s.bank b).portWidth d)).setSm .commandIssued).leave
        none)

/-- A status word read by itself: one read and the test of its variant; on "not done" the word becomes
the reference of the next AMD-style comparison (30_encoding.md R56, R57, 42_sequencer.md R89; log
13). -/
def Obligations.StatusWordsRun : Prop :=
  ∀ (s : State) (b a : Nat), s.Ready b → (s.bank b).Accepts s.params a →
    let w := (answer b a s).1
    let u := (answer b a s).2.note (.read a w)
    let after := fun v : Verdict =>
      ((if v = .notDone then (u.setSm (smOfVerdict v)).setPollPrev w
        else u.setSm (smOfVerdict v)).leave (some (.verdict v)))
    ((s.bank b).cmdset ≠ .amdStyle → exec (.statusIntel b a) s = .next (after
      (intelVerdict s.params.status (s.bank b).portWidth (s.bank b).chipWidth w))) ∧
    ((s.bank b).cmdset ≠ .intelStyle → exec (.statusAmd b a) s = .next (after
      (amdVerdict s.params.amdToggleMask (s.bank b).portWidth (s.bank b).chipWidth
        s.seq.pollPrev w)))

/-- A read in read-array mode inside the array returns the word its bytes make and changes nothing; any
other read leaves the registers and the array (20_memory.md R43). -/
def Obligations.ReadArrayReturnsStoredWord : Prop :=
  ∀ (s : State) (b a : Nat),
    ((s.bank b).device.mode = .readArray → (s.bank b).inArray a (s.bank b).bytes = true →
      answer b a s = (s.arrayWord b a, s)) ∧
    (answer b a s).2.banks = s.banks ∧ (answer b a s).2.memory = s.memory ∧
    (answer b a s).2.seq = s.seq

/-- BankReset: the reset command of the bank's variant at the address, read-array mode, an idle
sequencer; while no command set is selected, both resets (42_sequencer.md R87, 30_encoding.md R53; log
21). IdentReset: both reset commands at the base, and read-array mode (40_identification.md R70).
ReadIdEnter: the unlock prefix and READ_ID, in order (R71). -/
def Obligations.ResetAndReadIdSequencesRun : Prop :=
  ∀ (s : State) (b : Nat), s.Ready b →
    (∀ a, (s.bank b).Accepts s.params a → exec (.bankReset b a) s = .next
      (((s.ran b .readArray (decide ((s.bank b).cmdset = .amdStyle))
        (writeEvents (s.resetWrites b a))).setSm .idle).leave none)) ∧
    (s.Inv →
      let base := (s.bank b).baseAddress
      let o1 := base + s.params.amdUnlockOff1 * (s.bank b).bytes
      let o2 := base + s.params.amdUnlockOff2 * (s.bank b).bytes
      exec (.identReset b) s = .next ((s.ran b .readArray false (writeEvents
        (s.commandWrites b [(base, .resetAmd), (base, .resetIntel)]))).leave none) ∧
      exec (.readIdEnter b) s = .next ((s.ran b .command false (writeEvents
        (s.commandWrites b [(o1, .unlock1), (o2, .unlock2), (o1, .readId)]))).leave none))

/-! ### Polls -/

/-- A poll always returns (60_exceptions.md R123, 70_reset_and_hazards.md R138), and its trace is a run
of the loop of 42_sequencer.md R89: the start time; on an AMD-style bank a toggle reference; then
status reads at the poll address, each tested before the timer, until a word is done or the first time
past the budget; then only the reset to read-array. The result is the one that run has: `Done` when the
devices answer done at once, the timeout kind on a bank without a command set, which has no done
pattern. The poll registers hold the address, the budget, the start time and the last reference
(10_state.md R23). -/
def Obligations.PollRunsItsLoop : Prop :=
  ∀ (s : State) (b a budget : Nat) (kind : TimeoutKind), s.Ready b →
    (s.bank b).Accepts s.params a →
    ∃ t t0 es o, exec (.poll b a budget kind) s = .next t ∧
      t.log.trace = s.log.trace ++ .timer t0 :: es ++ writeEvents (s.resetWrites b a) ∧
      pollTraceOutcome s.params (s.bank b) a t0 budget es = some o ∧
      t.result = some (.status (kindOfOutcome (kindOfTimeout kind) o)) ∧
      ((s.bank b).device.mode = .command → s.DoneNext b 2 → o = some .done) ∧
      ((s.bank b).cmdset = .none → o = none) ∧
      t.seq = polledSeq a budget t0 (pollPrevOf (s.bank b).cmdset s.seq.pollPrev es)
        s.seq.savedIrq ∧
      State.Settled b s t ∧ (s.bank b).SameRegs (t.bank b) ∧ t.memory = s.memory

/-- PollReady always returns: ready, with the device left mid-sequence and no write; or expired, reset
to read-array (42_sequencer.md R90). The poll registers are those of the poll (10_state.md R23). -/
def Obligations.PollReadyRunsItsLoop : Prop :=
  ∀ (s : State) (b a budget : Nat), s.Ready b → (s.bank b).Accepts s.params a →
    (s.bank b).cmdset ≠ .amdStyle →
    ∃ t t0 es o, exec (.pollReady b a budget) s = .next t ∧
      pollOutcome (readyVerdict s.params (s.bank b)) a t0 budget 0 es = some o ∧
      ((s.bank b).device.mode = .command → (s.bank b).cmdset = .intelStyle → s.DoneNext b 1 →
        o = some .done) ∧
      State.Frame b s t ∧ (s.bank b).SameRegs (t.bank b) ∧ t.memory = s.memory ∧
      let regs := polledSeq a budget t0 (pollPrevAfter s.seq.pollPrev es) s.seq.savedIrq
      match o with
      | some _ => t.result = some .ready ∧ t.seq = { regs with smState := .commandIssued } ∧
        (t.bank b).device = (s.bank b).device ∧
        t.log.trace = s.log.trace ++ .timer t0 :: es
      | none => t.result = some (.status .bufferWriteTimeout) ∧ t.seq = regs ∧
        (t.bank b).device.mode = .readArray ∧
        t.log.trace = s.log.trace ++ .timer t0 :: es ++ writeEvents (s.resetWrites b a)

/-! ### Erase -/

/-- Erase on an Intel-style bank (42_sequencer.md R91, R94, R96, R104, 20_memory.md R44): the lock gate
and its poll with `erase_timeout`; if that poll is not `Done` its kind is the result and nothing follows
its reset; if it is, the block erase and its poll with `erase_timeout`, whose kind is the result. Every
access is at the sector's start; the poll registers are those of the last poll; no register of the bank
changes; outside the sector the array is as it was, and on `Done` the sector is all-ones. -/
def Obligations.EraseIntelOutcome : Prop :=
  ∀ (s : State) (b i : Nat), s.Known b → (s.bank b).cmdset = .intelStyle →
    i < (s.bank b).sectorCount →
    let a := (s.bank b).sectorStart i
    let e := (s.bank b).sectorEnd i
    let budget := (s.bank b).eraseTimeout
    let gate := writeEvents (s.commandWrites b
      [(a, .resetIntel), (a, .clearStatus), (a, .lockSetup), (a, .lockClear)])
    let blockErase := writeEvents (s.commandWrites b
      ([(a, .clearStatus), (a, .blockErase), (a, .eraseConfirm)] ++
        if (s.bank b).resumeAfterErase then [(a, .resume)] else []))
    let reset := writeEvents (s.resetWrites b a)
    let poll := pollTraceOutcome s.params (s.bank b) a
    ∃ t k es t1 p1 o1, exec (.eraseIntel b i) s = .next t ∧ t.result = some (.status k) ∧
      (k = .ok ∨ k = .eraseTimeout ∨ ∃ sub, k = .hardwareError sub) ∧
      (s.DoneNext b 2 → k = .ok) ∧
      t.log.trace = s.log.trace ++ es ∧ (∀ x ∈ accessesOf es, x = a) ∧
      poll t1 budget p1 = some o1 ∧
      (if kindOfOutcome .eraseTimeout o1 = .ok then
        ∃ t2 p2 o2, poll t2 budget p2 = some o2 ∧ k = kindOfOutcome .eraseTimeout o2 ∧
          es = gate ++ .timer t1 :: p1 ++ reset ++ blockErase ++ .timer t2 :: p2 ++ reset ∧
          t.seq = polledSeq a budget t2 (pollPrevAfter (pollPrevAfter s.seq.pollPrev p1) p2)
            s.seq.savedIrq
      else k = kindOfOutcome .eraseTimeout o1 ∧ es = gate ++ .timer t1 :: p1 ++ reset ∧
        t.seq = polledSeq a budget t1 (pollPrevAfter s.seq.pollPrev p1) s.seq.savedIrq) ∧
      State.Settled b s t ∧ (s.bank b).SameRegs (t.bank b) ∧
      State.SameOutside a (e - a) s t ∧
      (k = .ok → ∀ x, a ≤ x → x < e → Memory.read t.memory x = 0xFF)

/-- Erase on an AMD-style bank (42_sequencer.md R91, R95, R96, 20_memory.md R44): the six unlocked
writes, the poll at the sector's start with `erase_timeout`, whose kind is the result, the reset; never a
hardware error; the bank as it was, its devices' lock bits too (log 10); outside the sector the array is as
it was, and on `Done` the sector is all-ones. -/
def Obligations.EraseAmdOutcome : Prop :=
  ∀ (s : State) (b i : Nat), s.Known b → (s.bank b).cmdset = .amdStyle →
    i < (s.bank b).sectorCount →
    let a := (s.bank b).sectorStart i
    let e := (s.bank b).sectorEnd i
    let budget := (s.bank b).eraseTimeout
    let o1 := (s.bank b).baseAddr s.params.amdUnlockOff1
    let o2 := (s.bank b).baseAddr s.params.amdUnlockOff2
    ∃ t k t0 es o, exec (.eraseAmd b i) s = .next t ∧ t.result = some (.status k) ∧
      (k = .ok ∨ k = .eraseTimeout) ∧ (s.DoneNext b 2 → k = .ok) ∧
      t.log.trace = s.log.trace ++ writeEvents (s.commandWrites b [(o1, .unlock1), (o2, .unlock2),
        (o1, .eraseSetup), (o1, .unlock1), (o2, .unlock2), (a, .sectorErase)]) ++
        .timer t0 :: es ++ writeEvents (s.resetWrites b a) ∧
      pollTraceOutcome s.params (s.bank b) a t0 budget es = some o ∧
      k = kindOfOutcome .eraseTimeout o ∧ writesOf es = [] ∧ (∀ x ∈ accessesOf es, x = a) ∧
      t.seq = polledSeq a budget t0 (pollPrevOf .amdStyle s.seq.pollPrev es) s.seq.savedIrq ∧
      State.Settled b s t ∧ (s.bank b).SameRegs (t.bank b) ∧
      (t.bank b).device.lockBits = (s.bank b).device.lockBits ∧
      State.SameOutside a (e - a) s t ∧
      (k = .ok → ∀ x, a ≤ x → x < e → Memory.read t.memory x = 0xFF)

/-! ### Single-word program -/

/-- A single-word program of bits the array does not have set fails with `NotErased` and its address:
one read, no write, nothing else changed (42_sequencer.md R97). A word of all ones, of which R98
contradicts itself, is no exception (log 32). -/
def Obligations.ProgramNotErasedIssuesNoCommand : Prop :=
  ∀ (s : State) (b a i : Nat) (d : Word), s.Known b → (s.bank b).device.mode = .readArray →
    a % (s.bank b).bytes = 0 → (s.bank b).sectorOf a = some i →
    s.arrayWord b a &&& toPort (s.bank b).portWidth d ≠ toPort (s.bank b).portWidth d →
    ((s.bank b).cmdset = .intelStyle → exec (.programWordIntel b a d) s =
      .next ((s.note (.read a (s.arrayWord b a))).leave (some (.status (.notErased a))))) ∧
    ((s.bank b).cmdset = .amdStyle → exec (.programWordAmd b a d) s =
      .next ((s.note (.read a (s.arrayWord b a))).leave (some (.status (.notErased a)))))

/-- A single-word program of an Intel-style bank whose precondition holds (42_sequencer.md R91, R93,
R98, 20_memory.md R44): the exact events up to the restore of the interrupt state, a poll at the sector's
start with `write_timeout`, whose kind is the result, the reset; on `Done` the word is there; no other byte
changes on any result. The poll registers are the poll's, and `saved_irq` the interrupt enable before
(10_state.md R23). -/
def Obligations.ProgramWordIntelOutcome : Prop :=
  ∀ (s : State) (b a i : Nat) (d : Word), s.Known b → (s.bank b).device.mode = .readArray →
    (s.bank b).cmdset = .intelStyle → a % (s.bank b).bytes = 0 →
    (s.bank b).sectorOf a = some i →
    let v := toPort (s.bank b).portWidth d
    let base := (s.bank b).sectorStart i
    let budget := (s.bank b).writeTimeout
    s.arrayWord b a &&& v = v →
    ∃ t k t0 es o, exec (.programWordIntel b a d) s = .next t ∧ t.result = some (.status k) ∧
      (k = .ok ∨ k = .programTimeout ∨ ∃ sub, k = .hardwareError sub) ∧
      (s.DoneNext b 1 → k = .ok) ∧
      t.log.trace = s.log.trace ++ [.read a (s.arrayWord b a), .irqOff,
        .write base (s.commandWord b .clearStatus), .write base (s.commandWord b .program),
        .write a v, .irqRestore] ++ .timer t0 :: es ++ writeEvents (s.resetWrites b base) ∧
      pollTraceOutcome s.params (s.bank b) base t0 budget es = some o ∧
      k = kindOfOutcome .programTimeout o ∧ writesOf es = [] ∧ (∀ x ∈ accessesOf es, x = base) ∧
      t.seq = polledSeq base budget t0 (pollPrevAfter s.seq.pollPrev es) s.env.ie ∧
      State.Settled b s t ∧ (s.bank b).SameRegs (t.bank b) ∧
      State.SameOutside a (s.bank b).bytes s t ∧ (k = .ok → t.arrayWord b a = v)

/-- A single-word program of an AMD-style bank whose precondition holds (42_sequencer.md R91, R93, R99,
20_memory.md R44): the unlock cycles and the data write inside the masked window, a poll at the data
address with `write_timeout`, whose kind is the result, the reset; never a hardware error. The poll
registers are the poll's, and `saved_irq` the interrupt enable before (10_state.md R23). -/
def Obligations.ProgramWordAmdOutcome : Prop :=
  ∀ (s : State) (b a i : Nat) (d : Word), s.Known b → (s.bank b).device.mode = .readArray →
    (s.bank b).cmdset = .amdStyle → a % (s.bank b).bytes = 0 →
    (s.bank b).sectorOf a = some i →
    let v := toPort (s.bank b).portWidth d
    let o1 := (s.bank b).baseAddr s.params.amdUnlockOff1
    let o2 := (s.bank b).baseAddr s.params.amdUnlockOff2
    let budget := (s.bank b).writeTimeout
    s.arrayWord b a &&& v = v →
    ∃ t k t0 es o, exec (.programWordAmd b a d) s = .next t ∧ t.result = some (.status k) ∧
      (k = .ok ∨ k = .programTimeout) ∧ (s.DoneNext b 2 → k = .ok) ∧
      t.log.trace = s.log.trace ++ [.read a (s.arrayWord b a), .irqOff,
        .write o1 (s.commandWord b .unlock1), .write o2 (s.commandWord b .unlock2),
        .write o1 (s.commandWord b .amdProgram), .write a v, .irqRestore] ++ .timer t0 :: es ++
        writeEvents (s.resetWrites b a) ∧
      pollTraceOutcome s.params (s.bank b) a t0 budget es = some o ∧
      k = kindOfOutcome .programTimeout o ∧ writesOf es = [] ∧ (∀ x ∈ accessesOf es, x = a) ∧
      t.seq = polledSeq a budget t0 (pollPrevOf .amdStyle s.seq.pollPrev es) s.env.ie ∧
      State.Settled b s t ∧ (s.bank b).SameRegs (t.bank b) ∧
      State.SameOutside a (s.bank b).bytes s t ∧ (k = .ok → t.arrayWord b a = v)

/-! ### Buffered program -/

/-- A buffered program with a word that the array cannot take fails with `NotErased` and the address of
the first such word, after all the reads and before any write (42_sequencer.md R100). A word of all ones is
no exception (log 32). -/
def Obligations.ProgramBufferNotErased : Prop :=
  ∀ (s : State) (b a i j : Nat) (ds : List Word), s.Known b →
    (s.bank b).device.mode = .readArray → (s.bank b).cmdset = .intelStyle →
    0 < (s.bank b).bufferSize → a % (s.bank b).bytes = 0 → (s.bank b).sectorOf a = some i →
    bufferFits (s.bank b) a ds.length i = true → j < ds.length →
    let w := (s.bank b).bytes
    let old := fun k => s.arrayWord b (a + k * w)
    let new := fun k => toPort (s.bank b).portWidth (ds.getD k 0)
    (∀ k < j, old k &&& new k = new k) → old j &&& new j ≠ new j →
    exec (.programBufferIntel b a ds) s =
      .next ((s.saw ((List.range ds.length).map fun k => .read (a + k * w) (old k))).leave
        (some (.status (.notErased (a + j * w)))))

/-- A buffered program whose precondition holds (42_sequencer.md R90, R91, R93, R100, 20_memory.md R44):
the reads, then inside the masked window the write-to-buffer command and the ready poll with
`buffer_write_timeout`; if that expired, the reset, the restore and nothing more; else the count word, the
data words in order, the confirm and at once the restore, then the completion poll with
`buffer_write_timeout`, whose kind is the result, and the reset. On `Done` every word is there; no other
byte changes. The poll registers are the last poll's, and `saved_irq` the interrupt enable before
(10_state.md R23). -/
def Obligations.ProgramBufferOutcome : Prop :=
  ∀ (s : State) (b a i : Nat) (ds : List Word), s.Known b →
    (s.bank b).device.mode = .readArray → (s.bank b).cmdset = .intelStyle →
    0 < (s.bank b).bufferSize → a % (s.bank b).bytes = 0 → (s.bank b).sectorOf a = some i →
    bufferFits (s.bank b) a ds.length i = true →
    let w := (s.bank b).bytes
    let base := (s.bank b).sectorStart i
    let budget := (s.bank b).bufferWriteTimeout
    let old := fun k => s.arrayWord b (a + k * w)
    let new := fun k => toPort (s.bank b).portWidth (ds.getD k 0)
    let reset := writeEvents (s.resetWrites b base)
    let opened := fun t1 p1 => s.log.trace ++
      ((List.range ds.length).map fun k => .read (a + k * w) (old k)) ++
      [.irqOff, .write base (s.commandWord b .writeToBuffer)] ++ .timer t1 :: p1
    (∀ k < ds.length, old k &&& new k = new k) →
    ∃ t k t1 p1 r, exec (.programBufferIntel b a ds) s = .next t ∧ t.result = some (.status k) ∧
      (k = .ok ∨ k = .bufferWriteTimeout ∨ ∃ sub, k = .hardwareError sub) ∧
      (s.DoneNext b 2 → k = .ok) ∧
      pollOutcome (readyVerdict s.params (s.bank b)) base t1 budget 0 p1 = some r ∧
      (match r with
        | none => k = .bufferWriteTimeout ∧ t.log.trace = opened t1 p1 ++ reset ++ [.irqRestore] ∧
          t.seq = polledSeq base budget t1 (pollPrevAfter s.seq.pollPrev p1) s.env.ie
        | some _ => ∃ t2 p2 o, pollTraceOutcome s.params (s.bank b) base t2 budget p2 = some o ∧
          k = kindOfOutcome .bufferWriteTimeout o ∧
          t.log.trace = opened t1 p1 ++ writeEvents
            ((base, (s.bank b).rep (BitVec.ofNat 8 (ds.length - 1))) ::
              ((List.range ds.length).map fun k => (a + k * w, new k)) ++
              s.commandWrites b [(base, .bufferConfirm)]) ++
            .irqRestore :: .timer t2 :: p2 ++ reset ∧
          t.seq = polledSeq base budget t2
            (pollPrevAfter (pollPrevAfter s.seq.pollPrev p1) p2) s.env.ie) ∧
      State.Settled b s t ∧ (s.bank b).SameRegs (t.bank b) ∧
      State.SameOutside a (ds.length * w) s t ∧
      (k = .ok → ∀ j < ds.length, t.arrayWord b (a + j * w) = new j)

/-! ### Protect -/

/-- Protect on an Intel-style bank (42_sequencer.md R91, R102): the three writes, the poll with
`erase_timeout`, whose kind is the result, the reset; the sector's flag becomes `lock` on `Done` only, and
no other flag and no byte of the array changes. On `Done` the device's lock bit of the sector is `lock`
(10_state.md R28; log 10). -/
def Obligations.ProtectIntelOutcome : Prop :=
  ∀ (s : State) (b i : Nat) (lock : Bool), s.Known b → (s.bank b).cmdset = .intelStyle →
    i < (s.bank b).sectorCount →
    let a := (s.bank b).sectorStart i
    let budget := (s.bank b).eraseTimeout
    ∃ t k t0 es o, exec (.protectIntel b i lock) s = .next t ∧ t.result = some (.status k) ∧
      (k = .ok ∨ k = .protectTimeout ∨ ∃ sub, k = .hardwareError sub) ∧
      (s.DoneNext b 1 → k = .ok) ∧
      t.log.trace = s.log.trace ++ writeEvents (s.commandWrites b [(a, .clearStatus),
        (a, .lockSetup), (a, if lock then .lockSet else .lockClear)]) ++ .timer t0 :: es ++
        writeEvents (s.resetWrites b a) ∧
      pollTraceOutcome s.params (s.bank b) a t0 budget es = some o ∧
      k = kindOfOutcome .protectTimeout o ∧ writesOf es = [] ∧ (∀ x ∈ accessesOf es, x = a) ∧
      t.seq = polledSeq a budget t0 (pollPrevAfter s.seq.pollPrev es) s.seq.savedIrq ∧
      State.Settled b s t ∧ (s.bank b).SameBuilt (t.bank b) ∧ t.memory = s.memory ∧
      (k = .ok → (t.bank b).device.lockBits[i]? = some lock) ∧
      ∀ j < (s.bank b).sectorCount, (t.bank b).sectorProtected j =
        if k = .ok ∧ j = i then lock else (s.bank b).sectorProtected j

/-- Protect on an AMD-style bank: the flag and nothing else (42_sequencer.md R103). -/
def Obligations.ProtectAmdSetsFlagOnly : Prop :=
  ∀ (s : State) (b i : Nat) (lock : Bool), s.Known b → (s.bank b).cmdset = .amdStyle →
    i < (s.bank b).sectorCount →
    ∃ t, exec (.protectAmd b i lock) s = .next t ∧ t.result = some (.status .ok) ∧
      t.log = s.log ∧ t.seq = s.seq ∧ t.env = s.env ∧ t.memory = s.memory ∧
      State.Frame b s t ∧ (t.bank b).device = (s.bank b).device ∧
      (s.bank b).SameBuilt (t.bank b) ∧
      ∀ j < (s.bank b).sectorCount, (t.bank b).sectorProtected j =
        if j = i then lock else (s.bank b).sectorProtected j

/-- ProtectSector (43_facade.md R110). AMD-style: the flag, with no bus access. Intel-style lock: one
Protect. Intel-style unlock: the unlock, then a lock of each other protected sector in ascending order,
`n` of them, up to the first failure. No flag but the sector's own ever changes; it becomes `lock` exactly
if its own Protect was `Done`, that is on `Done` or when a re-lock followed; so a failed re-lock leaves
its sector's flag true. After an unlock that is `Done` the devices' lock bits agree with the flags
(70_reset_and_hazards.md R133; log 10). -/
def Obligations.ProtectSectorOutcome : Prop :=
  ∀ (s : State) (b i : Nat) (lock : Bool), s.Known b → (s.bank b).device.mode = .readArray →
    s.seq.smState = .idle → i < (s.bank b).sectorCount →
    let others := (List.range (s.bank b).sectorCount).filter fun j =>
      j != i && (s.bank b).sectorProtected j
    ∃ t k es n, exec (.protectSector b i lock) s = .next t ∧ t.result = some (.status k) ∧
      (k = .ok ∨ k = .protectTimeout ∨ ∃ sub, k = .hardwareError sub) ∧
      (∀ n, (s.bank b).sectorCount ≤ n → s.DoneNext b n → k = .ok) ∧
      t.log.trace = s.log.trace ++ es ∧
      State.Settled b s t ∧ (s.bank b).SameBuilt (t.bank b) ∧ t.memory = s.memory ∧
      n ≤ others.length ∧
      (∀ j < (s.bank b).sectorCount, (t.bank b).sectorProtected j =
        if j = i ∧ (k = .ok ∨ 0 < n) then lock else (s.bank b).sectorProtected j) ∧
      ((s.bank b).cmdset = .amdStyle → k = .ok ∧ es = [] ∧ n = 0) ∧
      ((s.bank b).cmdset = .intelStyle →
        writesOf es = s.protectWrites b i lock ++
          (others.take n).flatMap (fun j => s.protectWrites b j true) ∧
        (lock = true → n = 0) ∧
        (lock = false → k = .ok → n = others.length ∧
          (t.bank b).device.lockBits = (t.bank b).sectors.map Sector.isProtected))

/-! ### Identification and geometry -/

/-- Identify (40_identification.md R69 to R77): it runs the passes the devices' answers lead to, in the
order of the pairs, with a second pass at the other lane order only after two non-zero response bytes, at
most 10; its bus trace is theirs. If the last one identifies the bank, the bank is the one its answers
make, and Identify ends there; otherwise both resets follow at the widths of the last pair, and the bank,
with those widths, is Unknown and empty. It takes just those answers, which are the devices' in order (log
7), and leaves the devices in read-array mode and the array as it was. It is refused instead exactly when
the range identified ends at or past `2 ^ 32` or overlaps another bank's (00_scope.md R9; log 22). -/
def Obligations.IdentifyOutcome : Prop :=
  ∀ (s : State) (b : Nat), s.Ready b → s.Inv → s.initDone = false →
    (s.bank b).vendorId = .unknown →
    let passes := s.passes (s.bank b) (pairsFrom s.params.minPortWidth) 0
    let events := passes.flatMap Pass.events
    let taken := (passes.map Pass.answers).sum
    let ended := fun t : State => t.result = none ∧ State.Frame b s t ∧ t.memory = s.memory ∧
      t.seq = s.seq ∧ t.env.timer = s.env.timer ∧ (t.bank b).EmptyIfUnknown ∧
      (t.bank b).device = { (s.bank b).device with mode := .readArray, afterResetAmd := false } ∧
      ∀ k, t.answerAt k = s.answerAt (taken + k)
    passes.length ≤ 10 ∧ ∃ last, passes.getLast? = some last ∧
      match last.found with
      | some bk =>
        bk.vendorId ≠ .unknown ∧ bk.cmdset ≠ .none ∧ bk.geometryPath ≠ .none ∧
        (s.RangeOk b (bk.baseAddress + bk.size) →
          ∃ t, exec (.identify b) s = .next t ∧ ended t ∧ bk.SameRegs (t.bank b) ∧
            t.log.trace = s.log.trace ++ events) ∧
        (¬ s.RangeOk b (bk.baseAddress + bk.size) →
          exec (.identify b) s = .refused .illFormedConfig)
      | none =>
        ∃ t, exec (.identify b) s = .next t ∧ ended t ∧
          Bank.SameRegs { last.bank with geometryPath := .none } (t.bank b) ∧
          t.log.trace = s.log.trace ++ events ++ last.bank.commandEvents s.params
            [((s.bank b).baseAddress, .resetAmd), ((s.bank b).baseAddress, .resetIntel)]

/-- IdentCFI (40_identification.md R74, 30_encoding.md R58 to R61, 41_geometry.md R81 to R84): two reads
of the primary id; rejected if it names no command set, with nothing written; else the reads of DecodeCFI,
both resets, the read-ID entry, the two codes, both resets; and the bank is the one the words read make,
with the command set of the id, the vendor of the manufacturer code (R78), the resume capability (R79), the
CFI path. It is refused instead exactly when the range decoded ends at or past `2 ^ 32` or overlaps another
bank's (00_scope.md R9; log 22). The words read are the devices' answers in order (log 7). -/
def Obligations.IdentCfiOutcome : Prop :=
  ∀ (s : State) (b : Nat), s.Ready b → s.Inv → s.initDone = false →
    (s.bank b).vendorId = .unknown →
    let bk := s.bank b
    let cfi := s.params.cfi
    let w := s.wordAt bk
    let q := fun k => queryByteIn bk (w k)
    let cs := primarySet cfi (u16At q 0)
    let n := (q 10).toNat
    let ids := 11 + 4 * n
    let found := cfiNamed s.params (cfiBank s.params { bk with cmdset := cs } fun k => q (2 + k))
      (idCodeIn bk (w ids)) (idCodeIn bk (w (ids + 1)))
    let o1 := bk.baseAddr s.params.amdUnlockOff1
    let o2 := bk.baseAddr s.params.amdUnlockOff2
    let resets := writeEvents (s.commandWrites b
      [(bk.baseAddress, .resetAmd), (bk.baseAddress, .resetIntel)])
    let pid := readEvents bk w [cfi.primaryId, cfi.primaryId + 1]
    let ended := fun t => State.Frame b s t ∧ t.memory = s.memory ∧ t.seq = s.seq
    (cs = .none → ∃ t, exec (.identCfi b) s = .next t ∧ t.result = some (.ident false) ∧ ended t ∧
      t.bank b = bk ∧ t.log.trace = s.log.trace ++ pid) ∧
    (cs ≠ .none → s.RangeOk b (found.baseAddress + found.size) →
      ∃ t, exec (.identCfi b) s = .next t ∧ t.result = some (.ident true) ∧ ended t ∧
        found.SameRegs (t.bank b) ∧ (t.bank b).device.mode = .readArray ∧
        t.log.trace = s.log.trace ++ pid ++
          readEvents bk (fun k => w (2 + k)) (cfiOffsets cfi n) ++ resets ++
          writeEvents (s.commandWrites b [(o1, .unlock1), (o2, .unlock2), (o1, .readId)]) ++
          readEvents bk (fun k => w (ids + k)) [0, 1] ++ resets) ∧
    (cs ≠ .none → ¬ s.RangeOk b (found.baseAddress + found.size) →
      exec (.identCfi b) s = .refused .illFormedConfig)

/-- IdentLegacy (40_identification.md R75, R79, 41_geometry.md R85): the bank with the entry's vendor and
command set, the codes, the legacy path, the resume capability, and the entry's geometry; no bus access. A
range that ends at or past `2 ^ 32` (where R9 and R81 differ by one, the model follows R81, log 22) or
overlaps another bank's is refused (00_scope.md R9). A pair outside the table does not match, and nothing
changes (30_encoding.md R66; log 28). -/
def Obligations.IdentLegacyOutcome : Prop :=
  ∀ (s : State) (b : Nat) (m d : ChipId), s.Ready b → s.initDone = false →
    (s.bank b).vendorId = .unknown →
    match s.params.legacyTable.find? fun e => e.mfrId == m && e.deviceId == d with
    | none => exec (.identLegacy b m d) s = .next (s.leave (some (.ident false)))
    | some e =>
      let ssize := e.uniformSectorSize * ((s.bank b).portWidth.bits / (s.bank b).chipWidth.bits)
      let count := min e.sectorCount s.params.maxSectors
      (s.RangeOk b ((s.bank b).baseAddress + count * ssize) →
        exec (.identLegacy b m d) s = .next ((s.setBank b { s.bank b with
          vendorId := e.vendor
          cmdset := e.cmdset
          mfrId := m
          deviceId := d
          geometryPath := .legacy
          resumeAfterErase := e.cmdset == .intelStyle && !s.params.noResumeDevices.contains d
          sectors := (List.range count).map fun i =>
            { startAddress := (s.bank b).baseAddress + i * ssize, isProtected := false }
          size := count * ssize
          eraseTimeout := s.params.defaultEraseTimeoutMs
          writeTimeout := s.params.defaultWriteTimeoutMs
          bufferWriteTimeout := s.params.defaultBufferWriteTimeoutMs
          bufferSize := 0
          truncationWarnings := (s.bank b).truncationWarnings +
            if s.params.maxSectors < e.sectorCount then 1 else 0 }).leave
              (some (.ident true)))) ∧
      (¬ s.RangeOk b ((s.bank b).baseAddress + count * ssize) →
        exec (.identLegacy b m d) s = .refused .illFormedConfig)

/-- DecodeLegacy (41_geometry.md R85) of a known bank: with the entry of the bank's codes, `count`
sectors of `ssize = uniform_sector_size * MUX` bytes from the base upward, all unprotected, the default
timeouts, no buffer, one warning if the table is too small; no bus access. A range that ends at or past
`2 ^ 32` (log 22) or overlaps another bank's is refused (00_scope.md R9). Without an entry nothing changes
(log 28). On an Unknown bank it is `UnknownDevice` at once (log 14). -/
def Obligations.DecodeLegacyOutcome : Prop :=
  ∀ (s : State) (b : Nat), s.Ready b → s.initDone = false →
    ((s.bank b).vendorId = .unknown →
      exec (.decodeLegacy b) s = .next (s.leave (some (.status .unknownDevice)))) ∧
    ((s.bank b).vendorId ≠ .unknown →
    match s.params.legacyTable.find? fun e =>
      e.mfrId == (s.bank b).mfrId && e.deviceId == (s.bank b).deviceId with
    | none => exec (.decodeLegacy b) s = .next (s.leave (some (.ident false)))
    | some e =>
      let ssize := e.uniformSectorSize * ((s.bank b).portWidth.bits / (s.bank b).chipWidth.bits)
      let count := min e.sectorCount s.params.maxSectors
      (s.RangeOk b ((s.bank b).baseAddress + count * ssize) →
        exec (.decodeLegacy b) s = .next ((s.setBank b { s.bank b with
          sectors := (List.range count).map fun i =>
            { startAddress := (s.bank b).baseAddress + i * ssize, isProtected := false }
          size := count * ssize
          eraseTimeout := s.params.defaultEraseTimeoutMs
          writeTimeout := s.params.defaultWriteTimeoutMs
          bufferWriteTimeout := s.params.defaultBufferWriteTimeoutMs
          bufferSize := 0
          truncationWarnings := (s.bank b).truncationWarnings +
            if s.params.maxSectors < e.sectorCount then 1 else 0 }).leave
              (some (.ident true)))) ∧
      (¬ s.RangeOk b ((s.bank b).baseAddress + count * ssize) →
        exec (.decodeLegacy b) s = .refused .illFormedConfig))

/-- DecodeCFI (41_geometry.md R81 to R84, 30_encoding.md R58 to R63) of a known bank: it reads exactly
the offsets of the CFI fields, in order, with as many region descriptors as the count it reads says; and
the bank is the one the bytes of those words make: the region walk, the normalised timeouts, the buffer
size, the warning; no other register changes. In query mode the words are the devices' answers in order
(log 7). The table never overflows, timeouts are at least 1 (70_reset_and_hazards.md R136), the buffer is
a whole number of words. It is refused instead exactly when the range decoded ends at or past `2 ^ 32` or
overlaps another bank's (00_scope.md R9; log 22). On an Unknown bank it is `UnknownDevice` at once (log
14). -/
def Obligations.DecodeCfiOutcome : Prop :=
  ∀ (s : State) (b : Nat), s.Ready b → s.Inv → s.initDone = false →
    let bk := s.bank b
    let w := fun k => (s.wordsAt b 0 (cfiOffsets s.params.cfi 255)).getD k 0
    let q := fun k => queryByteIn bk (w k)
    let offs := cfiOffsets s.params.cfi (q 8).toNat
    let decoded := cfiBank s.params bk q
    (bk.vendorId = .unknown →
      exec (.decodeCfi b) s = .next (s.leave (some (.status .unknownDevice)))) ∧
    (bk.vendorId ≠ .unknown →
      (bk.device.mode = .command → ∀ k < offs.length, w k = s.wordAt bk k) ∧
      (s.RangeOk b (decoded.baseAddress + decoded.size) →
        ∃ t, exec (.decodeCfi b) s = .next t ∧ t.bank b = decoded ∧ t.result = none ∧
          t.log.trace = s.log.trace ++ readEvents bk w offs ∧ t.memory = s.memory ∧
          t.seq = s.seq ∧ State.Frame b s t) ∧
      (¬ s.RangeOk b (decoded.baseAddress + decoded.size) →
        exec (.decodeCfi b) s = .refused .illFormedConfig) ∧
      decoded.sectorCount ≤ s.params.maxSectors ∧
      1 ≤ decoded.eraseTimeout ∧ 1 ≤ decoded.writeTimeout ∧ 1 ≤ decoded.bufferWriteTimeout ∧
      decoded.bufferSize % bk.bytes = 0 ∧ (bk.cmdset = .amdStyle → decoded.bufferSize = 0))

/-- The region walk (41_geometry.md R81 to R83): the retained sectors are the first `room` of those the
regions describe, contiguous and ascending from the start address; the end is the start plus the sizes
of the retained ones; sectors are left out exactly when the regions describe more than `room`. -/
def Obligations.RegionWalkRetainsFirstSectors : Prop :=
  ∀ (mux room addr : Nat) (rs : List (Nat × Nat)),
    let sizes := rs.flatMap fun r => List.replicate (r.1 + 1)
      ((if r.2 = 0 then 128 else r.2 * 256) * mux)
    let t := layRegions mux room addr rs
    t.sectors.length = min room sizes.length ∧
    t.endAddr = addr + (sizes.take room).sum ∧
    (t.truncated = true ↔ room < sizes.length) ∧
    ∀ i < t.sectors.length, t.sectors[i]? =
      some { startAddress := addr + (sizes.take i).sum, isProtected := false }

/-- ProbeProtection (41_geometry.md R86) of a known bank: with no sector, nothing; else the read-ID
entry, one read at `PROTECT_OFFSET` of each sector in order, and the reset; each flag is whether any lane
of the word read has the protect bit. A word outside the bank's window is refused (20_memory.md R33), which
no `PROTECT_OFFSET` below 32 words comes to. On an Unknown bank it is `UnknownDevice` at once (log 14). -/
def Obligations.ProbeProtectionOutcome : Prop :=
  ∀ (s : State) (b : Nat), s.Ready b → s.Inv → s.initDone = false →
    let o1 := (s.bank b).baseAddr s.params.amdUnlockOff1
    let o2 := (s.bank b).baseAddr s.params.amdUnlockOff2
    let word := fun i => (s.bank b).makeAddr i s.params.protectOffset
    ((s.bank b).vendorId = .unknown →
      exec (.probeProtection b) s = .next (s.leave (some (.status .unknownDevice)))) ∧
    ((s.bank b).vendorId ≠ .unknown → (s.bank b).sectorCount = 0 →
      exec (.probeProtection b) s = .next (s.leave none)) ∧
    (s.params.protectOffset < 32 →
      ∀ i < (s.bank b).sectorCount, (s.bank b).Accepts s.params (word i)) ∧
    ((s.bank b).vendorId ≠ .unknown → (s.bank b).sectorCount ≠ 0 →
      (∀ i < (s.bank b).sectorCount, (s.bank b).Accepts s.params (word i)) →
      ∃ t, ∃ ws : List Word, exec (.probeProtection b) s = .next t ∧
      ws.length = (s.bank b).sectorCount ∧
      t.log.trace = s.log.trace ++
        writeEvents (s.commandWrites b [(o1, .unlock1), (o2, .unlock2), (o1, .readId)]) ++
        ((List.range (s.bank b).sectorCount).map fun i => .read (word i) (ws.getD i 0)) ++
        writeEvents (s.resetWrites b (s.bank b).baseAddress) ∧
      (∀ i < (s.bank b).sectorCount, ws.getD i 0 = s.wordAt (s.bank b) i) ∧
      State.Settled b s t ∧ (s.bank b).SameBuilt (t.bank b) ∧ t.memory = s.memory ∧
      ∀ i < (s.bank b).sectorCount, ((t.bank b).sectorProtected i = true ↔
        ws.getD i 0 &&& replicate s.params.protectBit (s.bank b).portWidth (s.bank b).chipWidth
          ≠ 0)) ∧
    ((s.bank b).vendorId ≠ .unknown →
      (∃ i < (s.bank b).sectorCount, ¬ (s.bank b).Accepts s.params (word i)) →
      exec (.probeProtection b) s = .refused .outsideWindow)

/-! ### Host operations -/

/-- `flash_init` (43_facade.md R105, 10_state.md R21, R25, 70_reset_and_hazards.md R132): it is Identify
and, of a bank found, ProbeProtection of each bank in index order (IdentifyOutcome and
ProbeProtectionOutcome say what these do), then `init_done` and the total. It returns the sum of the bank sizes with `init_done` set, an idle sequencer, every bank's devices in read-array mode
(of a known bank without a sector, which it does not access, if they were) and every Unknown bank empty;
a bank known before keeps its registers but for the flags (log 15), and a bank it finds is one that answers
of the devices identify; it changes no byte of any array. It returns so whenever no answers of the devices
identify a range of some bank that ends at or past `2 ^ 32`, or that overlaps another bank's, known before
or identified by answers too (00_scope.md R9; log 22); otherwise it can also be refused, and nothing else.
`PROTECT_OFFSET` below 32 words keeps the probe inside the window (20_memory.md R33); the spec's is 2. -/
def Obligations.FlashInitOutcome : Prop :=
  ∀ s : State, s.Inv → s.env.resetIn = none → s.initDone = false → s.seq.smState = .idle →
    s.params.protectOffset < 32 →
    let ran := ∃ t, exec .flashInit s = .next t ∧ t.initDone = true ∧
      t.result = some (.total (t.banks.map Bank.size).sum) ∧ t.memory = s.memory ∧
      t.params = s.params ∧ t.calls = s.calls ∧ t.env.ie = s.env.ie ∧
      t.banks.length = s.banks.length ∧ t.position = none ∧ t.seq.smState = .idle ∧
      (∀ bk ∈ t.banks, bk.EmptyIfUnknown) ∧
      ∀ b < s.banks.length,
        ((s.bank b).vendorId = .unknown ∨ (s.bank b).sectors ≠ [] ∨
          (s.bank b).device.mode = .readArray → (t.bank b).device.mode = .readArray) ∧
        ((s.bank b).vendorId ≠ .unknown → (s.bank b).SameBuilt (t.bank b)) ∧
        ((s.bank b).vendorId = .unknown → (t.bank b).vendorId ≠ .unknown →
          ∃ bk, s.Detects b bk ∧ bk.SameBuilt (t.bank b))
    let mayBe := fun c bk => ((s.bank c).vendorId ≠ .unknown ∧ bk = s.bank c) ∨
      ((s.bank c).vendorId = .unknown ∧ s.Detects c bk)
    exec .flashInit s = mapNext
      (fun t => t.setInitDone.leave (some (.total (t.banks.map Bank.size).sum)))
      (initRows 0 s.banks.length s) ∧
    ((∀ b < s.banks.length, ∀ bk, (s.bank b).vendorId = .unknown → s.Detects b bk →
      bk.baseAddress + bk.size < 2 ^ 32 ∧
        ∀ c < s.banks.length, c ≠ b → ∀ ck, mayBe c ck → rangesDisjoint bk ck = true) → ran) ∧
      (ran ∨ exec .flashInit s = .refused .illFormedConfig)

/-- `flash_get_size` returns the bank's size and does nothing else: 0 for an Unknown bank, 0 at launch
(43_facade.md R106). -/
def Obligations.FlashGetSizeReturnsSize : Prop :=
  (∀ (s : State) (b : Nat), s.Ready b →
    exec (.flashGetSize b) s = .next (s.leave (some (.size (s.bank b).size))) ∧
    ((s.bank b).EmptyIfUnknown → (s.bank b).vendorId = .unknown → (s.bank b).size = 0)) ∧
  ∀ (p : Params) (b : Nat), ((State.atReset p).bank b).size = 0

/-- `flash_print_info` reports the bank's record and does nothing else (43_facade.md R112). -/
def Obligations.FlashPrintInfoReportsRecord : Prop :=
  ∀ (s : State) (b : Nat), s.Ready b →
    exec (.flashPrintInfo b) s = .next (s.leave (some (.info
      { vendorId := (s.bank b).vendorId, mfrId := (s.bank b).mfrId
        deviceId := (s.bank b).deviceId, size := (s.bank b).size
        sectorCount := (s.bank b).sectors.length
        sectors := (s.bank b).sectors.map fun x => (x.startAddress, x.isProtected)
        truncationWarnings := (s.bank b).truncationWarnings })))

/-- On an Unknown bank every host operation but `flash_init` returns at once with no bus access:
`UnknownDevice`, or for `flash_get_size` the size 0 of an empty bank (43_facade.md R113). -/
def Obligations.UnknownDeviceTouchesNoHardware : Prop :=
  ∀ (s : State) (b x y : Nat) (src : List Byte) (f : ProtectFlag), s.Ready b →
    (s.bank b).vendorId = .unknown → (s.bank b).EmptyIfUnknown →
    exec (.flashErase b x y) s = .next (s.leave (some (.erase .unknownDevice 0 0))) ∧
    exec (.writeBuff b src x src.length) s = .next (s.leave (some (.status .unknownDevice))) ∧
    exec (.flashProtect f x y b) s = .next (s.leave (some (.status .unknownDevice))) ∧
    exec (.flashGetSize b) s = .next (s.leave (some (.size 0)))

/-- Arguments outside their range are found before any bus access (43_facade.md R107, R109, R111,
60_exceptions.md R117); a `write_buff` of no bytes is `Ok` at once; an erase of a range whose sectors
are all protected is `Ok`, erases none, counts all as skipped and makes no bus access (R107,
90_conflicts.md C1). -/
def Obligations.RangesThatTouchNoHardware : Prop :=
  ∀ (s : State) (b x y : Nat) (src : List Byte) (f : ProtectFlag), s.Ready b →
    (s.bank b).vendorId ≠ .unknown →
    (¬ (x ≤ y ∧ y < (s.bank b).sectorCount) →
      exec (.flashErase b x y) s = .next (s.leave (some (.erase .invalidSectorRange 0 0)))) ∧
    (x ≤ y → y < (s.bank b).sectorCount →
      (∀ j, x ≤ j → j ≤ y → (s.bank b).sectorProtected j = true) →
      exec (.flashErase b x y) s = .next (s.leave (some (.erase .ok 0 (y + 1 - x))))) ∧
    (src ≠ [] → (x < (s.bank b).baseAddress ∨
        (s.bank b).baseAddress + (s.bank b).size < x + src.length) →
      exec (.writeBuff b src x src.length) s =
        .next (s.leave (some (.status .invalidSectorRange)))) ∧
    exec (.writeBuff b [] x 0) s = .next (s.leave (some (.status .ok))) ∧
    (y < x → exec (.flashProtect f x y b) s =
      .next (s.leave (some (.status .invalidSectorRange))))

/-- `flash_erase` of a valid range (43_facade.md R107, 20_memory.md R44, R45, 42_sequencer.md R96):
erased and skipped count the sectors of the range taken in order, the skipped ones being the protected
ones; on `Ok` they cover the range; on an error the next sector is the unprotected one that failed. Every
unprotected sector counted is all-ones, on an error too; a byte outside these and the failed one is as
before, so later and protected sectors are. No access falls at a protected sector's start or a later
sector's: each is at the start of an unprotected sector taken or failed, or is an AMD-style unlock cycle
at the bank's unlock offsets. No flag changes. -/
def Obligations.FlashEraseOutcome : Prop :=
  ∀ (s : State) (b x y : Nat), s.Known b → s.seq.smState = .idle →
    (s.bank b).device.mode = .readArray → x ≤ y → y < (s.bank b).sectorCount →
    let open_ := fun j => (s.bank b).sectorProtected j = false
    let o1 := (s.bank b).baseAddr s.params.amdUnlockOff1
    let o2 := (s.bank b).baseAddr s.params.amdUnlockOff2
    ∃ t k erased skipped es, exec (.flashErase b x y) s = .next t ∧
      t.result = some (.erase k erased skipped) ∧
      (k = .ok ∨ k = .eraseTimeout ∨ ∃ sub, k = .hardwareError sub) ∧
      (∀ n, 2 * (y + 1 - x) ≤ n → s.DoneNext b n → k = .ok) ∧
      skipped = ((List.range (erased + skipped)).filter fun j =>
        (s.bank b).sectorProtected (x + j)).length ∧
      (k = .ok → x + (erased + skipped) = y + 1) ∧
      (k ≠ .ok → x + (erased + skipped) ≤ y ∧ open_ (x + (erased + skipped))) ∧
      State.Settled b s t ∧ (t.bank b).sectors = (s.bank b).sectors ∧
      t.log.trace = s.log.trace ++ es ∧
      (∀ c ∈ accessesOf es, ((s.bank b).cmdset = .amdStyle ∧ (c = o1 ∨ c = o2)) ∨
        ∃ j, x ≤ j ∧ j ≤ y ∧ j ≤ x + (erased + skipped) ∧ open_ j ∧
          c = (s.bank b).sectorStart j) ∧
      (∀ c, (∀ j, x ≤ j → j ≤ y → j ≤ x + (erased + skipped) → open_ j →
          c < (s.bank b).sectorStart j ∨ (s.bank b).sectorEnd j ≤ c) →
        Memory.read t.memory c = Memory.read s.memory c) ∧
      ∀ j, x ≤ j → j < x + (erased + skipped) → open_ j →
        ∀ c, (s.bank b).sectorStart j ≤ c → c < (s.bank b).sectorEnd j →
          Memory.read t.memory c = 0xFF

/-- WriteMerged (43_facade.md R108): one read of the word, then the single-word program of the bank's
variant with the new bytes laid over the old ones, which reads the word again (42_sequencer.md R97; no exception
for a word of all ones, log 32); on `Done` the word holds the new bytes and, around them, the old ones; no
byte outside the word changes on any result. -/
def Obligations.WriteMergedOutcome : Prop :=
  ∀ (s : State) (b a off i : Nat) (bytes : List Byte), s.Known b →
    (s.bank b).device.mode = .readArray → s.seq.smState = .idle → a % (s.bank b).bytes = 0 →
    (s.bank b).sectorOf a = some i → bytes ≠ [] → off + bytes.length ≤ (s.bank b).bytes →
    let old := s.arrayWord b a
    let merged := (List.range (s.bank b).bytes).map fun j =>
      if off ≤ j ∧ j < off + bytes.length then bytes.getD (j - off) 0
      else Memory.read s.memory (a + j)
    exec (.writeMerged b a off bytes) s =
      exec (programRow (s.bank b) b a (wordOf s.params.hostByteOrder merged))
        (s.saw [.read a old]) ∧
    ∃ t k es, exec (.writeMerged b a off bytes) s = .next t ∧ t.result = some (.status k) ∧
      t.log.trace = s.log.trace ++ [.read a old, .read a old] ++ es ∧
      (k = .ok ∨ k = .notErased a ∨ k = .programTimeout ∨ ∃ sub, k = .hardwareError sub) ∧
      (s.DoneNext b 2 → (∀ j < bytes.length, Memory.read s.memory (a + off + j) &&& bytes.getD j 0 =
        bytes.getD j 0) → k = .ok) ∧
      State.Settled b s t ∧ (s.bank b).SameRegs (t.bank b) ∧
      State.SameOutside a (s.bank b).bytes s t ∧
      (k = .notErased a → t.memory = s.memory ∧ es = []) ∧
      (k = .ok → ∀ j < (s.bank b).bytes, Memory.read t.memory (a + j) =
        if off ≤ j ∧ j < off + bytes.length then bytes.getD (j - off) 0
        else Memory.read s.memory (a + j))

/-- `write_buff` of a range inside the bank (43_facade.md R109, 20_memory.md R44, R45): it is its rows,
one after another up to the first failure, which is its result: the unaligned head as a merged word, the
buffered programs, the single-word programs, the tail as a merged word (decision D30 and
93_implementation_defined.md I3; a word of all ones fails like any other where the array has a bit clear, log
32; WriteMergedOutcome, ProgramBufferOutcome, ProgramWordIntelOutcome and
ProgramWordAmdOutcome give the accesses of each). On `Ok` the range reads as `src`, byte for byte, and every
byte outside it as before; on an error every byte outside the words that cover the range is as before; no
register of the bank changes. -/
def Obligations.WriteBuffRoundTrip : Prop :=
  ∀ (s : State) (b dest : Nat) (src : List Byte), s.Known b → s.seq.smState = .idle →
    (s.bank b).device.mode = .readArray → src ≠ [] → (s.bank b).baseAddress ≤ dest →
    dest + src.length ≤ (s.bank b).baseAddress + (s.bank b).size →
    let w := (s.bank b).bytes
    let lo := dest / w * w
    let hi := (dest + src.length + w - 1) / w * w
    exec (.writeBuff b src dest src.length) s =
      runRows (writeRows s.params.hostByteOrder (s.bank b) b dest src) s ∧
    ∃ t k, exec (.writeBuff b src dest src.length) s = .next t ∧ t.result = some (.status k) ∧
      (k = .ok ∨ (∃ a, k = .notErased a) ∨ k = .programTimeout ∨ k = .bufferWriteTimeout ∨
        ∃ sub, k = .hardwareError sub) ∧
      (∀ n, 2 * src.length ≤ n → s.DoneNext b n → (∀ j < src.length,
        Memory.read s.memory (dest + j) &&& src.getD j 0 = src.getD j 0) → k = .ok) ∧
      State.Settled b s t ∧ (s.bank b).SameRegs (t.bank b) ∧
      State.SameOutside lo (hi - lo) s t ∧
      (k = .ok → Memory.readBytes t.memory dest src.length = src ∧
        State.SameOutside dest src.length s t)

/-- `flash_protect` of a range (43_facade.md R111): it is ProtectSector of the sectors whose extent meets
the range, in order, up to the end or to the first failure `m`, whose status is its result. On an
Intel-style bank the writes are those of each Protect before `m` with, after an unlock, the re-locks of the
sectors then flagged protected, and on a failure those of `m` up to the Protect that failed, `n` re-locks
(R110). Every sector before `m` that meets the range has the flag asked for, every other flag is as before;
the failed sector's own flag is as before, or clear after an unlock whose re-lock failed. An AMD-style
bank makes no bus access and does not fail; no byte of the array changes. A range that meets no sector is
`Ok` with no bus access. -/
def Obligations.FlashProtectOutcome : Prop :=
  ∀ (s : State) (b x y : Nat) (f : ProtectFlag), s.Known b → s.seq.smState = .idle →
    (s.bank b).device.mode = .readArray → x ≤ y →
    let lock := decide (f = .set)
    let flagged := (s.bank b).sectorProtected
    let meets := fun j => (s.bank b).sectorStart j ≤ y ∧ x < (s.bank b).sectorEnd j
    let sectors := List.range (s.bank b).sectorCount
    let met := sectors.filter fun j => decide (meets j)
    let relocks := fun j => if lock then [] else
      sectors.filter fun i => i != j && flagged i && !decide (i < j ∧ meets i)
    let writes := fun j is => s.protectWrites b j lock ++
      List.flatMap (fun i => s.protectWrites b i true) is
    ((∀ j < (s.bank b).sectorCount, ¬ meets j) →
      exec (.flashProtect f x y b) s = .next (s.leave (some (.status .ok)))) ∧
    exec (.flashProtect f x y b) s = runRows (met.map fun j => .protectSector b j lock) s ∧
    ∃ t k m n es, exec (.flashProtect f x y b) s = .next t ∧ t.result = some (.status k) ∧
      (k = .ok ∨ k = .protectTimeout ∨ ∃ sub, k = .hardwareError sub) ∧
      (∀ n, (s.bank b).sectorCount * (s.bank b).sectorCount ≤ n → s.DoneNext b n → k = .ok) ∧
      State.Settled b s t ∧ (s.bank b).SameBuilt (t.bank b) ∧ t.memory = s.memory ∧
      t.log.trace = s.log.trace ++ es ∧
      ((s.bank b).cmdset = .amdStyle → k = .ok ∧ es = []) ∧
      (k = .ok → m = (s.bank b).sectorCount) ∧
      (k ≠ .ok → m < (s.bank b).sectorCount ∧ meets m ∧ n ≤ (relocks m).length ∧
        (t.bank b).sectorProtected m = (if 0 < n then false else flagged m)) ∧
      ((s.bank b).cmdset = .intelStyle → writesOf es =
        (met.filter fun j => decide (j < m)).flatMap (fun j => writes j (relocks j)) ++
          if k = .ok then [] else writes m ((relocks m).take n)) ∧
      (∀ j < m, meets j → (t.bank b).sectorProtected j = lock) ∧
      ∀ j < (s.bank b).sectorCount, j ≠ m → (m < j ∨ ¬ meets j) →
        (t.bank b).sectorProtected j = flagged j

/-! ### Words, addresses, codes -/

/-- `make_addr` is strictly increasing, hence injective, in the offset (20_memory.md R31). -/
def Obligations.MakeAddrStrictlyIncreasing : Prop :=
  ∀ (bk : Bank) (i j k : Nat), (j < k → bk.makeAddr i j < bk.makeAddr i k) ∧
    (bk.makeAddr i j = bk.makeAddr i k → j = k)

/-- The layout of a command word: every lane's low byte is the opcode, the rest of a 16-bit lane is
zero, and nothing stands above the port's lines (30_encoding.md R51). -/
def Obligations.CommandWordLanes : Prop :=
  ∀ (v : Byte) (p : PortWidth) (c : ChipWidth), c.bits ≤ p.bits →
    (∀ k < p.bits / c.bits, ∀ j < c.bits, (replicate v p c).getLsbD (k * c.bits + j) =
      (decide (j < 8) && v.getLsbD j)) ∧
    ∀ j, p.bits ≤ j → (replicate v p c).getLsbD j = false

/-- `word_of` and `bytes_of` are inverse on the bytes of a port word, and the first byte is the least
significant one in little order and the most significant one in big order (20_memory.md R35). -/
def Obligations.WordsAndBytesInverse : Prop :=
  ∀ (o : ByteOrder) (p : PortWidth),
    (∀ v : Word, wordOf o (bytesOf o p.bytes v) = toPort p v) ∧
    (∀ bs : List Byte, bs.length = p.bytes → bytesOf o p.bytes (wordOf o bs) = bs) ∧
    ∀ (v : Word) (j : Nat), j < p.bytes →
      (bytesOf .little p.bytes v)[j]? = some ((v >>> (8 * j)).setWidth 8) ∧
      (bytesOf .big p.bytes v)[j]? = some ((v >>> (8 * (p.bytes - 1 - j))).setWidth 8)

/-- The completion tests, lane by lane: READY set in every lane; no toggle bit changed in any lane
(30_encoding.md R56). -/
def Obligations.CompletionTestsLaneByLane : Prop :=
  ∀ (p : PortWidth) (c : ChipWidth) (mask : Byte) (prev w : Word), c.bits ≤ p.bits →
    (doneIntel {} p c w = true ↔ ∀ k < p.bits / c.bits, (laneByte c k w) &&& 0x80 = 0x80) ∧
    (doneAmd mask p c prev w = true ↔
      ∀ k < p.bits / c.bits, (laneByte c k prev ^^^ laneByte c k w) &&& mask = 0)

/-- The error decode (30_encoding.md R57): a lane's sub-kind by the six tests in order; a word's, the
first of the order that any lane has; an AMD-style word never decodes to an error. -/
def Obligations.ErrorDecodeOrder : Prop :=
  (∀ l : Byte, laneError {} l =
    if l &&& 0x30 = 0x30 then some .commandSequence
    else if l &&& 0x20 ≠ 0 then some .eraseOrLockBit
    else if l &&& 0x10 ≠ 0 then some .locking
    else if l &&& 0x02 ≠ 0 then some .eraseOrLockBit
    else if l &&& 0x08 ≠ 0 then some .vppLow
    else none) ∧
  ∀ (p : PortWidth) (c : ChipWidth) (mask : Byte) (prev w : Word),
    let has := fun sub => ∃ k < p.bits / c.bits, laneError {} (laneByte c k w) = some sub
    (wordError {} p c w = some .commandSequence ↔ has .commandSequence) ∧
    (wordError {} p c w = some .eraseOrLockBit ↔ has .eraseOrLockBit ∧ ¬ has .commandSequence) ∧
    (wordError {} p c w = some .locking ↔ has .locking ∧ ¬ has .commandSequence ∧
      ¬ has .eraseOrLockBit) ∧
    (wordError {} p c w = some .vppLow ↔ has .vppLow ∧ ¬ has .commandSequence ∧
      ¬ has .eraseOrLockBit ∧ ¬ has .locking) ∧
    (wordError {} p c w = none ↔ ∀ sub, ¬ has sub) ∧
    (doneIntel {} p c w = true → intelVerdict {} p c w =
      match wordError {} p c w with
      | some sub => .error sub
      | none => .done) ∧
    ∀ sub, amdVerdict mask p c prev w ≠ .error sub

/-- CFI timeouts in milliseconds (30_encoding.md R63, 70_reset_and_hazards.md R136): at least 1, at
most `2^32 - 1`; below saturation a millisecond field is taken as is, and a microsecond field is the
least number of milliseconds that covers it. -/
def Obligations.TimeoutNormalisation : Prop :=
  ∀ typ max : Nat,
    (∀ u, 1 ≤ normTimeout u typ max ∧ normTimeout u typ max < 2 ^ 32) ∧
    (2 ^ typ * 2 ^ max < 2 ^ 32 → normTimeout .ms typ max = 2 ^ typ * 2 ^ max) ∧
    (normTimeout .us typ max < 2 ^ 32 - 1 →
      2 ^ typ * 2 ^ max ≤ 1000 * normTimeout .us typ max ∧
      1000 * (normTimeout .us typ max - 1) < 2 ^ typ * 2 ^ max)

/-- The public status codes (60_exceptions.md R116). -/
def Obligations.PublicStatusCodes : Prop :=
  publicCode .ok = 0 ∧ publicCode .eraseTimeout = 1 ∧ publicCode .programTimeout = 1 ∧
  publicCode .bufferWriteTimeout = 1 ∧ publicCode .protectTimeout = 1 ∧
  (∀ a, publicCode (.notErased a) = 2) ∧ publicCode .unknownDevice = 3 ∧
  publicCode .invalidSectorRange = 3 ∧ ∀ sub, publicCode (.hardwareError sub) = 3

/-- The extents of a well-formed bank's sectors tile its range: every address of the range lies in
exactly one, and no other address in any (10_state.md R21, R22). -/
def Obligations.SectorExtentsTileBank : Prop :=
  ∀ (p : Params) (bk : Bank), Bank.Wf p bk → ∀ a,
    ((bk.baseAddress ≤ a ∧ a < bk.baseAddress + bk.size) ↔ ∃ i, bk.sectorOf a = some i) ∧
    ∀ i j, bk.sectorOf a = some i → j < bk.sectorCount →
      bk.sectorStart j ≤ a → a < bk.sectorEnd j → j = i
end

