-- ==== Sys2Proof/Laws/State.lean ====
section
/-! SUPPORT. One lemma per field of the state per update, and how a bank is read after an update. -/

namespace Sys2Proof.Machine

@[simp] theorem State.setBank_params (s : State) (b : Nat) (bk : Bank) :
    (s.setBank b bk).params = s.params := (rfl)
@[simp] theorem State.setBank_banks (s : State) (b : Nat) (bk : Bank) :
    (s.setBank b bk).banks = s.banks.set b bk := (rfl)
@[simp] theorem State.setBank_seq (s : State) (b : Nat) (bk : Bank) :
    (s.setBank b bk).seq = s.seq := (rfl)
@[simp] theorem State.setBank_initDone (s : State) (b : Nat) (bk : Bank) :
    (s.setBank b bk).initDone = s.initDone := (rfl)
@[simp] theorem State.setBank_memory (s : State) (b : Nat) (bk : Bank) :
    (s.setBank b bk).memory = s.memory := (rfl)
@[simp] theorem State.setBank_env (s : State) (b : Nat) (bk : Bank) :
    (s.setBank b bk).env = s.env := (rfl)
@[simp] theorem State.setBank_position (s : State) (b : Nat) (bk : Bank) :
    (s.setBank b bk).position = s.position := (rfl)
@[simp] theorem State.setBank_calls (s : State) (b : Nat) (bk : Bank) :
    (s.setBank b bk).calls = s.calls := (rfl)
@[simp] theorem State.setBank_result (s : State) (b : Nat) (bk : Bank) :
    (s.setBank b bk).result = s.result := (rfl)
@[simp] theorem State.setBank_log (s : State) (b : Nat) (bk : Bank) :
    (s.setBank b bk).log = s.log := (rfl)

@[simp] theorem State.setDevice_params (s : State) (b : Nat) (d : Device) :
    (s.setDevice b d).params = s.params := (rfl)
@[simp] theorem State.setDevice_banks (s : State) (b : Nat) (d : Device) :
    (s.setDevice b d).banks = s.banks.set b { s.bank b with device := d } := (rfl)
@[simp] theorem State.setDevice_seq (s : State) (b : Nat) (d : Device) :
    (s.setDevice b d).seq = s.seq := (rfl)
@[simp] theorem State.setDevice_initDone (s : State) (b : Nat) (d : Device) :
    (s.setDevice b d).initDone = s.initDone := (rfl)
@[simp] theorem State.setDevice_memory (s : State) (b : Nat) (d : Device) :
    (s.setDevice b d).memory = s.memory := (rfl)
@[simp] theorem State.setDevice_env (s : State) (b : Nat) (d : Device) :
    (s.setDevice b d).env = s.env := (rfl)
@[simp] theorem State.setDevice_position (s : State) (b : Nat) (d : Device) :
    (s.setDevice b d).position = s.position := (rfl)
@[simp] theorem State.setDevice_calls (s : State) (b : Nat) (d : Device) :
    (s.setDevice b d).calls = s.calls := (rfl)
@[simp] theorem State.setDevice_result (s : State) (b : Nat) (d : Device) :
    (s.setDevice b d).result = s.result := (rfl)
@[simp] theorem State.setDevice_log (s : State) (b : Nat) (d : Device) :
    (s.setDevice b d).log = s.log := (rfl)

@[simp] theorem State.setLocks_params (s : State) (b : Nat) (l : List Bool) :
    (s.setLocks b l).params = s.params := (rfl)
@[simp] theorem State.setLocks_banks (s : State) (b : Nat) (l : List Bool) :
    (s.setLocks b l).banks = s.banks.set b { s.bank b with device := { (s.bank b).device with lockBits := l } } := (rfl)
@[simp] theorem State.setLocks_seq (s : State) (b : Nat) (l : List Bool) :
    (s.setLocks b l).seq = s.seq := (rfl)
@[simp] theorem State.setLocks_initDone (s : State) (b : Nat) (l : List Bool) :
    (s.setLocks b l).initDone = s.initDone := (rfl)
@[simp] theorem State.setLocks_memory (s : State) (b : Nat) (l : List Bool) :
    (s.setLocks b l).memory = s.memory := (rfl)
@[simp] theorem State.setLocks_env (s : State) (b : Nat) (l : List Bool) :
    (s.setLocks b l).env = s.env := (rfl)
@[simp] theorem State.setLocks_position (s : State) (b : Nat) (l : List Bool) :
    (s.setLocks b l).position = s.position := (rfl)
@[simp] theorem State.setLocks_calls (s : State) (b : Nat) (l : List Bool) :
    (s.setLocks b l).calls = s.calls := (rfl)
@[simp] theorem State.setLocks_result (s : State) (b : Nat) (l : List Bool) :
    (s.setLocks b l).result = s.result := (rfl)
@[simp] theorem State.setLocks_log (s : State) (b : Nat) (l : List Bool) :
    (s.setLocks b l).log = s.log := (rfl)

@[simp] theorem State.setSm_params (s : State) (x : SmState) :
    (s.setSm x).params = s.params := (rfl)
@[simp] theorem State.setSm_banks (s : State) (x : SmState) :
    (s.setSm x).banks = s.banks := (rfl)
@[simp] theorem State.setSm_seq (s : State) (x : SmState) :
    (s.setSm x).seq = { s.seq with smState := x } := (rfl)
@[simp] theorem State.setSm_initDone (s : State) (x : SmState) :
    (s.setSm x).initDone = s.initDone := (rfl)
@[simp] theorem State.setSm_memory (s : State) (x : SmState) :
    (s.setSm x).memory = s.memory := (rfl)
@[simp] theorem State.setSm_env (s : State) (x : SmState) :
    (s.setSm x).env = s.env := (rfl)
@[simp] theorem State.setSm_position (s : State) (x : SmState) :
    (s.setSm x).position = s.position := (rfl)
@[simp] theorem State.setSm_calls (s : State) (x : SmState) :
    (s.setSm x).calls = s.calls := (rfl)
@[simp] theorem State.setSm_result (s : State) (x : SmState) :
    (s.setSm x).result = s.result := (rfl)
@[simp] theorem State.setSm_log (s : State) (x : SmState) :
    (s.setSm x).log = { s.log with smTrace := s.log.smTrace ++ [x] } := (rfl)

@[simp] theorem State.setPoll_params (s : State) (a budget : Nat) :
    (s.setPoll a budget).params = s.params := (rfl)
@[simp] theorem State.setPoll_banks (s : State) (a budget : Nat) :
    (s.setPoll a budget).banks = s.banks := (rfl)
@[simp] theorem State.setPoll_seq (s : State) (a budget : Nat) :
    (s.setPoll a budget).seq = { s.seq with pollAddr := a, pollBudget := budget } := (rfl)
@[simp] theorem State.setPoll_initDone (s : State) (a budget : Nat) :
    (s.setPoll a budget).initDone = s.initDone := (rfl)
@[simp] theorem State.setPoll_memory (s : State) (a budget : Nat) :
    (s.setPoll a budget).memory = s.memory := (rfl)
@[simp] theorem State.setPoll_env (s : State) (a budget : Nat) :
    (s.setPoll a budget).env = s.env := (rfl)
@[simp] theorem State.setPoll_position (s : State) (a budget : Nat) :
    (s.setPoll a budget).position = s.position := (rfl)
@[simp] theorem State.setPoll_calls (s : State) (a budget : Nat) :
    (s.setPoll a budget).calls = s.calls := (rfl)
@[simp] theorem State.setPoll_result (s : State) (a budget : Nat) :
    (s.setPoll a budget).result = s.result := (rfl)
@[simp] theorem State.setPoll_log (s : State) (a budget : Nat) :
    (s.setPoll a budget).log = s.log := (rfl)

@[simp] theorem State.setPollStart_params (s : State) (t : Nat) :
    (s.setPollStart t).params = s.params := (rfl)
@[simp] theorem State.setPollStart_banks (s : State) (t : Nat) :
    (s.setPollStart t).banks = s.banks := (rfl)
@[simp] theorem State.setPollStart_seq (s : State) (t : Nat) :
    (s.setPollStart t).seq = { s.seq with pollStart := t } := (rfl)
@[simp] theorem State.setPollStart_initDone (s : State) (t : Nat) :
    (s.setPollStart t).initDone = s.initDone := (rfl)
@[simp] theorem State.setPollStart_memory (s : State) (t : Nat) :
    (s.setPollStart t).memory = s.memory := (rfl)
@[simp] theorem State.setPollStart_env (s : State) (t : Nat) :
    (s.setPollStart t).env = s.env := (rfl)
@[simp] theorem State.setPollStart_position (s : State) (t : Nat) :
    (s.setPollStart t).position = s.position := (rfl)
@[simp] theorem State.setPollStart_calls (s : State) (t : Nat) :
    (s.setPollStart t).calls = s.calls := (rfl)
@[simp] theorem State.setPollStart_result (s : State) (t : Nat) :
    (s.setPollStart t).result = s.result := (rfl)
@[simp] theorem State.setPollStart_log (s : State) (t : Nat) :
    (s.setPollStart t).log = s.log := (rfl)

@[simp] theorem State.setPollPrev_params (s : State) (w : Word) :
    (s.setPollPrev w).params = s.params := (rfl)
@[simp] theorem State.setPollPrev_banks (s : State) (w : Word) :
    (s.setPollPrev w).banks = s.banks := (rfl)
@[simp] theorem State.setPollPrev_seq (s : State) (w : Word) :
    (s.setPollPrev w).seq = { s.seq with pollPrev := w } := (rfl)
@[simp] theorem State.setPollPrev_initDone (s : State) (w : Word) :
    (s.setPollPrev w).initDone = s.initDone := (rfl)
@[simp] theorem State.setPollPrev_memory (s : State) (w : Word) :
    (s.setPollPrev w).memory = s.memory := (rfl)
@[simp] theorem State.setPollPrev_env (s : State) (w : Word) :
    (s.setPollPrev w).env = s.env := (rfl)
@[simp] theorem State.setPollPrev_position (s : State) (w : Word) :
    (s.setPollPrev w).position = s.position := (rfl)
@[simp] theorem State.setPollPrev_calls (s : State) (w : Word) :
    (s.setPollPrev w).calls = s.calls := (rfl)
@[simp] theorem State.setPollPrev_result (s : State) (w : Word) :
    (s.setPollPrev w).result = s.result := (rfl)
@[simp] theorem State.setPollPrev_log (s : State) (w : Word) :
    (s.setPollPrev w).log = s.log := (rfl)

@[simp] theorem State.setEnv_params (s : State) (e : Env) :
    (s.setEnv e).params = s.params := (rfl)
@[simp] theorem State.setEnv_banks (s : State) (e : Env) :
    (s.setEnv e).banks = s.banks := (rfl)
@[simp] theorem State.setEnv_seq (s : State) (e : Env) :
    (s.setEnv e).seq = s.seq := (rfl)
@[simp] theorem State.setEnv_initDone (s : State) (e : Env) :
    (s.setEnv e).initDone = s.initDone := (rfl)
@[simp] theorem State.setEnv_memory (s : State) (e : Env) :
    (s.setEnv e).memory = s.memory := (rfl)
@[simp] theorem State.setEnv_env (s : State) (e : Env) :
    (s.setEnv e).env = e := (rfl)
@[simp] theorem State.setEnv_position (s : State) (e : Env) :
    (s.setEnv e).position = s.position := (rfl)
@[simp] theorem State.setEnv_calls (s : State) (e : Env) :
    (s.setEnv e).calls = s.calls := (rfl)
@[simp] theorem State.setEnv_result (s : State) (e : Env) :
    (s.setEnv e).result = s.result := (rfl)
@[simp] theorem State.setEnv_log (s : State) (e : Env) :
    (s.setEnv e).log = s.log := (rfl)

@[simp] theorem State.setInitDone_params (s : State) :
    (s.setInitDone).params = s.params := (rfl)
@[simp] theorem State.setInitDone_banks (s : State) :
    (s.setInitDone).banks = s.banks := (rfl)
@[simp] theorem State.setInitDone_seq (s : State) :
    (s.setInitDone).seq = s.seq := (rfl)
@[simp] theorem State.setInitDone_initDone (s : State) :
    (s.setInitDone).initDone = true := (rfl)
@[simp] theorem State.setInitDone_memory (s : State) :
    (s.setInitDone).memory = s.memory := (rfl)
@[simp] theorem State.setInitDone_env (s : State) :
    (s.setInitDone).env = s.env := (rfl)
@[simp] theorem State.setInitDone_position (s : State) :
    (s.setInitDone).position = s.position := (rfl)
@[simp] theorem State.setInitDone_calls (s : State) :
    (s.setInitDone).calls = s.calls := (rfl)
@[simp] theorem State.setInitDone_result (s : State) :
    (s.setInitDone).result = s.result := (rfl)
@[simp] theorem State.setInitDone_log (s : State) :
    (s.setInitDone).log = s.log := (rfl)

@[simp] theorem State.enter_params (s : State) (i : Instr) :
    (s.enter i).params = s.params := (rfl)
@[simp] theorem State.enter_banks (s : State) (i : Instr) :
    (s.enter i).banks = s.banks := (rfl)
@[simp] theorem State.enter_seq (s : State) (i : Instr) :
    (s.enter i).seq = s.seq := (rfl)
@[simp] theorem State.enter_initDone (s : State) (i : Instr) :
    (s.enter i).initDone = s.initDone := (rfl)
@[simp] theorem State.enter_memory (s : State) (i : Instr) :
    (s.enter i).memory = s.memory := (rfl)
@[simp] theorem State.enter_env (s : State) (i : Instr) :
    (s.enter i).env = s.env := (rfl)
@[simp] theorem State.enter_position (s : State) (i : Instr) :
    (s.enter i).position = some { op := i, step := 0, range := none } := (rfl)
@[simp] theorem State.enter_calls (s : State) (i : Instr) :
    (s.enter i).calls = s.calls := (rfl)
@[simp] theorem State.enter_result (s : State) (i : Instr) :
    (s.enter i).result = s.result := (rfl)
@[simp] theorem State.enter_log (s : State) (i : Instr) :
    (s.enter i).log = s.log := (rfl)

@[simp] theorem State.leave_params (s : State) (r : Option Result) :
    (s.leave r).params = s.params := (rfl)
@[simp] theorem State.leave_banks (s : State) (r : Option Result) :
    (s.leave r).banks = s.banks := (rfl)
@[simp] theorem State.leave_seq (s : State) (r : Option Result) :
    (s.leave r).seq = s.seq := (rfl)
@[simp] theorem State.leave_initDone (s : State) (r : Option Result) :
    (s.leave r).initDone = s.initDone := (rfl)
@[simp] theorem State.leave_memory (s : State) (r : Option Result) :
    (s.leave r).memory = s.memory := (rfl)
@[simp] theorem State.leave_env (s : State) (r : Option Result) :
    (s.leave r).env = s.env := (rfl)
@[simp] theorem State.leave_position (s : State) (r : Option Result) :
    (s.leave r).position = none := (rfl)
@[simp] theorem State.leave_calls (s : State) (r : Option Result) :
    (s.leave r).calls = s.calls := (rfl)
@[simp] theorem State.leave_result (s : State) (r : Option Result) :
    (s.leave r).result = r := (rfl)
@[simp] theorem State.leave_log (s : State) (r : Option Result) :
    (s.leave r).log = s.log := (rfl)

@[simp] theorem State.note_params (s : State) (e : BusEvent) :
    (s.note e).params = s.params := (rfl)
@[simp] theorem State.note_banks (s : State) (e : BusEvent) :
    (s.note e).banks = s.banks := (rfl)
@[simp] theorem State.note_seq (s : State) (e : BusEvent) :
    (s.note e).seq = s.seq := (rfl)
@[simp] theorem State.note_initDone (s : State) (e : BusEvent) :
    (s.note e).initDone = s.initDone := (rfl)
@[simp] theorem State.note_memory (s : State) (e : BusEvent) :
    (s.note e).memory = s.memory := (rfl)
@[simp] theorem State.note_env (s : State) (e : BusEvent) :
    (s.note e).env = s.env := (rfl)
@[simp] theorem State.note_position (s : State) (e : BusEvent) :
    (s.note e).position = s.position := (rfl)
@[simp] theorem State.note_calls (s : State) (e : BusEvent) :
    (s.note e).calls = s.calls := (rfl)
@[simp] theorem State.note_result (s : State) (e : BusEvent) :
    (s.note e).result = s.result := (rfl)
@[simp] theorem State.note_log (s : State) (e : BusEvent) :
    (s.note e).log = { s.log with trace := s.log.trace ++ [e] } := (rfl)

@[simp] theorem State.setMemory_params (s : State) (m : Memory) :
    (s.setMemory m).params = s.params := (rfl)
@[simp] theorem State.setMemory_banks (s : State) (m : Memory) :
    (s.setMemory m).banks = s.banks := (rfl)
@[simp] theorem State.setMemory_seq (s : State) (m : Memory) :
    (s.setMemory m).seq = s.seq := (rfl)
@[simp] theorem State.setMemory_initDone (s : State) (m : Memory) :
    (s.setMemory m).initDone = s.initDone := (rfl)
@[simp] theorem State.setMemory_memory (s : State) (m : Memory) :
    (s.setMemory m).memory = m := (rfl)
@[simp] theorem State.setMemory_env (s : State) (m : Memory) :
    (s.setMemory m).env = s.env := (rfl)
@[simp] theorem State.setMemory_position (s : State) (m : Memory) :
    (s.setMemory m).position = s.position := (rfl)
@[simp] theorem State.setMemory_calls (s : State) (m : Memory) :
    (s.setMemory m).calls = s.calls := (rfl)
@[simp] theorem State.setMemory_result (s : State) (m : Memory) :
    (s.setMemory m).result = s.result := (rfl)
@[simp] theorem State.setMemory_log (s : State) (m : Memory) :
    (s.setMemory m).log = s.log := (rfl)

@[simp] theorem State.drawn_params (s : State) :
    (s.drawn).params = s.params := (rfl)
@[simp] theorem State.drawn_banks (s : State) :
    (s.drawn).banks = s.banks := (rfl)
@[simp] theorem State.drawn_seq (s : State) :
    (s.drawn).seq = s.seq := (rfl)
@[simp] theorem State.drawn_initDone (s : State) :
    (s.drawn).initDone = s.initDone := (rfl)
@[simp] theorem State.drawn_memory (s : State) :
    (s.drawn).memory = s.memory := (rfl)
@[simp] theorem State.drawn_env (s : State) :
    (s.drawn).env = { s.env with draws := s.env.draws + 1 } := (rfl)
@[simp] theorem State.drawn_position (s : State) :
    (s.drawn).position = s.position := (rfl)
@[simp] theorem State.drawn_calls (s : State) :
    (s.drawn).calls = s.calls := (rfl)
@[simp] theorem State.drawn_result (s : State) :
    (s.drawn).result = s.result := (rfl)
@[simp] theorem State.drawn_log (s : State) :
    (s.drawn).log = s.log := (rfl)

@[simp] theorem State.setRange_params (s : State) (r : Option (Nat × Nat)) :
    (s.setRange r).params = s.params := (rfl)
@[simp] theorem State.setRange_banks (s : State) (r : Option (Nat × Nat)) :
    (s.setRange r).banks = s.banks := (rfl)
@[simp] theorem State.setRange_seq (s : State) (r : Option (Nat × Nat)) :
    (s.setRange r).seq = s.seq := (rfl)
@[simp] theorem State.setRange_initDone (s : State) (r : Option (Nat × Nat)) :
    (s.setRange r).initDone = s.initDone := (rfl)
@[simp] theorem State.setRange_memory (s : State) (r : Option (Nat × Nat)) :
    (s.setRange r).memory = s.memory := (rfl)
@[simp] theorem State.setRange_env (s : State) (r : Option (Nat × Nat)) :
    (s.setRange r).env = s.env := (rfl)
@[simp] theorem State.setRange_position (s : State) (r : Option (Nat × Nat)) :
    (s.setRange r).position = s.position.map fun p => { p with range := r } := (rfl)
@[simp] theorem State.setRange_calls (s : State) (r : Option (Nat × Nat)) :
    (s.setRange r).calls = s.calls := (rfl)
@[simp] theorem State.setRange_result (s : State) (r : Option (Nat × Nat)) :
    (s.setRange r).result = s.result := (rfl)
@[simp] theorem State.setRange_log (s : State) (r : Option (Nat × Nat)) :
    (s.setRange r).log = s.log := (rfl)

@[simp] theorem State.advance_params (s : State) :
    (s.advance).params = s.params := (rfl)
@[simp] theorem State.advance_banks (s : State) :
    (s.advance).banks = s.banks := (rfl)
@[simp] theorem State.advance_seq (s : State) :
    (s.advance).seq = s.seq := (rfl)
@[simp] theorem State.advance_initDone (s : State) :
    (s.advance).initDone = s.initDone := (rfl)
@[simp] theorem State.advance_memory (s : State) :
    (s.advance).memory = s.memory := (rfl)
@[simp] theorem State.advance_env (s : State) :
    (s.advance).env = s.env := (rfl)
@[simp] theorem State.advance_position (s : State) :
    (s.advance).position = s.position.map fun p => { p with step := p.step + 1 } := (rfl)
@[simp] theorem State.advance_calls (s : State) :
    (s.advance).calls = s.calls := (rfl)
@[simp] theorem State.advance_result (s : State) :
    (s.advance).result = s.result := (rfl)
@[simp] theorem State.advance_log (s : State) :
    (s.advance).log = s.log := (rfl)

@[simp] theorem State.withCalls_params (s : State) (cs : List (List Byte)) :
    (s.withCalls cs).params = s.params := (rfl)
@[simp] theorem State.withCalls_banks (s : State) (cs : List (List Byte)) :
    (s.withCalls cs).banks = s.banks := (rfl)
@[simp] theorem State.withCalls_seq (s : State) (cs : List (List Byte)) :
    (s.withCalls cs).seq = s.seq := (rfl)
@[simp] theorem State.withCalls_initDone (s : State) (cs : List (List Byte)) :
    (s.withCalls cs).initDone = s.initDone := (rfl)
@[simp] theorem State.withCalls_memory (s : State) (cs : List (List Byte)) :
    (s.withCalls cs).memory = s.memory := (rfl)
@[simp] theorem State.withCalls_env (s : State) (cs : List (List Byte)) :
    (s.withCalls cs).env = s.env := (rfl)
@[simp] theorem State.withCalls_position (s : State) (cs : List (List Byte)) :
    (s.withCalls cs).position = s.position := (rfl)
@[simp] theorem State.withCalls_calls (s : State) (cs : List (List Byte)) :
    (s.withCalls cs).calls = cs := (rfl)
@[simp] theorem State.withCalls_result (s : State) (cs : List (List Byte)) :
    (s.withCalls cs).result = s.result := (rfl)
@[simp] theorem State.withCalls_log (s : State) (cs : List (List Byte)) :
    (s.withCalls cs).log = s.log := (rfl)

@[simp] theorem State.saw_params (s : State) (es : List BusEvent) :
    (s.saw es).params = s.params := (rfl)
@[simp] theorem State.saw_banks (s : State) (es : List BusEvent) :
    (s.saw es).banks = s.banks := (rfl)
@[simp] theorem State.saw_seq (s : State) (es : List BusEvent) :
    (s.saw es).seq = s.seq := (rfl)
@[simp] theorem State.saw_initDone (s : State) (es : List BusEvent) :
    (s.saw es).initDone = s.initDone := (rfl)
@[simp] theorem State.saw_memory (s : State) (es : List BusEvent) :
    (s.saw es).memory = s.memory := (rfl)
@[simp] theorem State.saw_env (s : State) (es : List BusEvent) :
    (s.saw es).env = s.env := (rfl)
@[simp] theorem State.saw_position (s : State) (es : List BusEvent) :
    (s.saw es).position = s.position := (rfl)
@[simp] theorem State.saw_calls (s : State) (es : List BusEvent) :
    (s.saw es).calls = s.calls := (rfl)
@[simp] theorem State.saw_result (s : State) (es : List BusEvent) :
    (s.saw es).result = s.result := (rfl)
@[simp] theorem State.saw_log (s : State) (es : List BusEvent) :
    (s.saw es).log = { s.log with trace := s.log.trace ++ es } := (rfl)
@[simp] theorem State.saw_bank (s : State) (es : List BusEvent) (c : Nat) :
    (s.saw es).bank c = s.bank c := (rfl)
@[simp] theorem State.saw_nil (s : State) : s.saw [] = s := by
  simp [State.saw]
@[simp] theorem State.saw_saw (s : State) (es fs : List BusEvent) :
    (s.saw es).saw fs = s.saw (es ++ fs) := by
  simp [State.saw]

@[simp] theorem irqSave_params (s : State) : (irqSave s).params = s.params := (rfl)
@[simp] theorem irqSave_banks (s : State) : (irqSave s).banks = s.banks := (rfl)
@[simp] theorem irqSave_seq (s : State) : (irqSave s).seq = { s.seq with savedIrq := s.env.ie } := (rfl)
@[simp] theorem irqSave_initDone (s : State) : (irqSave s).initDone = s.initDone := (rfl)
@[simp] theorem irqSave_memory (s : State) : (irqSave s).memory = s.memory := (rfl)
@[simp] theorem irqSave_env (s : State) : (irqSave s).env = { s.env with ie := false } := (rfl)
@[simp] theorem irqSave_position (s : State) : (irqSave s).position = s.position := (rfl)
@[simp] theorem irqSave_calls (s : State) : (irqSave s).calls = s.calls := (rfl)
@[simp] theorem irqSave_result (s : State) : (irqSave s).result = s.result := (rfl)
@[simp] theorem irqSave_log (s : State) : (irqSave s).log = { s.log with trace := s.log.trace ++ [.irqOff] } := (rfl)

@[simp] theorem irqRestore_params (s : State) : (irqRestore s).params = s.params := (rfl)
@[simp] theorem irqRestore_banks (s : State) : (irqRestore s).banks = s.banks := (rfl)
@[simp] theorem irqRestore_seq (s : State) : (irqRestore s).seq = s.seq := (rfl)
@[simp] theorem irqRestore_initDone (s : State) : (irqRestore s).initDone = s.initDone := (rfl)
@[simp] theorem irqRestore_memory (s : State) : (irqRestore s).memory = s.memory := (rfl)
@[simp] theorem irqRestore_env (s : State) : (irqRestore s).env = { s.env with ie := s.seq.savedIrq } := (rfl)
@[simp] theorem irqRestore_position (s : State) : (irqRestore s).position = s.position := (rfl)
@[simp] theorem irqRestore_calls (s : State) : (irqRestore s).calls = s.calls := (rfl)
@[simp] theorem irqRestore_result (s : State) : (irqRestore s).result = s.result := (rfl)
@[simp] theorem irqRestore_log (s : State) : (irqRestore s).log = { s.log with trace := s.log.trace ++ [.irqRestore] } := (rfl)

/-! ### Reading a bank after an update -/

theorem State.bank_eq_of_banks {s t : State} (h : t.banks = s.banks) (c : Nat) :
    t.bank c = s.bank c := by
  simp [State.bank, h]

@[simp] theorem State.setSm_bank (s : State) (x : SmState) (c : Nat) :
    (s.setSm x).bank c = s.bank c := (rfl)
@[simp] theorem State.setPoll_bank (s : State) (a n c : Nat) :
    (s.setPoll a n).bank c = s.bank c := (rfl)
@[simp] theorem State.setPollStart_bank (s : State) (t c : Nat) :
    (s.setPollStart t).bank c = s.bank c := (rfl)
@[simp] theorem State.setPollPrev_bank (s : State) (w : Word) (c : Nat) :
    (s.setPollPrev w).bank c = s.bank c := (rfl)
@[simp] theorem State.setEnv_bank (s : State) (e : Env) (c : Nat) :
    (s.setEnv e).bank c = s.bank c := (rfl)
@[simp] theorem State.setInitDone_bank (s : State) (c : Nat) :
    s.setInitDone.bank c = s.bank c := (rfl)
@[simp] theorem State.enter_bank (s : State) (i : Instr) (c : Nat) :
    (s.enter i).bank c = s.bank c := (rfl)
@[simp] theorem State.leave_bank (s : State) (r : Option Result) (c : Nat) :
    (s.leave r).bank c = s.bank c := (rfl)
@[simp] theorem State.withCalls_bank (s : State) (cs : List (List Byte)) (c : Nat) :
    (s.withCalls cs).bank c = s.bank c := (rfl)
@[simp] theorem State.note_bank (s : State) (e : BusEvent) (c : Nat) :
    (s.note e).bank c = s.bank c := (rfl)
@[simp] theorem State.setMemory_bank (s : State) (m : Memory) (c : Nat) :
    (s.setMemory m).bank c = s.bank c := (rfl)
@[simp] theorem State.drawn_bank (s : State) (c : Nat) : s.drawn.bank c = s.bank c := (rfl)
@[simp] theorem State.setRange_bank (s : State) (r : Option (Nat × Nat)) (c : Nat) :
    (s.setRange r).bank c = s.bank c := (rfl)
@[simp] theorem State.advance_bank (s : State) (c : Nat) : s.advance.bank c = s.bank c := (rfl)
@[simp] theorem irqSave_bank (s : State) (c : Nat) : (irqSave s).bank c = s.bank c := (rfl)
@[simp] theorem irqRestore_bank (s : State) (c : Nat) : (irqRestore s).bank c = s.bank c := (rfl)

theorem State.bank_eq_getElem (s : State) {b : Nat} (h : b < s.banks.length) :
    s.bank b = s.banks[b] := by
  simp [State.bank, h]

theorem State.bank_mem (s : State) {b : Nat} (h : b < s.banks.length) : s.bank b ∈ s.banks := by
  rw [State.bank_eq_getElem s h]
  exact List.getElem_mem h

theorem State.setBank_bank_self (s : State) {b : Nat} (bk : Bank) (h : b < s.banks.length) :
    (s.setBank b bk).bank b = bk := by
  simp [State.bank, State.setBank, h]

theorem State.setBank_bank_other (s : State) {b c : Nat} (bk : Bank) (h : c ≠ b) :
    (s.setBank b bk).bank c = s.bank c := by
  simp [State.bank, State.setBank, List.getElem?_set_ne (Ne.symm h)]

theorem State.setDevice_bank_self (s : State) {b : Nat} (d : Device) (h : b < s.banks.length) :
    (s.setDevice b d).bank b =
      { s.bank b with device := d } :=
  State.setBank_bank_self s _ h

theorem State.setDevice_bank_other (s : State) {b c : Nat} (d : Device) (h : c ≠ b) :
    (s.setDevice b d).bank c = s.bank c :=
  State.setBank_bank_other s _ h

end Sys2Proof.Machine
end

