-- ==== Sys2Proof/Laws/Memory.lean ====
section
/-! SUPPORT. The array: reads after writes, and the canonical form, which every operation of
Machine/Memory.lean keeps. -/

namespace Sys2Proof.Machine

/-! ### The canonical form as a proposition -/

/-- Addresses strictly rising, no default cell, all addresses at least `lo`. -/
def Memory.WfFrom (lo : Nat) : Memory → Prop
  | [] => True
  | (k, v) :: m => lo ≤ k ∧ v ≠ unlistedByte ∧ Memory.WfFrom (k + 1) m

theorem Memory.WfFrom_mono {lo lo' : Nat} (h : lo' ≤ lo) :
    ∀ {m : Memory}, Memory.WfFrom lo m → Memory.WfFrom lo' m
  | [], _ => trivial
  | _ :: _, hm => ⟨Nat.le_trans h hm.1, hm.2⟩

theorem Memory.WfFrom_lower {m : Memory} {lo : Nat} (h : Memory.WfFrom lo m) :
    ∀ c ∈ m, lo ≤ c.1 := by
  induction m generalizing lo with
  | nil => simp
  | cons c m ih =>
    intro d hd
    rcases List.mem_cons.mp hd with rfl | hd
    · exact h.1
    · exact Nat.le_trans (Nat.le_succ_of_le h.1) (ih h.2.2 d hd)

theorem Memory.wfFrom_of_lower {m : Memory} {lo : Nat} (hw : Memory.WfFrom 0 m)
    (h : ∀ c ∈ m, lo ≤ c.1) : Memory.WfFrom lo m := by
  cases m with
  | nil => trivial
  | cons c m => exact ⟨h c (by simp), hw.2⟩

theorem Memory.wf_iff (m : Memory) : Memory.wf m = true ↔ Memory.WfFrom 0 m := by
  induction m with
  | nil => simp [Memory.wf, Memory.WfFrom]
  | cons c m ih =>
    have key : Memory.wf (c :: m) = true ↔
        ((∀ d ∈ m, c.1 < d.1) ∧ c.2 ≠ unlistedByte) ∧ Memory.wf m = true := by
      simp only [Memory.wf, List.pairwise_cons, List.all_cons, Bool.and_eq_true,
        decide_eq_true_eq, bne_iff_ne]
      tauto
    rw [key, ih]
    constructor
    · rintro ⟨⟨h1, h2⟩, h3⟩
      exact ⟨Nat.zero_le _, h2, Memory.wfFrom_of_lower h3 fun d hd => h1 d hd⟩
    · rintro ⟨_, h2, h3⟩
      exact ⟨⟨fun d hd => Memory.WfFrom_lower h3 d hd, h2⟩, Memory.WfFrom_mono (Nat.zero_le _) h3⟩

/-! ### Every operation keeps it -/

theorem Memory.cons_wfFrom {lo a : Nat} {v : Byte} {m : Memory} (ha : lo ≤ a)
    (hm : Memory.WfFrom (a + 1) m) : Memory.WfFrom lo (Memory.cons a v m) := by
  unfold Memory.cons
  split
  · exact Memory.WfFrom_mono (by omega) hm
  · exact ⟨ha, by assumption, hm⟩

theorem Memory.write_wfFrom {m : Memory} {lo a : Nat} {v : Byte} (ha : lo ≤ a)
    (hm : Memory.WfFrom lo m) : Memory.WfFrom lo (Memory.write m a v) := by
  induction m generalizing lo with
  | nil => exact Memory.cons_wfFrom ha trivial
  | cons c m ih =>
    obtain ⟨h1, h2, h3⟩ := hm
    simp only [Memory.write]
    split
    · exact Memory.cons_wfFrom ha ⟨by omega, h2, h3⟩
    · split
      · exact Memory.cons_wfFrom ha (by subst a; exact h3)
      · exact ⟨h1, h2, ih (by omega) h3⟩

theorem Memory.write_wf {m : Memory} (a : Nat) (v : Byte) (h : Memory.wf m = true) :
    Memory.wf (Memory.write m a v) = true :=
  (Memory.wf_iff _).mpr (Memory.write_wfFrom (Nat.zero_le _) ((Memory.wf_iff _).mp h))

theorem Memory.writeBytes_wf {vs : List Byte} {m : Memory} {a : Nat} (h : Memory.wf m = true) :
    Memory.wf (Memory.writeBytes m a vs) = true := by
  induction vs generalizing m a with
  | nil => exact h
  | cons v vs ih => exact ih (Memory.write_wf a v h)

theorem Memory.drawRange_wf {k n : Nat} {m : Memory} {a : Nat} (h : Memory.wf m = true) :
    Memory.wf (Memory.drawRange k m a n) = true := by
  induction n generalizing m a with
  | zero => exact h
  | succ n ih => exact ih (Memory.write_wf a _ h)

theorem Memory.filter_wf {m : Memory} (p : Host.Cell → Bool) (h : Memory.wf m = true) :
    Memory.wf (m.filter p) = true := by
  simp only [Memory.wf, Bool.and_eq_true, decide_eq_true_eq, List.all_eq_true] at h ⊢
  exact ⟨h.1.filter p, fun c hc => h.2 c (List.mem_filter.mp hc).1⟩

theorem Memory.eraseRange_wf {m : Memory} (a n : Nat) (h : Memory.wf m = true) :
    Memory.wf (Memory.eraseRange m a n) = true := by
  unfold Memory.eraseRange
  split
  · exact Memory.filter_wf _ h
  · exact Memory.writeBytes_wf h

/-! ### Reads after writes -/

theorem Memory.read_below {m : Memory} {lo x : Nat} (hm : Memory.WfFrom lo m) (hx : x < lo) :
    Memory.read m x = unlistedByte := by
  induction m generalizing lo with
  | nil => rfl
  | cons c m ih =>
    obtain ⟨h1, _, h3⟩ := hm
    simp only [Memory.read, if_neg (show ¬ x = c.1 by omega)]
    exact ih h3 (by omega)

theorem Memory.read_cons {m : Memory} {a x : Nat} {v : Byte} (hm : Memory.WfFrom (a + 1) m) :
    Memory.read (Memory.cons a v m) x = if x = a then v else Memory.read m x := by
  unfold Memory.cons
  split
  · split
    · subst x v; exact Memory.read_below hm (by omega)
    · rfl
  · rfl

theorem Memory.read_write_from {m : Memory} {lo a x : Nat} {v : Byte} (hm : Memory.WfFrom lo m) :
    Memory.read (Memory.write m a v) x = if x = a then v else Memory.read m x := by
  induction m generalizing lo with
  | nil => exact Memory.read_cons trivial
  | cons c m ih =>
    obtain ⟨h1, h2, h3⟩ := hm
    simp only [Memory.write]
    split
    · exact Memory.read_cons ⟨by omega, h2, h3⟩
    · split
      · subst a
        rw [Memory.read_cons h3]
        simp only [Memory.read]
        split <;> rfl
      · simp only [Memory.read, ih h3]
        split
        · rw [if_neg (by omega)]
        · rfl

/-- A byte read after a write: the value at the address written, any other as before. -/
theorem Memory.read_write {m : Memory} (h : Memory.wf m = true) (a x : Nat) (v : Byte) :
    Memory.read (Memory.write m a v) x = if x = a then v else Memory.read m x :=
  Memory.read_write_from ((Memory.wf_iff _).mp h)

/-- A byte read after a list of bytes was written. -/
theorem Memory.read_writeBytes {vs : List Byte} {m : Memory} {a : Nat} (h : Memory.wf m = true)
    (x : Nat) :
    Memory.read (Memory.writeBytes m a vs) x =
      if a ≤ x ∧ x < a + vs.length then vs.getD (x - a) 0 else Memory.read m x := by
  induction vs generalizing m a with
  | nil => simp [Memory.writeBytes]
  | cons v vs ih =>
    simp only [Memory.writeBytes, List.length_cons]
    rw [ih (Memory.write_wf a v h), Memory.read_write h]
    by_cases hx : x = a
    · subst hx; simp
    · by_cases h1 : a + 1 ≤ x ∧ x < a + 1 + vs.length
      · rw [if_pos h1, if_pos (by omega), show x - a = (x - (a + 1)) + 1 by omega,
          List.getD_cons_succ]
      · rw [if_neg h1, if_neg hx, if_neg (by omega)]

/-- Bytes outside a drawn range read as before. -/
theorem Memory.read_drawRange {k n : Nat} {m : Memory} {a : Nat} (h : Memory.wf m = true) {x : Nat}
    (hx : x < a ∨ a + n ≤ x) :
    Memory.read (Memory.drawRange k m a n) x = Memory.read m x := by
  induction n generalizing m a with
  | zero => rfl
  | succ n ih =>
    simp only [Memory.drawRange]
    rw [ih (Memory.write_wf a _ h) (by omega), Memory.read_write h, if_neg (by omega)]

theorem Memory.read_filter {m : Memory} {lo : Nat} (p : Host.Cell → Bool)
    (hm : Memory.WfFrom lo m) (x : Nat) (hp : ∀ v, p (x, v) = p (x, 0)) :
    Memory.read (m.filter p) x = if p (x, 0) then Memory.read m x else unlistedByte := by
  induction m generalizing lo with
  | nil => simp [Memory.read]
  | cons c m ih =>
    obtain ⟨k, v⟩ := c
    obtain ⟨_, _, h3⟩ := hm
    by_cases hk : x = k
    · subst hk
      have hb : Memory.read m x = unlistedByte := Memory.read_below h3 (by omega)
      by_cases hpx : p (x, 0) = true
      · rw [List.filter_cons_of_pos (by rw [hp]; exact hpx)]
        simp only [Memory.read, if_pos, if_pos hpx]
      · rw [List.filter_cons_of_neg (by rw [hp]; exact hpx), ih h3, if_neg hpx, if_neg hpx]
    · have : Memory.read (List.filter p ((k, v) :: m)) x = Memory.read (m.filter p) x := by
        by_cases hpk : p (k, v) = true
        · rw [List.filter_cons_of_pos hpk]; simp [Memory.read, hk]
        · rw [List.filter_cons_of_neg hpk]
      rw [this, ih h3]
      simp [Memory.read, hk]

/-- A byte read after a range was erased: 0xFF inside, as before outside. -/
theorem Memory.read_eraseRange {m : Memory} (h : Memory.wf m = true) (a n x : Nat) :
    Memory.read (Memory.eraseRange m a n) x =
      if a ≤ x ∧ x < a + n then 0xFF else Memory.read m x := by
  unfold Memory.eraseRange
  rw [if_pos (show unlistedByte = (0xFF : Byte) from rfl), Memory.read_filter _ ((Memory.wf_iff _).mp h) x (fun _ => rfl)]
  by_cases hx : a ≤ x ∧ x < a + n
  · simp only [if_pos hx, decide_eq_true_eq, if_neg (show ¬ (x < a ∨ a + n ≤ x) by omega)]
    rfl
  · simp only [if_neg hx, decide_eq_true_eq, if_pos (show x < a ∨ a + n ≤ x by omega)]

end Sys2Proof.Machine
end

