-- ==== Sys2Proof/Laws/Res.lean ====
section
/-! SUPPORT. Reasoning about pieces of operations: what `bind` does, that a piece runs to a value
(`Yields`), and what holds of every state a piece can end in (`Ends`). -/

namespace Sys2Proof.Machine

section
variable {α β : Type}

@[simp] theorem Res.bind_ok (a : α) (s : State) (k : α → State → Res β) :
    (Res.ok a s).bind k = k a s := rfl
@[simp] theorem Res.bind_reset (s : State) (k : α → State → Res β) :
    (Res.reset s : Res α).bind k = .reset s := rfl
@[simp] theorem Res.bind_fault (f : Fault) (k : α → State → Res β) :
    (Res.fault f : Res α).bind k = .fault f := rfl
@[simp] theorem Res.bind_refused (r : Refusal) (k : α → State → Res β) :
    (Res.refused r : Res α).bind k = .refused r := rfl

theorem Res.bind_assoc {γ : Type} (r : Res α) (k : α → State → Res β) (l : β → State → Res γ) :
    (r.bind k).bind l = r.bind fun a s => (k a s).bind l := by
  cases r <;> rfl

/-- A bind that ends in a value: its first piece did, and then the second. -/
theorem Res.bind_eq_ok {r : Res α} {k : α → State → Res β} {b : β} {t : State}
    (h : r.bind k = .ok b t) : ∃ a s, r = .ok a s ∧ k a s = .ok b t := by
  cases r with
  | ok a s => exact ⟨a, s, rfl, h⟩
  | _ => cases h

/-! ### Running to a value -/

/-- The piece runs to a value and a state of which `P` holds. -/
def Res.Yields (r : Res α) (P : α → State → Prop) : Prop := ∃ a s, r = .ok a s ∧ P a s

theorem Res.Yields.of_ok {a : α} {s : State} {P : α → State → Prop} (h : P a s) :
    (Res.ok a s).Yields P := ⟨a, s, rfl, h⟩

theorem Res.Yields.bind {r : Res α} {k : α → State → Res β} {P : α → State → Prop}
    {Q : β → State → Prop} (h : r.Yields P) (hk : ∀ a s, P a s → (k a s).Yields Q) :
    (r.bind k).Yields Q := by
  obtain ⟨a, s, rfl, hp⟩ := h
  exact hk a s hp

theorem Res.Yields.mono {r : Res α} {P Q : α → State → Prop} (h : r.Yields P)
    (hpq : ∀ a s, P a s → Q a s) : r.Yields Q := by
  obtain ⟨a, s, hr, hp⟩ := h
  exact ⟨a, s, hr, hpq a s hp⟩

/-! ### Completing -/

/-- The piece runs to a value: no reset, no fault, no refusal. -/
def Res.Completes (r : Res α) : Prop := ∃ a s, r = .ok a s

theorem Res.completes_ok (a : α) (s : State) : (Res.ok a s).Completes := ⟨a, s, rfl⟩

theorem Res.Completes.bind {r : Res α} {k : α → State → Res β} (h : r.Completes)
    (hk : ∀ a s, r = .ok a s → (k a s).Completes) : (r.bind k).Completes := by
  obtain ⟨a, s, rfl⟩ := h
  exact hk a s rfl

theorem Res.Yields.completes {r : Res α} {P : α → State → Prop} (h : r.Yields P) :
    r.Completes := by
  obtain ⟨a, s, hr, -⟩ := h
  exact ⟨a, s, hr⟩

/-! ### Every state a piece can end in -/

/-- `P` holds of the value and state the piece ends in, and `R` of the state a system reset leaves. -/
def Res.Ends (r : Res α) (P : α → State → Prop) (R : State → Prop) : Prop :=
  match r with
  | .ok a s => P a s
  | .reset s => R s
  | .fault _ => True
  | .refused _ => True

@[simp] theorem Res.Ends_ok {a : α} {s : State} {P : α → State → Prop} {R : State → Prop} :
    (Res.ok a s).Ends P R ↔ P a s := Iff.rfl
@[simp] theorem Res.Ends_reset {s : State} {P : α → State → Prop} {R : State → Prop} :
    (Res.reset s : Res α).Ends P R ↔ R s := Iff.rfl
@[simp] theorem Res.Ends_fault {f : Fault} {P : α → State → Prop} {R : State → Prop} :
    (Res.fault f : Res α).Ends P R := trivial
@[simp] theorem Res.Ends_refused {e : Refusal} {P : α → State → Prop} {R : State → Prop} :
    (Res.refused e : Res α).Ends P R := trivial

theorem Res.Ends.bind {r : Res α} {k : α → State → Res β} {P : α → State → Prop}
    {Q : β → State → Prop} {R : State → Prop} (h : r.Ends P R)
    (hk : ∀ a s, P a s → (k a s).Ends Q R) : (r.bind k).Ends Q R := by
  cases r with
  | ok a s => exact hk a s h
  | reset s => exact h
  | _ => trivial

theorem Res.Ends.mono {r : Res α} {P Q : α → State → Prop} {R R' : State → Prop}
    (h : r.Ends P R) (hpq : ∀ a s, P a s → Q a s) (hr : ∀ s, R s → R' s) : r.Ends Q R' := by
  cases r with
  | ok a s => exact hpq a s h
  | reset s => exact hr s h
  | _ => trivial

/-- A piece that completes and what it can end in, together. -/
theorem Res.Completes.yields {r : Res α} {P : α → State → Prop} {R : State → Prop}
    (h : r.Completes) (he : r.Ends P R) : r.Yields P := by
  obtain ⟨a, s, rfl⟩ := h
  exact ⟨a, s, rfl, he⟩

theorem Res.Ends.of_eq {r : Res α} {P : α → State → Prop} {R : State → Prop} (h : r.Ends P R)
    {a : α} {s : State} (e : r = .ok a s) : P a s := by
  subst e
  exact h

theorem Res.Yields.ends {r : Res α} {P : α → State → Prop} (R : State → Prop)
    (h : r.Yields P) : r.Ends P R := by
  obtain ⟨a, s, rfl, hp⟩ := h
  exact hp

end

/-! ### Calls -/

/-- A call whose body runs to a result ends in a next state: the body's, with the result in place. -/
theorem call_of_yields {i : Instr} {body : State → Res (Option Result)} {s : State}
    {P : Option Result → State → Prop} (hpos : s.position = none)
    (hp : paramsWf s.params = true)
    (h : (body (s.enter i)).Yields P) : ∃ r s', P r s' ∧ call i body s = .next (s'.leave r) := by
  obtain ⟨r, s', hb, hP⟩ := h
  exact ⟨r, s', hP, by simp [call, hpos, hp, hb]⟩

/-- A call that ends in a next state: the body ran to a result, or a system reset ended it. -/
theorem call_eq_next {i : Instr} {body : State → Res (Option Result)} {s t : State}
    (h : call i body s = .next t) :
    s.position = none ∧ paramsWf s.params = true ∧
    ((∃ r s', body (s.enter i) = .ok r s' ∧ t = s'.leave r) ∨ body (s.enter i) = .reset t) := by
  unfold call at h
  split at h
  · cases h
  · split at h
    · cases h
    · rename_i h1 h2
      refine ⟨by simpa using h1, by simpa using h2, ?_⟩
      split at h
      · rename_i r s' hb
        exact .inl ⟨r, s', hb, by cases h; rfl⟩
      · rename_i s' hb
        exact .inr (by cases h; exact hb)
      · cases h
      · cases h

theorem onBank_of_lt {α : Type} {b : Nat} {body : State → Res α} {s : State}
    (h : b < s.banks.length) : onBank b body s = body s := if_pos h

theorem onKnown_of_known {b : Nat} {body : State → Res (Option Result)} {s : State}
    (h : (s.bank b).vendorId ≠ .unknown) : onKnown b body s = body s := if_neg h

theorem onVariant_of {α : Type} {b : Nat} {v : CmdSet} {body : State → Res α} {s : State}
    (h : (s.bank b).cmdset = .none ∨ (s.bank b).cmdset = v) : onVariant b v body s = body s :=
  if_pos h

theorem onSector_of_lt {α : Type} {b i : Nat} {body : State → Res α} {s : State}
    (h : i < (s.bank b).sectorCount) : onSector b i body s = body s := if_pos h

theorem beforeInit_of {α : Type} {body : State → Res α} {s : State} (h : s.initDone = false) :
    beforeInit body s = body s := by simp [beforeInit, h]

end Sys2Proof.Machine
end

