-- ==== Sys2Proof/Laws/Bus.lean ====
section
/-! SUPPORT. What bus accesses and timer reads can do. For each shared operation one lemma `_leads`
says what holds of every state it can end in, and one lemma `_completes` says when it runs to a value:
no system reset due and the address accepted. -/

namespace Sys2Proof.Machine

/-! ### Reading a trace -/

@[simp] theorem writesOf_nil : writesOf [] = [] := rfl
@[simp] theorem writesOf_append (es fs : List BusEvent) :
    writesOf (es ++ fs) = writesOf es ++ writesOf fs := List.filterMap_append
@[simp] theorem writesOf_write (a : Nat) (v : Word) (es : List BusEvent) :
    writesOf (.write a v :: es) = (a, v) :: writesOf es := rfl
@[simp] theorem writesOf_read (a : Nat) (v : Word) (es : List BusEvent) :
    writesOf (.read a v :: es) = writesOf es := rfl
@[simp] theorem writesOf_timer (n : Nat) (es : List BusEvent) :
    writesOf (.timer n :: es) = writesOf es := rfl
@[simp] theorem writesOf_irqOff (es : List BusEvent) :
    writesOf (.irqOff :: es) = writesOf es := rfl
@[simp] theorem writesOf_irqRestore (es : List BusEvent) :
    writesOf (.irqRestore :: es) = writesOf es := rfl

@[simp] theorem accessesOf_nil : accessesOf [] = [] := rfl
@[simp] theorem accessesOf_append (es fs : List BusEvent) :
    accessesOf (es ++ fs) = accessesOf es ++ accessesOf fs := List.filterMap_append
@[simp] theorem accessesOf_write (a : Nat) (v : Word) (es : List BusEvent) :
    accessesOf (.write a v :: es) = a :: accessesOf es := rfl
@[simp] theorem accessesOf_read (a : Nat) (v : Word) (es : List BusEvent) :
    accessesOf (.read a v :: es) = a :: accessesOf es := rfl
@[simp] theorem accessesOf_timer (n : Nat) (es : List BusEvent) :
    accessesOf (.timer n :: es) = accessesOf es := rfl
@[simp] theorem accessesOf_irqOff (es : List BusEvent) :
    accessesOf (.irqOff :: es) = accessesOf es := rfl
@[simp] theorem accessesOf_irqRestore (es : List BusEvent) :
    accessesOf (.irqRestore :: es) = accessesOf es := rfl

@[simp] theorem timesOf_nil : timesOf [] = [] := rfl
@[simp] theorem timesOf_append (es fs : List BusEvent) :
    timesOf (es ++ fs) = timesOf es ++ timesOf fs := List.filterMap_append
@[simp] theorem timesOf_write (a : Nat) (v : Word) (es : List BusEvent) :
    timesOf (.write a v :: es) = timesOf es := rfl
@[simp] theorem timesOf_read (a : Nat) (v : Word) (es : List BusEvent) :
    timesOf (.read a v :: es) = timesOf es := rfl
@[simp] theorem timesOf_timer (n : Nat) (es : List BusEvent) :
    timesOf (.timer n :: es) = n :: timesOf es := rfl
@[simp] theorem timesOf_irqOff (es : List BusEvent) :
    timesOf (.irqOff :: es) = timesOf es := rfl
@[simp] theorem timesOf_irqRestore (es : List BusEvent) :
    timesOf (.irqRestore :: es) = timesOf es := rfl

/-! ### Frames -/

/-- What accesses of bank `b` leave: everything but the devices' mode of that bank, the sequencer, the
log, the position's step and what the environment holds ready. -/
structure BusFrame (b : Nat) (s t : State) : Prop where
  params : t.params = s.params
  initDone : t.initDone = s.initDone
  memory : t.memory = s.memory
  calls : t.calls = s.calls
  result : t.result = s.result
  count : t.banks.length = s.banks.length
  others : ∀ c, c ≠ b → t.bank c = s.bank c
  regs : ∃ m : DeviceMode × Bool, t.bank b = { s.bank b with
    device := { (s.bank b).device with mode := m.1, afterResetAmd := m.2 } }
  ie : t.env.ie = s.env.ie
  resets : s.env.resetIn = none → t.env.resetIn = none
  timer : s.env.timer ≤ t.env.timer
  saved : t.seq.savedIrq = s.seq.savedIrq
  range : t.position.bind Position.range = s.position.bind Position.range
  running : t.position.isSome = s.position.isSome
  log : ∃ es ms, t.log = { trace := s.log.trace ++ es, smTrace := s.log.smTrace ++ ms }

theorem BusFrame.refl (b : Nat) (s : State) : BusFrame b s s :=
  { params := rfl, initDone := rfl, memory := rfl, calls := rfl, result := rfl, count := rfl,
    others := fun _ _ => rfl, regs := ⟨(_, _), rfl⟩, ie := rfl, resets := id, timer := le_refl _,
    saved := rfl, range := rfl, running := rfl, log := ⟨[], [], by simp⟩ }

theorem BusFrame.trans {b : Nat} {s t u : State} (h : BusFrame b s t) (k : BusFrame b t u) :
    BusFrame b s u where
  params := k.params.trans h.params
  initDone := k.initDone.trans h.initDone
  memory := k.memory.trans h.memory
  calls := k.calls.trans h.calls
  result := k.result.trans h.result
  count := k.count.trans h.count
  others := fun c hc => (k.others c hc).trans (h.others c hc)
  regs := by
    obtain ⟨m, hm⟩ := h.regs
    obtain ⟨m', hm'⟩ := k.regs
    exact ⟨m', by rw [hm', hm]⟩
  ie := k.ie.trans h.ie
  resets := fun hr => k.resets (h.resets hr)
  timer := h.timer.trans k.timer
  saved := k.saved.trans h.saved
  range := k.range.trans h.range
  running := k.running.trans h.running
  log := by
    obtain ⟨es, ms, he⟩ := h.log
    obtain ⟨es', ms', he'⟩ := k.log
    exact ⟨es ++ es', ms ++ ms', by rw [he', he]; simp⟩

section
variable {b : Nat} {s t : State}

/-! The registers of the bank, one lemma each. -/

theorem BusFrame.portWidth (h : BusFrame b s t) : (t.bank b).portWidth = (s.bank b).portWidth := by
  obtain ⟨m, hm⟩ := h.regs; rw [hm]
theorem BusFrame.chipWidth (h : BusFrame b s t) : (t.bank b).chipWidth = (s.bank b).chipWidth := by
  obtain ⟨m, hm⟩ := h.regs; rw [hm]
theorem BusFrame.laneOrder (h : BusFrame b s t) : (t.bank b).laneOrder = (s.bank b).laneOrder := by
  obtain ⟨m, hm⟩ := h.regs; rw [hm]
theorem BusFrame.bytes (h : BusFrame b s t) : (t.bank b).bytes = (s.bank b).bytes := by
  obtain ⟨m, hm⟩ := h.regs; rw [hm]; rfl
theorem BusFrame.cmdset (h : BusFrame b s t) : (t.bank b).cmdset = (s.bank b).cmdset := by
  obtain ⟨m, hm⟩ := h.regs; rw [hm]
theorem BusFrame.vendorId (h : BusFrame b s t) : (t.bank b).vendorId = (s.bank b).vendorId := by
  obtain ⟨m, hm⟩ := h.regs; rw [hm]
theorem BusFrame.sectors (h : BusFrame b s t) : (t.bank b).sectors = (s.bank b).sectors := by
  obtain ⟨m, hm⟩ := h.regs; rw [hm]
theorem BusFrame.size (h : BusFrame b s t) : (t.bank b).size = (s.bank b).size := by
  obtain ⟨m, hm⟩ := h.regs; rw [hm]
theorem BusFrame.baseAddress (h : BusFrame b s t) :
    (t.bank b).baseAddress = (s.bank b).baseAddress := by
  obtain ⟨m, hm⟩ := h.regs; rw [hm]
theorem BusFrame.baseAddr (h : BusFrame b s t) (off : Nat) :
    (t.bank b).baseAddr off = (s.bank b).baseAddr off := by
  simp only [Bank.baseAddr, h.baseAddress, h.bytes]
theorem BusFrame.inWindow (h : BusFrame b s t) (a : Nat) :
    (t.bank b).inWindow t.params a = (s.bank b).inWindow s.params a := by
  obtain ⟨m, hm⟩ := h.regs; rw [hm, h.params]; rfl
theorem BusFrame.accepts_iff (h : BusFrame b s t) (a : Nat) :
    (t.bank b).Accepts t.params a ↔ (s.bank b).Accepts s.params a := by
  unfold Bank.Accepts
  rw [h.bytes, h.inWindow]
theorem BusFrame.accepts (h : BusFrame b s t) {a : Nat} (ha : (s.bank b).Accepts s.params a) :
    (t.bank b).Accepts t.params a := (h.accepts_iff a).mpr ha
theorem BusFrame.commandWord (h : BusFrame b s t) (c : Command) :
    t.commandWord b c = s.commandWord b c := by
  simp only [State.commandWord, Bank.rep, h.params, h.portWidth, h.chipWidth]
theorem BusFrame.sectorStart (h : BusFrame b s t) (i : Nat) :
    (t.bank b).sectorStart i = (s.bank b).sectorStart i := by
  obtain ⟨m, hm⟩ := h.regs; rw [hm]; rfl

/-- The bank but for the mode of its devices. -/
theorem BusFrame.sameRegs (h : BusFrame b s t) : (s.bank b).SameRegs (t.bank b) := by
  obtain ⟨m, hm⟩ := h.regs; unfold Bank.SameRegs; rw [hm]

theorem BusFrame.lockBits (h : BusFrame b s t) :
    (t.bank b).device.lockBits = (s.bank b).device.lockBits := by
  obtain ⟨m, hm⟩ := h.regs; rw [hm]

theorem BusFrame.lt (h : BusFrame b s t) (hb : b < s.banks.length) : b < t.banks.length := by
  rw [h.count]; exact hb

/-! ### Updates that are no bus access -/

theorem BusFrame.of_banks (hp : t.params = s.params) (hi : t.initDone = s.initDone)
    (hm : t.memory = s.memory) (hc : t.calls = s.calls) (hr : t.result = s.result)
    (hb : t.banks = s.banks) (hie : t.env.ie = s.env.ie)
    (hz : s.env.resetIn = none → t.env.resetIn = none) (ht : s.env.timer ≤ t.env.timer)
    (hs : t.seq.savedIrq = s.seq.savedIrq)
    (hg : t.position.bind Position.range = s.position.bind Position.range)
    (hn : t.position.isSome = s.position.isSome)
    (hl : ∃ es ms, t.log = { trace := s.log.trace ++ es, smTrace := s.log.smTrace ++ ms }) :
    BusFrame b s t :=
  { params := hp, initDone := hi, memory := hm, calls := hc, result := hr, count := by rw [hb]
    others := fun c _ => State.bank_eq_of_banks hb c
    regs := ⟨((s.bank b).device.mode, (s.bank b).device.afterResetAmd), State.bank_eq_of_banks hb b⟩, ie := hie, resets := hz
    timer := ht, saved := hs, range := hg, running := hn, log := hl }

theorem BusFrame.setSm (b : Nat) (s : State) (x : SmState) : BusFrame b s (s.setSm x) :=
  .of_banks rfl rfl rfl rfl rfl rfl rfl id (le_refl _) rfl rfl rfl ⟨[], [x], by simp⟩

theorem BusFrame.note (b : Nat) (s : State) (e : BusEvent) : BusFrame b s (s.note e) :=
  .of_banks rfl rfl rfl rfl rfl rfl rfl id (le_refl _) rfl rfl rfl ⟨[e], [], by simp⟩

theorem BusFrame.setPoll (b : Nat) (s : State) (a n : Nat) : BusFrame b s (s.setPoll a n) :=
  .of_banks rfl rfl rfl rfl rfl rfl rfl id (le_refl _) rfl rfl rfl ⟨[], [], by simp⟩

theorem BusFrame.setPollStart (b : Nat) (s : State) (n : Nat) : BusFrame b s (s.setPollStart n) :=
  .of_banks rfl rfl rfl rfl rfl rfl rfl id (le_refl _) rfl rfl rfl ⟨[], [], by simp⟩

theorem BusFrame.setPollPrev (b : Nat) (s : State) (w : Word) : BusFrame b s (s.setPollPrev w) :=
  .of_banks rfl rfl rfl rfl rfl rfl rfl id (le_refl _) rfl rfl rfl ⟨[], [], by simp⟩

theorem BusFrame.advance (b : Nat) (s : State) : BusFrame b s s.advance :=
  .of_banks rfl rfl rfl rfl rfl rfl rfl id (le_refl _) rfl
    (by cases s with | mk _ _ _ _ _ _ p => cases p <;> rfl)
    (by cases s with | mk _ _ _ _ _ _ p => cases p <;> rfl) ⟨[], [], by simp⟩

theorem BusFrame.setEnv (b : Nat) (s : State) (e : Env) (hi : e.ie = s.env.ie)
    (hr : s.env.resetIn = none → e.resetIn = none) (ht : s.env.timer ≤ e.timer) :
    BusFrame b s (s.setEnv e) :=
  .of_banks rfl rfl rfl rfl rfl rfl hi hr ht rfl rfl rfl ⟨[], [], by simp⟩

/-- A write moves the devices and nothing else of the bank. -/
theorem BusFrame.setDevice (hb : b < s.banks.length) (cs : CmdSet) (c : Option Command) :
    BusFrame b s (s.setDevice b (deviceAfter cs (s.bank b).device c)) :=
  { params := rfl, initDone := rfl, memory := rfl, calls := rfl, result := rfl,
    count := by simp, others := fun _ hc => State.setDevice_bank_other s _ hc,
    regs := ⟨(_, _), State.setDevice_bank_self s _ hb⟩, ie := rfl, resets := id,
    timer := le_refl _, saved := rfl, range := rfl, running := rfl, log := ⟨[], [], by simp⟩ }

end

/-! ### What a piece can end in, by a frame -/

/-- A relation that composes and lets no system reset come due of itself. -/
structure Framed (F : State → State → Prop) : Prop where
  refl : ∀ s, F s s
  trans : ∀ {s t u}, F s t → F t u → F s u
  resets : ∀ {s t}, F s t → s.env.resetIn = none → t.env.resetIn = none

theorem BusFrame.framed (b : Nat) : Framed (BusFrame b) :=
  ⟨BusFrame.refl b, BusFrame.trans, BusFrame.resets⟩

/-- The state a system reset inside a piece leaves: the piece got to some state, and there it was cut
(70_reset_and_hazards.md R129). It can only happen when a reset was due to come. -/
def CutFrom (F : State → State → Prop) (s t : State) : Prop :=
  s.env.resetIn ≠ none ∧ ∃ u, F s u ∧ t = u.interruptedReset

/-- Whatever a piece run from `s` ends in: a value and a state within `F`, of which `P` holds, or a
cut. -/
def Res.Leads {α : Type} (F : State → State → Prop) (s : State) (P : α → State → Prop)
    (r : Res α) : Prop :=
  r.Ends (fun a t => F s t ∧ P a t) (CutFrom F s)

section
variable {α β : Type} {F : State → State → Prop} {s : State}

theorem Res.Leads.ok (hF : Framed F) {a : α} {P : α → State → Prop} (h : P a s) :
    (Res.ok a s).Leads F s P := ⟨hF.refl s, h⟩

theorem Res.Leads.ok_of {a : α} {t : State} {P : α → State → Prop} (hf : F s t) (h : P a t) :
    (Res.ok a t).Leads F s P := ⟨hf, h⟩

theorem Res.Leads.stop_fault (f : Fault) (P : α → State → Prop) :
    (Res.fault f : Res α).Leads F s P := trivial

theorem Res.Leads.stop_refused (r : Refusal) (P : α → State → Prop) :
    (Res.refused r : Res α).Leads F s P := trivial

theorem CutFrom.trans (hF : Framed F) {t u : State} (h : F s t) (hc : CutFrom F t u) :
    CutFrom F s u := by
  obtain ⟨hr, v, hv, rfl⟩ := hc
  exact ⟨fun h0 => hr (hF.resets h h0), v, hF.trans h hv, rfl⟩

theorem Res.Leads.bind (hF : Framed F) {r : Res α} {k : α → State → Res β}
    {P : α → State → Prop} {Q : β → State → Prop} (h : r.Leads F s P)
    (hk : ∀ a t, F s t → P a t → (k a t).Leads F t Q) : (r.bind k).Leads F s Q := by
  refine Res.Ends.bind h fun a t hat => ?_
  exact Res.Ends.mono (hk a t hat.1 hat.2) (fun _ _ hq => ⟨hF.trans hat.1 hq.1, hq.2⟩)
    (fun _ hc => CutFrom.trans hF hat.1 hc)

/-- A piece started after a first update. -/
theorem Res.Leads.after (hF : Framed F) {r : Res α} {t : State} {P : α → State → Prop}
    (hf : F s t) (h : r.Leads F t P) : r.Leads F s P :=
  Res.Ends.mono h (fun _ _ hq => ⟨hF.trans hf hq.1, hq.2⟩) (fun _ hc => CutFrom.trans hF hf hc)

theorem Res.Leads.mono {r : Res α} {P Q : α → State → Prop} (h : r.Leads F s P)
    (hpq : ∀ a t, F s t → P a t → Q a t) : r.Leads F s Q :=
  Res.Ends.mono h (fun a t hq => ⟨hq.1, hpq a t hq.1 hq.2⟩) (fun _ => id)

/-- The same piece seen through a weaker frame. -/
theorem Res.Leads.weaken {G : State → State → Prop} {r : Res α} {P : α → State → Prop}
    (h : r.Leads F s P) (hfg : ∀ t, F s t → G s t) : r.Leads G s P :=
  Res.Ends.mono h (fun _ t hq => ⟨hfg t hq.1, hq.2⟩)
    (fun _ hc => ⟨hc.1, hc.2.imp fun u hu => ⟨hfg u hu.1, hu.2⟩⟩)

theorem Res.Leads.of_eq {r : Res α} {P : α → State → Prop} (h : r.Leads F s P) {a : α} {t : State}
    (e : r = .ok a t) : F s t ∧ P a t := Res.Ends.of_eq h e

end

/-! ### The micro-step -/

section
variable {b : Nat} {s : State}

theorem microStep_completes (h : s.env.resetIn = none) : microStep s = .ok () s.advance := by
  simp [microStep, h]

/-- A micro-step moves the position and the reset countdown, and nothing else. -/
theorem microStep_leads (b : Nat) (s : State) :
    (microStep s).Leads (BusFrame b) s fun _ t =>
      ∃ e, e.ie = s.env.ie ∧ e.timer = s.env.timer ∧ e.busInput = s.env.busInput ∧
        e.timerInput = s.env.timerInput ∧ e.draws = s.env.draws ∧ t = (s.setEnv e).advance := by
  unfold microStep
  split
  · rename_i h
    exact ⟨by simp [h], s, BusFrame.refl b s, rfl⟩
  · rename_i n h
    refine ⟨?_, { s.env with resetIn := some n }, rfl, rfl, rfl, rfl, rfl, rfl⟩
    exact (BusFrame.setEnv b s { s.env with resetIn := some n } rfl (by simp [h]) (le_refl _)).trans
      (BusFrame.advance b _)
  · rename_i h
    exact ⟨BusFrame.advance b s, s.env, rfl, rfl, rfl, rfl, rfl, rfl⟩

/-! ### Reads -/

theorem drawWord_frame (b : Nat) (p : PortWidth) (s : State) :
    BusFrame b s (drawWord p s).2 ∧ (drawWord p s).2.seq = s.seq ∧
      (drawWord p s).2.banks = s.banks ∧ (drawWord p s).2.log = s.log ∧
      (drawWord p s).2.env.timerInput = s.env.timerInput ∧
      (drawWord p s).2.env.timer = s.env.timer := by
  cases hw : s.env.busInput with
  | cons w ws =>
    simp only [drawWord, hw]
    exact ⟨BusFrame.setEnv b s _ rfl id (le_refl _), rfl, rfl, rfl, rfl, rfl⟩
  | nil =>
    simp only [drawWord, hw]
    exact ⟨BusFrame.setEnv b s { s.env with draws := s.env.draws + 1 } rfl id (le_refl _), rfl, rfl,
      rfl, rfl, rfl⟩

theorem answer_frame (b a : Nat) (s : State) :
    BusFrame b s (answer b a s).2 ∧ (answer b a s).2.seq = s.seq ∧
      (answer b a s).2.banks = s.banks ∧ (answer b a s).2.log = s.log ∧
      (answer b a s).2.env.timerInput = s.env.timerInput ∧
      (answer b a s).2.env.timer = s.env.timer := by
  simp only [answer]
  split
  · exact ⟨BusFrame.refl b s, rfl, rfl, rfl, rfl, rfl⟩
  · exact drawWord_frame b _ s

/-- What a read answers does not depend on the position or the reset countdown. -/
theorem answer_step (a : Nat) {e : Env} (h1 : e.busInput = s.env.busInput)
    (h2 : e.draws = s.env.draws) :
    (answer b a (s.setEnv e).advance).1 = (answer b a s).1 := by
  simp only [answer, State.advance_bank, State.advance_params, State.advance_memory,
    State.setEnv_bank, State.setEnv_params, State.setEnv_memory]
  by_cases hr : (s.bank b).device.mode = .readArray ∧
      (s.bank b).inArray a (s.bank b).bytes = true
  · rw [if_pos hr, if_pos hr]
  · rw [if_neg hr, if_neg hr]
    simp only [drawWord, State.advance_env, State.setEnv_env, h1, h2]
    cases s.env.busInput <;> rfl

/-- A read in read-array mode of a word of the array (20_memory.md R43). -/
theorem answer_readArray {a : Nat} (hm : (s.bank b).device.mode = .readArray)
    (ha : (s.bank b).inArray a (s.bank b).bytes = true) :
    answer b a s =
      (wordOf s.params.hostByteOrder (Memory.readBytes s.memory a (s.bank b).bytes), s) := by
  unfold answer
  rw [if_pos ⟨hm, ha⟩]

/-- Everything a bus read can do. -/
theorem busRead_leads (b a : Nat) (s : State) :
    (busRead b a s).Leads (BusFrame b) s fun w t =>
      (s.bank b).Accepts s.params a ∧ w = (answer b a s).1 ∧ t.seq = s.seq ∧ t.banks = s.banks ∧
      t.log = { s.log with trace := s.log.trace ++ [.read a w] } ∧
      t.env.timerInput = s.env.timerInput ∧ t.env.timer = s.env.timer := by
  unfold busRead
  split
  · trivial
  · split
    · trivial
    · rename_i h1 h2
      refine (microStep_leads b s).bind (BusFrame.framed b) ?_
      rintro - - - ⟨e, he1, he2, he3, he4, he5, rfl⟩
      have hw := answer_step (b := b) (s := s) a he3 he5
      obtain ⟨f, hq, hb, hl, hti, htm⟩ := answer_frame b a (s.setEnv e).advance
      refine .ok_of (f.trans (BusFrame.note b _ _))
        ⟨⟨by omega, by simpa using h2⟩, hw, ?_, ?_, ?_, ?_, ?_⟩
      · simp [hq]
      · simp [hb]
      · simp [hl, hw]
      · simp [hti, he4]
      · simp [htm, he2]

theorem busRead_completes {a : Nat} (h : s.env.resetIn = none) (ha : (s.bank b).Accepts s.params a) :
    (busRead b a s).Completes := by
  obtain ⟨h1, h2⟩ := ha
  simp [busRead, h1, h2, microStep_completes h, Res.Completes]

/-! ### Writes -/

/-- Everything a bus write can do. -/
theorem busWrite_leads (a : Nat) (v : Word) (c : Option Command) (hb : b < s.banks.length) :
    (busWrite b a v c s).Leads (BusFrame b) s fun _ t =>
      (s.bank b).Accepts s.params a ∧ t.seq = s.seq ∧
      (t.bank b).device = deviceAfter (s.bank b).cmdset (s.bank b).device c ∧
      t.log = { s.log with trace := s.log.trace ++ [.write a v] } ∧
      t.env.timerInput = s.env.timerInput ∧ t.env.timer = s.env.timer := by
  unfold busWrite
  split
  · trivial
  · split
    · trivial
    · rename_i h1 h2
      refine (microStep_leads b s).bind (BusFrame.framed b) ?_
      rintro - - - ⟨e, he1, he2, he3, he4, he5, rfl⟩
      have hb' : b < (s.setEnv e).advance.banks.length := by simpa using hb
      refine .ok_of ((BusFrame.setDevice hb' _ c).trans (BusFrame.note b _ _))
        ⟨⟨by omega, by simpa using h2⟩, by rfl, ?_, by rfl, by simp [he4], by simp [he2]⟩
      simp [State.setDevice_bank_self _ _ hb']

/-- The state after a bus write that no reset cuts short. -/
theorem busWrite_eq {a : Nat} (v : Word) (c : Option Command) (h : s.env.resetIn = none)
    (ha : (s.bank b).Accepts s.params a) :
    busWrite b a v c s = .ok () ((s.advance.setDevice b
      (deviceAfter (s.bank b).cmdset (s.bank b).device c)).note (.write a v)) := by
  obtain ⟨h1, h2⟩ := ha
  simp [busWrite, h1, h2, microStep_completes h]

theorem busWrite_completes {a : Nat} (v : Word) (c : Option Command) (h : s.env.resetIn = none)
    (ha : (s.bank b).Accepts s.params a) : (busWrite b a v c s).Completes :=
  ⟨_, _, busWrite_eq v c h ha⟩

theorem writeCommand_leads (a : Nat) (c : Command) (hb : b < s.banks.length) :
    (writeCommand b a c s).Leads (BusFrame b) s fun _ t =>
      (s.bank b).Accepts s.params a ∧ t.seq = s.seq ∧
      (t.bank b).device = deviceAfter (s.bank b).cmdset (s.bank b).device (some c) ∧
      t.log = { s.log with trace := s.log.trace ++ [.write a (s.commandWord b c)] } ∧
      t.env.timerInput = s.env.timerInput ∧ t.env.timer = s.env.timer :=
  busWrite_leads a _ _ hb

theorem writeCommand_completes {a : Nat} (c : Command) (h : s.env.resetIn = none)
    (ha : (s.bank b).Accepts s.params a) : (writeCommand b a c s).Completes :=
  busWrite_completes _ _ h ha

/-- The trace of a list of command writes. -/
def State.commandEvents (s : State) (b : Nat) (cs : List (Nat × Command)) : List BusEvent :=
  cs.map fun ac => .write ac.1 (s.commandWord b ac.2)

theorem State.writesOf_commandEvents (s : State) (b : Nat) (cs : List (Nat × Command)) :
    writesOf (s.commandEvents b cs) = s.commandWrites b cs := by
  induction cs with
  | nil => rfl
  | cons c cs _ => simp [writesOf, State.commandEvents, State.commandWrites]

/-- The devices after a list of command writes. -/
def devicesAfter (cs : CmdSet) (d : Device) (ws : List (Nat × Command)) : Device :=
  ws.foldl (fun d w => deviceAfter cs d (some w.2)) d

/-- A list of command writes: the trace shows each in order, and each moves the devices. -/
theorem writeCommands_leads : ∀ (cs : List (Nat × Command)) {s : State}, b < s.banks.length →
    (writeCommands b cs s).Leads (BusFrame b) s fun _ t =>
      t.seq = s.seq ∧ (t.bank b).device = devicesAfter (s.bank b).cmdset (s.bank b).device cs ∧
      (∀ ac ∈ cs, (s.bank b).Accepts s.params ac.1) ∧
      t.log = { s.log with trace := s.log.trace ++ s.commandEvents b cs } ∧
      t.env.timerInput = s.env.timerInput ∧ t.env.timer = s.env.timer
  | [], s, _ =>
    .ok (BusFrame.framed b) ⟨rfl, rfl, by simp, by simp [State.commandEvents], rfl, rfl⟩
  | (a, c) :: cs, s, hb => by
    refine (writeCommand_leads a c hb).bind (BusFrame.framed b) ?_
    rintro - t f ⟨a1, q1, m1, l1, i1, t1⟩
    refine (writeCommands_leads cs (f.lt hb)).mono ?_
    rintro - u - ⟨q2, m2, a2, l2, i2, t2⟩
    refine ⟨q2.trans q1, ?_, ?_, ?_, i2.trans i1, t2.trans t1⟩
    · rw [m2, m1, f.cmdset]
      rfl
    · intro ac hac
      rcases List.mem_cons.mp hac with rfl | hac
      · exact a1
      · exact (f.accepts_iff _).mp (a2 ac hac)
    · rw [l2, l1]
      simp [State.commandEvents, f.commandWord]

/-- A reset to read-array ends in read-array mode, whatever came before (20_memory.md R42,
30_encoding.md R53). -/
theorem devicesAfter_resetWords (cs : CmdSet) (d : Device) (a : Nat) :
    (devicesAfter cs d ((resetWords cs).map fun c => (a, c))).mode = .readArray := by
  cases cs <;> rfl

theorem writeCommands_completes : ∀ (cs : List (Nat × Command)) {s : State},
    s.env.resetIn = none → b < s.banks.length → (∀ ac ∈ cs, (s.bank b).Accepts s.params ac.1) →
    (writeCommands b cs s).Completes
  | [], s, _, _, _ => Res.completes_ok () s
  | (a, c) :: cs, s, h, hb, ha => by
    refine (writeCommand_completes c h (ha (a, c) (by simp))).bind fun _ t e => ?_
    obtain ⟨f, -⟩ := (writeCommand_leads a c hb).of_eq e
    exact writeCommands_completes cs (f.resets h) (f.lt hb)
      fun ac hac => f.accepts (ha ac (by simp [hac]))

/-- The opening commands of a sequence: as a list of writes, and `sm_state` is `CommandIssued`
(42_sequencer.md R88). -/
theorem issue_leads (a : Nat) (c : Command) (cs : List (Nat × Command)) (hb : b < s.banks.length) :
    (issue b ((a, c) :: cs) s).Leads (BusFrame b) s fun _ t =>
      t.seq = { s.seq with smState := .commandIssued } ∧
      t.log = { trace := s.log.trace ++ s.commandEvents b ((a, c) :: cs)
                smTrace := s.log.smTrace ++ [.commandIssued] } ∧
      t.env.timerInput = s.env.timerInput ∧ t.env.timer = s.env.timer := by
  refine (writeCommand_leads a c hb).bind (BusFrame.framed b) ?_
  rintro - t f ⟨-, q1, -, l1, i1, t1⟩
  have f' := f.trans (BusFrame.setSm b t .commandIssued)
  refine .after (BusFrame.framed b) (BusFrame.setSm b t .commandIssued)
    ((writeCommands_leads cs (s := t.setSm .commandIssued) (f.lt hb)).mono ?_)
  rintro - u - ⟨q2, -, -, l2, i2, t2⟩
  refine ⟨by rw [q2]; simp [q1], ?_, by simpa [i1] using i2, by simpa [t1] using t2⟩
  rw [l2]
  simp [l1, State.commandEvents, f'.commandWord]

theorem issue_completes {a : Nat} {c : Command} (cs : List (Nat × Command))
    (h : s.env.resetIn = none) (hb : b < s.banks.length)
    (ha : ∀ ac ∈ (a, c) :: cs, (s.bank b).Accepts s.params ac.1) :
    (issue b ((a, c) :: cs) s).Completes := by
  refine (writeCommand_completes c h (ha (a, c) (by simp))).bind fun _ t e => ?_
  obtain ⟨f, -⟩ := (writeCommand_leads a c hb).of_eq e
  have f' := f.trans (BusFrame.setSm b t .commandIssued)
  exact writeCommands_completes cs (f'.resets h) (f'.lt hb)
    fun ac hac => f'.accepts (ha ac (by simp [hac]))

/-- The trace of data writes at ascending word addresses. -/
def dataEvents (p : PortWidth) : Nat → List Word → List BusEvent
  | _, [] => []
  | a, d :: ds => .write a (toPort p d) :: dataEvents p (a + p.bytes) ds

theorem writeDataFrom_leads : ∀ (ds : List Word) {a : Nat} {s : State}, b < s.banks.length →
    (writeDataFrom b a ds s).Leads (BusFrame b) s fun _ t =>
      t.seq = s.seq ∧
      t.log = { s.log with trace := s.log.trace ++ dataEvents (s.bank b).portWidth a ds } ∧
      t.env.timerInput = s.env.timerInput ∧ t.env.timer = s.env.timer
  | [], _, s, _ => .ok (BusFrame.framed b) ⟨rfl, by simp [dataEvents], rfl, rfl⟩
  | d :: ds, a, s, hb => by
    refine (busWrite_leads a _ _ hb).bind (BusFrame.framed b) ?_
    rintro - t f ⟨-, q1, -, l1, i1, t1⟩
    refine (writeDataFrom_leads ds (f.lt hb)).mono ?_
    rintro - u - ⟨q2, l2, i2, t2⟩
    refine ⟨q2.trans q1, ?_, i2.trans i1, t2.trans t1⟩
    rw [l2, l1, f.portWidth, f.bytes]
    simp [dataEvents, Bank.bytes]

theorem writeDataFrom_completes : ∀ (ds : List Word) {a : Nat} {s : State},
    s.env.resetIn = none → b < s.banks.length →
    (∀ k < ds.length, (s.bank b).Accepts s.params (a + k * (s.bank b).bytes)) →
    (writeDataFrom b a ds s).Completes
  | [], _, s, _, _, _ => Res.completes_ok () s
  | d :: ds, a, s, h, hb, ha => by
    refine (busWrite_completes _ _ h (by simpa using ha 0 (by simp))).bind fun _ t e => ?_
    obtain ⟨f, -⟩ := (busWrite_leads a _ _ hb).of_eq e
    refine writeDataFrom_completes ds (f.resets h) (f.lt hb) fun k hk => ?_
    rw [f.bytes]
    have := f.accepts (ha (k + 1) (by simpa using hk))
    rwa [show a + (s.bank b).bytes + k * (s.bank b).bytes = a + (k + 1) * (s.bank b).bytes by ring]

theorem readWords_completes : ∀ (n : Nat) {a : Nat} {s : State},
    s.env.resetIn = none → (∀ k < n, (s.bank b).Accepts s.params (a + k * (s.bank b).bytes)) →
    (readWords b a n s).Completes
  | 0, _, s, _, _ => Res.completes_ok [] s
  | n + 1, a, s, h, ha => by
    refine (busRead_completes h (by simpa using ha 0 (by simp))).bind fun w t e => ?_
    obtain ⟨f, -⟩ := (busRead_leads b a s).of_eq e
    refine (readWords_completes n (f.resets h) fun k hk => ?_).bind
      fun ws u _ => Res.completes_ok _ u
    rw [f.bytes]
    have := f.accepts (ha (k + 1) (by omega))
    rwa [show a + (s.bank b).bytes + k * (s.bank b).bytes = a + (k + 1) * (s.bank b).bytes by ring]

/-- `n` words read: reads only, and the banks as they were. -/
theorem readWords_leads : ∀ (n : Nat) {a : Nat} {s : State},
    (readWords b a n s).Leads (BusFrame b) s fun ws t =>
      ws.length = n ∧ t.seq = s.seq ∧ t.banks = s.banks ∧
      ∃ es, t.log = { s.log with trace := s.log.trace ++ es } ∧ writesOf es = [] ∧ timesOf es = []
  | 0, _, s => .ok (BusFrame.framed b) ⟨rfl, rfl, rfl, [], by simp, rfl, rfl⟩
  | n + 1, a, s => by
    refine (busRead_leads b a s).bind (BusFrame.framed b) ?_
    rintro w t f ⟨-, -, q1, b1, l1, -, -⟩
    refine (readWords_leads n).bind (BusFrame.framed b) ?_
    rintro ws u - ⟨hl, q2, b2, es, l2, h1, h2⟩
    refine .ok (BusFrame.framed b) ⟨by simp [hl], q2.trans q1, b2.trans b1, .read a w :: es, ?_, ?_, ?_⟩
    · rw [l2, l1]; simp
    · simpa [writesOf] using h1
    · simpa [timesOf] using h2

/-- Words read in read-array mode are the array's (20_memory.md R43). -/
theorem readWords_readArray : ∀ (n : Nat) {a : Nat} {s t : State} {ws : List Word},
    readWords b a n s = .ok ws t → (s.bank b).device.mode = .readArray →
    (∀ k < n, (s.bank b).inArray (a + k * (s.bank b).bytes) (s.bank b).bytes = true) →
    ws = (List.range n).map fun k => wordOf s.params.hostByteOrder
      (Memory.readBytes s.memory (a + k * (s.bank b).bytes) (s.bank b).bytes)
  | 0, _, _, _, _, h, _, _ => by cases h; rfl
  | n + 1, a, s, t, ws, h, hm, hin => by
    obtain ⟨w, u, e1, h2⟩ := Res.bind_eq_ok h
    obtain ⟨ws', v, e2, h3⟩ := Res.bind_eq_ok h2
    cases h3
    obtain ⟨f, -, hw, -, bk, -⟩ := (busRead_leads b a s).of_eq e1
    have hu : u.bank b = s.bank b := State.bank_eq_of_banks bk b
    have ih := readWords_readArray n e2 (by rw [hu]; exact hm) (by
      rw [hu]
      intro k hk
      rw [show a + (s.bank b).bytes + k * (s.bank b).bytes = a + (k + 1) * (s.bank b).bytes by ring]
      exact hin (k + 1) (by omega))
    rw [ih, List.range_succ_eq_map, List.map_cons, List.map_map, hw,
      answer_readArray hm (by simpa using hin 0 (by omega))]
    simp only [hu, f.params, f.memory, Nat.zero_mul, Nat.add_zero, List.cons.injEq, true_and]
    refine List.map_congr_left fun k _ => ?_
    simp only [Function.comp_apply, Nat.succ_eq_add_one]
    rw [show a + (s.bank b).bytes + k * (s.bank b).bytes = a + (k + 1) * (s.bank b).bytes by ring]

/-! ### Timer (60_exceptions.md R123) -/

/-- The timer never goes back, and moves on unless the environment holds an advance ready. -/
theorem tickTimer_spec (s : State) :
    s.env.timer + (if s.env.timerInput.isEmpty then 1 else 0) ≤ (tickTimer s).env.timer ∧
      (tickTimer s).env.timerInput = s.env.timerInput.tail := by
  cases hd : s.env.timerInput with
  | cons d ds => simp [tickTimer, hd]
  | nil => simp [tickTimer, hd]

theorem tickTimer_frame (b : Nat) (s : State) :
    BusFrame b s (tickTimer s) ∧ (tickTimer s).banks = s.banks ∧ (tickTimer s).seq = s.seq ∧
      (tickTimer s).log = s.log := by
  unfold tickTimer
  split <;> exact ⟨BusFrame.setEnv b s _ rfl id (by simp; try omega), rfl, rfl, rfl⟩

/-- Everything a timer read can do: the new time, which the trace shows. -/
theorem readTimer_leads (b : Nat) (s : State) :
    (readTimer s).Leads (BusFrame b) s fun n t =>
      n = t.env.timer ∧ t.seq = s.seq ∧ t.banks = s.banks ∧
      s.env.timer + (if s.env.timerInput.isEmpty then 1 else 0) ≤ n ∧
      t.env.timerInput = s.env.timerInput.tail ∧
      t.log = { s.log with trace := s.log.trace ++ [.timer n] } := by
  refine (microStep_leads b s).bind (BusFrame.framed b) ?_
  rintro - - - ⟨e, he1, he2, he3, he4, he5, rfl⟩
  obtain ⟨t1, t2⟩ := tickTimer_spec (s.setEnv e).advance
  obtain ⟨f, r1, r2, r3⟩ := tickTimer_frame b (s.setEnv e).advance
  refine .ok_of (f.trans (BusFrame.note b _ _)) ⟨rfl, by simp [r2], by simp [r1], ?_, ?_, by simp [r3]⟩
  · simpa [he2, he4] using t1
  · simpa [he4] using t2

theorem readTimer_completes (h : s.env.resetIn = none) : (readTimer s).Completes := by
  simp [readTimer, microStep_completes h, Res.Completes]

end

end Sys2Proof.Machine
end

