-- ==== Sys2Proof/Laws/Poll.lean ====
section
/-! SUPPORT. The poller: it always ends (60_exceptions.md R123), and what each ending is worth
(42_sequencer.md R87, R89, R90). -/

namespace Sys2Proof.Machine

section
variable {b : Nat} {s : State}

/-! ### Reset to read-array -/

/-- The trace of a reset to read-array. -/
def State.resetEvents (s : State) (b a : Nat) : List BusEvent :=
  s.commandEvents b ((resetWords (s.bank b).cmdset).map fun c => (a, c))

theorem State.writesOf_resetEvents (s : State) (b a : Nat) :
    writesOf (s.resetEvents b a) = s.resetWrites b a := s.writesOf_commandEvents b _

/-- Everything `BankReset` can do: its writes, read-array mode, an idle sequencer (R87). -/
theorem bankReset_leads (a : Nat) (hb : b < s.banks.length) :
    (bankReset b a s).Leads (BusFrame b) s fun _ t =>
      (s.bank b).Accepts s.params a ∧ t.seq = { s.seq with smState := .idle } ∧
      (t.bank b).device.mode = .readArray ∧
      t.log = { trace := s.log.trace ++ s.resetEvents b a, smTrace := s.log.smTrace ++ [.idle] } ∧
      t.env.timerInput = s.env.timerInput ∧ t.env.timer = s.env.timer := by
  refine (writeCommands_leads _ hb).bind (BusFrame.framed b) ?_
  rintro - t - ⟨q1, d1, a1, l1, i1, t1⟩
  refine .ok_of (BusFrame.setSm b _ _) ⟨?_, by simp [q1], ?_, by simp [l1, State.resetEvents],
    by simp [i1], by simp [t1]⟩
  · cases hc : (s.bank b).cmdset <;> simp [hc, resetWords] at a1 <;> exact a1
  · rw [State.setSm_bank, d1]
    exact devicesAfter_resetWords _ _ a

theorem bankReset_completes {a : Nat} (h : s.env.resetIn = none) (hb : b < s.banks.length)
    (ha : (s.bank b).Accepts s.params a) : (bankReset b a s).Completes :=
  (writeCommands_completes _ h hb (by simpa using fun _ _ => ha)).bind fun _ _ _ =>
    Res.completes_ok _ _

/-! ### Entry -/

/-- What a poll's entry leaves (R89): the poll registers hold the address, the budget and the start
time, and the trace shows the timer read and, on an AMD-style bank, one read. -/
def Entered (a budget : Nat) (s t : State) : Prop :=
  t.banks = s.banks ∧ t.seq.smState = .polling ∧ t.seq.pollAddr = a ∧
  t.seq.pollBudget = budget ∧ t.seq.pollStart = t.env.timer ∧
  ∃ es, t.log = { trace := s.log.trace ++ .timer t.seq.pollStart :: es
                  smTrace := s.log.smTrace ++ [.polling] } ∧
    writesOf es = [] ∧ timesOf es = [] ∧ ∀ x ∈ accessesOf es, x = a

/-- The entry without a toggle reference (R90). -/
theorem pollStart_leads (a budget : Nat) {β : Type} {k : State → Res β} {Q : β → State → Prop}
    (hk : ∀ t, BusFrame b s t → Entered a budget s t →
      t.log.trace = s.log.trace ++ [.timer t.seq.pollStart] → (k t).Leads (BusFrame b) t Q) :
    ((readTimer ((s.setSm .polling).setPoll a budget)).bind fun n t =>
      k (t.setPollStart n)).Leads (BusFrame b) s Q := by
  have f0 := (BusFrame.setSm b s .polling).trans (BusFrame.setPoll b _ a budget)
  refine .after (BusFrame.framed b) f0 ((readTimer_leads b _).bind (BusFrame.framed b) ?_)
  rintro n t f ⟨hn, q, bk, -, -, l⟩
  have f1 := BusFrame.setPollStart b t n
  refine .after (BusFrame.framed b) f1 (hk _ (f0.trans (f.trans f1)) ?_ (by simp [l]))
  refine ⟨by simp [bk], by simp [q], by simp [q], by simp [q], by simp [hn], [], by simp [l], rfl,
    rfl, by simp⟩

/-- Everything the entry of a poll can do. -/
theorem pollEnter_leads (a budget : Nat) :
    (pollEnter b a budget s).Leads (BusFrame b) s fun _ t => Entered a budget s t := by
  refine pollStart_leads a budget
    (k := fun s => if (s.bank b).cmdset = .amdStyle then
      (busRead b s.seq.pollAddr s).bind fun w s => .ok () (s.setPollPrev w)
      else .ok () s) ?_
  intro t f he hl
  obtain ⟨bk, h1, h2, h3, h4, es, l, h5, h6, h7⟩ := he
  split
  · refine (busRead_leads b _ t).bind (BusFrame.framed b) ?_
    rintro w u f2 ⟨-, -, q2, bk2, l2, -, tm2⟩
    refine .ok_of (BusFrame.setPollPrev b u w) ⟨by simp [bk2, bk], by simp [q2, h1],
      by simp [q2, h2], by simp [q2, h3], by simp [q2, tm2, h4], [.read a w], ?_, rfl, rfl,
      by simp⟩
    have : t.log.smTrace = s.log.smTrace ++ [.polling] := by rw [l]
    simp [l2, q2, h2, hl, this]
  · exact .ok (BusFrame.framed b) ⟨bk, h1, h2, h3, h4, es, l, h5, h6, h7⟩

theorem pollEnter_completes {a : Nat} (budget : Nat) (h : s.env.resetIn = none)
    (ha : (s.bank b).Accepts s.params a) : (pollEnter b a budget s).Completes := by
  refine (readTimer_completes (by simpa using h)).bind fun n t e => ?_
  obtain ⟨f, -, q, bk, -⟩ := (readTimer_leads b _).of_eq e
  have f' := ((BusFrame.setSm b s .polling).trans (BusFrame.setPoll b _ a budget)).trans
    (f.trans (BusFrame.setPollStart b t n))
  show Res.Completes (if _ then _ else _)
  split
  · refine (busRead_completes (f'.resets h) ?_).bind fun _ _ _ => Res.completes_ok _ _
    rw [f'.accepts_iff]
    simpa [q] using ha
  · exact Res.completes_ok _ _

/-! ### The loop -/

/-- How the loop of a poll ends. `answered`: the last event is the read whose word was not "not done".
`expired`: the last event is the first timer read past the budget (42_sequencer.md R89,
70_reset_and_hazards.md R138). Before it there are only reads of the poll address and timer reads
within the budget. -/
def PollEnd.Fits (test : Word → Word → Verdict) (s : State) (e : PollEnd) (t : State) : Prop :=
  ∃ es, writesOf es = [] ∧ (∀ x ∈ timesOf es, x - s.seq.pollStart ≤ s.seq.pollBudget) ∧
    (∀ x ∈ accessesOf es, x = s.seq.pollAddr) ∧
    match e with
    | .answered v => v ≠ .notDone ∧ ∃ w, test t.seq.pollPrev w = v ∧
        t.log.trace = s.log.trace ++ es ++ [.read s.seq.pollAddr w]
    | .expired => ∃ last, s.seq.pollBudget < last - s.seq.pollStart ∧ last = t.env.timer ∧
        t.log.trace = s.log.trace ++ es ++ [.timer last]

/-- Everything the loop of a poll can do. -/
theorem pollLoop_leads (test : Word → Word → Verdict) : ∀ (fuel : Nat) {s : State},
    (pollLoop test b fuel s).Leads (BusFrame b) s fun e t =>
      t.banks = s.banks ∧ t.seq = { s.seq with pollPrev := t.seq.pollPrev } ∧
      t.log.smTrace = s.log.smTrace ∧ PollEnd.Fits test s e t
  | 0, _ => .stop_refused _ _
  | fuel + 1, s => by
    simp only [pollLoop]
    refine (busRead_leads b _ s).bind (BusFrame.framed b) ?_
    rintro w u f1 ⟨-, -, q1, bk1, l1, -, -⟩
    by_cases hv : test u.seq.pollPrev w = .notDone
    · simp only [hv]
      refine (readTimer_leads b u).bind (BusFrame.framed b) ?_
      rintro n v f2 ⟨hn, q2, bk2, -, -, l2⟩
      split
      · rename_i hx
        refine .ok (BusFrame.framed b) ⟨bk2.trans bk1, by simp [q2, q1], by simp [l2, l1],
          [.read s.seq.pollAddr w], rfl, by simp, by simp, n,
          by simpa [q2, q1] using hx, hn, ?_⟩
        simp [l2, l1]
      · rename_i hx
        refine .after (BusFrame.framed b) (BusFrame.setPollPrev b v w)
          ((pollLoop_leads test fuel).mono ?_)
        rintro e t - ⟨bk3, q3, sm3, es, h3, h4, h5, h6⟩
        have hq : (v.setPollPrev w).seq = { s.seq with pollPrev := w } := by simp [q2, q1]
        have hl : (v.setPollPrev w).log.trace =
            s.log.trace ++ [.read s.seq.pollAddr w, .timer n] := by simp [l2, l1]
        rw [hq] at q3 h4 h5 h6
        rw [hl] at h6
        refine ⟨by rw [bk3]; simp [bk2, bk1], by rw [q3], by rw [sm3]; simp [l2, l1],
          .read s.seq.pollAddr w :: .timer n :: es, by simpa using h3, ?_, ?_, ?_⟩
        · intro x hxm
          rcases List.mem_cons.mp (show x ∈ n :: timesOf es by simpa using hxm) with
            rfl | hm
          · simp only [q2, q1] at hx; omega
          · exact h4 x hm
        · intro x hxm
          rcases List.mem_cons.mp
            (show x ∈ s.seq.pollAddr :: accessesOf es by simpa using hxm) with rfl | hm
          · rfl
          · exact h5 x hm
        · cases e with
          | answered y => simpa using h6
          | expired => simpa using h6
    · have end_ : PollEnd.Fits test s (.answered (test u.seq.pollPrev w)) u :=
        ⟨[], rfl, by simp, by simp, hv, w, rfl, by simp [l1]⟩
      generalize test u.seq.pollPrev w = v at hv end_
      cases v with
      | notDone => exact absurd rfl hv
      | done => exact .ok (BusFrame.framed b) ⟨bk1, by simp [q1], by simp [l1], end_⟩
      | error sub => exact .ok (BusFrame.framed b) ⟨bk1, by simp [q1], by simp [l1], end_⟩

/-- The loop of a poll ends, however the devices answer: the timer's laws bound it (R123). -/
theorem pollLoop_completes (test : Word → Word → Verdict) : ∀ (fuel : Nat) {s : State},
    s.env.resetIn = none → (s.bank b).Accepts s.params s.seq.pollAddr →
    s.seq.pollStart ≤ s.env.timer → s.env.timer - s.seq.pollStart ≤ s.seq.pollBudget →
    s.env.timerInput.length + s.seq.pollBudget + 1 ≤ fuel + (s.env.timer - s.seq.pollStart) →
    (pollLoop test b fuel s).Completes
  | 0, _, _, _, _, _, _ => by omega
  | fuel + 1, s, h, ha, h0, h1, h2 => by
    simp only [pollLoop]
    refine (busRead_completes h ha).bind fun w u e1 => ?_
    obtain ⟨f1, -, -, q1, bk1, -, ti1, tm1⟩ := (busRead_leads b _ s).of_eq e1
    split
    · refine (readTimer_completes (f1.resets h)).bind fun n v e2 => ?_
      obtain ⟨f2, hn, q2, bk2, tm2, ti2, -⟩ := (readTimer_leads b u).of_eq e2
      split
      · exact Res.completes_ok _ _
      · rename_i hx
        have f3 := (f1.trans f2).trans (BusFrame.setPollPrev b v w)
        refine pollLoop_completes test fuel (f3.resets h) ?_ ?_ ?_ ?_
        · rw [f3.accepts_iff]
          simpa [q2, q1] using ha
        · simp only [State.setPollPrev_seq, State.setPollPrev_env, q2, q1]
          rw [ti1, tm1] at tm2
          omega
        · simp only [State.setPollPrev_seq, State.setPollPrev_env, q2, q1] at hx ⊢
          omega
        · simp only [State.setPollPrev_seq, State.setPollPrev_env, q2, q1, ti2, ti1]
          rw [ti1, tm1] at tm2
          cases hti : s.env.timerInput with
          | nil =>
            rw [hti] at tm2 h2
            simp only [List.isEmpty_nil, if_true] at tm2
            simp only [List.tail_nil, List.length_nil] at h2 ⊢
            omega
          | cons d ds =>
            rw [hti] at tm2 h2
            simp only [List.isEmpty_cons] at tm2
            simp only [List.tail_cons, List.length_cons] at h2 ⊢
            simp at tm2
            omega
    · exact Res.completes_ok _ _

/-! ### Whole polls -/

/-- Everything a poll can do (R89): a kind of its three, the devices back in read-array mode, the
sequencer idle, and at the end of the trace the reset writes at the poll address. -/
theorem poll_leads (a budget : Nat) (tkind : Kind) (hb : b < s.banks.length) :
    (poll b a budget tkind s).Leads (BusFrame b) s fun k t =>
      (k = .ok ∨ k = tkind ∨ ∃ sub, k = .hardwareError sub) ∧
      t.seq.smState = .idle ∧ (t.bank b).device.mode = .readArray ∧
      (∃ x, legalStep .polling x = true ∧ legalStep x .idle = true ∧
        t.log.smTrace = s.log.smTrace ++ [.polling, x, .idle]) ∧
      ∃ es, t.log.trace = s.log.trace ++ es ++ s.resetEvents b a ∧ writesOf es = [] ∧
        ∀ x ∈ accessesOf es, x = a := by
  have exit : ∀ (x : SmState) (k : Kind) (u : State), BusFrame b s u →
      (pollExit b a x k u).Leads (BusFrame b) u fun k' t => k' = k ∧
        t.seq.smState = .idle ∧ (t.bank b).device.mode = .readArray ∧
        t.log = { trace := u.log.trace ++ s.resetEvents b a
                  smTrace := u.log.smTrace ++ [x, .idle] } := by
    intro x k u fu
    refine .after (BusFrame.framed b) (BusFrame.setSm b u x)
      ((bankReset_leads a (by simpa using fu.lt hb)).bind (BusFrame.framed b) ?_)
    rintro - t f ⟨-, q, m, l, -, -⟩
    refine .ok (BusFrame.framed b) ⟨rfl, by simp [q], m, ?_⟩
    have : (u.setSm x).resetEvents b a = s.resetEvents b a := by
      have f' := fu.trans (BusFrame.setSm b u x)
      simp [State.resetEvents, State.commandEvents, f'.commandWord, fu.cmdset]
    rw [l, this]
    simp
  refine (pollEnter_leads a budget).bind (BusFrame.framed b) ?_
  rintro - t f ⟨bk, h1, h2, h3, h4, es, l, h5, h6, h7⟩
  refine (pollLoop_leads _ _).bind (BusFrame.framed b) ?_
  rintro e u g ⟨bk2, q2, sm2, es2, w2, tm2, ac2, fit⟩
  have hu := f.trans g
  have fin : ∀ (x : SmState) (k : Kind), legalStep .polling x = true → legalStep x .idle = true →
      (k = .ok ∨ k = tkind ∨ ∃ sub, k = .hardwareError sub) →
      (pollExit b a x k u).Leads (BusFrame b) u fun k t =>
      (k = .ok ∨ k = tkind ∨ ∃ sub, k = .hardwareError sub) ∧
      t.seq.smState = .idle ∧ (t.bank b).device.mode = .readArray ∧
      (∃ x, legalStep .polling x = true ∧ legalStep x .idle = true ∧
        t.log.smTrace = s.log.smTrace ++ [.polling, x, .idle]) ∧
      ∃ es, t.log.trace = s.log.trace ++ es ++ s.resetEvents b a ∧ writesOf es = [] ∧
        ∀ x ∈ accessesOf es, x = a := by
    intro x k hx hx' hk
    refine (exit x k u hu).mono ?_
    rintro k' v - ⟨rfl, q, m, l3⟩
    refine ⟨hk, q, m, ⟨x, hx, hx', by rw [l3]; simp [sm2, l]⟩, ?_⟩
    have htr : ∃ es', u.log.trace = s.log.trace ++ es' ∧ writesOf es' = [] ∧
        ∀ x ∈ accessesOf es', x = a := by
      have key : ∀ ev : BusEvent, writesOf [ev] = [] → (∀ x ∈ accessesOf [ev], x = a) →
          u.log.trace = t.log.trace ++ es2 ++ [ev] →
          ∃ es', u.log.trace = s.log.trace ++ es' ∧ writesOf es' = [] ∧
            ∀ x ∈ accessesOf es', x = a := by
        intro ev hw ha hl
        refine ⟨(.timer t.seq.pollStart :: es) ++ (es2 ++ [ev]), by rw [hl, l]; simp,
          by simp [h5, w2, hw], ?_⟩
        · intro x hx
          simp only [accessesOf_append, accessesOf_timer, List.mem_append] at hx
          rcases hx with hx | hx | hx
          · exact h7 x hx
          · exact (ac2 x hx).trans h2
          · exact ha x hx
      cases e with
      | answered y =>
        obtain ⟨-, w, -, hl⟩ := fit
        exact key _ rfl (by simp [h2]) hl
      | expired =>
        obtain ⟨n, -, -, hl⟩ := fit
        exact key _ rfl (by simp) hl
    obtain ⟨es', e1, e2, e3⟩ := htr
    exact ⟨es', by rw [l3, e1], e2, e3⟩
  cases e with
  | expired => exact fin _ _ rfl rfl (.inr (.inl rfl))
  | answered v =>
    cases v with
    | error sub => exact fin _ _ rfl rfl (.inr (.inr ⟨sub, rfl⟩))
    | done => exact fin _ _ rfl rfl (.inl rfl)
    | notDone => exact absurd rfl fit.1

/-- The fuel of a poll's loop is enough right after its entry. -/
theorem pollFuel_enough {a budget : Nat} {t : State} (h : Entered a budget s t) :
    t.seq.pollStart ≤ t.env.timer ∧ t.env.timer - t.seq.pollStart ≤ t.seq.pollBudget ∧
      t.env.timerInput.length + t.seq.pollBudget + 1 ≤
        pollFuel t + (t.env.timer - t.seq.pollStart) := by
  obtain ⟨-, -, -, -, h4, -⟩ := h
  unfold pollFuel
  omega

theorem pollExit_completes {a : Nat} (x : SmState) (k : Kind) (h : s.env.resetIn = none)
    (hb : b < s.banks.length) (ha : (s.bank b).Accepts s.params a) : (pollExit b a x k s).Completes :=
  (bankReset_completes (s := s.setSm x) h hb ha).bind fun _ _ _ => Res.completes_ok _ _

/-- A poll ends, however the devices answer. -/
theorem poll_completes {a : Nat} (budget : Nat) (tkind : Kind) (h : s.env.resetIn = none)
    (hb : b < s.banks.length) (ha : (s.bank b).Accepts s.params a) : (poll b a budget tkind s).Completes := by
  refine (pollEnter_completes budget h ha).bind fun _ t e => ?_
  obtain ⟨f, he⟩ := (pollEnter_leads a budget).of_eq e
  obtain ⟨g1, g2, g3⟩ := pollFuel_enough he
  obtain ⟨bk, h1, h2, h3, h4, -⟩ := he
  refine (pollLoop_completes _ _ (f.resets h) ?_ g1 g2 g3).bind fun en u e2 => ?_
  · rw [h2]; exact f.accepts ha
  obtain ⟨g, -⟩ := (pollLoop_leads _ _).of_eq e2
  have hu := f.trans g
  cases en with
  | expired => exact pollExit_completes _ _ (hu.resets h) (hu.lt hb) (hu.accepts ha)
  | answered v => cases v <;> exact pollExit_completes _ _ (hu.resets h) (hu.lt hb) (hu.accepts ha)

/-- Everything PollReady can do (R90). Ready: the device stays in its mode, mid-sequence. Expired: as a
poll that timed out. -/
theorem pollReady_leads (a budget : Nat) (hb : b < s.banks.length) :
    (pollReady b a budget s).Leads (BusFrame b) s fun r t =>
      if r = true then t.seq.smState = .commandIssued ∧ t.banks = s.banks ∧
        t.log.smTrace = s.log.smTrace ++ [.polling, .commandIssued] ∧
        ∃ es, t.log.trace = s.log.trace ++ es ∧ writesOf es = []
      else t.seq.smState = .idle ∧ (t.bank b).device.mode = .readArray ∧
        t.log.smTrace = s.log.smTrace ++ [.polling, .timedOut, .idle] ∧
        ∃ es, t.log.trace = s.log.trace ++ es ++ s.resetEvents b a ∧ writesOf es = [] := by
  refine pollStart_leads a budget (k := fun s =>
    (pollLoop (readyVerdict s.params (s.bank b)) b (pollFuel s) s).bind fun e s =>
      match e with
      | .answered _ => .ok true (s.setSm .commandIssued)
      | .expired => (pollExit b a .timedOut .bufferWriteTimeout s).bind fun _ s => .ok false s) ?_
  intro t f he hl
  obtain ⟨bk, h1, h2, h3, h4, es, l, h5, h6, h7⟩ := he
  have hsm : t.log.smTrace = s.log.smTrace ++ [.polling] := by rw [l]
  refine (pollLoop_leads _ _).bind (BusFrame.framed b) ?_
  rintro e u g ⟨bk2, q2, sm2, es2, w2, tm2, ac2, fit⟩
  have hu := f.trans g
  cases e with
  | answered v =>
    obtain ⟨-, w, -, ht⟩ := fit
    refine .ok_of (BusFrame.setSm b u _) ?_
    simp only [if_true]
    refine ⟨by simp, by simp [bk2, bk], by simp [sm2, hsm],
      .timer t.seq.pollStart :: es2 ++ [.read t.seq.pollAddr w], by simp [ht, hl], ?_⟩
    simp [w2]
  | expired =>
    obtain ⟨n, -, -, ht⟩ := fit
    refine .after (BusFrame.framed b) (BusFrame.setSm b u .timedOut) (Res.Leads.bind (BusFrame.framed b)
      (r := pollExit b a .timedOut .bufferWriteTimeout u) (k := fun _ s => .ok false s)
      (P := fun _ t => t.seq.smState = .idle ∧ (t.bank b).device.mode = .readArray ∧
        t.log.smTrace = s.log.smTrace ++ [.polling, .timedOut, .idle] ∧
        ∃ es, t.log.trace = s.log.trace ++ es ++ s.resetEvents b a ∧ writesOf es = []) ?_ ?_)
    · refine (bankReset_leads a (by simpa using hu.lt hb)).bind (BusFrame.framed b) ?_
      rintro - v g3 ⟨-, q3, m3, l3, -⟩
      have : (u.setSm .timedOut).resetEvents b a = s.resetEvents b a := by
        have f' := hu.trans (BusFrame.setSm b u .timedOut)
        simp [State.resetEvents, State.commandEvents, f'.commandWord, hu.cmdset]
      refine .ok (BusFrame.framed b) ⟨by simp [q3], m3, by rw [l3]; simp [sm2, hsm],
        .timer t.seq.pollStart :: es2 ++ [.timer n], by rw [l3, this]; simp [ht, hl], ?_⟩
      simp [w2]
    · intro k v g3 hv
      exact .ok (BusFrame.framed b) (by simpa using hv)

theorem pollReady_completes {a : Nat} (budget : Nat) (h : s.env.resetIn = none)
    (hb : b < s.banks.length) (ha : (s.bank b).Accepts s.params a) :
    (pollReady b a budget s).Completes := by
  refine (readTimer_completes (by simpa using h)).bind fun n t e => ?_
  obtain ⟨f, hn, q, bk, -, -, l⟩ := (readTimer_leads b _).of_eq e
  have f' := ((BusFrame.setSm b s .polling).trans (BusFrame.setPoll b _ a budget)).trans
    (f.trans (BusFrame.setPollStart b t n))
  refine (pollLoop_completes _ _ (f'.resets h) ?_ ?_ ?_ ?_).bind fun en u e2 => ?_
  · rw [f'.accepts_iff]; simpa [q] using ha
  · simp [hn]
  · simp [hn]
  · simp [pollFuel]; omega
  obtain ⟨g, -⟩ := (pollLoop_leads _ _).of_eq e2
  have hu := f'.trans g
  cases en with
  | expired =>
    exact (pollExit_completes .timedOut .bufferWriteTimeout (hu.resets h) (hu.lt hb)
      (hu.accepts ha)).bind fun _ _ _ => Res.completes_ok _ _
  | answered v => exact Res.completes_ok _ _

end

end Sys2Proof.Machine
end

