-- ==== Sys2Proof/Laws/Window.lean ====
section
/-! SUPPORT. Well-formed parameters taken apart, and the addresses a bank accepts: its command offsets
(30_encoding.md R54, R61), its sectors and the words of its array (20_memory.md R33, R37). -/

namespace Sys2Proof.Machine

/-- `paramsWf` field by field (00_scope.md R9, 20_memory.md R30; log 29). -/
structure ParamsOk (p : Params) : Prop where
  someBank : 1 ≤ p.bankBase.length
  baseAligned : ∀ a ∈ p.bankBase, a % 4 = 0
  baseRoom : ∀ a ∈ p.bankBase, a + commandSpan * 4 < addrLimit
  offsets : ∀ a ∈ p.bankBase, ∀ o ∈ commandOffsets p, a + o * 4 < addrLimit
  capacity : 1 ≤ p.maxSectors
  erase : p.defaultEraseTimeoutMs < addrLimit
  write : p.defaultWriteTimeoutMs < addrLimit
  bufferWrite : p.defaultBufferWriteTimeoutMs < addrLimit
  legacy : ∀ e ∈ p.legacyTable, legacyEntryWf e = true
  codes : ∀ e ∈ p.mfrCodes, e.2 ≠ .unknown
  bufferWords : p.maxBufferWords ≤ 256

theorem paramsWf_ok {p : Params} (h : paramsWf p = true) : ParamsOk p := by
  simp only [paramsWf, Bool.and_eq_true, List.all_eq_true, decide_eq_true_eq, bne_iff_ne] at h
  obtain ⟨⟨⟨⟨⟨⟨⟨⟨h1, h2⟩, h3⟩, h4⟩, h5⟩, h6⟩, h7⟩, h8⟩, h9⟩ := h
  exact ⟨h1, fun a ha => (h2 a ha).1.1, fun a ha => (h2 a ha).1.2, fun a ha => (h2 a ha).2, h3, h4,
    h5, h6, h7, h8, h9⟩

/-! ### The command offsets of the window -/

theorem foldl_max_le {l : List Nat} : ∀ {m n : Nat},
    (n ≤ m ∨ ∃ o ∈ l, n ≤ o + 1) → n ≤ l.foldl (fun m o => max m (o + 1)) m := by
  induction l with
  | nil => intro m n h; simpa using h
  | cons x l ih =>
    intro m n h
    refine ih ?_
    rcases h with h | ⟨o, ho, h⟩
    · exact .inl (h.trans (le_max_left _ _))
    · rcases List.mem_cons.mp ho with rfl | ho
      · exact .inl (h.trans (le_max_right _ _))
      · exact .inr ⟨o, ho, h⟩

/-- The offsets R9 makes room for are in the window. -/
theorem lt_windowSpan_of_lt {p : Params} {off : Nat} (h : off < commandSpan) : off < windowSpan p :=
  foldl_max_le (n := off + 1) (.inl h)

/-- So is every offset up to one that the parameters place. -/
theorem lt_windowSpan_of_le {p : Params} {off o : Nat} (ho : o ∈ commandOffsets p) (h : off ≤ o) :
    off < windowSpan p :=
  foldl_max_le (n := off + 1) (.inr ⟨o, ho, by omega⟩)

theorem unlock1_lt_windowSpan (p : Params) : p.amdUnlockOff1 < windowSpan p :=
  lt_windowSpan_of_le (o := p.amdUnlockOff1) (by simp [commandOffsets]) (le_refl _)

theorem unlock2_lt_windowSpan (p : Params) : p.amdUnlockOff2 < windowSpan p :=
  lt_windowSpan_of_le (o := p.amdUnlockOff2) (by simp [commandOffsets]) (le_refl _)

theorem query_lt_windowSpan (p : Params) : p.cfi.query < windowSpan p :=
  lt_windowSpan_of_le (o := p.cfi.query) (by simp [commandOffsets]) (le_refl _)

theorem portWidth_bytes_cases (p : PortWidth) : p.bytes = 1 ∨ p.bytes = 2 ∨ p.bytes = 4 := by
  cases p <;> simp [PortWidth.bytes]

theorem Bank.bytes_cases (bk : Bank) : bk.bytes = 1 ∨ bk.bytes = 2 ∨ bk.bytes = 4 :=
  portWidth_bytes_cases bk.portWidth

theorem Bank.bytes_pos (bk : Bank) : 0 < bk.bytes := by
  rcases bk.bytes_cases with h | h | h <;> omega

/-- A multiple of 4 is aligned for every port width. -/
theorem Bank.aligned_of_four (bk : Bank) {a : Nat} (h : a % 4 = 0) : a % bk.bytes = 0 := by
  rcases bk.bytes_cases with hb | hb | hb <;> rw [hb] <;> omega

/-- A command offset below the window's is accepted. -/
theorem Bank.accepts_baseAddr {p : Params} {bk : Bank} (h : bk.baseAddress % 4 = 0) {off : Nat}
    (ho : off < windowSpan p) : bk.Accepts p (bk.baseAddr off) := by
  refine ⟨?_, ?_⟩
  · rw [Bank.baseAddr, Nat.add_mul_mod_self_right]
    exact bk.aligned_of_four h
  · have hm : off * bk.bytes < windowSpan p * bk.bytes :=
      Nat.mul_lt_mul_of_pos_right ho bk.bytes_pos
    have : bk.baseAddress ≤ bk.baseAddr off ∧
        bk.baseAddr off < bk.baseAddress + windowSpan p * bk.bytes := by
      unfold Bank.baseAddr
      omega
    rw [Bank.inWindow, decide_eq_true this, Bool.or_true]

/-- The base is accepted. -/
theorem Bank.accepts_base {p : Params} {bk : Bank} (h : bk.baseAddress % 4 = 0) :
    bk.Accepts p bk.baseAddress := by
  have := Bank.accepts_baseAddr (p := p) h (off := 0) (lt_windowSpan_of_lt (by decide))
  simpa [Bank.baseAddr] using this

section
variable {p : Params} {bk : Bank}

/-- A sector's start is a multiple of 4. -/
theorem Bank.Wf.sectorStart_aligned (w : Bank.Wf p bk) (i : Nat) : bk.sectorStart i % 4 = 0 := by
  have hb := w.baseAligned
  unfold Bank.sectorStart
  split
  · rename_i x hx
    have := w.inBank x (List.mem_of_getElem? hx)
    omega
  · have := w.sizeUnit
    omega

/-- A sector's extent lies in the bank and holds at least 128 bytes. -/
theorem Bank.Wf.extent (w : Bank.Wf p bk) {i : Nat} (h : i < bk.sectorCount) :
    bk.baseAddress ≤ bk.sectorStart i ∧ bk.sectorStart i + 128 ≤ bk.sectorEnd i ∧
      bk.sectorEnd i ≤ bk.baseAddress + bk.size := by
  unfold Bank.sectorCount at h
  have hx : bk.sectors[i]? = some bk.sectors[i] := List.getElem?_eq_getElem h
  have hi := w.inBank _ (List.getElem_mem h)
  have hs : bk.sectorStart i = bk.sectors[i].startAddress := by simp [Bank.sectorStart, hx]
  by_cases h2 : i + 1 < bk.sectors.length
  · have hy : bk.sectors[i + 1]? = some bk.sectors[i + 1] := List.getElem?_eq_getElem h2
    have hj := w.inBank _ (List.getElem_mem h2)
    have he : bk.sectorEnd i = bk.sectors[i + 1].startAddress := by
      simp [Bank.sectorEnd, Bank.sectorStart, hy]
    have hlt := List.pairwise_iff_getElem.mp w.increasing i (i + 1) h h2 (by omega)
    rw [hs, he]
    omega
  · have he : bk.sectorEnd i = bk.baseAddress + bk.size := by
      simp [Bank.sectorEnd, Bank.sectorStart, List.getElem?_eq_none (show bk.sectors.length ≤ i + 1 by omega)]
    rw [hs, he]
    omega

/-- Starts rise with the index. -/
theorem Bank.Wf.sectorStart_lt (w : Bank.Wf p bk) {i j : Nat} (hij : i < j)
    (hj : j ≤ bk.sectorCount) : bk.sectorStart i < bk.sectorStart j := by
  unfold Bank.sectorCount at hj
  by_cases h2 : j < bk.sectors.length
  · have hi : i < bk.sectors.length := by omega
    have := List.pairwise_iff_getElem.mp w.increasing i j hi h2 hij
    simpa [Bank.sectorStart, List.getElem?_eq_getElem, hi, h2] using this
  · have he : bk.sectorStart j = bk.baseAddress + bk.size := by
      simp [Bank.sectorStart, List.getElem?_eq_none (show bk.sectors.length ≤ j by omega)]
    have := (w.extent (i := i) (show i < bk.sectorCount by unfold Bank.sectorCount; omega))
    omega

/-- Starts do not fall with the index. -/
theorem Bank.Wf.sectorStart_le (w : Bank.Wf p bk) {i j : Nat} (hij : i ≤ j)
    (hj : j ≤ bk.sectorCount) : bk.sectorStart i ≤ bk.sectorStart j := by
  rcases Nat.lt_or_eq_of_le hij with h | rfl
  · exact (w.sectorStart_lt h hj).le
  · exact le_refl _

/-- A word inside the array at an aligned address is accepted. -/
theorem Bank.accepts_inArray {a : Nat} (ha : a % bk.bytes = 0)
    (h : bk.inArray a bk.bytes = true) : bk.Accepts p a := ⟨ha, by simp [Bank.inWindow, h]⟩

/-- A word that starts aligned inside a sector ends inside it. -/
theorem Bank.Wf.word_inSector (w : Bank.Wf p bk) {i a : Nat} (ha : a % bk.bytes = 0)
    (h2 : a < bk.sectorEnd i) :
    a + bk.bytes ≤ bk.sectorEnd i := by
  have he : bk.sectorEnd i % 4 = 0 := w.sectorStart_aligned (i + 1)
  rcases bk.bytes_cases with hb | hb | hb <;> rw [hb] at ha ⊢ <;> omega

theorem Bank.Wf.word_inArray (w : Bank.Wf p bk) {i a : Nat} (hi : i < bk.sectorCount)
    (ha : a % bk.bytes = 0) (h1 : bk.sectorStart i ≤ a) (h2 : a < bk.sectorEnd i) :
    bk.inArray a bk.bytes = true := by
  have e := w.extent hi
  have := w.word_inSector ha h2
  simp only [Bank.inArray, decide_eq_true_eq]
  omega

/-- A sector's start is accepted. -/
theorem Bank.Wf.accepts_sectorStart (w : Bank.Wf p bk) {i : Nat} (h : i < bk.sectorCount) :
    bk.Accepts p (bk.sectorStart i) := by
  have e := w.extent h
  have ha := bk.aligned_of_four (w.sectorStart_aligned i)
  exact Bank.accepts_inArray ha (w.word_inArray h ha (le_refl _) (by omega))

/-- A word of a sector is accepted. -/
theorem Bank.Wf.accepts_word (w : Bank.Wf p bk) {i a : Nat} (hi : i < bk.sectorCount)
    (ha : a % bk.bytes = 0) (h1 : bk.sectorStart i ≤ a) (h2 : a < bk.sectorEnd i) :
    bk.Accepts p a := Bank.accepts_inArray ha (w.word_inArray hi ha h1 h2)

/-- The word the probe reads in a sector is accepted (41_geometry.md R86). -/
theorem Bank.Wf.accepts_makeAddr (w : Bank.Wf p bk) {i off : Nat} (hi : i < bk.sectorCount)
    (ho : off < 32) : bk.Accepts p (bk.makeAddr i off) := by
  have e := w.extent hi
  refine w.accepts_word hi ?_ ?_ ?_
  · rw [Bank.makeAddr, Nat.add_mul_mod_self_right]
    exact bk.aligned_of_four (w.sectorStart_aligned i)
  · unfold Bank.makeAddr; omega
  · unfold Bank.makeAddr
    rcases bk.bytes_cases with hb | hb | hb <;> rw [hb] <;> omega

end

/-- `sector_of` names a sector of the bank whose extent holds the address. -/
theorem Bank.sectorOf_some {bk : Bank} {a i : Nat} (h : bk.sectorOf a = some i) :
    i < bk.sectorCount ∧ bk.sectorStart i ≤ a ∧ a < bk.sectorEnd i := by
  have h1 := List.mem_of_find?_eq_some h
  have h2 := List.find?_some h
  simp only [List.mem_range] at h1
  simp only [decide_eq_true_eq] at h2
  exact ⟨h1, h2⟩

/-- On a well-formed bank, an address of an extent has that sector. -/
theorem Bank.Wf.sectorOf_eq {p : Params} {bk : Bank} (w : Bank.Wf p bk) {a i : Nat}
    (hi : i < bk.sectorCount) (h1 : bk.sectorStart i ≤ a) (h2 : a < bk.sectorEnd i) :
    bk.sectorOf a = some i := by
  cases h : bk.sectorOf a with
  | none =>
    have := List.find?_eq_none.mp h i (List.mem_range.mpr hi)
    simp only [decide_eq_true_eq] at this
    omega
  | some j =>
    obtain ⟨hj, h3, h4⟩ := Bank.sectorOf_some h
    rcases Nat.lt_trichotomy i j with hij | rfl | hij
    · have := w.sectorStart_le (i := i + 1) (j := j) hij hj.le
      unfold Bank.sectorEnd at h2
      omega
    · rfl
    · have := w.sectorStart_le (i := j + 1) (j := i) hij hi.le
      unfold Bank.sectorEnd at h4
      omega

/-- The bank of a machine that has the invariant is well formed. -/
theorem State.Inv.bank {s : State} (h : s.Inv) {b : Nat} (hb : b < s.banks.length) :
    Bank.Wf s.params (s.bank b) := h.banks _ (State.bank_mem s hb)

end Sys2Proof.Machine
end

