-- ==== Sys2Proof/Laws/Frames.lean ====
section
/-! SUPPORT. What whole operations on one bank leave: `OpFrame` for every operation, `BankFrame` for
those that change no byte of the array. What a system reset inside an operation leaves, and how a call
that ends in a next state came to it. -/

namespace Sys2Proof.Machine

/-- What every operation on bank `b` leaves while it runs, whatever it has done so far. -/
structure OpFrame (b : Nat) (s t : State) : Prop where
  params : t.params = s.params
  initDone : t.initDone = s.initDone
  calls : t.calls = s.calls
  result : t.result = s.result
  count : t.banks.length = s.banks.length
  others : ∀ c, c ≠ b → t.bank c = s.bank c
  base : (t.bank b).baseAddress = (s.bank b).baseAddress
  resets : s.env.resetIn = none → t.env.resetIn = none
  timer : s.env.timer ≤ t.env.timer
  running : t.position.isSome = s.position.isSome
  memory : Memory.wf s.memory = true → Memory.wf t.memory = true
  trace : s.log.trace <+: t.log.trace

/-- As `OpFrame`, with the array and the range on record as they were. -/
structure BankFrame (b : Nat) (s t : State) : Prop extends OpFrame b s t where
  array : t.memory = s.memory
  range : t.position.bind Position.range = s.position.bind Position.range

theorem OpFrame.refl (b : Nat) (s : State) : OpFrame b s s :=
  { params := rfl, initDone := rfl, calls := rfl, result := rfl, count := rfl,
    others := fun _ _ => rfl, base := rfl, resets := id, timer := le_refl _, running := rfl,
    memory := id, trace := List.prefix_refl _ }

theorem OpFrame.trans {b : Nat} {s t u : State} (h : OpFrame b s t) (k : OpFrame b t u) :
    OpFrame b s u where
  params := k.params.trans h.params
  initDone := k.initDone.trans h.initDone
  calls := k.calls.trans h.calls
  result := k.result.trans h.result
  count := k.count.trans h.count
  others := fun c hc => (k.others c hc).trans (h.others c hc)
  base := k.base.trans h.base
  resets := fun hr => k.resets (h.resets hr)
  timer := h.timer.trans k.timer
  running := k.running.trans h.running
  memory := fun hm => k.memory (h.memory hm)
  trace := h.trace.trans k.trace

theorem OpFrame.framed (b : Nat) : Framed (OpFrame b) :=
  ⟨OpFrame.refl b, OpFrame.trans, OpFrame.resets⟩

theorem BankFrame.refl (b : Nat) (s : State) : BankFrame b s s := ⟨OpFrame.refl b s, rfl, rfl⟩

theorem BankFrame.trans {b : Nat} {s t u : State} (h : BankFrame b s t) (k : BankFrame b t u) :
    BankFrame b s u :=
  ⟨h.toOpFrame.trans k.toOpFrame, k.array.trans h.array, k.range.trans h.range⟩

theorem BankFrame.framed (b : Nat) : Framed (BankFrame b) :=
  ⟨BankFrame.refl b, BankFrame.trans, fun h => h.resets⟩

section
variable {b : Nat} {s t : State}

/-- Bus accesses are within the frame of an operation. -/
theorem BusFrame.bankFrame (h : BusFrame b s t) : BankFrame b s t where
  params := h.params
  initDone := h.initDone
  calls := h.calls
  result := h.result
  count := h.count
  others := h.others
  base := h.baseAddress
  resets := h.resets
  timer := h.timer
  running := h.running
  memory := fun hm => by rw [h.memory]; exact hm
  trace := by
    obtain ⟨es, ms, hl⟩ := h.log
    rw [hl]
    exact List.prefix_append _ _
  array := h.memory
  range := h.range

theorem BusFrame.opFrame (h : BusFrame b s t) : OpFrame b s t := h.bankFrame.toOpFrame

theorem OpFrame.lt (h : OpFrame b s t) (hb : b < s.banks.length) : b < t.banks.length := by
  rw [h.count]; exact hb

/-- A write of the bank's registers that keeps its base. -/
theorem BankFrame.setBank (hb : b < s.banks.length) (bk : Bank)
    (h : bk.baseAddress = (s.bank b).baseAddress) : BankFrame b s (s.setBank b bk) where
  params := rfl
  initDone := rfl
  calls := rfl
  result := rfl
  count := by simp
  others := fun _ hc => State.setBank_bank_other s bk hc
  base := by rw [State.setBank_bank_self s bk hb]; exact h
  resets := id
  timer := le_refl _
  running := rfl
  memory := id
  trace := List.prefix_refl _
  array := rfl
  range := rfl

theorem BankFrame.setLocks (hb : b < s.banks.length) (l : List Bool) :
    BankFrame b s (s.setLocks b l) := BankFrame.setBank hb _ rfl

theorem BankFrame.drawn (b : Nat) (s : State) : BankFrame b s s.drawn :=
  { OpFrame.refl b s with array := rfl, range := rfl }

theorem BankFrame.irqSave (b : Nat) (s : State) : BankFrame b s (irqSave s) :=
  { OpFrame.refl b s with trace := by simp, array := rfl, range := rfl }

theorem BankFrame.irqRestore (b : Nat) (s : State) : BankFrame b s (irqRestore s) :=
  { OpFrame.refl b s with trace := by simp, array := rfl, range := rfl }

theorem OpFrame.setMemory (b : Nat) (s : State) (m : Memory)
    (h : Memory.wf s.memory = true → Memory.wf m = true) : OpFrame b s (s.setMemory m) :=
  { OpFrame.refl b s with memory := h }

theorem OpFrame.setRange (b : Nat) (s : State) (r : Option (Nat × Nat)) :
    OpFrame b s (s.setRange r) :=
  { OpFrame.refl b s with running := by cases hp : s.position <;> simp [State.setRange, hp] }

theorem OpFrame.drawMemory (b : Nat) (s : State) (a n : Nat) : OpFrame b s (s.drawMemory a n) :=
  (OpFrame.setMemory b s _ fun h => Memory.drawRange_wf h).trans (BankFrame.drawn b _).toOpFrame

end

/-! ### A system reset (70_reset_and_hazards.md R128, R129) -/

section
variable {b : Nat} {s : State}

@[simp] theorem Bank.afterReset_baseAddress (bk : Bank) :
    bk.afterReset.baseAddress = bk.baseAddress := rfl
@[simp] theorem Bank.interrupted_baseAddress (k i : Nat) (bk : Bank) :
    (Bank.interrupted k i bk).baseAddress = bk.baseAddress := by
  unfold Bank.interrupted
  split <;> rfl

@[simp] theorem State.interruptedReset_params : s.interruptedReset.params = s.params := rfl
@[simp] theorem State.interruptedReset_seq : s.interruptedReset.seq = Sequencer.atReset := rfl
@[simp] theorem State.interruptedReset_initDone : s.interruptedReset.initDone = false := rfl
@[simp] theorem State.interruptedReset_position : s.interruptedReset.position = none := rfl
@[simp] theorem State.interruptedReset_result : s.interruptedReset.result = none := rfl
@[simp] theorem State.interruptedReset_calls : s.interruptedReset.calls = s.calls := rfl
@[simp] theorem State.interruptedReset_log : s.interruptedReset.log = s.log := rfl
@[simp] theorem State.interruptedReset_resetIn : s.interruptedReset.env.resetIn = none := rfl
@[simp] theorem State.interruptedReset_timer : s.interruptedReset.env.timer = s.env.timer := rfl
@[simp] theorem State.interruptedReset_ie : s.interruptedReset.env.ie = s.env.ie := rfl
@[simp] theorem State.interruptedReset_count :
    s.interruptedReset.banks.length = s.banks.length := by
  simp [State.interruptedReset, State.systemReset]

/-- A bank after a reset inside an operation: its reset values and some lock bits. -/
theorem State.interruptedReset_bank (s : State) {c : Nat} (h : c < s.banks.length) :
    ∃ l, s.interruptedReset.bank c =
      { Bank.atReset (s.bank c).baseAddress with device := { mode := .readArray, lockBits := l } } := by
  refine ⟨(Bank.interrupted (s.env.draws + 1) c (s.bank c)).device.lockBits, ?_⟩
  rw [State.bank_eq_getElem _ (by simpa using h), State.bank_eq_getElem s h]
  simp [State.interruptedReset, State.systemReset, Bank.afterReset]

theorem State.interruptedReset_bases (s : State) :
    s.interruptedReset.banks.map Bank.baseAddress = s.banks.map Bank.baseAddress := by
  apply List.ext_getElem <;> simp [State.interruptedReset, State.systemReset]

theorem State.interruptedReset_memory_of_none (h : s.position.bind Position.range = none) :
    s.interruptedReset.memory = s.memory := by
  simp [State.interruptedReset, State.systemReset, h]

theorem State.interruptedReset_memory_wf (h : Memory.wf s.memory = true) :
    Memory.wf s.interruptedReset.memory = true := by
  simp only [State.interruptedReset, State.systemReset]
  split
  · exact Memory.drawRange_wf h
  · exact h

/-- After a reset inside an operation the machine is at rest. -/
theorem State.interruptedReset_atRest (s : State) : s.interruptedReset.AtRest where
  position := rfl
  sequencer := rfl
  devices := by
    intro bk h
    obtain ⟨c, hc, rfl⟩ := List.mem_iff_getElem.mp h
    obtain ⟨l, hl⟩ := s.interruptedReset_bank (c := c) (by simpa using hc)
    rw [← State.bank_eq_getElem _ hc, hl]

/-- After a reset inside an operation every bank is an empty Unknown one. -/
theorem State.interruptedReset_empty (s : State) :
    ∀ bk ∈ s.interruptedReset.banks, bk.EmptyIfUnknown := by
  intro bk h
  obtain ⟨c, hc, rfl⟩ := List.mem_iff_getElem.mp h
  obtain ⟨l, hl⟩ := s.interruptedReset_bank (c := c) (by simpa using hc)
  rw [← State.bank_eq_getElem _ hc, hl]
  exact fun _ => ⟨rfl, rfl, rfl⟩

/-- A bank as it is at reset, whatever the lock bits, is well formed at a base the parameters allow. -/
theorem Bank.wf_atReset {p : Params} (hp : paramsWf p = true) {a : Nat} (ha : a ∈ p.bankBase)
    (d : Device) : Bank.Wf p { Bank.atReset a with device := d } := by
  have h4 := (paramsWf_ok hp).baseAligned a ha
  have hroom := (paramsWf_ok hp).baseRoom a ha
  unfold commandSpan addrLimit at hroom
  constructor <;>
    simp [Bank.atReset, Bank.sectorCount, Bank.sectorStart, PortWidth.bits, ChipWidth.bits,
      addrLimit, commandSpan] <;> omega

/-- Banks without a detected range overlap none (00_scope.md R9). -/
theorem pairwise_disjoint_of_empty {bks : List Bank} (h : ∀ bk ∈ bks, bk.size = 0) :
    bks.Pairwise fun x y => rangesDisjoint x y = true :=
  List.Pairwise.imp_of_mem (R := fun _ _ => True) (fun hx _ _ => by simp [rangesDisjoint, h _ hx])
    (List.pairwise_of_forall fun _ _ => trivial)

/-- The invariant after a reset inside an operation. -/
theorem State.interruptedReset_inv (s : State) (hp : paramsWf s.params = true)
    (hb : s.banks.map Bank.baseAddress = s.params.bankBase) (hm : Memory.wf s.memory = true) :
    s.interruptedReset.Inv where
  params := hp
  bases := by rw [State.interruptedReset_bases]; exact hb
  banks := by
    intro bk h
    obtain ⟨c, hc, rfl⟩ := List.mem_iff_getElem.mp h
    have hc' : c < s.banks.length := by simpa using hc
    obtain ⟨l, hl⟩ := s.interruptedReset_bank hc'
    rw [← State.bank_eq_getElem _ hc, hl]
    refine Bank.wf_atReset hp ?_ _
    have : (s.bank c).baseAddress ∈ s.banks.map Bank.baseAddress :=
      List.mem_map_of_mem (State.bank_mem s hc')
    simpa [hb] using this
  empty := s.interruptedReset_empty
  apart := pairwise_disjoint_of_empty fun bk h => by
    obtain ⟨c, hc, rfl⟩ := List.mem_iff_getElem.mp h
    obtain ⟨l, hl⟩ := s.interruptedReset_bank (c := c) (by simpa using hc)
    rw [← State.bank_eq_getElem _ hc, hl]
    rfl
  memory := State.interruptedReset_memory_wf hm
  idle := rfl

end

/-! ### Calls -/

/-- A call whose body stays within a frame: in a next state it has run to its result within the frame,
or a system reset cut it. -/
theorem call_leads {F : State → State → Prop} {i : Instr} {body : State → Res (Option Result)}
    {s t : State} {P : Option Result → State → Prop}
    (hl : (body (s.enter i)).Leads F (s.enter i) P) (h : call i body s = .next t) :
    (∃ r u, F (s.enter i) u ∧ P r u ∧ t = u.leave r) ∨
      (s.env.resetIn ≠ none ∧ ∃ u, F (s.enter i) u ∧ t = u.interruptedReset) := by
  obtain ⟨-, -, ⟨r, u, hb, rfl⟩ | hb⟩ := call_eq_next h
  · obtain ⟨hf, hp⟩ := hl.of_eq hb
    exact .inl ⟨r, u, hf, hp, rfl⟩
  · rw [hb] at hl
    obtain ⟨hr, u, hu, rfl⟩ := hl
    exact .inr ⟨hr, u, hu, rfl⟩

/-- A call whose body completes within a frame ends in a next state within it. -/
theorem call_completes {F : State → State → Prop} {i : Instr} {body : State → Res (Option Result)}
    {s : State} {P : Option Result → State → Prop} (hpos : s.position = none)
    (hp : paramsWf s.params = true) (hl : (body (s.enter i)).Leads F (s.enter i) P)
    (hc : (body (s.enter i)).Completes) :
    ∃ r u, F (s.enter i) u ∧ P r u ∧ call i body s = .next (u.leave r) := by
  obtain ⟨r, u, hb⟩ := hc
  obtain ⟨hf, hq⟩ := hl.of_eq hb
  exact ⟨r, u, hf, hq, by simp [call, hpos, hp, hb]⟩

end Sys2Proof.Machine
end

