-- ==== Sys2Proof/Laws/Geometry.lean ====
section
/-! SUPPORT. The readers of the CFI table and of the codes as Safety writes them, and how far a decoded
sector table can reach. -/

namespace Sys2Proof.Machine

/-! ### Readers -/

theorem queryByteOf_eq (bk : Bank) (w : Word) :
    queryByteOf bk.portWidth bk.laneOrder w = queryByteIn bk w := by
  unfold queryByteIn
  cases bk.laneOrder
  · simp [queryByteOf, byteOf]
  · cases bk.portWidth <;> rfl

theorem idValueOf_eq {bk : Bank} (h : bk.chipWidth.bits ≤ bk.portWidth.bits) (w : Word) :
    idValueOf bk.portWidth bk.chipWidth bk.laneOrder w = idCodeIn bk w := by
  unfold idCodeIn
  cases hc : bk.chipWidth <;> cases hp : bk.portWidth <;> cases bk.laneOrder <;>
    simp_all [idValueOf, byteOf, PortWidth.bits, ChipWidth.bits, PortWidth.bytes] <;>
    ext i hi <;> simp <;> grind

theorem u16At_eq (q : Nat → Byte) (k : Nat) :
    (q (k + 1) ++ q k : BitVec 16).toNat = u16At q k := by
  unfold u16At
  rw [BitVec.toNat_append, Nat.shiftLeft_eq, Nat.mul_comm]
  have := (q k).isLt
  rw [← Nat.two_pow_add_eq_or_of_lt (i := 8) this]
  omega

theorem u16At_lt (q : Nat → Byte) (k : Nat) : u16At q k < 65536 := by
  have := (q k).isLt
  have := (q (k + 1)).isLt
  unfold u16At
  omega

theorem cmdsetOfPrimary_eq (c : CfiLayout) (pid : Nat) : cmdsetOfPrimary c pid = primarySet c pid := by
  simp [cmdsetOfPrimary, primarySet, List.contains_eq_mem]

theorem bufferBytes_eq (p : Params) (bk : Bank) (bexp : Nat) :
    bufferBytes p bk bexp = bufferOf p bk bexp := rfl

/-! ### The reach of a table -/

/-- A table ends no further than its room full of the largest sectors its regions describe. -/
theorem layRegions_endAddr_le {mux size : Nat} : ∀ {rs : List (Nat × Nat)} {room addr : Nat},
    (∀ r ∈ rs, blockBytes r.2 * mux ≤ size) →
    (layRegions mux room addr rs).endAddr ≤ addr + room * size
  | [], _, _, _ => by simp [layRegions]
  | (n, c) :: rs, room, addr, h => by
    simp only [layRegions]
    have ih := layRegions_endAddr_le (rs := rs) (room := room - min (n + 1) room)
      (addr := addr + min (n + 1) room * (blockBytes c * mux))
      fun r hr => h r (List.mem_cons_of_mem _ hr)
    have h1 := Nat.mul_le_mul_left (min (n + 1) room) (h (n, c) (by simp))
    have h2 : min (n + 1) room * size + (room - min (n + 1) room) * size = room * size := by
      rw [← Nat.add_mul]
      congr 1
      omega
    simp only at h1
    omega

theorem mux_le_four (p : PortWidth) (c : ChipWidth) : p.bits / c.bits ≤ 4 := by
  cases p <;> cases c <;> decide

/-- A CFI table ends no further than `MAX_SECTORS` of the largest blocks on four lanes (30_encoding.md
R62). -/
theorem cfiBank_end_le (p : Params) (bk : Bank) (q : Nat → Byte) :
    (cfiBank p bk q).baseAddress + (cfiBank p bk q).size ≤
      bk.baseAddress + p.maxSectors * (65535 * 256 * 4) := by
  have h : (cfiWalk p bk q).endAddr ≤ bk.baseAddress + p.maxSectors * (65535 * 256 * 4) := by
    refine layRegions_endAddr_le fun r hr => ?_
    obtain ⟨i, -, rfl⟩ := List.mem_map.mp hr
    have hu := u16At_lt q (11 + 4 * i)
    refine Nat.mul_le_mul ?_ (mux_le_four _ _)
    unfold blockBytes
    split <;> omega
  simp only [cfiBank]
  omega

/-- A legacy table ends no further than `MAX_SECTORS` of the entry's sectors on four lanes. -/
theorem legacyGeometry_end_le (p : Params) (bk : Bank) (e : LegacyEntry) :
    (legacyGeometry p bk e).size ≤ p.maxSectors * (e.uniformSectorSize * 4) :=
  Nat.mul_le_mul (Nat.min_le_right _ _) (Nat.mul_le_mul_left _ (mux_le_four _ _))

/-- A pass identifies a bank by the CFI table or by an entry of the legacy table. -/
theorem State.pass_found {s : State} {bk bk' : Bank} {n : Nat} (h : (s.pass bk n).found = some bk') :
    (∃ cs q m d, bk' = cfiNamed s.params (cfiBank s.params { bk with cmdset := cs } q) m d) ∨
      ∃ e m d, entryOf s.params m d = some e ∧ bk' = legacyBank s.params bk e m d := by
  simp only [State.pass] at h
  split at h
  · exact .inl ⟨_, _, _, _, (Option.some.inj h).symm⟩
  · split at h
    · exact .inr ⟨_, _, _, ‹_›, (Option.some.inj h).symm⟩
    · cases h

/-- A bank detected stays at its base, and within `MAX_SECTORS` of the largest blocks, if the legacy
table describes none larger. -/
theorem detects_reach {s : State} {b : Nat} {bk : Bank} (h : s.Detects b bk)
    (hl : ∀ e ∈ s.params.legacyTable, e.uniformSectorSize ≤ 65535 * 256) :
    bk.baseAddress = (s.bank b).baseAddress ∧
      bk.baseAddress + bk.size ≤ (s.bank b).baseAddress + s.params.maxSectors * (65535 * 256 * 4) := by
  obtain ⟨pc, -, o, n, h⟩ := h
  rcases State.pass_found h with ⟨cs, q, m, d, rfl⟩ | ⟨e, m, d, he, rfl⟩
  · exact ⟨rfl, cfiBank_end_le _ _ _⟩
  · have he := hl e (List.mem_of_find?_eq_some he)
    refine ⟨rfl, Nat.add_le_add_left (Nat.le_trans (legacyGeometry_end_le _ _ _) ?_) _⟩
    exact Nat.mul_le_mul_left _ (Nat.mul_le_mul_right _ he)

end Sys2Proof.Machine
end

