-- ==== Sys2Proof/Laws/PerInstr.lean ====
section
/-! SUPPORT. The per-instruction family `Header`: a call starts with the byte that
spec/opcode_table.json gives its row (its `match`; 0 for a row without fixed bits), and a form byte
follows. -/

namespace Sys2Proof.Laws

/-- The `match` byte of the row. -/
def tableByte : Instr → Byte
  | .flashInit => 0x01
  | .flashGetSize _ => 0x02
  | .flashErase _ _ _ => 0x03
  | .writeBuff _ _ _ _ => 0x04
  | .flashProtect _ _ _ _ => 0x05
  | .flashPrintInfo _ => 0x06
  | .readId _ => 0x90
  | .cfiQuery _ => 0x98
  | .resetIntel _ _ => 0xFF
  | .clearStatus _ _ => 0x50
  | .blockErase _ _ => 0x20
  | .eraseConfirm _ _ => 0xD0
  | .resume _ _ => 0xD0
  | .program _ _ => 0x40
  | .writeToBuffer _ _ => 0xE8
  | .bufferConfirm _ _ => 0xD0
  | .lockSetup _ _ => 0x60
  | .lockSet _ _ => 0x01
  | .lockClear _ _ => 0xD0
  | .resetAmd _ _ => 0xF0
  | .unlock1 _ => 0xAA
  | .unlock2 _ => 0x55
  | .eraseSetup _ => 0x80
  | .sectorErase _ _ => 0x30
  | .amdProgram _ => 0xA0
  | .count _ _ _ => 0x00
  | .data _ _ _ => 0x00
  | .statusIntel _ _ => 0x80
  | .statusAmd _ _ => 0x00
  | .bankReset _ _ => 0xFF
  | .identReset _ => 0xF0
  | .readIdEnter _ => 0xAA
  | .identify _ => 0xF0
  | .identCfi _ => 0x00
  | .identLegacy _ _ _ => 0x00
  | .decodeCfi _ => 0x00
  | .decodeLegacy _ => 0x00
  | .probeProtection _ => 0xAA
  | .poll _ _ _ _ => 0x00
  | .pollReady _ _ _ => 0x00
  | .eraseIntel _ _ => 0xFF
  | .eraseAmd _ _ => 0xAA
  | .programWordIntel _ _ _ => 0x50
  | .programWordAmd _ _ _ => 0xAA
  | .programBufferIntel _ _ _ => 0xE8
  | .protectIntel _ _ _ => 0x50
  | .protectAmd _ _ _ => 0x00
  | .writeMerged _ _ _ _ => 0x00
  | .protectSector _ _ _ => 0x50

/-- What each constructor's lemma says. -/
def Header.Statement (i : Instr) : Prop :=
  (encode i).head? = some (tableByte i) ∧ 2 ≤ (encode i).length

/-- flash_init -/
theorem Header.flashInit : Header.Statement .flashInit := ⟨rfl, by simp [encode]⟩

/-- flash_get_size -/
theorem Header.flashGetSize (bank : Nat) : Header.Statement (.flashGetSize bank) :=
  ⟨rfl, by simp [encode]⟩

/-- flash_erase -/
theorem Header.flashErase (bank first last : Nat) : Header.Statement (.flashErase bank first last) :=
  ⟨rfl, by simp [encode]⟩

/-- write_buff -/
theorem Header.writeBuff (bank : Nat) (src : List Byte) (dest len : Nat) : Header.Statement (.writeBuff bank src dest len) :=
  ⟨rfl, by simp [encode]⟩

/-- flash_protect -/
theorem Header.flashProtect (flag : ProtectFlag) (addrStart addrEnd bank : Nat) : Header.Statement (.flashProtect flag addrStart addrEnd bank) :=
  ⟨rfl, by simp [encode]⟩

/-- flash_print_info -/
theorem Header.flashPrintInfo (bank : Nat) : Header.Statement (.flashPrintInfo bank) :=
  ⟨rfl, by simp [encode]⟩

/-- READ_ID -/
theorem Header.readId (bank : Nat) : Header.Statement (.readId bank) :=
  ⟨rfl, by simp [encode]⟩

/-- CFI_QUERY -/
theorem Header.cfiQuery (bank : Nat) : Header.Statement (.cfiQuery bank) :=
  ⟨rfl, by simp [encode]⟩

/-- RESET_INTEL -/
theorem Header.resetIntel (bank addr : Nat) : Header.Statement (.resetIntel bank addr) :=
  ⟨rfl, by simp [encode]⟩

/-- CLEAR_STATUS -/
theorem Header.clearStatus (bank addr : Nat) : Header.Statement (.clearStatus bank addr) :=
  ⟨rfl, by simp [encode]⟩

/-- BLOCK_ERASE -/
theorem Header.blockErase (bank addr : Nat) : Header.Statement (.blockErase bank addr) :=
  ⟨rfl, by simp [encode]⟩

/-- ERASE_CONFIRM -/
theorem Header.eraseConfirm (bank addr : Nat) : Header.Statement (.eraseConfirm bank addr) :=
  ⟨rfl, by simp [encode]⟩

/-- RESUME -/
theorem Header.resume (bank addr : Nat) : Header.Statement (.resume bank addr) :=
  ⟨rfl, by simp [encode]⟩

/-- PROGRAM -/
theorem Header.program (bank addr : Nat) : Header.Statement (.program bank addr) :=
  ⟨rfl, by simp [encode]⟩

/-- WRITE_TO_BUFFER -/
theorem Header.writeToBuffer (bank addr : Nat) : Header.Statement (.writeToBuffer bank addr) :=
  ⟨rfl, by simp [encode]⟩

/-- BUFFER_CONFIRM -/
theorem Header.bufferConfirm (bank addr : Nat) : Header.Statement (.bufferConfirm bank addr) :=
  ⟨rfl, by simp [encode]⟩

/-- LOCK_SETUP -/
theorem Header.lockSetup (bank addr : Nat) : Header.Statement (.lockSetup bank addr) :=
  ⟨rfl, by simp [encode]⟩

/-- LOCK_SET -/
theorem Header.lockSet (bank addr : Nat) : Header.Statement (.lockSet bank addr) :=
  ⟨rfl, by simp [encode]⟩

/-- LOCK_CLEAR -/
theorem Header.lockClear (bank addr : Nat) : Header.Statement (.lockClear bank addr) :=
  ⟨rfl, by simp [encode]⟩

/-- RESET_AMD -/
theorem Header.resetAmd (bank addr : Nat) : Header.Statement (.resetAmd bank addr) :=
  ⟨rfl, by simp [encode]⟩

/-- UNLOCK1 -/
theorem Header.unlock1 (bank : Nat) : Header.Statement (.unlock1 bank) :=
  ⟨rfl, by simp [encode]⟩

/-- UNLOCK2 -/
theorem Header.unlock2 (bank : Nat) : Header.Statement (.unlock2 bank) :=
  ⟨rfl, by simp [encode]⟩

/-- ERASE_SETUP -/
theorem Header.eraseSetup (bank : Nat) : Header.Statement (.eraseSetup bank) :=
  ⟨rfl, by simp [encode]⟩

/-- SECTOR_ERASE -/
theorem Header.sectorErase (bank addr : Nat) : Header.Statement (.sectorErase bank addr) :=
  ⟨rfl, by simp [encode]⟩

/-- AMD_PROGRAM -/
theorem Header.amdProgram (bank : Nat) : Header.Statement (.amdProgram bank) :=
  ⟨rfl, by simp [encode]⟩

/-- COUNT -/
theorem Header.count (bank addr : Nat) (nMinusOne : Byte) : Header.Statement (.count bank addr nMinusOne) :=
  ⟨rfl, by simp [encode]⟩

/-- DATA -/
theorem Header.data (bank addr : Nat) (d : Word) : Header.Statement (.data bank addr d) :=
  ⟨rfl, by simp [encode]⟩

/-- STATUS_INTEL -/
theorem Header.statusIntel (bank addr : Nat) : Header.Statement (.statusIntel bank addr) :=
  ⟨rfl, by simp [encode]⟩

/-- STATUS_AMD -/
theorem Header.statusAmd (bank addr : Nat) : Header.Statement (.statusAmd bank addr) :=
  ⟨rfl, by simp [encode]⟩

/-- BankReset -/
theorem Header.bankReset (bank addr : Nat) : Header.Statement (.bankReset bank addr) :=
  ⟨rfl, by simp [encode]⟩

/-- IdentReset -/
theorem Header.identReset (bank : Nat) : Header.Statement (.identReset bank) :=
  ⟨rfl, by simp [encode]⟩

/-- ReadIdEnter -/
theorem Header.readIdEnter (bank : Nat) : Header.Statement (.readIdEnter bank) :=
  ⟨rfl, by simp [encode]⟩

/-- Identify -/
theorem Header.identify (bank : Nat) : Header.Statement (.identify bank) :=
  ⟨rfl, by simp [encode]⟩

/-- IdentCFI -/
theorem Header.identCfi (bank : Nat) : Header.Statement (.identCfi bank) :=
  ⟨rfl, by simp [encode]⟩

/-- IdentLegacy -/
theorem Header.identLegacy (bank : Nat) (mfr dev : ChipId) : Header.Statement (.identLegacy bank mfr dev) :=
  ⟨rfl, by simp [encode]⟩

/-- DecodeCFI -/
theorem Header.decodeCfi (bank : Nat) : Header.Statement (.decodeCfi bank) :=
  ⟨rfl, by simp [encode]⟩

/-- DecodeLegacy -/
theorem Header.decodeLegacy (bank : Nat) : Header.Statement (.decodeLegacy bank) :=
  ⟨rfl, by simp [encode]⟩

/-- ProbeProtection -/
theorem Header.probeProtection (bank : Nat) : Header.Statement (.probeProtection bank) :=
  ⟨rfl, by simp [encode]⟩

/-- Poll -/
theorem Header.poll (bank addr budget : Nat) (kind : TimeoutKind) : Header.Statement (.poll bank addr budget kind) :=
  ⟨rfl, by simp [encode]⟩

/-- PollReady -/
theorem Header.pollReady (bank addr budget : Nat) : Header.Statement (.pollReady bank addr budget) :=
  ⟨rfl, by simp [encode]⟩

/-- EraseIntel -/
theorem Header.eraseIntel (bank sector : Nat) : Header.Statement (.eraseIntel bank sector) :=
  ⟨rfl, by simp [encode]⟩

/-- EraseAmd -/
theorem Header.eraseAmd (bank sector : Nat) : Header.Statement (.eraseAmd bank sector) :=
  ⟨rfl, by simp [encode]⟩

/-- ProgramWordIntel -/
theorem Header.programWordIntel (bank addr : Nat) (d : Word) : Header.Statement (.programWordIntel bank addr d) :=
  ⟨rfl, by simp [encode]⟩

/-- ProgramWordAmd -/
theorem Header.programWordAmd (bank addr : Nat) (d : Word) : Header.Statement (.programWordAmd bank addr d) :=
  ⟨rfl, by simp [encode]⟩

/-- ProgramBufferIntel -/
theorem Header.programBufferIntel (bank addr : Nat) (ds : List Word) : Header.Statement (.programBufferIntel bank addr ds) :=
  ⟨rfl, by simp [encode]⟩

/-- ProtectIntel -/
theorem Header.protectIntel (bank sector : Nat) (lock : Bool) : Header.Statement (.protectIntel bank sector lock) :=
  ⟨rfl, by simp [encode]⟩

/-- ProtectAmd -/
theorem Header.protectAmd (bank sector : Nat) (lock : Bool) : Header.Statement (.protectAmd bank sector lock) :=
  ⟨rfl, by simp [encode]⟩

/-- WriteMerged -/
theorem Header.writeMerged (bank addr off : Nat) (bytes : List Byte) : Header.Statement (.writeMerged bank addr off bytes) :=
  ⟨rfl, by simp [encode]⟩

/-- ProtectSector -/
theorem Header.protectSector (bank sector : Nat) (lock : Bool) : Header.Statement (.protectSector bank sector lock) :=
  ⟨rfl, by simp [encode]⟩

end Sys2Proof.Laws
end

