-- ==== Sys2Proof/Laws/PollTrace.lean ====
section
/-! SUPPORT. A poll as its trace shows it (42_sequencer.md R89), and a poll of devices that answer done.
What the environment holds ready (`Env.busInput`) is touched by reads only. -/

namespace Sys2Proof.Machine

/-! ### The answers held ready -/

section
variable {b : Nat} {s t : State}

theorem microStep_busInput {u : Unit} (h : microStep s = .ok u t) :
    t.env.busInput = s.env.busInput := by
  unfold microStep at h
  split at h
  · cases h
  · cases h; rfl
  · cases h; rfl

theorem busWrite_busInput {a : Nat} {v : Word} {c : Option Command} {u : Unit}
    (h : busWrite b a v c s = .ok u t) : t.env.busInput = s.env.busInput := by
  unfold busWrite at h
  split at h
  · cases h
  · split at h
    · cases h
    · obtain ⟨x, v, h1, h2⟩ := Res.bind_eq_ok h
      cases h2
      have e := microStep_busInput h1
      exact e

theorem writeCommands_busInput : ∀ (cs : List (Nat × Command)) {s t : State} {u : Unit},
    writeCommands b cs s = .ok u t → t.env.busInput = s.env.busInput
  | [], _, _, _, h => by cases h; rfl
  | (a, c) :: cs, _, _, _, h => by
    obtain ⟨_, v, h1, h2⟩ := Res.bind_eq_ok h
    exact (writeCommands_busInput cs h2).trans (busWrite_busInput h1)

theorem issue_busInput {cs : List (Nat × Command)} {u : Unit} (h : issue b cs s = .ok u t) :
    t.env.busInput = s.env.busInput := by
  cases cs with
  | nil => cases h; rfl
  | cons c cs =>
    obtain ⟨_, v, h1, h2⟩ := Res.bind_eq_ok h
    have e := busWrite_busInput h1
    exact (writeCommands_busInput cs h2).trans e

theorem writeDataFrom_busInput : ∀ (ds : List Word) {a : Nat} {s t : State} {u : Unit},
    writeDataFrom b a ds s = .ok u t → t.env.busInput = s.env.busInput
  | [], _, _, _, _, h => by cases h; rfl
  | d :: ds, _, _, _, _, h => by
    obtain ⟨_, v, h1, h2⟩ := Res.bind_eq_ok h
    exact (writeDataFrom_busInput ds h2).trans (busWrite_busInput h1)

theorem bankReset_busInput {a : Nat} {u : Unit} (h : bankReset b a s = .ok u t) :
    t.env.busInput = s.env.busInput := by
  obtain ⟨_, v, h1, h2⟩ := Res.bind_eq_ok h
  cases h2
  have e := writeCommands_busInput _ h1
  exact e

theorem readTimer_busInput {n : Nat} (h : readTimer s = .ok n t) :
    t.env.busInput = s.env.busInput := by
  obtain ⟨_, v, h1, h2⟩ := Res.bind_eq_ok h
  cases h2
  have : (tickTimer v).env.busInput = v.env.busInput := by
    unfold tickTimer
    split <;> rfl
  exact this.trans (microStep_busInput h1)

theorem pollExit_busInput {a : Nat} {x : SmState} {k k' : Kind} (h : pollExit b a x k s = .ok k' t) :
    t.env.busInput = s.env.busInput ∧ k' = k := by
  obtain ⟨_, v, h1, h2⟩ := Res.bind_eq_ok h
  cases h2
  exact ⟨bankReset_busInput (s := s.setSm x) h1, rfl⟩

/-- A read in Command mode takes the next answer held ready. -/
theorem busRead_command {a : Nat} {w v : Word} {ws : List Word} (h : busRead b a s = .ok v t)
    (hm : (s.bank b).device.mode = .command) (hi : s.env.busInput = w :: ws) :
    v = toPort (s.bank b).portWidth w ∧ t.env.busInput = ws := by
  unfold busRead at h
  split at h
  · cases h
  · split at h
    · cases h
    · obtain ⟨x, u, h1, h2⟩ := Res.bind_eq_ok h
      cases h2
      have hin := microStep_busInput h1
      obtain ⟨f, e, -, -, -, -, -, rfl⟩ := (microStep_leads b s).of_eq h1
      have hm' : ((s.setEnv e).advance.bank b).device.mode = .command := by simpa using hm
      have hi' : (s.setEnv e).advance.env.busInput = w :: ws := hin.trans hi
      have hr : ¬ (((s.setEnv e).advance.bank b).device.mode = .readArray ∧
          ((s.setEnv e).advance.bank b).inArray a ((s.setEnv e).advance.bank b).bytes = true) := by
        rw [hm']
        simp
      simp only [answer, if_neg hr, drawWord, hi']
      exact ⟨rfl, rfl⟩

/-- A read in read-array mode of a word of the array takes none, and yields the word. -/
theorem busRead_readArray {a : Nat} {v : Word} (h : busRead b a s = .ok v t)
    (hm : (s.bank b).device.mode = .readArray)
    (ha : (s.bank b).inArray a (s.bank b).bytes = true) :
    v = s.arrayWord b a ∧ t.env.busInput = s.env.busInput := by
  unfold busRead at h
  split at h
  · cases h
  · split at h
    · cases h
    · obtain ⟨x, u, h1, h2⟩ := Res.bind_eq_ok h
      cases h2
      have hin := microStep_busInput h1
      obtain ⟨f, e, -, -, -, -, -, rfl⟩ := (microStep_leads b s).of_eq h1
      rw [answer_readArray (by simpa using hm) (by simpa using ha)]
      exact ⟨rfl, hin⟩

end

/-! ### The loop as a trace -/

section
variable {test : Word → Word → Verdict} {a t0 budget n : Nat} {prev w : Word} {es : List BusEvent}

theorem pollOutcome_answered (h : test prev w ≠ .notDone) :
    pollOutcome test a t0 budget prev [.read a w] = some (some (test prev w)) := by
  simp [pollOutcome, h]

theorem pollOutcome_expired (h : test prev w = .notDone) (hn : budget < n - t0) :
    pollOutcome test a t0 budget prev [.read a w, .timer n] = some none := by
  simp [pollOutcome, h, hn]

theorem pollOutcome_next (h : test prev w = .notDone) (hn : n - t0 ≤ budget) (he : es ≠ []) :
    pollOutcome test a t0 budget prev (.read a w :: .timer n :: es) =
      pollOutcome test a t0 budget w es := by
  cases es with
  | nil => exact absurd rfl he
  | cons e es => simp [pollOutcome, h, hn]

/-- Of a test that does not look at the word before, the outcome does not either. -/
theorem pollOutcome_prev (ht : ∀ x y z, test x z = test y z) (x y : Word) (es : List BusEvent) :
    pollOutcome test a t0 budget x es = pollOutcome test a t0 budget y es := by
  unfold pollOutcome
  split <;> simp [ht x y]

theorem pollVerdict_prev {p : Params} {bk : Bank} (h : bk.cmdset ≠ .amdStyle) (x y z : Word) :
    pollVerdict p bk x z = pollVerdict p bk y z := by
  unfold pollVerdict
  cases hc : bk.cmdset with
  | amdStyle => exact absurd hc h
  | _ => rfl

end

/-- How a poll's loop ends, as `pollOutcome` says it. -/
def PollEnd.toOutcome : PollEnd → Option Verdict
  | .answered v => some v
  | .expired => none

section
variable {b : Nat}

/-- The events of a poll's loop are a run of the loop. -/
theorem pollLoop_outcome (test : Word → Word → Verdict) : ∀ (fuel : Nat) {s t : State} {e : PollEnd},
    pollLoop test b fuel s = .ok e t →
    ∃ es, es ≠ [] ∧ t.log.trace = s.log.trace ++ es ∧
      pollOutcome test s.seq.pollAddr s.seq.pollStart s.seq.pollBudget s.seq.pollPrev es =
        some e.toOutcome
  | 0, _, _, _, h => by cases h
  | fuel + 1, s, t, e, h => by
    simp only [pollLoop] at h
    obtain ⟨w, u, h1, h2⟩ := Res.bind_eq_ok h
    obtain ⟨f1, -, -, q1, -, l1, -, -⟩ := (busRead_leads b _ s).of_eq h1
    by_cases hv : test u.seq.pollPrev w = .notDone
    · simp only [hv] at h2
      obtain ⟨n, v, h3, h4⟩ := Res.bind_eq_ok h2
      obtain ⟨f2, hn, q2, -, -, -, l2⟩ := (readTimer_leads b u).of_eq h3
      rw [q1] at hv
      split at h4
      · rename_i hx
        cases h4
        rw [q2, q1] at hx
        refine ⟨[.read s.seq.pollAddr w, .timer n], by simp, by simp [l2, l1], ?_⟩
        exact pollOutcome_expired hv hx
      · rename_i hx
        rw [q2, q1] at hx
        obtain ⟨es, he, hl, ho⟩ := pollLoop_outcome test fuel h4
        simp only [State.setPollPrev_seq, q2, q1] at ho
        refine ⟨.read s.seq.pollAddr w :: .timer n :: es, by simp, by simp [hl, l2, l1], ?_⟩
        rw [pollOutcome_next hv (by omega) he]
        exact ho
    · have h3 : Res.ok (PollEnd.answered (test u.seq.pollPrev w)) u = .ok e t := by
        generalize test u.seq.pollPrev w = v at hv h2
        cases v with
        | notDone => exact absurd rfl hv
        | done => exact h2
        | error sub => exact h2
      cases h3
      rw [q1] at hv
      refine ⟨[.read s.seq.pollAddr w], by simp, by simp [l1], ?_⟩
      rw [q1]
      exact pollOutcome_answered hv

/-- The loop ends at once on devices that answer done. -/
theorem pollLoop_done {test : Word → Word → Verdict} {fuel : Nat} {s t : State} {e : PollEnd}
    (h : pollLoop test b fuel s = .ok e t) {w : Word} {ws : List Word}
    (hm : (s.bank b).device.mode = .command) (hi : s.env.busInput = w :: ws)
    (hd : test s.seq.pollPrev (toPort (s.bank b).portWidth w) = .done) :
    e = .answered .done ∧ t.env.busInput = ws := by
  cases fuel with
  | zero => cases h
  | succ fuel =>
    simp only [pollLoop] at h
    obtain ⟨v, u, h1, h2⟩ := Res.bind_eq_ok h
    obtain ⟨hv, hb⟩ := busRead_command h1 hm hi
    obtain ⟨-, -, -, q1, -⟩ := (busRead_leads b _ s).of_eq h1
    rw [q1, hv, hd] at h2
    cases h2
    exact ⟨rfl, hb⟩

/-- The entry of a poll: the exact events, and the reference that an AMD-style bank's loop starts
from. -/
theorem pollEnter_trace {a budget : Nat} {s t : State} {u : Unit}
    (h : pollEnter b a budget s = .ok u t) :
    t.banks = s.banks ∧ t.seq.pollAddr = a ∧ t.seq.pollBudget = budget ∧
    if (s.bank b).cmdset = .amdStyle then
      t.log.trace = s.log.trace ++ [.timer t.seq.pollStart, .read a t.seq.pollPrev]
    else t.log.trace = s.log.trace ++ [.timer t.seq.pollStart] ∧
      t.seq.pollPrev = s.seq.pollPrev := by
  obtain ⟨n, v, h1, h2⟩ := Res.bind_eq_ok h
  obtain ⟨f1, hn, q1, b1, -, -, l1⟩ := (readTimer_leads b _).of_eq h1
  have hb : v.bank b = s.bank b := State.bank_eq_of_banks b1 b
  simp only [State.setPollStart_bank, hb] at h2
  split at h2
  · rename_i hc
    obtain ⟨w, x, h3, h4⟩ := Res.bind_eq_ok h2
    cases h4
    obtain ⟨f2, -, -, q2, b2, l2, -, -⟩ := (busRead_leads b _ _).of_eq h3
    refine ⟨by simp [b2, b1], by simp [q2, q1], by simp [q2, q1], ?_⟩
    rw [if_pos hc]
    simp [l2, l1, q2, q1]
  · rename_i hc
    cases h2
    refine ⟨by simp [b1], by simp [q1], by simp [q1], ?_⟩
    rw [if_neg hc]
    exact ⟨by simp [l1], by simp [q1]⟩

/-- The answers left after the entry of a poll in Command mode. -/
theorem pollEnter_command {a budget : Nat} {s t : State} {u : Unit}
    (h : pollEnter b a budget s = .ok u t) {w : Word} {ws : List Word}
    (hm : (s.bank b).device.mode = .command) (hi : s.env.busInput = w :: ws) :
    if (s.bank b).cmdset = .amdStyle then
      t.seq.pollPrev = toPort (s.bank b).portWidth w ∧ t.env.busInput = ws
    else t.env.busInput = w :: ws := by
  obtain ⟨n, v, h1, h2⟩ := Res.bind_eq_ok h
  obtain ⟨f1, hn, q1, b1, -, -, l1⟩ := (readTimer_leads b _).of_eq h1
  have hb : v.bank b = s.bank b := State.bank_eq_of_banks b1 b
  have hin : v.env.busInput = w :: ws := (readTimer_busInput h1).trans hi
  simp only [State.setPollStart_bank, hb] at h2
  split at h2
  · rename_i hc
    obtain ⟨x, y, h3, h4⟩ := Res.bind_eq_ok h2
    cases h4
    obtain ⟨e1, e2⟩ := busRead_command h3 (w := w) (ws := ws) (by simpa [hb] using hm)
      (by simpa using hin)
    rw [if_pos hc]
    exact ⟨by simpa [hb] using e1, e2⟩
  · rename_i hc
    cases h2
    rw [if_neg hc]
    exact hin

/-- The result and the whole trace of a poll (42_sequencer.md R89). -/
theorem poll_outcome {a budget : Nat} {tkind k : Kind} {s t : State} (hb : b < s.banks.length)
    (h : poll b a budget tkind s = .ok k t) :
    ∃ t0 es o, t.log.trace = s.log.trace ++ .timer t0 :: es ++ s.resetEvents b a ∧
      pollTraceOutcome s.params (s.bank b) a t0 budget es = some o ∧ k = kindOfOutcome tkind o := by
  obtain ⟨u0, v, h1, h2⟩ := Res.bind_eq_ok h
  obtain ⟨f1, -⟩ := (pollEnter_leads a budget).of_eq h1
  obtain ⟨b1, a1, bu1, tr1⟩ := pollEnter_trace h1
  have hbv : v.bank b = s.bank b := State.bank_eq_of_banks b1 b
  obtain ⟨e, x, h3, h4⟩ := Res.bind_eq_ok h2
  obtain ⟨f2, b2, -⟩ := (pollLoop_leads _ _).of_eq h3
  obtain ⟨es, he, l2, o2⟩ := pollLoop_outcome _ _ h3
  have hx : x.bank b = s.bank b := (State.bank_eq_of_banks b2 b).trans hbv
  have fx := f1.trans f2
  rw [f1.params, hbv, a1, bu1] at o2
  have exit : ∀ (y : SmState) (k' : Kind), pollExit b a y k' x = .ok k t →
      t.log.trace = x.log.trace ++ s.resetEvents b a ∧ k = k' := by
    intro y k' hy
    obtain ⟨_, z, h5, h6⟩ := Res.bind_eq_ok hy
    cases h6
    obtain ⟨-, -, -, -, l, -⟩ := (bankReset_leads a (s := x.setSm y) (by simpa using fx.lt hb)).of_eq h5
    have : (x.setSm y).resetEvents b a = s.resetEvents b a := by
      have f' := fx.trans (BusFrame.setSm b x y)
      simp [State.resetEvents, State.commandEvents, f'.commandWord, hx]
    rw [l, this]
    exact ⟨rfl, rfl⟩
  have fin : t.log.trace = x.log.trace ++ s.resetEvents b a ∧ k = kindOfOutcome tkind e.toOutcome := by
    cases e with
    | expired => exact exit _ _ h4
    | answered y =>
      cases y with
      | error sub => exact exit _ _ h4
      | done => exact exit _ _ h4
      | notDone => exact exit _ _ h4
  refine ⟨v.seq.pollStart,
    if (s.bank b).cmdset = .amdStyle then .read a v.seq.pollPrev :: es else es, e.toOutcome, ?_, ?_,
    fin.2⟩
  · rw [fin.1, l2]
    split at tr1
    · rename_i hc
      rw [tr1, if_pos hc]
      simp
    · rename_i hc
      rw [tr1.1, if_neg hc]
      simp
  · unfold pollTraceOutcome
    by_cases hc : (s.bank b).cmdset = .amdStyle
    · rw [if_pos hc, if_pos hc]
      simpa using o2
    · rw [if_neg hc, if_neg hc,
        pollOutcome_prev (fun p q r => pollVerdict_prev hc p q r) 0 v.seq.pollPrev]
      exact o2

/-- The answers a poll of done devices takes: on an AMD-style bank one is the toggle reference. -/
def doneCost (cs : CmdSet) : Nat := if cs = .amdStyle then 2 else 1

/-- A poll of devices that answer done is `Done`, and takes as many answers as it needs. -/
theorem poll_done {a budget : Nat} {tkind k : Kind} {s t : State}
    (h : poll b a budget tkind s = .ok k t) {w : Word} {ws : List Word}
    (hm : (s.bank b).device.mode = .command)
    (hi : s.env.busInput = List.replicate (doneCost (s.bank b).cmdset) w ++ ws)
    (hd : pollVerdict s.params (s.bank b) (toPort (s.bank b).portWidth w)
      (toPort (s.bank b).portWidth w) = .done) :
    k = .ok ∧ t.env.busInput = ws := by
  obtain ⟨u0, v, h1, h2⟩ := Res.bind_eq_ok h
  obtain ⟨f1, -⟩ := (pollEnter_leads a budget).of_eq h1
  obtain ⟨b1, -⟩ := pollEnter_trace h1
  have hbv : v.bank b = s.bank b := State.bank_eq_of_banks b1 b
  obtain ⟨e, x, h3, h4⟩ := Res.bind_eq_ok h2
  rw [f1.params, hbv] at h3
  have key : e = .answered .done ∧ x.env.busInput = ws := by
    by_cases hc : (s.bank b).cmdset = .amdStyle
    · rw [doneCost, if_pos hc] at hi
      have := pollEnter_command h1 (w := w) (ws := w :: ws) hm (by simpa [List.replicate] using hi)
      rw [if_pos hc] at this
      refine pollLoop_done h3 (w := w) (by rw [hbv]; exact hm) this.2 ?_
      rw [this.1, hbv]
      exact hd
    · rw [doneCost, if_neg hc] at hi
      have := pollEnter_command h1 (w := w) (ws := ws) hm (by simpa using hi)
      rw [if_neg hc] at this
      refine pollLoop_done h3 (w := w) (by rw [hbv]; exact hm) this ?_
      rw [hbv, pollVerdict_prev hc _ (toPort (s.bank b).portWidth w)]
      exact hd
  obtain ⟨rfl, hxi⟩ := key
  obtain ⟨e1, e2⟩ := pollExit_busInput h4
  exact ⟨e2, e1.trans hxi⟩

end

/-! ### Answers for later polls -/

section
variable {b n m : Nat} {s t : State}

theorem State.DoneNext.mono (h : s.DoneNext b n) (hm : m ≤ n) : s.DoneNext b m := by
  obtain ⟨w, rest, hi, hd⟩ := h
  refine ⟨w, List.replicate (n - m) w ++ rest, ?_, hd⟩
  rw [hi, ← List.append_assoc, List.replicate_append_replicate, Nat.add_sub_cancel' hm]

/-- Where the answers and what a poll makes of them are the same, so is `DoneNext`. -/
theorem State.DoneNext.congr (h : s.DoneNext b n) (hi : t.env.busInput = s.env.busInput)
    (hp : t.params = s.params) (hc : (t.bank b).cmdset = (s.bank b).cmdset)
    (hpw : (t.bank b).portWidth = (s.bank b).portWidth)
    (hcw : (t.bank b).chipWidth = (s.bank b).chipWidth) : t.DoneNext b n := by
  obtain ⟨w, rest, h1, h2⟩ := h
  refine ⟨w, rest, hi.trans h1, ?_⟩
  simp only [pollVerdict, hp, hc, hpw, hcw] at h2 ⊢
  exact h2

theorem BusFrame.doneNext (f : BusFrame b s t) (h : s.DoneNext b n)
    (hi : t.env.busInput = s.env.busInput) : t.DoneNext b n :=
  h.congr hi f.params f.cmdset f.portWidth f.chipWidth

/-- A poll of devices with enough done answers ready is `Done`, and leaves the others ready. -/
theorem poll_doneNext {a budget : Nat} {tkind k : Kind} (hb : b < s.banks.length)
    (h : poll b a budget tkind s = .ok k t) (hm : (s.bank b).device.mode = .command)
    (hd : s.DoneNext b (doneCost (s.bank b).cmdset + n)) : k = .ok ∧ t.DoneNext b n := by
  obtain ⟨w, rest, hi, hv⟩ := hd
  rw [← List.replicate_append_replicate, List.append_assoc] at hi
  obtain ⟨hk, ht⟩ := poll_done h hm hi hv
  obtain ⟨f, -⟩ := (poll_leads a budget tkind hb).of_eq h
  refine ⟨hk, w, rest, ht, ?_⟩
  simp only [pollVerdict, f.params, f.cmdset, f.portWidth, f.chipWidth] at hv ⊢
  exact hv

end

end Sys2Proof.Machine
end

