-- ==== Sys2Proof/Laws/Position.lean ====
section
/-! SUPPORT. No operation reads the position or the result: run from another position, with no reset due,
a piece ends alike (`Blind`). So an operation that runs another one does what the other's row does
(`Blind.call_eq`, `Blind.run`). -/

namespace Sys2Proof.Machine

/-- `s` at another position, with another result in place. -/
def State.placed (s : State) (p : Option Position) (r : Option Result) : State :=
  { s with position := p, result := r }

@[simp] theorem State.placed_params (s : State) (p : Option Position) (r : Option Result) :
    (s.placed p r).params = s.params := rfl
@[simp] theorem State.placed_banks (s : State) (p : Option Position) (r : Option Result) :
    (s.placed p r).banks = s.banks := rfl
@[simp] theorem State.placed_bank (s : State) (p : Option Position) (r : Option Result) (b : Nat) :
    (s.placed p r).bank b = s.bank b := rfl
@[simp] theorem State.placed_seq (s : State) (p : Option Position) (r : Option Result) :
    (s.placed p r).seq = s.seq := rfl
@[simp] theorem State.placed_initDone (s : State) (p : Option Position) (r : Option Result) :
    (s.placed p r).initDone = s.initDone := rfl
@[simp] theorem State.placed_memory (s : State) (p : Option Position) (r : Option Result) :
    (s.placed p r).memory = s.memory := rfl
@[simp] theorem State.placed_env (s : State) (p : Option Position) (r : Option Result) :
    (s.placed p r).env = s.env := rfl
@[simp] theorem State.placed_calls (s : State) (p : Option Position) (r : Option Result) :
    (s.placed p r).calls = s.calls := rfl
@[simp] theorem State.placed_log (s : State) (p : Option Position) (r : Option Result) :
    (s.placed p r).log = s.log := rfl
@[simp] theorem State.placed_self (s : State) : s.placed s.position s.result = s := rfl
@[simp] theorem State.placed_leave (s : State) (p : Option Position) (r x : Option Result) :
    (s.placed p r).leave x = s.leave x := rfl
theorem State.enter_eq (s : State) (i : Instr) :
    s.enter i = s.placed (some { op := i, step := 0, range := none }) s.result := rfl

section
variable {α β : Type}

/-- Two pieces end in the same value, fault or refusal, in states that differ in the position and the
result only; no reset has come and none is due. -/
inductive Res.Alike : Res α → Res α → Prop
  | ok (a : α) (t : State) (p : Option Position) (r : Option Result) (h : t.env.resetIn = none) :
    Res.Alike (.ok a t) (.ok a (t.placed p r))
  | fault (f : Fault) : Res.Alike (.fault f) (.fault f)
  | refused (e : Refusal) : Res.Alike (.refused e) (.refused e)

/-- A piece that reads neither the position nor the result. -/
def Blind (f : State → Res α) : Prop :=
  ∀ s p r, s.env.resetIn = none → Res.Alike (f s) (f (s.placed p r))

theorem Res.Alike.bind {x y : Res α} {k k' : α → State → Res β} (h : Res.Alike x y)
    (hk : ∀ a t p r, t.env.resetIn = none → Res.Alike (k a t) (k' a (t.placed p r))) :
    Res.Alike (x.bind k) (y.bind k') := by
  cases h with
  | ok a t p r h => exact hk a t p r h
  | fault f => exact .fault f
  | refused e => exact .refused e

theorem Res.Alike.ite {c c' : Prop} [Decidable c] [Decidable c'] {x x' y y' : Res α} (hc : c ↔ c')
    (h1 : c → Res.Alike x x') (h2 : ¬ c → Res.Alike y y') :
    Res.Alike (if c then x else y) (if c' then x' else y') := by
  by_cases h : c
  · rw [if_pos h, if_pos (hc.mp h)]
    exact h1 h
  · rw [if_neg h, if_neg (mt hc.mpr h)]
    exact h2 h

theorem Blind.bind {f : State → Res α} {k : α → State → Res β} (hf : Blind f)
    (hk : ∀ a, Blind (k a)) : Blind fun s => (f s).bind k :=
  fun s p r h => (hf s p r h).bind fun a t p r h => hk a t p r h

/-! ### Calls -/

/-- Bodies that end alike make calls that end the same. -/
theorem Res.Alike.call_eq {i j : Instr} {body body' : State → Res (Option Result)} {s : State}
    (h : Res.Alike (body (s.enter i)) (body' (s.enter j))) : call i body s = call j body' s := by
  unfold call
  split
  · rfl
  · split
    · rfl
    · revert h
      cases body (s.enter i) <;> cases body' (s.enter j) <;> intro h <;> cases h <;> rfl

/-- What a row does is what its body does inside another operation, position and result aside. -/
theorem Blind.run {i : Instr} {body : State → Res (Option Result)} {s : State} (hf : Blind body)
    (hpos : s.position = none) (hp : paramsWf s.params = true) (hr : s.env.resetIn = none)
    (p : Option Position) (x : Option Result) :
    (∃ a u, body (s.placed p x) = .ok a u ∧ call i body s = .next (u.leave a)) ∨
      (∃ f, body (s.placed p x) = .fault f ∧ call i body s = .fault f) ∨
      ∃ e, body (s.placed p x) = .refused e ∧ call i body s = .refused e := by
  have h := hf (s.enter i) p x hr
  have hc : call i body s = match body (s.enter i) with
      | .ok r s' => .next (s'.leave r)
      | .reset s' => .next s'
      | .fault f => .fault f
      | .refused r => .refused r :=
    (if_neg (by simp [hpos])).trans (if_neg (by simp [hp]))
  rw [hc]
  change Res.Alike _ (body (s.placed p x)) at h
  revert h
  generalize body (s.placed p x) = y
  cases body (s.enter i) with
  | ok a t =>
    rintro (⟨_, _, q, w, h⟩)
    exact .inl ⟨a, _, rfl, rfl⟩
  | reset t => intro h; cases h
  | fault f => rintro ⟨⟩; exact .inr (.inl ⟨f, rfl, rfl⟩)
  | refused e => rintro ⟨⟩; exact .inr (.inr ⟨e, rfl, rfl⟩)

/-! ### Accesses and the timer -/

theorem blind_ok (a : α) (f : State → State)
    (hf : ∀ s p r, ∃ q w, f (s.placed p r) = (f s).placed q w)
    (hr : ∀ s, s.env.resetIn = none → (f s).env.resetIn = none) :
    Blind fun s => Res.ok a (f s) := by
  intro s p r h
  obtain ⟨q, w, e⟩ := hf s p r
  show Res.Alike (.ok a (f s)) (.ok a (f (s.placed p r)))
  rw [e]
  exact .ok a _ q w (hr s h)

end

theorem microStep_blind : Blind microStep := by
  intro s p r h
  simp only [microStep, State.placed_env, h]
  exact .ok () s.advance _ r h

theorem drawWord_placed (w : PortWidth) (s : State) (p : Option Position) (r : Option Result) :
    drawWord w (s.placed p r) = ((drawWord w s).1, (drawWord w s).2.placed p r) := by
  unfold drawWord
  simp only [State.placed_env]
  split <;> rfl

theorem drawWord_resetIn (w : PortWidth) (s : State) :
    (drawWord w s).2.env.resetIn = s.env.resetIn := by
  unfold drawWord
  split <;> rfl

theorem answer_placed (b a : Nat) (s : State) (p : Option Position) (r : Option Result) :
    answer b a (s.placed p r) = ((answer b a s).1, (answer b a s).2.placed p r) := by
  by_cases hc : (s.bank b).device.mode = .readArray ∧ (s.bank b).inArray a (s.bank b).bytes = true
  · exact (if_pos hc).trans (by simp only [answer, if_pos hc]; rfl)
  · exact (if_neg hc).trans (by simp only [answer, if_neg hc]; exact drawWord_placed _ _ _ _)

theorem answer_resetIn (b a : Nat) (s : State) : (answer b a s).2.env.resetIn = s.env.resetIn := by
  simp only [answer]
  split
  · rfl
  · exact drawWord_resetIn _ _

theorem busRead_blind (b a : Nat) : Blind (busRead b a) := by
  refine fun s p r h => Res.Alike.ite Iff.rfl (fun _ => .fault _) fun _ =>
    Res.Alike.ite Iff.rfl (fun _ => .refused _) fun _ =>
    (microStep_blind s p r h).bind fun _ t p r h => ?_
  rw [answer_placed]
  exact .ok _ ((answer b a t).2.note _) p r ((answer_resetIn b a t).trans h)

theorem busWrite_blind (b a : Nat) (v : Word) (c : Option Command) : Blind (busWrite b a v c) :=
  fun s p r h => Res.Alike.ite Iff.rfl (fun _ => .fault _) fun _ =>
    Res.Alike.ite Iff.rfl (fun _ => .refused _) fun _ =>
    (microStep_blind s p r h).bind fun _ t p r h =>
      .ok () ((t.setDevice b _).note _) p r h

theorem readTimer_blind : Blind readTimer := by
  intro s p r h
  refine (microStep_blind s p r h).bind fun _ t p r h => ?_
  have e : tickTimer (t.placed p r) = (tickTimer t).placed p r := by
    unfold tickTimer
    simp only [State.placed_env]
    split <;> rfl
  have e' : (tickTimer t).env.resetIn = t.env.resetIn := by
    unfold tickTimer
    split <;> rfl
  rw [e]
  exact .ok _ ((tickTimer t).note _) p r (e'.trans h)

theorem writeCommand_blind (b a : Nat) (c : Command) : Blind (writeCommand b a c) :=
  fun s p r h => busWrite_blind b a (s.commandWord b c) (some c) s p r h

theorem writeCount_blind (b a : Nat) (n : Byte) : Blind (writeCount b a n) :=
  fun s p r h => busWrite_blind b a ((s.bank b).rep n) none s p r h

theorem writeData_blind (b a : Nat) (d : Word) : Blind (writeData b a d) :=
  fun s p r h => busWrite_blind b a (toPort (s.bank b).portWidth d) none s p r h

theorem writeCommands_blind (b : Nat) : ∀ cs, Blind (writeCommands b cs)
  | [] => fun _ p r h => .ok () _ p r h
  | (a, c) :: cs => (writeCommand_blind b a c).bind fun _ => writeCommands_blind b cs

theorem issue_blind (b : Nat) : ∀ cs, Blind (issue b cs)
  | [] => fun _ p r h => .ok () _ p r h
  | (a, c) :: cs => (writeCommand_blind b a c).bind fun _ t p r h =>
      writeCommands_blind b cs (t.setSm .commandIssued) p r h

theorem writeDataFrom_blind (b : Nat) : ∀ ds a, Blind (writeDataFrom b a ds)
  | [], _ => fun _ p r h => .ok () _ p r h
  | d :: ds, a => (writeData_blind b a d).bind fun _ t p r h =>
      writeDataFrom_blind b ds (a + (t.bank b).bytes) t p r h

theorem readWords_blind (b : Nat) : ∀ n a, Blind (readWords b a n)
  | 0, _ => fun _ p r h => .ok _ _ p r h
  | n + 1, a => (busRead_blind b a).bind fun _ t p r h =>
      (readWords_blind b n (a + (t.bank b).bytes) t p r h).bind fun _ _ p r h => .ok _ _ p r h

/-! ### Polls -/

theorem bankReset_blind (b a : Nat) : Blind (bankReset b a) := fun s p r h =>
  (writeCommands_blind b ((resetWords (s.bank b).cmdset).map fun c => (a, c)) s p r h).bind
    fun _ t p r h => .ok () (t.setSm .idle) p r h

theorem pollEnter_blind (b a budget : Nat) : Blind (pollEnter b a budget) := fun s p r h =>
  (readTimer_blind ((s.setSm .polling).setPoll a budget) p r h).bind fun n t p r h =>
    Res.Alike.ite Iff.rfl
      (fun _ => (busRead_blind b _ (t.setPollStart n) p r h).bind fun w u p r h =>
        .ok () (u.setPollPrev w) p r h)
      fun _ => .ok () (t.setPollStart n) p r h

theorem pollLoop_blind (test : Word → Word → Verdict) (b : Nat) :
    ∀ fuel, Blind (pollLoop test b fuel)
  | 0 => fun _ _ _ _ => .refused _
  | fuel + 1 => fun s p r h => (busRead_blind b s.seq.pollAddr s p r h).bind fun w t p r h => by
    simp only [State.placed_seq]
    split
    · exact (readTimer_blind t p r h).bind fun n u p r h =>
        Res.Alike.ite Iff.rfl (fun _ => .ok _ u p r h)
          fun _ => pollLoop_blind test b fuel (u.setPollPrev w) p r h
    · exact .ok _ t p r h

theorem pollExit_blind (b a : Nat) (x : SmState) (k : Kind) : Blind (pollExit b a x k) :=
  fun s p r h => (bankReset_blind b a (s.setSm x) p r h).bind fun _ t p r h => .ok k t p r h

theorem poll_blind (b a budget : Nat) (k : Kind) : Blind (poll b a budget k) :=
  (pollEnter_blind b a budget).bind fun _ t p r h =>
    (pollLoop_blind (pollVerdict t.params (t.bank b)) b (pollFuel t) t p r h).bind
      fun e u p r h => by
        split
        · exact pollExit_blind b a _ _ u p r h
        · exact pollExit_blind b a _ _ u p r h
        · exact pollExit_blind b a _ _ u p r h

theorem pollReady_blind (b a budget : Nat) : Blind (pollReady b a budget) := fun s p r h =>
  (readTimer_blind ((s.setSm .polling).setPoll a budget) p r h).bind fun n t p r h =>
    (pollLoop_blind (readyVerdict t.params (t.bank b)) b (pollFuel (t.setPollStart n))
      (t.setPollStart n) p r h).bind fun e u p r h => by
        split
        · exact .ok true (u.setSm .commandIssued) p r h
        · exact (pollExit_blind b a _ _ u p r h).bind fun _ v p r h => .ok false v p r h

/-! ### Sequences -/

section
variable {α : Type}

theorem withRange_blind {a n : Nat} {body : State → Res α} (hb : Blind body) :
    Blind (withRange a n body) := fun s _ r h =>
  (hb (s.setRange (some (a, n))) _ r h).bind fun x t _ r h => .ok x (t.setRange none) _ r h

end

/-- A change of the state that leaves the position, the result and the reset input to themselves. -/
def Steady (f : State → State) : Prop :=
  ∀ s p r, f (s.placed p r) = (f s).placed p r ∧ (f s).env.resetIn = s.env.resetIn

theorem Steady.ok {α : Type} {f : State → State} (hf : Steady f) (a : α) :
    Blind fun s => .ok a (f s) :=
  blind_ok a f (fun s p r => ⟨p, r, (hf s p r).1⟩)
    fun s h => ((hf s none none).2).trans h

theorem Steady.ite {c : State → Prop} [DecidablePred c] {f g : State → State}
    (hc : ∀ s p r, c s ↔ c (s.placed p r)) (hf : Steady f) (hg : Steady g) :
    Steady fun s => if c s then f s else g s := by
  intro s p r
  by_cases h : c s
  · simpa only [if_pos h, if_pos ((hc s p r).mp h)] using hf s p r
  · simpa only [if_neg h, if_neg (mt (hc s p r).mpr h)] using hg s p r

theorem eraseEffect_steady (a n : Nat) (k : Kind) : Steady (eraseEffect a n k) := by
  intro s p r
  unfold eraseEffect
  split <;> exact ⟨rfl, rfl⟩

theorem programEffect_steady (b a : Nat) (ds : List Word) (k : Kind) :
    Steady (programEffect b a ds k) := by
  intro s p r
  unfold programEffect
  simp only
  split <;> exact ⟨rfl, rfl⟩

theorem gateLocks_steady (b i : Nat) (k : Kind) : Steady (gateLocks b i k) := by
  intro s p r
  unfold gateLocks
  split <;> exact ⟨rfl, rfl⟩

theorem openLocks_steady (b : Nat) : Steady fun s => s.openLocks b :=
  Steady.ite (c := fun s => (s.bank b).device.lockBits.length = (s.bank b).sectorCount)
    (fun _ _ _ => Iff.rfl) (fun _ _ _ => ⟨rfl, rfl⟩) fun _ _ _ => ⟨rfl, rfl⟩

theorem protectLocks_steady (b i : Nat) (lock : Bool) (k : Kind) :
    Steady (protectLocks b i lock k) := by
  intro s p r
  unfold protectLocks
  obtain ⟨h1, h2⟩ := openLocks_steady b s p r
  simp only at h1 h2
  split
  · simp only [h1]
    split <;> exact ⟨rfl, h2⟩
  · split <;> exact ⟨rfl, rfl⟩

theorem protectFlag_steady (b i : Nat) (lock : Bool) (k : Kind) :
    Steady (protectFlag b i lock k) := by
  intro s p r
  unfold protectFlag
  split <;> exact ⟨rfl, rfl⟩

theorem eraseIntelSteps_blind (b i : Nat) : Blind (eraseIntelSteps b i) := fun s p r h =>
  (issue_blind b (gateWrites ((s.bank b).sectorStart i)) s p r h).bind fun _ t p r h =>
    (poll_blind b _ _ _ t p r h).bind fun k u p r h => by
      obtain ⟨e, hr⟩ := gateLocks_steady b i k u p r
      simp only [e]
      have h' := hr.trans h
      split
      · exact .ok k _ p r h'
      · exact (issue_blind b _ _ p r h').bind fun _ v p r h => poll_blind b _ _ _ v p r h

theorem eraseAmdSteps_blind (b i : Nat) : Blind (eraseAmdSteps b i) := fun s p r h =>
  (issue_blind b (amdEraseWrites s.params (s.bank b) ((s.bank b).sectorStart i)) s p r h).bind
    fun _ t p r h => poll_blind b _ (t.bank b).eraseTimeout _ t p r h

theorem erasing_blind (b i : Nat) {steps : State → Res Kind} (hs : Blind steps) :
    Blind (erasing b i steps) := fun s p r h =>
  withRange_blind (a := (s.bank b).sectorStart i)
    (n := (s.bank b).sectorEnd i - (s.bank b).sectorStart i)
    (hs.bind fun k => (eraseEffect_steady _ _ k).ok k) s p r h

theorem erase_blind (b i : Nat) : Blind (erase b i) := by
  intro s p r h
  unfold erase
  simp only [State.placed_bank]
  split
  · exact erasing_blind b i (eraseIntelSteps_blind b i) s p r h
  · exact erasing_blind b i (eraseAmdSteps_blind b i) s p r h
  · exact .refused _

theorem programSteps_blind (b a : Nat) (d : Word) (cs : List (Nat × Command)) (at_ : Nat) :
    Blind (programSteps b a d cs at_) := fun s p r h =>
  (issue_blind b cs (irqSave s) p r h).bind fun _ t p r h =>
    (writeData_blind b a d t p r h).bind fun _ u p r h =>
      poll_blind b at_ (u.bank b).writeTimeout _ (irqRestore u) p r h

theorem programming_blind (b a : Nat) (d : Word) {steps : Nat → State → Res Kind}
    (hs : ∀ i, Blind (steps i)) : Blind (programming b a d steps) := by
  intro s p r h
  unfold programming
  simp only [State.placed_bank]
  split
  · exact .refused _
  · rename_i i _
    refine withRange_blind ((busRead_blind b a).bind fun old t p r h => ?_) s p r h
    split
    · exact .ok _ t p r h
    · exact ((hs i).bind fun k => (programEffect_steady b a [d] k).ok k) t p r h

theorem programWordIntel_blind (b a : Nat) (d : Word) : Blind (programWordIntel b a d) :=
  programming_blind b a d fun _ s p r h => programSteps_blind b a d _ _ s p r h

theorem programWordAmd_blind (b a : Nat) (d : Word) : Blind (programWordAmd b a d) :=
  programming_blind b a d fun _ s p r h =>
    programSteps_blind b a d (amdPrefix s.params (s.bank b) .amdProgram) a s p r h

theorem programWord_blind (b a : Nat) (d : Word) : Blind (programWord b a d) := by
  intro s p r h
  unfold programWord
  simp only [State.placed_bank]
  split
  · exact programWordIntel_blind b a d s p r h
  · exact programWordAmd_blind b a d s p r h
  · exact .refused _

theorem bufferSteps_blind (b a : Nat) (ds : List Word) (base : Nat) :
    Blind (bufferSteps b a ds base) := fun s p r h =>
  (issue_blind b [(base, .writeToBuffer)] (irqSave s) p r h).bind fun _ t p r h =>
    (pollReady_blind b base (s.bank b).bufferWriteTimeout t p r h).bind fun isReady u p r h => by
      split
      · exact .ok _ (irqRestore u) p r h
      · exact (writeCount_blind b base _ u p r h).bind fun _ v p r h =>
          (writeDataFrom_blind b ds a v p r h).bind fun _ w p r h =>
            (writeCommand_blind b base .bufferConfirm w p r h).bind fun _ x p r h =>
              poll_blind b base (s.bank b).bufferWriteTimeout _ (irqRestore x) p r h

theorem programBufferIntel_blind (b a : Nat) (ds : List Word) :
    Blind (programBufferIntel b a ds) := by
  refine fun s p r h => Res.Alike.ite Iff.rfl (fun _ => .refused _) fun _ => ?_
  simp only [State.placed_bank]
  split
  · exact .refused _
  · rename_i i _
    refine Res.Alike.ite Iff.rfl (fun _ => .refused _) fun _ =>
      withRange_blind ((readWords_blind b ds.length a).bind fun olds t p r h => ?_) s p r h
    simp only [State.placed_bank]
    split
    · exact .ok _ t p r h
    · exact ((bufferSteps_blind b a ds ((t.bank b).sectorStart i)).bind fun k =>
        (programEffect_steady b a ds k).ok k) t p r h

theorem protectIntel_blind (b i : Nat) (lock : Bool) : Blind (protectIntel b i lock) :=
  fun s p r h =>
  (issue_blind b _ s p r h).bind fun _ t p r h =>
    (poll_blind b _ (s.bank b).eraseTimeout _ t p r h).bind fun k u p r h => by
      obtain ⟨e, hr⟩ := protectLocks_steady b i lock k u p r
      rw [e]
      exact (protectFlag_steady b i lock k).ok k _ p r (hr.trans h)

theorem protect_blind (b i : Nat) (lock : Bool) : Blind (protect b i lock) := by
  intro s p r h
  unfold protect
  simp only [State.placed_bank]
  split
  · exact protectIntel_blind b i lock s p r h
  · exact .ok _ (s.setBank b _) p r h
  · exact .refused _

/-! ### Identification and geometry -/

theorem identReset_blind (b : Nat) : Blind (identReset b) := fun s p r h =>
  writeCommands_blind b _ s p r h

theorem readIdEnter_blind (b : Nat) : Blind (readIdEnter b) := fun s p r h =>
  writeCommands_blind b (amdPrefix s.params (s.bank b) .readId) s p r h

theorem queryByte_blind (b off : Nat) : Blind (queryByte b off) := fun s p r h =>
  (busRead_blind b ((s.bank b).baseAddr off) s p r h).bind fun _ t p r h => .ok _ t p r h

theorem idValue_blind (b off : Nat) : Blind (idValue b off) := fun s p r h =>
  (busRead_blind b ((s.bank b).baseAddr off) s p r h).bind fun _ t p r h => .ok _ t p r h

theorem cfiU16_blind (b off : Nat) : Blind (cfiU16 b off) :=
  (queryByte_blind b off).bind fun _ =>
    (queryByte_blind b (off + 1)).bind fun _ t p r h => .ok _ t p r h

theorem readIds_blind (b : Nat) : Blind (readIds b) :=
  (idValue_blind b 0).bind fun _ => (idValue_blind b 1).bind fun _ t p r h => .ok _ t p r h

theorem storeTable_blind (b : Nat) (t : Table) (f : Bank → Bank) : Blind (storeTable b t f) :=
  fun s p r h => Res.Alike.ite Iff.rfl (fun _ => .ok () (s.setBank b _) p r h)
    fun _ => .refused _

theorem readRegions_blind (b : Nat) : ∀ n off, Blind (readRegions b off n)
  | 0, _ => fun _ p r h => .ok _ _ p r h
  | n + 1, off => (cfiU16_blind b off).bind fun _ => (cfiU16_blind b (off + 2)).bind fun _ =>
      (readRegions_blind b n (off + 4)).bind fun _ t p r h => .ok _ t p r h

theorem readCfiFields_blind (b : Nat) : Blind (readCfiFields b) := fun s p r h =>
  (queryByte_blind b s.params.cfi.wordTyp s p r h).bind fun _ => (queryByte_blind b _).bind fun _ =>
  (queryByte_blind b _).bind fun _ => (queryByte_blind b _).bind fun _ =>
  (queryByte_blind b _).bind fun _ => (queryByte_blind b _).bind fun _ =>
  (cfiU16_blind b _).bind fun _ => (queryByte_blind b _).bind fun n =>
  (readRegions_blind b n.toNat _).bind fun _ t p r h => .ok _ t p r h

theorem decodeCfi_blind (b : Nat) : Blind (decodeCfi b) :=
  (readCfiFields_blind b).bind fun f s p r h =>
    storeTable_blind b (cfiTable s.params (s.bank b) f) (Bank.withCfi s.params f) s p r h

theorem decodeLegacy_blind (b : Nat) (e : LegacyEntry) : Blind (decodeLegacy b e) := fun s p r h =>
  storeTable_blind b (legacyTableOf s.params (s.bank b) e) (Bank.withLegacy s.params) s p r h

theorem probeSectors_blind (b : Nat) : ∀ n i, Blind (probeSectors b i n)
  | 0, _ => fun _ p r h => .ok () _ p r h
  | n + 1, i => fun s p r h =>
    (busRead_blind b ((s.bank b).makeAddr i s.params.protectOffset) s p r h).bind
      fun _ t p r h => probeSectors_blind b n (i + 1) (t.setBank b _) p r h

theorem probeLocks_steady (b : Nat) : Steady (probeLocks b) :=
  Steady.ite (c := fun s => (s.bank b).cmdset = .intelStyle) (fun _ _ _ => Iff.rfl)
    (fun _ _ _ => ⟨rfl, rfl⟩) fun _ _ _ => ⟨rfl, rfl⟩

theorem probeProtection_blind (b : Nat) : Blind (probeProtection b) :=
  fun s p r h => Res.Alike.ite Iff.rfl (fun _ => .ok () s p r h) fun _ =>
  (readIdEnter_blind b s p r h).bind fun _ t p r h =>
  (probeSectors_blind b (t.bank b).sectorCount 0 t p r h).bind fun _ u p r h => by
    obtain ⟨e, hr⟩ := probeLocks_steady b u p r
    rw [e]
    exact bankReset_blind b _ _ p r (hr.trans h)

theorem identCfi_blind (b : Nat) : Blind (identCfi b) := fun s p r h =>
  (cfiU16_blind b s.params.cfi.primaryId s p r h).bind fun _ t p r h =>
  Res.Alike.ite Iff.rfl (fun _ => .ok false t p r h) fun _ =>
  (decodeCfi_blind b (t.setBank b _) p r h).bind fun _ u p r h =>
  (identReset_blind b u p r h).bind fun _ u p r h =>
  (readIdEnter_blind b u p r h).bind fun _ u p r h =>
  (readIds_blind b u p r h).bind fun _ u p r h =>
  (identReset_blind b u p r h).bind fun _ u p r h => .ok true (u.setBank b _) p r h

theorem identLegacy_blind (b : Nat) (e : LegacyEntry) (m d : ChipId) :
    Blind (identLegacy b e m d) := fun s p r h =>
  decodeLegacy_blind b e (s.setBank b _) p r h

theorem cfiHalf_blind (b : Nat) : Blind (cfiHalf b) :=
  (identReset_blind b).bind fun _ s p r h =>
    (writeCommand_blind b ((s.bank b).baseAddr s.params.cfi.query) .cfiQuery s p r h).bind
      fun _ t p r h => (queryByte_blind b t.params.cfi.qry t p r h).bind
      fun q0 t p r h => (queryByte_blind b (t.params.cfi.qry + 1) t p r h).bind
      fun q1 t p r h => (queryByte_blind b (t.params.cfi.qry + 2) t p r h).bind
      fun q2 t p r h => by
        split
        · exact identCfi_blind b t p r h
        · exact .ok false t p r h

theorem legacyHalf_blind (b : Nat) : Blind (legacyHalf b) :=
  (identReset_blind b).bind fun _ => (readIdEnter_blind b).bind fun _ =>
    (readIds_blind b).bind fun ids s p r h => by
      simp only [State.placed_params]
      split
      · exact ((identLegacy_blind b _ ids.1 ids.2).bind fun _ =>
          (identReset_blind b).bind fun _ t p r h => .ok _ t p r h) s p r h
      · exact .ok _ s p r h

theorem identPass_blind (b : Nat) : Blind (identPass b) :=
  (cfiHalf_blind b).bind fun _ s p r h =>
    Res.Alike.ite Iff.rfl (fun _ => .ok _ s p r h) fun _ => legacyHalf_blind b s p r h

theorem tryPair_blind (b : Nat) (w : PortWidth) (c : ChipWidth) : Blind (tryPair b w c) :=
  fun s p r h => (identPass_blind b (s.setBank b _) p r h).bind fun e t p r h => by
    cases e with
    | accepted => exact .ok true t p r h
    | next => exact .ok false t p r h
    | flip => exact (identPass_blind b (t.setBank b _) p r h).bind fun e u p r h => .ok _ u p r h

theorem tryPairs_blind (b : Nat) : ∀ pcs, Blind (tryPairs b pcs)
  | [] => fun _ p r h => .ok false _ p r h
  | (w, c) :: pcs => (tryPair_blind b w c).bind fun _ s p r h =>
    Res.Alike.ite Iff.rfl (fun _ => .ok true s p r h) fun _ => tryPairs_blind b pcs s p r h

theorem identify_blind (b : Nat) : Blind (identify b) := fun s p r h =>
  (tryPairs_blind b (candidates s.params.minPortWidth) s p r h).bind fun _ t p r h =>
  Res.Alike.ite Iff.rfl (fun _ => .ok () t p r h) fun _ =>
  (identReset_blind b t p r h).bind fun _ u p r h => .ok () (u.setBank b _) p r h

/-! ### Host operations -/

theorem writeMerged_blind (b a off : Nat) (bs : List Byte) : Blind (writeMerged b a off bs) :=
  fun s p r h => Res.Alike.ite Iff.rfl (fun _ => .refused _) fun _ =>
    (busRead_blind b a s p r h).bind fun cur t p r h => programWord_blind b a
      (wordOf t.params.hostByteOrder (overlay (bytesOf t.params.hostByteOrder (t.bank b).bytes cur) off
        bs)) t p r h

theorem relock_blind (b : Nat) : ∀ js, Blind (relock b js)
  | [] => fun _ p r h => .ok _ _ p r h
  | j :: js => (protectIntel_blind b j true).bind fun k s p r h =>
    Res.Alike.ite Iff.rfl (fun _ => .ok k s p r h) fun _ => relock_blind b js s p r h

theorem protectSector_blind (b i : Nat) (lock : Bool) : Blind (protectSector b i lock) :=
  fun s p r h => Res.Alike.ite Iff.rfl
    (fun _ => (protectIntel_blind b i false s p r h).bind fun k t p r h =>
      Res.Alike.ite Iff.rfl (fun _ => .ok k t p r h)
        fun _ => relock_blind b (othersProtected (s.bank b) i) t p r h)
    fun _ => protect_blind b i lock s p r h

end Sys2Proof.Machine
end

