-- ==== Sys2Proof/Tests/Slice0.lean ====
section
/-! SUPPORT. Tests: ill-formed terms refused, calls written out byte by byte, single steps against the
vectors of 95_test_vectors.md (named in each docstring), and for every obligation with hypotheses a
witness that meets them together. -/

namespace Sys2Proof.Tests

open Sys2Proof Sys2Proof.Machine

-- one test at a time: tests elaborated side by side can ask for too many threads
set_option Elab.async false

/-! ### Well-formedness: each check refuses a term that is past its field -/

theorem test_wellFormed_hostOps :
    Instr.flashInit.wellFormed = true ∧
    (Instr.flashGetSize 0xFFFFFFFF).wellFormed = true ∧
    (Instr.flashGetSize 0x100000000).wellFormed = false ∧
    (Instr.flashErase 0x100000000 0 0).wellFormed = false ∧
    (Instr.flashErase 0 0x100000000 0).wellFormed = false ∧
    (Instr.flashErase 0 0 0x100000000).wellFormed = false ∧
    (Instr.writeBuff 0x100000000 [] 0 0).wellFormed = false ∧
    (Instr.writeBuff 0 [] 0x100000000 0).wellFormed = false ∧
    (Instr.writeBuff 0 [] 0 0x100000000).wellFormed = false ∧
    (Instr.flashProtect .set 0x100000000 0 0).wellFormed = false ∧
    (Instr.flashProtect .set 0 0x100000000 0).wellFormed = false ∧
    (Instr.flashProtect .set 0 0 0x100000000).wellFormed = false ∧
    (Instr.flashPrintInfo 0x100000000).wellFormed = false := by decide

theorem test_wellFormed_lists :
    (Instr.writeBuff 0 (List.replicate addrLimit 0) 0 0).wellFormed = false ∧
    (Instr.programBufferIntel 0 0 (List.replicate addrLimit 0)).wellFormed = false ∧
    (Instr.writeMerged 0 0 0 (List.replicate addrLimit 0)).wellFormed = false := by
  simp [Instr.wellFormed, fits]

theorem test_wellFormed_bankRows :
    ∀ i ∈ [Instr.readId 0x100000000, .cfiQuery 0x100000000, .unlock1 0x100000000,
      .unlock2 0x100000000, .eraseSetup 0x100000000, .amdProgram 0x100000000,
      .identReset 0x100000000, .readIdEnter 0x100000000, .identify 0x100000000,
      .identCfi 0x100000000, .identLegacy 0x100000000 0 0, .decodeCfi 0x100000000,
      .decodeLegacy 0x100000000, .probeProtection 0x100000000], i.wellFormed = false := by decide

theorem test_wellFormed_wordRows :
    ∀ x ∈ [(0x100000000, 0), (0, 0x100000000)],
    ∀ i ∈ [Instr.resetIntel x.1 x.2, .clearStatus x.1 x.2, .blockErase x.1 x.2,
      .eraseConfirm x.1 x.2, .resume x.1 x.2, .program x.1 x.2, .writeToBuffer x.1 x.2,
      .bufferConfirm x.1 x.2, .lockSetup x.1 x.2, .lockSet x.1 x.2, .lockClear x.1 x.2,
      .resetAmd x.1 x.2, .sectorErase x.1 x.2, .count x.1 x.2 0, .data x.1 x.2 0,
      .statusIntel x.1 x.2, .statusAmd x.1 x.2, .bankReset x.1 x.2, .eraseIntel x.1 x.2,
      .eraseAmd x.1 x.2, .programWordIntel x.1 x.2 0, .programWordAmd x.1 x.2 0,
      .programBufferIntel x.1 x.2 [], .protectIntel x.1 x.2 true, .protectAmd x.1 x.2 true,
      .protectSector x.1 x.2 true, .poll x.1 x.2 0 .erase, .poll 0 x.1 x.2 .erase,
      .pollReady x.1 x.2 0, .pollReady 0 x.1 x.2, .writeMerged x.1 x.2 0 [],
      .writeMerged 0 x.1 x.2 []], i.wellFormed = false := by decide

/-! ### Decoding: a call of every row written out. The first byte is the row's in opcode_table.json
(30_encoding.md R53, R65); the form byte and the operands are those of log 1. -/

theorem test_decode_hostOps :
    decodeCall [0x01, 0] = .ok .flashInit ∧
    decodeCall [0x02, 0, 0x05, 0, 0, 0] = .ok (.flashGetSize 5) ∧
    decodeCall [0x03, 0, 0, 0, 0, 0, 1, 0, 0, 0, 0, 2, 0, 0] = .ok (.flashErase 0 1 512) ∧
    decodeCall [0x04, 0, 1, 0, 0, 0, 2, 0, 0, 0, 0xAA, 0xBB, 1, 0, 1, 0, 2, 0, 0, 0] =
      .ok (.writeBuff 1 [0xAA, 0xBB] 0x10001 2) ∧
    decodeCall [0x05, 0, 1, 0, 0, 2, 0, 0xFF, 0xFF, 3, 0, 4, 0, 0, 0] =
      .ok (.flashProtect .clear 0x20000 0x3FFFF 4) ∧
    decodeCall [0x06, 0, 0xFF, 0xFF, 0xFF, 0xFF] = .ok (.flashPrintInfo 0xFFFFFFFF) := by
  exact ⟨rfl, rfl, rfl, rfl, rfl, rfl⟩

theorem test_decode_identWords :
    decodeCall [0x90, 0, 1, 0, 0, 0] = .ok (.readId 1) ∧
    decodeCall [0x98, 0, 1, 0, 0, 0] = .ok (.cfiQuery 1) := ⟨rfl, rfl⟩

theorem test_decode_intelWords :
    decodeCall [0xFF, 0, 1, 0, 0, 0, 0, 1, 0, 0] = .ok (.resetIntel 1 256) ∧
    decodeCall [0x50, 0, 1, 0, 0, 0, 0, 1, 0, 0] = .ok (.clearStatus 1 256) ∧
    decodeCall [0x20, 0, 1, 0, 0, 0, 0, 1, 0, 0] = .ok (.blockErase 1 256) ∧
    decodeCall [0xD0, 0, 1, 0, 0, 0, 0, 1, 0, 0] = .ok (.eraseConfirm 1 256) ∧
    decodeCall [0xD0, 1, 1, 0, 0, 0, 0, 1, 0, 0] = .ok (.resume 1 256) ∧
    decodeCall [0x40, 0, 1, 0, 0, 0, 0, 1, 0, 0] = .ok (.program 1 256) ∧
    decodeCall [0xE8, 0, 1, 0, 0, 0, 0, 1, 0, 0] = .ok (.writeToBuffer 1 256) ∧
    decodeCall [0xD0, 2, 1, 0, 0, 0, 0, 1, 0, 0] = .ok (.bufferConfirm 1 256) ∧
    decodeCall [0x60, 0, 1, 0, 0, 0, 0, 1, 0, 0] = .ok (.lockSetup 1 256) ∧
    decodeCall [0x01, 1, 1, 0, 0, 0, 0, 1, 0, 0] = .ok (.lockSet 1 256) ∧
    decodeCall [0xD0, 3, 1, 0, 0, 0, 0, 1, 0, 0] = .ok (.lockClear 1 256) := by
  exact ⟨rfl, rfl, rfl, rfl, rfl, rfl, rfl, rfl, rfl, rfl, rfl⟩

theorem test_decode_amdWords :
    decodeCall [0xF0, 0, 1, 0, 0, 0, 0, 1, 0, 0] = .ok (.resetAmd 1 256) ∧
    decodeCall [0xAA, 0, 1, 0, 0, 0] = .ok (.unlock1 1) ∧
    decodeCall [0x55, 0, 1, 0, 0, 0] = .ok (.unlock2 1) ∧
    decodeCall [0x80, 0, 1, 0, 0, 0] = .ok (.eraseSetup 1) ∧
    decodeCall [0x30, 0, 1, 0, 0, 0, 0, 1, 0, 0] = .ok (.sectorErase 1 256) ∧
    decodeCall [0xA0, 0, 1, 0, 0, 0] = .ok (.amdProgram 1) := by
  exact ⟨rfl, rfl, rfl, rfl, rfl, rfl⟩

theorem test_decode_otherWords :
    decodeCall [0x00, 1, 1, 0, 0, 0, 0, 1, 0, 0, 15] = .ok (.count 1 256 15) ∧
    decodeCall [0x00, 2, 1, 0, 0, 0, 0, 1, 0, 0, 0x22, 0x22, 0x11, 0x11] =
      .ok (.data 1 256 0x11112222) ∧
    decodeCall [0x80, 1, 1, 0, 0, 0, 0, 1, 0, 0] = .ok (.statusIntel 1 256) ∧
    decodeCall [0x00, 0, 1, 0, 0, 0, 0, 1, 0, 0] = .ok (.statusAmd 1 256) := by
  exact ⟨rfl, rfl, rfl, rfl⟩

theorem test_decode_identification :
    decodeCall [0xF0, 1, 1, 0, 0, 0] = .ok (.identReset 1) ∧
    decodeCall [0xAA, 1, 1, 0, 0, 0] = .ok (.readIdEnter 1) ∧
    decodeCall [0xF0, 2, 1, 0, 0, 0] = .ok (.identify 1) ∧
    decodeCall [0x00, 3, 1, 0, 0, 0] = .ok (.identCfi 1) ∧
    decodeCall [0x00, 4, 1, 0, 0, 0, 0x01, 0x00, 0xA4, 0x12] = .ok (.identLegacy 1 1 0x12A4) ∧
    decodeCall [0x00, 5, 1, 0, 0, 0] = .ok (.decodeCfi 1) ∧
    decodeCall [0x00, 6, 1, 0, 0, 0] = .ok (.decodeLegacy 1) ∧
    decodeCall [0xAA, 2, 1, 0, 0, 0] = .ok (.probeProtection 1) := by
  exact ⟨rfl, rfl, rfl, rfl, rfl, rfl, rfl, rfl⟩

theorem test_decode_sequences :
    decodeCall [0xFF, 1, 1, 0, 0, 0, 0, 1, 0, 0] = .ok (.bankReset 1 256) ∧
    decodeCall [0x00, 7, 1, 0, 0, 0, 0, 1, 0, 0, 10, 0, 0, 0, 3] = .ok (.poll 1 256 10 .protect) ∧
    decodeCall [0x00, 8, 1, 0, 0, 0, 0, 1, 0, 0, 10, 0, 0, 0] = .ok (.pollReady 1 256 10) ∧
    decodeCall [0xFF, 2, 1, 0, 0, 0, 7, 0, 0, 0] = .ok (.eraseIntel 1 7) ∧
    decodeCall [0xAA, 3, 1, 0, 0, 0, 7, 0, 0, 0] = .ok (.eraseAmd 1 7) ∧
    decodeCall [0x50, 1, 1, 0, 0, 0, 0, 1, 0, 0, 0x34, 0x12, 0, 0] =
      .ok (.programWordIntel 1 256 0x1234) ∧
    decodeCall [0xAA, 4, 1, 0, 0, 0, 0, 1, 0, 0, 0x34, 0x12, 0, 0] =
      .ok (.programWordAmd 1 256 0x1234) ∧
    decodeCall [0xE8, 1, 1, 0, 0, 0, 0, 1, 0, 0, 2, 0, 0, 0, 1, 0, 0, 0, 0, 0, 0, 2] =
      .ok (.programBufferIntel 1 256 [1, 0x02000000]) ∧
    decodeCall [0x50, 2, 1, 0, 0, 0, 7, 0, 0, 0, 1] = .ok (.protectIntel 1 7 true) ∧
    decodeCall [0x00, 9, 1, 0, 0, 0, 7, 0, 0, 0, 0] = .ok (.protectAmd 1 7 false) ∧
    decodeCall [0x00, 10, 1, 0, 0, 0, 0, 1, 0, 0, 1, 0, 0, 0, 2, 0, 0, 0, 0xAA, 0xBB] =
      .ok (.writeMerged 1 256 1 [0xAA, 0xBB]) ∧
    decodeCall [0x50, 3, 1, 0, 0, 0, 7, 0, 0, 0, 1] = .ok (.protectSector 1 7 true) := by
  exact ⟨rfl, rfl, rfl, rfl, rfl, rfl, rfl, rfl, rfl, rfl, rfl, rfl⟩

theorem test_decode_refuses :
    decodeCall [] = .error .truncated ∧
    decodeCall [0x02, 0, 1, 0, 0] = .error .truncated ∧
    decodeCall [0x07, 0] = .error (.unknownRow 7 0) ∧
    decodeCall [0xAB, 1] = .error (.unknownRow 0xAB 1) ∧
    decodeCall [0x30, 1] = .error (.unknownRow 0x30 1) ∧
    decodeCall [0x50, 2, 0, 0, 0, 0, 0, 0, 0, 0, 2] = .error (.badField 2) ∧
    decodeCall [0x01, 0, 1] = .error .trailing := by
  exact ⟨rfl, rfl, rfl, rfl, rfl, rfl, rfl⟩

/-! ### Pure functions, against part 2 of the vectors -/

/-- REP-1 to REP-8. -/
theorem test_replicate :
    replicate 0x98 .w32 .w16 = 0x00980098 ∧ replicate 0x98 .w32 .w8 = 0x98989898 ∧
    replicate 0x98 .w16 .w16 = 0x0098 ∧ replicate 0x98 .w16 .w8 = 0x9898 ∧
    replicate 0x98 .w8 .w8 = 0x98 ∧ replicate 0x00 .w32 .w8 = 0 ∧
    replicate 15 .w32 .w16 = 0x000F000F ∧ replicate 255 .w16 .w8 = 0xFFFF := by decide

/-- QB-1 to QB-3. -/
theorem test_queryByte :
    queryByteOf .w16 .le 0x0051 = 0x51 ∧ queryByteOf .w16 .be 0x0051 = 0x00 ∧
    queryByteOf .w32 .le 0x51515151 = 0x51 ∧ queryByteOf .w32 .be 0x51515151 = 0x51 ∧
    queryByteOf .w16 .le 0x5100 = 0x00 ∧ queryByteOf .w16 .be 0x5100 = 0x51 := by decide

/-- ID-V1 to ID-V4. -/
theorem test_idValue :
    idValueOf .w16 .w16 .le 0x0089 = 0x0089 ∧ idValueOf .w16 .w16 .be 0x8900 = 0x0089 ∧
    idValueOf .w32 .w8 .le 0x89898989 = 0x89 ∧ idValueOf .w32 .w8 .be 0x89898989 = 0x89 ∧
    idValueOf .w32 .w16 .le 0x00890089 = 0x0089 := by decide

/-- ST-1 to ST-8, on one lane. -/
theorem test_intelStatus_oneLane :
    intelVerdict {} .w8 .w8 0x80 = .done ∧ intelVerdict {} .w8 .w8 0x00 = .notDone ∧
    intelVerdict {} .w8 .w8 0xB0 = .error .commandSequence ∧
    intelVerdict {} .w8 .w8 0xA0 = .error .eraseOrLockBit ∧
    intelVerdict {} .w8 .w8 0x90 = .error .locking ∧
    intelVerdict {} .w8 .w8 0x82 = .error .eraseOrLockBit ∧
    intelVerdict {} .w8 .w8 0x88 = .error .vppLow ∧
    intelVerdict {} .w8 .w8 0xC5 = .done := by decide

/-- ST-9 to ST-13, on more lanes. -/
theorem test_intelStatus_moreLanes :
    intelVerdict {} .w16 .w8 0x9088 = .error .locking ∧
    intelVerdict {} .w16 .w8 0x0080 = .notDone ∧
    intelVerdict {} .w16 .w16 0x0180 = .done ∧
    intelVerdict {} .w32 .w8 0x80800080 = .notDone ∧
    intelVerdict {} .w32 .w16 0x00A00080 = .error .eraseOrLockBit := by decide

/-- ST-14 to ST-18. -/
theorem test_amdStatus :
    amdVerdict 0x80 .w8 .w8 0x00 0x80 = .notDone ∧ amdVerdict 0x80 .w8 .w8 0x80 0x80 = .done ∧
    amdVerdict 0x80 .w8 .w8 0x40 0x00 = .done ∧ amdVerdict 0x80 .w16 .w8 0x8000 0 = .notDone ∧
    amdVerdict 0x80 .w8 .w8 0xA0 0xA0 = .done := by decide

/-- TO-1 to TO-6. -/
theorem test_timeouts :
    normTimeout .us 4 4 = 1 ∧ normTimeout .ms 10 4 = 16384 ∧ normTimeout .us 9 2 = 3 ∧
    normTimeout .us 0 0 = 1 ∧ normTimeout .ms 20 20 = 4294967295 ∧ normTimeout .us 8 4 = 5 := by
  decide

/-- BUF-1 to BUF-6. -/
theorem test_bufferBytes :
    let bk := fun cs p c => { Bank.atReset 0 with cmdset := cs, portWidth := p, chipWidth := c }
    bufferBytes Params.vectors (bk .intelStyle .w32 .w16) 5 = 64 ∧
    bufferBytes Params.vectors (bk .intelStyle .w8 .w8) 0 = 0 ∧
    bufferBytes Params.vectors (bk .intelStyle .w8 .w8) 16 = 0 ∧
    bufferBytes Params.vectors (bk .intelStyle .w16 .w16) 10 = 512 ∧
    bufferBytes Params.vectors (bk .amdStyle .w8 .w8) 5 = 0 ∧
    bufferBytes Params.vectors (bk .intelStyle .w32 .w8) 1 = 8 := by decide

/-- GEO-2 (sectors 7, 8 and 70, count and end), GEO-3, GEO-5. -/
theorem test_regions :
    (layRegions 2 512 0 [(7, 0x20), (62, 0x100)]).sectors.length = 71 ∧
    (layRegions 2 512 0 [(7, 0x20), (62, 0x100)]).endAddr = 0x800000 ∧
    ((layRegions 2 512 0 [(7, 0x20), (62, 0x100)]).sectors.map Sector.startAddress)[7]? =
      some 0x1C000 ∧
    ((layRegions 2 512 0 [(7, 0x20), (62, 0x100)]).sectors.map Sector.startAddress)[8]? =
      some 0x20000 ∧
    (layRegions 1 512 0 [(3, 0)]).endAddr = 0x200 ∧
    layRegions 1 512 0 [] = { sectors := [], endAddr := 0, truncated := false } := by
  decide +kernel

/-- PR-5: addresses of offsets 0 to 3 at each port width. -/
theorem test_makeAddr :
    [0, 1, 2, 3].map (Bank.makeAddr { Bank.atReset 0 with portWidth := .w8 } 0) = [0, 1, 2, 3] ∧
    [0, 1, 2, 3].map (Bank.makeAddr { Bank.atReset 0 with portWidth := .w16 } 0) = [0, 2, 4, 6] ∧
    [0, 1, 2, 3].map (Bank.makeAddr { Bank.atReset 0 with portWidth := .w32 } 0) = [0, 4, 8, 12] := by
  decide

/-! ### Single steps -/

/-- The next state of an outcome. -/
def nextOf : Host.Outcome State Fault Refusal → Option State
  | .next s => some s
  | _ => none

/-- One call with the devices' answers and the timer's advances ready: the bus trace it leaves and its
result. -/
def ran (s : State) (i : Instr) (bus : List Word) (ticks : List Nat) :
    Option (List BusEvent × Option Result) :=
  (nextOf (exec i { s with env := { s.env with busInput := bus, timerInput := ticks } })).map
    fun t => (t.log.trace, t.result)

/-- A known bank at 0 with `n` sectors of 64 KiB, as the vectors have them. -/
def vectorBank (p : PortWidth) (c : ChipWidth) (cs : CmdSet) (n : Nat) (flags : List Bool) : Bank :=
  { Bank.atReset 0 with
    portWidth := p, chipWidth := c, cmdset := cs
    vendorId := if cs = .amdStyle then .amd else .intel
    sectors := (List.range n).map fun k => ⟨k * 0x10000, flags.getD k false⟩
    size := n * 0x10000, bufferSize := if cs = .intelStyle then 16 * p.bytes else 0
    eraseTimeout := 1000, writeTimeout := 1, bufferWriteTimeout := 5
    resumeAfterErase := true
    device := { mode := .readArray, lockBits := List.replicate n false } }

/-- The machine with that one bank, after `flash_init`, the array holding these cells. -/
def vectorState (bk : Bank) (m : Memory) : State :=
  { State.atReset Params.vectors with banks := [bk], initDone := true, memory := m }

/-- A 16/16 Intel-style bank of 8 sectors, erased. -/
def intel16 : State := vectorState (vectorBank .w16 .w16 .intelStyle 8 []) []
/-- A 32/16 Intel-style bank of 3 sectors, erased. -/
def intel32 : State := vectorState (vectorBank .w32 .w16 .intelStyle 3 []) []
/-- An 8/8 Intel-style bank of 3 sectors, all flagged protected (S5). -/
def intel8 : State := vectorState (vectorBank .w8 .w8 .intelStyle 3 [true, true, true]) []
/-- An 8/8 AMD-style bank of 8 sectors, erased. -/
def amd8 : State := vectorState (vectorBank .w8 .w8 .amdStyle 8 []) []
/-- A 16/16 bank that identification has not found, in the middle of it. -/
def bare16 : State :=
  { State.atReset { Params.vectors with
      minPortWidth := .w16
      legacyTable := [⟨0x89, 0x18, .intel, .intelStyle, 600, 0x20000⟩] } with
    banks := [{ Bank.atReset 0 with portWidth := .w16, chipWidth := .w16 }] }

/-- The devices of bank 0 in Command mode. -/
def inCommand (s : State) : State :=
  s.setDevice 0 { (s.bank 0).device with mode := .command }

/-- P1, the words the devices answer: no query table at (16,8), the table and the codes at (16,16), no
sector locked. -/
def answersP1 : List Word :=
  [0, 0, 0, 0, 0, 0x51, 0x52, 0x59, 1, 0, 4, 8, 10, 4, 4, 4, 5, 0, 1, 31, 0, 0, 1, 0x89, 0x18] ++
    List.replicate 32 0

/-- P1: the total, and the registers of the bank (its sector table left out). -/
theorem test_flashInit_P1 :
    (nextOf (exec .flashInit { State.atReset { Params.vectors with minPortWidth := .w16 } with
      env := { (State.atReset Params.vectors).env with busInput := answersP1 } })).map (fun t =>
        (t.result, t.initDone, t.banks.map fun b => ({ b with sectors := [] }, b.sectorCount))) =
    some (some (.total 0x200000), true, [({
      baseAddress := 0, portWidth := .w16, chipWidth := .w16, laneOrder := .le
      vendorId := .intel, mfrId := 0x89, deviceId := 0x18, cmdset := .intelStyle
      geometryPath := .cfi, resumeAfterErase := true, sectors := [], size := 0x200000
      bufferSize := 32, eraseTimeout := 16384, writeTimeout := 1, bufferWriteTimeout := 5
      truncationWarnings := 0
      device := { mode := .readArray, lockBits := List.replicate 32 false } }, 32)]) := by
  decide +kernel

/-- P4: the trace of an 8-bit legacy bank. -/
theorem test_flashInit_P4 :
    ran (State.atReset { Params.vectors with
      legacyTable := [⟨1, 0xA4, .amd, .amdStyle, 8, 0x10000⟩] }) .flashInit
      ([0xFF, 0xFF, 0xFF, 1, 0xA4] ++ List.replicate 8 0) [] =
    some ([.write 0 0xF0, .write 0 0xFF, .write 0x55 0x98, .read 0x10 0xFF, .read 0x11 0xFF,
      .read 0x12 0xFF, .write 0 0xF0, .write 0 0xFF, .write 0x555 0xAA, .write 0x2AA 0x55,
      .write 0x555 0x90, .read 0 1, .read 1 0xA4, .write 0 0xF0, .write 0 0xFF, .write 0x555 0xAA,
      .write 0x2AA 0x55, .write 0x555 0x90, .read 2 0, .read 0x10002 0, .read 0x20002 0,
      .read 0x30002 0, .read 0x40002 0, .read 0x50002 0, .read 0x60002 0, .read 0x70002 0,
      .write 0 0xF0], some (.total 0x80000)) := by decide +kernel

/-- P2's last call, on a bank of 8 sectors. -/
theorem test_flashGetSize : ran intel16 (.flashGetSize 0) [] [] = some ([], some (.size 0x80000)) := by
  decide +kernel

/-- ER-1. -/
theorem test_flashErase_ER1 :
    ran intel16 (.flashErase 0 1 1) [0x80, 0x80] [0, 0] =
    some ([.write 0x10000 0xFF, .write 0x10000 0x50, .write 0x10000 0x60, .write 0x10000 0xD0,
      .timer 0, .read 0x10000 0x80, .write 0x10000 0xFF, .write 0x10000 0x50, .write 0x10000 0x20,
      .write 0x10000 0xD0, .write 0x10000 0xD0, .timer 0, .read 0x10000 0x80, .write 0x10000 0xFF],
      some (.erase .ok 1 0)) := by decide +kernel

/-- S4, the AMD-style form: expiry after 1000 ms. -/
theorem test_flashErase_S4 :
    ran amd8 (.flashErase 0 3 3) [0x00, 0x80, 0x00] [0, 600, 401] =
    some ([.write 0x555 0xAA, .write 0x2AA 0x55, .write 0x555 0x80, .write 0x555 0xAA,
      .write 0x2AA 0x55, .write 0x30000 0x30, .timer 0, .read 0x30000 0x00, .read 0x30000 0x80,
      .timer 600, .read 0x30000 0x00, .timer 1001, .write 0x30000 0xF0],
      some (.erase .eraseTimeout 0 0)) := by decide +kernel

/-- P2: an unaligned write of three bytes. -/
theorem test_writeBuff_P2 :
    ran intel16 (.writeBuff 0 [0xAA, 0xBB, 0xCC] 0x10001 3) [0x80, 0x80] [0, 0] =
    some ([.read 0x10000 0xFFFF, .read 0x10000 0xFFFF, .irqOff, .write 0x10000 0x50,
      .write 0x10000 0x40, .write 0x10000 0xAAFF, .irqRestore, .timer 0, .read 0x10000 0x80,
      .write 0x10000 0xFF, .read 0x10002 0xFFFF, .irqOff, .write 0x10000 0x50, .write 0x10000 0x40,
      .write 0x10002 0xCCBB, .irqRestore, .timer 0, .read 0x10000 0x80, .write 0x10000 0xFF],
      some (.status .ok)) := by decide +kernel

/-- WB-5: two buffered chunks split at a sector end, then eight words. -/
theorem test_writeBuff_WB5 :
    (ran intel16 (.writeBuff 0 (List.replicate 64 0x5A) 0xFFF0 64) (List.replicate 12 0x80)
      (List.replicate 12 0)).map (fun r => (r.2, (writesOf r.1).filter fun w =>
        [0xE8, 7, 15, 0x40].contains w.2)) =
    some (some (.status .ok), [(0, 0xE8), (0, 7), (0x10000, 0xE8), (0x10000, 15)] ++
      List.replicate 8 (0x10000, 0x40)) := by decide +kernel

/-- S5: the unprotected sector's others are locked again. -/
theorem test_flashProtect_S5 :
    ran intel8 (.flashProtect .clear 0x20000 0x20000 0) [0x80, 0x80, 0x80] [0, 0, 0] =
    some ([.write 0x20000 0x50, .write 0x20000 0x60, .write 0x20000 0xD0, .timer 0,
      .read 0x20000 0x80, .write 0x20000 0xFF, .write 0 0x50, .write 0 0x60, .write 0 0x01, .timer 0,
      .read 0 0x80, .write 0 0xFF, .write 0x10000 0x50, .write 0x10000 0x60, .write 0x10000 0x01,
      .timer 0, .read 0x10000 0x80, .write 0x10000 0xFF], some (.status .ok)) := by decide +kernel

/-- PR-L4: both sectors whose extents the range meets are flagged. -/
theorem test_flashProtect_PRL4 :
    (nextOf (exec (.flashProtect .set 0xFFFF 0x10000 0) amd8)).map (fun t =>
      (t.bank 0).sectors.map Sector.isProtected) =
    some [true, true, false, false, false, false, false, false] := by decide +kernel

/-- R112 on the bank of S5. -/
theorem test_flashPrintInfo :
    ran intel8 (.flashPrintInfo 0) [] [] = some ([], some (.info
      { vendorId := .intel, mfrId := 0, deviceId := 0, size := 0x30000, sectorCount := 3
        sectors := [(0, true), (0x10000, true), (0x20000, true)], truncationWarnings := 0 })) := by
  decide +kernel

/-- The words of 30_encoding.md R53 that identification writes, as P1 shows them. -/
theorem test_identWords :
    ran bare16 (.readId 0) [] [] = some ([.write 0xAAA 0x90], none) ∧
    ran bare16 (.cfiQuery 0) [] [] = some ([.write 0xAA 0x98], none) := by decide +kernel

/-- The Intel-style words of R53 on a 32/16 bank: each byte in both lanes. -/
theorem test_intelWords :
    ∀ x ∈ [(Instr.resetIntel 0 4, (0x00FF00FF : Word)), (.clearStatus 0 4, 0x00500050),
      (.blockErase 0 4, 0x00200020), (.eraseConfirm 0 4, 0x00D000D0), (.resume 0 4, 0x00D000D0),
      (.program 0 4, 0x00400040), (.writeToBuffer 0 4, 0x00E800E8), (.bufferConfirm 0 4, 0x00D000D0),
      (.lockSetup 0 4, 0x00600060), (.lockSet 0 4, 0x00010001), (.lockClear 0 4, 0x00D000D0)],
    ran intel32 x.1 [] [] = some ([.write 4 x.2], none) := by decide +kernel

/-- The AMD-style words of R53 and the unlock offsets of R54, on an 8/8 bank. -/
theorem test_amdWords :
    ran amd8 (.resetAmd 0 4) [] [] = some ([.write 4 0xF0], none) ∧
    ran amd8 (.unlock1 0) [] [] = some ([.write 0x555 0xAA], none) ∧
    ran amd8 (.unlock2 0) [] [] = some ([.write 0x2AA 0x55], none) ∧
    ran amd8 (.eraseSetup 0) [] [] = some ([.write 0x555 0x80], none) ∧
    ran amd8 (.sectorErase 0 0x10000) [] [] = some ([.write 0x10000 0x30], none) ∧
    ran amd8 (.amdProgram 0) [] [] = some ([.write 0x555 0xA0], none) := by decide +kernel

/-- The mode a word leaves (20_memory.md R42) and `sm_state` after it. -/
theorem test_words_state :
    (nextOf (exec (.program 0 4) intel32)).map (fun t => ((t.bank 0).device.mode, t.seq.smState)) =
      some (.command, .commandIssued) ∧
    (nextOf (exec (.resetIntel 0 4) intel32)).map (fun t =>
      ((t.bank 0).device.mode, t.seq.smState)) = some (.readArray, .idle) ∧
    (nextOf (exec (.resetAmd 0 4) intel32)).map (fun t => (t.bank 0).device.mode) =
      some .command := by decide +kernel

/-- The two writes of a reset while no command set is selected (30_encoding.md R53) take the devices to
read-array mode as two words too (20_memory.md R42); RESET_INTEL alone does not. -/
theorem test_resetWords_state :
    ((nextOf (exec (.resetAmd 0 0) bare16)).bind fun t =>
      (nextOf (exec (.resetIntel 0 0) t)).map fun u =>
        ((t.bank 0).device.mode, (u.bank 0).device.mode)) = some (.command, .readArray) ∧
    (nextOf (exec (.resetIntel 0 0) bare16)).map (fun t => (t.bank 0).device.mode) =
      some .command := by decide +kernel

/-- PB-1's count and data words. -/
theorem test_count_data :
    ran intel32 (.count 0 0 1) [] [] = some ([.write 0 0x00010001], none) ∧
    ran intel32 (.data 0 4 0x33334444) [] [] = some ([.write 4 0x33334444], none) := by
  decide +kernel

/-- ST-13, read in command mode. -/
theorem test_statusIntel :
    ran (inCommand intel32) (.statusIntel 0 0) [0x00A00080] [] =
      some ([.read 0 0x00A00080], some (.verdict (.error .eraseOrLockBit))) := by decide +kernel

/-- ST-14: the toggle bit changed since the reference 0x00, and the word is the next reference. -/
theorem test_statusAmd :
    (nextOf (exec (.statusAmd 0 0) { inCommand amd8 with
      env := { amd8.env with busInput := [0x80] } })).map (fun t => (t.result, t.seq.pollPrev)) =
    some (some (.verdict .notDone), 0x80) := by decide +kernel

/-- R87. -/
theorem test_bankReset :
    ran intel16 (.bankReset 0 0x10000) [] [] = some ([.write 0x10000 0xFF], none) ∧
    ran amd8 (.bankReset 0 0x10000) [] [] = some ([.write 0x10000 0xF0], none) := by decide +kernel

/-- P1, the identification reset and the read-ID entry at (16,16). -/
theorem test_identReset_readIdEnter :
    ran bare16 (.identReset 0) [] [] = some ([.write 0 0xF0, .write 0 0xFF], none) ∧
    ran bare16 (.readIdEnter 0) [] [] =
      some ([.write 0xAAA 0xAA, .write 0x554 0x55, .write 0xAAA 0x90], none) := by decide +kernel

/-- ID-3: no device at `MIN_PORT_WIDTH = 32`; the last accesses and the bank. -/
theorem test_identify_ID3 :
    (nextOf (exec (.identify 0) { State.atReset { Params.vectors with minPortWidth := .w32 } with
      env := { (State.atReset Params.vectors).env with busInput := List.replicate 10 0 } })).map
      (fun t => (t.log.trace.drop (t.log.trace.length - 2), (t.bank 0).vendorId,
        (t.bank 0).sectorCount, (t.bank 0).size)) =
    some ([.write 0 0x00F000F0, .write 0 0x00FF00FF], .unknown, 0, 0) := by decide +kernel

/-- ID-2: the flip to the big lane order at (16,16), with the codes read in it. -/
theorem test_identify_ID2 :
    (nextOf (exec (.identify 0) { State.atReset { Params.vectors with minPortWidth := .w16 } with
      env := { (State.atReset Params.vectors).env with
        busInput := [0, 0, 0, 0, 0, 0, 0, 0, 0x8900, 0x1800, 0x5100, 0x5200, 0x5900, 0x0100, 0] ++
          List.replicate 9 0 ++ [0x8900, 0x1800] } })).map
      (fun t => ((t.bank 0).laneOrder, (t.bank 0).mfrId, (t.bank 0).deviceId, (t.bank 0).cmdset)) =
    some (.be, 0x89, 0x18, .intelStyle) := by decide +kernel

/-- ID-4: a query table of an unknown command set is rejected, the bank untouched. -/
theorem test_identCfi_ID4 :
    ran (inCommand bare16) (.identCfi 0) [4, 0] [] =
      some ([.read 0x26 4, .read 0x28 0], some (.ident false)) := by decide +kernel

/-- LEG-2, at `MUX = 2`: 512 sectors of 0x40000, one warning. -/
theorem test_identLegacy_LEG2 :
    (nextOf (exec (.identLegacy 0 0x89 0x18) (bare16.setBank 0
      { bare16.bank 0 with chipWidth := .w8 }))).map (fun t => ((t.bank 0).sectorCount,
        (t.bank 0).size, (t.bank 0).truncationWarnings, (t.bank 0).vendorId)) =
    some (512, 0x8000000, 1, .intel) := by decide +kernel

/-- LEG-2's timeouts and buffer, by the codes of the bank. -/
theorem test_decodeLegacy :
    (nextOf (exec (.decodeLegacy 0) (bare16.setBank 0
      { bare16.bank 0 with
        vendorId := .intel, cmdset := .intelStyle, mfrId := 0x89, deviceId := 0x18 }))).map (fun t =>
        ((t.bank 0).eraseTimeout, (t.bank 0).writeTimeout, (t.bank 0).bufferWriteTimeout,
          (t.bank 0).bufferSize)) = some (1000, 1, 1, 0) := by decide +kernel

/-- GEO-1 (S1): one region of 32 sectors of 64 KiB. -/
theorem test_decodeCfi_S1 :
    (nextOf (exec (.decodeCfi 0) { bare16.setBank 0
      { bare16.bank 0 with vendorId := .intel
                           cmdset := .intelStyle
                           device := { mode := .command, lockBits := [] } } with
      env := { bare16.env with busInput := [4, 8, 10, 4, 4, 4, 5, 0, 1, 31, 0, 0, 1] } })).map
      (fun t => ((t.bank 0).sectorCount, (t.bank 0).size, (t.bank 0).bufferSize,
        (t.bank 0).eraseTimeout)) = some (32, 0x200000, 32, 16384) := by decide +kernel

/-- PRB-1 and PRB-2: lane 1 counts on 8-bit chips, bit 1 does not. -/
theorem test_probeProtection :
    (let s := { vectorState (vectorBank .w16 .w8 .amdStyle 2 []) [] with initDone := false }
    (nextOf (exec (.probeProtection 0) { s with
      env := { s.env with busInput := [0x0100, 0x0002] } })).map (fun t =>
        (t.bank 0).sectors.map Sector.isProtected)) = some [true, false] := by decide +kernel

/-- POLL-4: done on the read just before expiry. POLL-7: expiry on an AMD-style bank. -/
theorem test_poll :
    ran (inCommand intel8) (.poll 0 0 10 .program) [0x00, 0x80] [0, 10] =
      some ([.timer 0, .read 0 0x00, .timer 10, .read 0 0x80, .write 0 0xFF], some (.status .ok)) ∧
    ran (inCommand amd8) (.poll 0 0 1 .program) [0x00, 0x80] [0, 2] =
      some ([.timer 0, .read 0 0x00, .read 0 0x80, .timer 2, .write 0 0xF0],
        some (.status .programTimeout)) := by decide +kernel

/-- POLL-8, and POLL-9 up to the restore that is its caller's. -/
theorem test_pollReady :
    ran (inCommand intel8) (.pollReady 0 0 5) [0x80] [0] =
      some ([.timer 0, .read 0 0x80], some .ready) ∧
    ran (inCommand intel8) (.pollReady 0 0 5) [0x00] [0, 6] =
      some ([.timer 0, .read 0 0x00, .timer 6, .write 0 0xFF],
        some (.status .bufferWriteTimeout)) := by decide +kernel

/-- ER-2: an error at the gate, and no erase command. -/
theorem test_eraseIntel_ER2 :
    ran intel16 (.eraseIntel 0 1) [0xA0] [0] =
      some ([.write 0x10000 0xFF, .write 0x10000 0x50, .write 0x10000 0x60, .write 0x10000 0xD0,
        .timer 0, .read 0x10000 0xA0, .write 0x10000 0xFF],
        some (.status (.hardwareError .eraseOrLockBit))) := by decide +kernel

/-- ER-3. -/
theorem test_eraseAmd_ER3 :
    ran amd8 (.eraseAmd 0 1) [0x00, 0x80, 0x80] [0, 5] =
      some ([.write 0x555 0xAA, .write 0x2AA 0x55, .write 0x555 0x80, .write 0x555 0xAA,
        .write 0x2AA 0x55, .write 0x10000 0x30, .timer 0, .read 0x10000 0x00, .read 0x10000 0x80,
        .timer 5, .read 0x10000 0x80, .write 0x10000 0xF0], some (.status .ok)) := by decide +kernel

/-- ER-3's effect: the sector reads all-ones, a byte of the next one is as before. -/
theorem test_eraseAmd_memory :
    (nextOf (exec (.eraseAmd 0 1) { amd8 with
      memory := [(0x10000, 0x12), (0x1FFFF, 0x34), (0x20000, 0x56)]
      env := { amd8.env with busInput := [0, 0], timerInput := [0] } })).map State.memory =
    some [(0x20000, 0x56)] := by decide +kernel

/-- PW-7: commands and poll at the sector's start, data at its address. -/
theorem test_programWordIntel_PW7 :
    ran intel32 (.programWordIntel 0 0x20008 0x1234) [0x00800080] [0] =
      some ([.read 0x20008 0xFFFFFFFF, .irqOff, .write 0x20000 0x00500050,
        .write 0x20000 0x00400040, .write 0x20008 0x1234, .irqRestore, .timer 0,
        .read 0x20000 0x00800080, .write 0x20000 0x00FF00FF], some (.status .ok)) := by decide +kernel

/-- PW-2: one read, no write. -/
theorem test_programWordIntel_PW2 :
    ran { intel16 with memory := [(1, 0x00)] } (.programWordIntel 0 0 0x0F0F) [] [] =
      some ([.read 0 0x00FF], some (.status (.notErased 0))) := by decide +kernel

/-- PW-6. -/
theorem test_programWordAmd_PW6 :
    ran amd8 (.programWordAmd 0 0x100 0x5A) [0x5A, 0x5A] [0] =
      some ([.read 0x100 0xFF, .irqOff, .write 0x555 0xAA, .write 0x2AA 0x55, .write 0x555 0xA0,
        .write 0x100 0x5A, .irqRestore, .timer 0, .read 0x100 0x5A, .read 0x100 0x5A,
        .write 0x100 0xF0], some (.status .ok)) := by decide +kernel

/-- PB-1. -/
theorem test_programBufferIntel_PB1 :
    ran intel32 (.programBufferIntel 0 0 [0x11112222, 0x33334444]) [0x00800080, 0x00800080] [0, 0] =
      some ([.read 0 0xFFFFFFFF, .read 4 0xFFFFFFFF, .irqOff, .write 0 0x00E800E8, .timer 0,
        .read 0 0x00800080, .write 0 0x00010001, .write 0 0x11112222, .write 4 0x33334444,
        .write 0 0x00D000D0, .irqRestore, .timer 0, .read 0 0x00800080, .write 0 0x00FF00FF],
        some (.status .ok)) := by decide +kernel

/-- PB-2: the second word's address, after both reads, no write. PB-3: the ready poll expires. -/
theorem test_programBufferIntel_PB2_PB3 :
    ran { intel32 with memory := [(6, 0), (7, 0)] }
      (.programBufferIntel 0 0 [0x11112222, 0x33334444]) [] [] =
      some ([.read 0 0xFFFFFFFF, .read 4 0x0000FFFF], some (.status (.notErased 4))) ∧
    ran intel32 (.programBufferIntel 0 0 [0x11112222]) [0] [0, 6] =
      some ([.read 0 0xFFFFFFFF, .irqOff, .write 0 0x00E800E8, .timer 0, .read 0 0, .timer 6,
        .write 0 0x00FF00FF, .irqRestore], some (.status .bufferWriteTimeout)) := by decide +kernel

/-- PR-L1, and P3's locking error: the flag of the sector after each. -/
theorem test_protectIntel :
    ran intel8 (.protectIntel 0 2 true) [0x80] [0] =
      some ([.write 0x20000 0x50, .write 0x20000 0x60, .write 0x20000 0x01, .timer 0,
        .read 0x20000 0x80, .write 0x20000 0xFF], some (.status .ok)) ∧
    (nextOf (exec (.protectIntel 0 2 true) { intel16 with
      env := { intel16.env with busInput := [0x90], timerInput := [0] } })).map (fun t =>
        (t.result, (t.bank 0).sectorProtected 2)) =
      some (some (.status (.hardwareError .locking)), false) := by decide +kernel

/-- PR-L3: no bus access, and the flag. -/
theorem test_protectAmd_PRL3 :
    ran amd8 (.protectAmd 0 0 true) [] [] = some ([], some (.status .ok)) ∧
    (nextOf (exec (.protectAmd 0 0 true) amd8)).map (fun t => (t.bank 0).sectorProtected 0) =
      some true := by decide +kernel

/-- WB-11: the word of a big-endian host; and the head of S2. -/
theorem test_writeMerged :
    ((ran { intel16 with params := { intel16.params with hostByteOrder := .big } }
      (.writeMerged 0 0x1000 0 [0x12, 0x34]) [0x80] [0]).map fun r => writesOf r.1) =
      some [(0, 0x50), (0, 0x40), (0x1000, 0x1234), (0, 0xFF)] ∧
    ((ran intel32 (.writeMerged 0 0x1000 1 [0x11, 0x22, 0x33]) [0x00800080] [0]).map fun r =>
      writesOf r.1) =
      some [(0, 0x00500050), (0, 0x00400040), (0x1000, 0x332211FF), (0, 0x00FF00FF)] := by
  decide +kernel

/-- S5, as ProtectSector: the end flags. -/
theorem test_protectSector_S5 :
    (nextOf (exec (.protectSector 0 2 false) { intel8 with
      env := { intel8.env with busInput := [0x80, 0x80, 0x80], timerInput := [0, 0, 0] } })).map
      (fun t => (t.bank 0).sectors.map Sector.isProtected) = some [true, true, false] := by
  decide +kernel

/-! ### Witnesses: for each obligation with hypotheses, a state and operands that meet them together,
and the clauses at the ends of their ranges. -/

/-- Two banks far apart, a table of 8 sectors, one legacy entry. -/
def tp : Params :=
  { Params.vectors with
    bankBase := [0, 0x40000000]
    maxSectors := 8
    legacyTable := [⟨0x01, 0xA4, .amd, .amdStyle, 4, 0x10000⟩] }

/-- A 16/16 Intel-style bank of three sectors of 256 bytes, the middle one protected. -/
def wIntel : Bank :=
  { Bank.atReset 0 with
    portWidth := .w16, chipWidth := .w16, vendorId := .intel, mfrId := 0x89, deviceId := 0x18
    cmdset := .intelStyle, geometryPath := .cfi, resumeAfterErase := true
    sectors := [⟨0, false⟩, ⟨256, true⟩, ⟨512, false⟩], size := 768, bufferSize := 32
    eraseTimeout := 10, writeTimeout := 5, bufferWriteTimeout := 5
    device := { mode := .readArray, lockBits := [false, true, false] } }

/-- An 8/8 AMD-style bank of two sectors of 128 bytes, the first one protected. -/
def wAmd : Bank :=
  { Bank.atReset 0x40000000 with
    vendorId := .amd, mfrId := 0x01, deviceId := 0xA4, cmdset := .amdStyle, geometryPath := .legacy
    sectors := [⟨0x40000000, true⟩, ⟨0x40000080, false⟩], size := 256
    eraseTimeout := 10, writeTimeout := 5, bufferWriteTimeout := 5
    device := { mode := .readArray, lockBits := [false, false] } }

/-- Both banks known, two bytes of the first sectors programmed, the devices always done. -/
def known : State :=
  { State.atReset tp with
    banks := [wIntel, wAmd], initDone := true
    memory := [(0x102, 0x5A), (0x40000001, 0x5A)]
    env := { (State.atReset tp).env with ie := true, busInput := List.replicate 24 0x80 } }

/-- `known` with the devices of its first bank in Command mode. -/
def commanded : State := inCommand known

/-- The machine at launch under the same parameters. -/
def launched : State := State.atReset tp

/-- The machine at rest with both banks known and no call running, a reset due in `n` micro-steps. -/
def resetting (n : Nat) : State := { known with env := { known.env with resetIn := some n } }

/-- `known` before `flash_init` returned. -/
def midInit : State := { known with initDone := false }

theorem wIntel_wf : Bank.Wf tp wIntel where
  increasing := by decide
  capacity := by decide
  widths := by decide
  inBank := by decide
  first := by decide
  sizeUnit := by decide
  baseAligned := by decide
  baseRoom := by decide
  sizeRoom := by decide
  timeouts := by decide
  variant := by decide
  buffer := by decide

theorem wAmd_wf : Bank.Wf tp wAmd where
  increasing := by decide
  capacity := by decide
  widths := by decide
  inBank := by decide
  first := by decide
  sizeUnit := by decide
  baseAligned := by decide
  baseRoom := by decide
  sizeRoom := by decide
  timeouts := by decide
  variant := by decide
  buffer := by decide

theorem fresh_wf (a : Nat) (h : a ∈ tp.bankBase) : Bank.Wf tp (Bank.atReset a) := by
  have ha : a = 0 ∨ a = 0x40000000 := by simpa [tp] using h
  rcases ha with rfl | rfl <;> constructor <;> decide

theorem known_inv : known.Inv where
  params := by decide
  bases := by decide
  banks := by
    intro bk h
    have : bk = wIntel ∨ bk = wAmd := by simpa [known] using h
    rcases this with rfl | rfl
    · exact wIntel_wf
    · exact wAmd_wf
  empty := by unfold Bank.EmptyIfUnknown; decide
  apart := by decide
  memory := by decide
  idle := rfl

theorem launched_inv : launched.Inv where
  params := by decide
  bases := by decide
  banks := by
    intro bk h
    have : ∃ a ∈ tp.bankBase, Bank.atReset a = bk := by
      simpa [launched, State.atReset] using h
    obtain ⟨a, ha, rfl⟩ := this
    exact fresh_wf a ha
  empty := by unfold Bank.EmptyIfUnknown; decide
  apart := by decide
  memory := by decide
  idle := rfl

theorem midInit_inv : midInit.Inv := { known_inv with idle := rfl }

theorem known_ready (b : Nat) (h : b < 2) : known.Ready b := ⟨rfl, rfl, by decide, h⟩
theorem launched_ready (b : Nat) (h : b < 2) : launched.Ready b := ⟨rfl, rfl, by decide, h⟩
theorem midInit_ready (b : Nat) (h : b < 2) : midInit.Ready b := ⟨rfl, rfl, by decide, h⟩

theorem known_known (b : Nat) (h : b < 2) : known.Known b := by
  refine ⟨known_ready b h, known_inv, ?_⟩
  have : b = 0 ∨ b = 1 := by omega
  rcases this with rfl | rfl <;> decide

theorem known_doneNext (b n : Nat) (hb : b < 2) (hn : n ≤ 24) : known.DoneNext b n := by
  refine ⟨0x80, List.replicate (24 - n) 0x80, ?_, ?_⟩
  · rw [List.replicate_append_replicate, show n + (24 - n) = 24 by omega]
    rfl
  · have : b = 0 ∨ b = 1 := by omega
    rcases this with rfl | rfl <;> decide

theorem known_atRest : known.AtRest := ⟨rfl, rfl, by decide⟩

/-- An outcome is a next state of which `p` holds. -/
def nextIs (o : Host.Outcome State Fault Refusal) (p : State → Bool) : Bool :=
  match o with
  | .next t => p t
  | _ => false

theorem nextIs_spec {o : Host.Outcome State Fault Refusal} {p : State → Bool}
    (h : nextIs o p = true) : ∃ t, o = .next t ∧ p t = true := by
  cases o with
  | next t => exact ⟨t, rfl, h⟩
  | fault _ => cases h
  | refused _ => cases h

theorem test_witness_EncodeDecodeRoundTrip :
    (Instr.writeBuff 0xFFFFFFFF [0xAA, 0xBB] 0 2).wellFormed = true ∧
    (Instr.programBufferIntel 0 0xFFFFFFFF [0xFFFFFFFF]).wellFormed = true ∧
    Instr.flashInit.wellFormed = true := by decide

theorem test_witness_DecodedCallsAreWellFormed :
    decodeCall [0x02, 0, 0xFF, 0xFF, 0xFF, 0xFF] = .ok (.flashGetSize 0xFFFFFFFF) := rfl

theorem test_witness_StepRunsDecodedCall :
    known.env.resetIn ≠ some 0 ∧
    decodeCall [0x02, 0, 1, 0, 0, 0] = .ok (.flashGetSize 1) ∧
    decodeTableWord 8 0x06 = some (.flashPrintInfo 0) ∧ known.calls = [] ∧
    (0x07 : Byte) ∉ tableBytes := by decide

theorem test_witness_LaunchAndResetValues :
    (resetting 0).env.resetIn = some 0 ∧ (resetting 0).position = none ∧
    Bank.atReset 0 ∈ launched.banks := by decide

theorem test_witness_InvariantAtReset : paramsWf tp = true ∧ paramsWf Params.vectors = true := by
  decide

theorem test_witness_InvariantKeptByStep :
    ({ known with calls := [encode (.flashErase 0 0 2)] } : State).Inv ∧
    ∃ t, step { known with calls := [encode (.flashErase 0 0 2)] } = .next t := by
  refine ⟨{ known_inv with idle := rfl }, ?_⟩
  obtain ⟨t, h, -⟩ := nextIs_spec
    (o := step { known with calls := [encode (.flashErase 0 0 2)] }) (p := fun _ => true)
    (by decide +kernel)
  exact ⟨t, h⟩

/-- A reset in the middle of an erase, with the first byte past its sector, and one in the middle of a
row that is no array operation. -/
theorem test_witness_InterruptedOperationResets :
    (resetting 3).env.resetIn ≠ none ∧
    (∃ t, exec (.flashErase 0 0 0) (resetting 3) = .next t ∧ t.env.resetIn = none) ∧
    (resetting 3).Inv ∧ bankOf (.flashErase 0 0 0) = some 0 ∧
    ¬ mayChange ((resetting 3).bank 0) 256 (.flashErase 0 0 0) ∧
    isArrayOp (.identReset 0) = false ∧
    ∃ t, exec (.identReset 0) (resetting 1) = .next t ∧ t.env.resetIn = none := by
  refine ⟨by decide, ?_, { known_inv with idle := rfl }, rfl, ?_, rfl, ?_⟩
  · obtain ⟨t, h, ht⟩ := nextIs_spec (o := exec (.flashErase 0 0 0) (resetting 3))
      (p := fun t => t.env.resetIn.isNone) (by decide +kernel)
    exact ⟨t, h, by simpa using ht⟩
  · rintro ⟨j, -, hj, -, -, h⟩
    obtain rfl : j = 0 := by omega
    exact absurd h (by decide)
  · obtain ⟨t, h, ht⟩ := nextIs_spec (o := exec (.identReset 0) (resetting 1))
      (p := fun t => t.env.resetIn.isNone) (by decide +kernel)
    exact ⟨t, h, by simpa using ht⟩

theorem test_witness_CallsRefusedOutright :
    (known.enter .flashInit).position ≠ none ∧
    known.position = none ∧ paramsWf known.params = true ∧
    paramsWf { tp with maxSectors := 0 } = false ∧
    bankOf (.flashGetSize 2) = some 2 ∧ known.banks.length ≤ 2 ∧ known.initDone = true ∧
    2 ≠ [(0 : Byte)].length ∧
    (known.setBank 0 { wIntel with bufferSize := 0 }).position = none ∧
    ((known.setBank 0 { wIntel with bufferSize := 0 }).bank 0).vendorId ≠ .unknown ∧
    ((known.setBank 0 { wIntel with bufferSize := 0 }).bank 0).cmdset = .intelStyle ∧
    ((known.setBank 0 { wIntel with bufferSize := 0 }).bank 0).bufferSize = 0 := by decide

/-- Bases at both ends of what R9 allows, offsets past 0x555, a far `PROTECT_OFFSET`, no buffer words. -/
theorem test_witness_CallsRefusedOutright_params :
    let p := { tp with
      cfi := { query := 0x556 }
      bankBase := [0, 0xFFFFEAA0], protectOffset := 0x1000, maxBufferWords := 0 }
    p.bankBase ≠ [] ∧
    (∀ a ∈ p.bankBase, a % 4 = 0 ∧ a + 0x556 * 4 < 2 ^ 32 ∧
      ∀ o ∈ commandOffsets p, a + o * 4 < 2 ^ 32) ∧
    1 ≤ p.maxSectors ∧ p.defaultEraseTimeoutMs < 2 ^ 32 ∧ p.defaultWriteTimeoutMs < 2 ^ 32 ∧
    p.defaultBufferWriteTimeoutMs < 2 ^ 32 ∧ p.maxBufferWords ≤ 256 ∧
    (∀ e ∈ p.legacyTable, e.vendor ≠ .unknown ∧ e.cmdset ≠ .none ∧ 1 ≤ e.sectorCount ∧
      128 ≤ e.uniformSectorSize ∧ e.uniformSectorSize % 128 = 0) ∧
    ∀ e ∈ p.mfrCodes, e.2 ≠ .unknown := by decide

theorem test_witness_VariantsNeverMix :
    known.Ready 1 ∧ (known.bank 1).vendorId ≠ .unknown ∧ (known.bank 1).cmdset = .amdStyle ∧
    known.Ready 0 ∧ (known.bank 0).vendorId ≠ .unknown ∧ (known.bank 0).cmdset = .intelStyle :=
  ⟨known_ready 1 (by decide), by decide, by decide, known_ready 0 (by decide), by decide, by decide⟩

/-- An odd address, and the first aligned ones past the window: past the command offsets of a bank at
0, and below the bank at 0x40000000. -/
theorem test_witness_BadAddressesStop :
    known.Ready 0 ∧ 1 % (known.bank 0).bytes ≠ 0 ∧ (known.bank 0).cmdset ≠ .amdStyle ∧
    0xAAC % (known.bank 0).bytes = 0 ∧ (known.bank 0).inWindow known.params 0xAAC = false ∧
    known.Ready 1 ∧ 0x3FFFFFFF % (known.bank 1).bytes = 0 ∧ (known.bank 1).cmdset ≠ .intelStyle ∧
    (known.bank 1).inWindow known.params 0x3FFFFFFF = false ∧
    (known.bank 0).vendorId ≠ .unknown ∧ 1 + [(0 : Byte)].length ≤ (known.bank 0).bytes ∧
    (known.bank 0).sectorOf 1 = some 0 ∧ (known.bank 0).bufferSize ≠ 0 ∧
    bufferFits (known.bank 0) 1 [(0 : Word)].length 0 = true ∧
    (let s := known.setBank 1 { wAmd with portWidth := .w16 }
    s.Ready 1 ∧ (s.bank 1).vendorId ≠ .unknown ∧ (s.bank 1).cmdset ≠ .intelStyle ∧
      0x40000001 % (s.bank 1).bytes ≠ 0 ∧ (s.bank 1).sectorOf 0x40000001 = some 0) :=
  ⟨known_ready 0 (by decide), by decide, by decide, by decide, by decide, known_ready 1 (by decide),
    by decide, by decide, by decide, by decide, by decide, by decide, by decide, by decide,
    ⟨rfl, rfl, by decide, by decide⟩, by decide, by decide, by decide, by decide⟩

/-- An address both misaligned and outside the window faults (log 31). -/
theorem test_misaligned_outside :
    (match exec (.data 0 0xAAD 0) known with
      | .fault (.misalignedAccess 0xAAD) => true
      | _ => false) = true := by decide +kernel

/-- A protect operation, and one that is none. -/
theorem test_witness_BanksConstantAfterInit :
    known.initDone = true ∧ known.env.resetIn = none ∧
    (∃ t, exec (.flashProtect .set 0 0 0) known = .next t) ∧
    isProtectOp (.flashErase 0 0 0) = false ∧ (known.bank 0).vendorId ≠ .unknown ∧
    ∃ t, exec (.flashErase 0 0 0) known = .next t := by
  refine ⟨rfl, rfl, ?_, rfl, by decide, ?_⟩
  · obtain ⟨t, h, -⟩ := nextIs_spec (o := exec (.flashProtect .set 0 0 0) known)
      (p := fun _ => true) (by decide +kernel)
    exact ⟨t, h⟩
  · obtain ⟨t, h, -⟩ := nextIs_spec (o := exec (.flashErase 0 0 0) known)
      (p := fun _ => true) (by decide +kernel)
    exact ⟨t, h⟩

theorem test_witness_BanksAreIndependent :
    bankOf (.flashErase 0 0 0) = some 0 ∧ 1 ≠ 0 ∧ known.env.resetIn = none ∧
    isDecodeRow (.flashErase 0 0 0) = false ∧
    bankOf (.decodeCfi 1) = some 1 ∧ midInit.env.resetIn = none ∧ isDecodeRow (.decodeCfi 1) = true ∧
    ({ wIntel with bufferSize := 0 } : Bank).baseAddress = (midInit.bank 0).baseAddress ∧
    ({ wIntel with bufferSize := 0 } : Bank).size = (midInit.bank 0).size := by decide

/-- With no reset due, and with one that cuts the operation. -/
theorem test_witness_TimeTraceAndInterruptEnable :
    known.env.resetIn = none ∧ (∃ t, exec (.programWordIntel 0 0 0x80) known = .next t) ∧
    ∃ t, exec (.programWordIntel 0 0 0x80) (resetting 2) = .next t := by
  refine ⟨rfl, ?_, ?_⟩
  · obtain ⟨t, h, -⟩ := nextIs_spec (o := exec (.programWordIntel 0 0 0x80) known)
      (p := fun _ => true) (by decide +kernel)
    exact ⟨t, h⟩
  · obtain ⟨t, h, -⟩ := nextIs_spec (o := exec (.programWordIntel 0 0 0x80) (resetting 2))
      (p := fun _ => true) (by decide +kernel)
    exact ⟨t, h⟩

theorem test_witness_HostOperationsReturnToRest :
    isHostOp (.flashErase 0 0 0) = true ∧ known.AtRest ∧
    (∃ t, exec (.flashErase 0 0 0) known = .next t) ∧ known.env.resetIn = none ∧
    (resetting 3).AtRest ∧ ∃ t, exec (.flashErase 0 0 0) (resetting 3) = .next t := by
  refine ⟨rfl, known_atRest, ?_, rfl, ⟨rfl, rfl, by decide⟩, ?_⟩
  · obtain ⟨t, h, -⟩ := nextIs_spec (o := exec (.flashErase 0 0 0) known)
      (p := fun _ => true) (by decide +kernel)
    exact ⟨t, h⟩
  · obtain ⟨t, h, -⟩ := nextIs_spec (o := exec (.flashErase 0 0 0) (resetting 3))
      (p := fun _ => true) (by decide +kernel)
    exact ⟨t, h⟩

theorem test_witness_UnknownBanksStayEmpty :
    (∀ bk ∈ launched.banks, bk.EmptyIfUnknown) ∧
    (∃ t, exec (.identLegacy 0 0x01 0xA4) launched = .next t) ∧
    ∃ t, exec (.decodeLegacy 1) launched = .next t := by
  refine ⟨launched_inv.empty, ?_, ?_⟩
  · obtain ⟨t, h, -⟩ := nextIs_spec (o := exec (.identLegacy 0 0x01 0xA4) launched)
      (p := fun _ => true) (by decide +kernel)
    exact ⟨t, h⟩
  · obtain ⟨t, h, -⟩ := nextIs_spec (o := exec (.decodeLegacy 1) launched)
      (p := fun _ => true) (by decide +kernel)
    exact ⟨t, h⟩

/-- The first address of the window and the last one of the command offsets. -/
theorem test_witness_IntelCommandWordsRun :
    known.Ready 0 ∧ (known.bank 0).cmdset ≠ .amdStyle ∧ (known.bank 0).Accepts known.params 0 ∧
    (known.bank 0).Accepts known.params 0xAAA ∧ (.lockClear 0 0xAAA, .lockClear) ∈ intelCommandRows 0 0xAAA :=
  ⟨known_ready 0 (by decide), by decide, ⟨by decide, by decide⟩, ⟨by decide, by decide⟩, by decide⟩

theorem test_witness_AmdCommandWordsRun :
    known.Ready 1 ∧ known.Inv ∧ (known.bank 1).cmdset = .amdStyle ∧
    (known.bank 1).Accepts known.params 0x40000000 ∧ (known.bank 1).Accepts known.params 0x40000555 ∧
    (.sectorErase 1 0x40000555, 0x40000555, .sectorErase) ∈
      amdCommandRows known.params (known.bank 1) 1 0x40000555 :=
  ⟨known_ready 1 (by decide), known_inv, by decide, ⟨by decide, by decide⟩,
    ⟨by decide, by decide⟩, by decide⟩

/-- A bank that is AMD-style, and one that identification has not found yet. -/
theorem test_witness_IdentCommandWordsRun :
    known.Ready 1 ∧ known.Inv ∧
    (.cfiQuery 1, 0x40000055, .cfiQuery) ∈ identCommandRows known.params (known.bank 1) 1 ∧
    launched.Ready 0 ∧ launched.Inv ∧
    (.unlock2 0, 0x2AA, .unlock2) ∈ identCommandRows launched.params (launched.bank 0) 0 :=
  ⟨known_ready 1 (by decide), known_inv, by decide, launched_ready 0 (by decide), launched_inv,
    by decide⟩

/-- A bank of each variant. -/
theorem test_witness_ResetCountAndDataWordsRun :
    known.Ready 0 ∧ (known.bank 0).Accepts known.params 0xAAA ∧ (known.bank 0).cmdset ≠ .amdStyle ∧
    known.Ready 1 ∧ (known.bank 1).Accepts known.params 0x40000000 :=
  ⟨known_ready 0 (by decide), ⟨by decide, by decide⟩, by decide, known_ready 1 (by decide),
    ⟨by decide, by decide⟩⟩

theorem test_witness_StatusWordsRun :
    known.Ready 0 ∧ (known.bank 0).Accepts known.params 0x100 ∧ (known.bank 0).cmdset ≠ .amdStyle ∧
    known.Ready 1 ∧ (known.bank 1).Accepts known.params 0x400000FF ∧ (known.bank 1).cmdset ≠ .intelStyle :=
  ⟨known_ready 0 (by decide), ⟨by decide, by decide⟩, by decide, known_ready 1 (by decide),
    ⟨by decide, by decide⟩, by decide⟩

/-- The last word of the array. -/
theorem test_witness_ReadArrayReturnsStoredWord :
    (known.bank 0).device.mode = .readArray ∧
    (known.bank 0).inArray 766 (known.bank 0).bytes = true := by decide

theorem test_witness_ResetAndReadIdSequencesRun :
    launched.Ready 0 ∧ (launched.bank 0).Accepts launched.params 0x555 ∧ launched.Inv :=
  ⟨launched_ready 0 (by decide), ⟨by decide, by decide⟩, launched_inv⟩

/-- A bank of each variant with its devices answering done, and a bank without a command set. -/
theorem test_witness_PollRunsItsLoop :
    commanded.Ready 0 ∧ (commanded.bank 0).Accepts commanded.params 0 ∧
    (commanded.bank 0).device.mode = .command ∧
    commanded.DoneNext 0 2 ∧
    launched.Ready 0 ∧ (launched.bank 0).Accepts launched.params 0 ∧ (launched.bank 0).cmdset = .none :=
  ⟨⟨rfl, rfl, by decide, by decide⟩, ⟨by decide, by decide⟩, by decide,
    ⟨0x80, List.replicate 22 0x80, rfl, by decide⟩, launched_ready 0 (by decide),
    ⟨by decide, by decide⟩, by decide⟩

theorem test_witness_PollReadyRunsItsLoop :
    commanded.Ready 0 ∧ (commanded.bank 0).Accepts commanded.params 0 ∧
    (commanded.bank 0).cmdset ≠ .amdStyle ∧
    (commanded.bank 0).device.mode = .command ∧
    (commanded.bank 0).cmdset = .intelStyle ∧
    commanded.DoneNext 0 1 :=
  ⟨⟨rfl, rfl, by decide, by decide⟩, ⟨by decide, by decide⟩, by decide, by decide, by decide,
    ⟨0x80, List.replicate 23 0x80, rfl, by decide⟩⟩

theorem test_witness_EraseIntelOutcome :
    known.Known 0 ∧ (known.bank 0).cmdset = .intelStyle ∧ 2 < (known.bank 0).sectorCount ∧
    known.DoneNext 0 2 :=
  ⟨known_known 0 (by decide), by decide, by decide, known_doneNext 0 2 (by decide) (by decide)⟩

theorem test_witness_EraseAmdOutcome :
    known.Known 1 ∧ (known.bank 1).cmdset = .amdStyle ∧ 1 < (known.bank 1).sectorCount ∧
    known.DoneNext 1 2 :=
  ⟨known_known 1 (by decide), by decide, by decide, known_doneNext 1 2 (by decide) (by decide)⟩

/-- A word of each bank that holds a byte 0x5A. -/
theorem test_witness_ProgramNotErasedIssuesNoCommand :
    known.Known 0 ∧ (known.bank 0).device.mode = .readArray ∧ 0x102 % (known.bank 0).bytes = 0 ∧
    (known.bank 0).sectorOf 0x102 = some 1 ∧
    known.arrayWord 0 0x102 &&& toPort (known.bank 0).portWidth 0xFFFF ≠
      toPort (known.bank 0).portWidth 0xFFFF ∧ (known.bank 0).cmdset = .intelStyle ∧
    known.Known 1 ∧ (known.bank 1).device.mode = .readArray ∧
    0x40000001 % (known.bank 1).bytes = 0 ∧ (known.bank 1).sectorOf 0x40000001 = some 0 ∧
    known.arrayWord 1 0x40000001 &&& toPort (known.bank 1).portWidth 0xFF ≠
      toPort (known.bank 1).portWidth 0xFF ∧ (known.bank 1).cmdset = .amdStyle :=
  ⟨known_known 0 (by decide), by decide, by decide, by decide, by decide, by decide,
    known_known 1 (by decide), by decide, by decide, by decide, by decide, by decide⟩

/-- The last word of the bank. -/
theorem test_witness_ProgramWordIntelOutcome :
    known.Known 0 ∧ (known.bank 0).device.mode = .readArray ∧
    (known.bank 0).cmdset = .intelStyle ∧ 766 % (known.bank 0).bytes = 0 ∧
    (known.bank 0).sectorOf 766 = some 2 ∧
    known.arrayWord 0 766 &&& toPort (known.bank 0).portWidth 0x1234 =
      toPort (known.bank 0).portWidth 0x1234 ∧ known.DoneNext 0 1 :=
  ⟨known_known 0 (by decide), by decide, by decide, by decide, by decide, by decide,
    known_doneNext 0 1 (by decide) (by decide)⟩

theorem test_witness_ProgramWordAmdOutcome :
    known.Known 1 ∧ (known.bank 1).device.mode = .readArray ∧
    (known.bank 1).cmdset = .amdStyle ∧ 0x400000FF % (known.bank 1).bytes = 0 ∧
    (known.bank 1).sectorOf 0x400000FF = some 1 ∧
    known.arrayWord 1 0x400000FF &&& toPort (known.bank 1).portWidth 0x34 =
      toPort (known.bank 1).portWidth 0x34 ∧ known.DoneNext 1 2 :=
  ⟨known_known 1 (by decide), by decide, by decide, by decide, by decide, by decide,
    known_doneNext 1 2 (by decide) (by decide)⟩

/-- Two words, the second of which the array cannot take. -/
theorem test_witness_ProgramBufferNotErased :
    known.Known 0 ∧ (known.bank 0).device.mode = .readArray ∧
    (known.bank 0).cmdset = .intelStyle ∧ 0 < (known.bank 0).bufferSize ∧
    0x100 % (known.bank 0).bytes = 0 ∧ (known.bank 0).sectorOf 0x100 = some 1 ∧
    bufferFits (known.bank 0) 0x100 2 1 = true ∧
    known.arrayWord 0 0x100 &&& 0xFFFF = 0xFFFF ∧ known.arrayWord 0 0x102 &&& 0xFFFF ≠ 0xFFFF :=
  ⟨known_known 0 (by decide), by decide, by decide, by decide, by decide, by decide, by decide,
    by decide, by decide⟩

/-- A full buffer of 16 words at the start of a sector. -/
theorem test_witness_ProgramBufferOutcome :
    known.Known 0 ∧ (known.bank 0).device.mode = .readArray ∧
    (known.bank 0).cmdset = .intelStyle ∧ 0 < (known.bank 0).bufferSize ∧
    0x200 % (known.bank 0).bytes = 0 ∧ (known.bank 0).sectorOf 0x200 = some 2 ∧
    bufferFits (known.bank 0) 0x200 (List.replicate 16 (0x1234 : Word)).length 2 = true ∧
    (∀ k < (List.replicate 16 (0x1234 : Word)).length,
      known.arrayWord 0 (0x200 + k * (known.bank 0).bytes) &&&
        toPort (known.bank 0).portWidth ((List.replicate 16 (0x1234 : Word)).getD k 0) =
        toPort (known.bank 0).portWidth ((List.replicate 16 (0x1234 : Word)).getD k 0)) ∧
    known.DoneNext 0 2 :=
  ⟨known_known 0 (by decide), by decide, by decide, by decide, by decide, by decide, by decide,
    by decide +kernel, known_doneNext 0 2 (by decide) (by decide)⟩

theorem test_witness_ProtectIntelOutcome :
    known.Known 0 ∧ (known.bank 0).cmdset = .intelStyle ∧ 2 < (known.bank 0).sectorCount ∧
    known.DoneNext 0 1 :=
  ⟨known_known 0 (by decide), by decide, by decide, known_doneNext 0 1 (by decide) (by decide)⟩

theorem test_witness_ProtectAmdSetsFlagOnly :
    known.Known 1 ∧ (known.bank 1).cmdset = .amdStyle ∧ 1 < (known.bank 1).sectorCount :=
  ⟨known_known 1 (by decide), by decide, by decide⟩

/-- A bank of each variant; the unlock of sector 0 locks sector 1 again. -/
theorem test_witness_ProtectSectorOutcome :
    known.Known 0 ∧ (known.bank 0).device.mode = .readArray ∧ known.seq.smState = .idle ∧
    0 < (known.bank 0).sectorCount ∧ (known.bank 0).sectorCount ≤ 3 ∧ known.DoneNext 0 3 ∧
    (known.bank 0).cmdset = .intelStyle ∧
    ((List.range (known.bank 0).sectorCount).filter fun j =>
      j != 0 && (known.bank 0).sectorProtected j) = [1] ∧
    known.Known 1 ∧ (known.bank 1).device.mode = .readArray ∧ 1 < (known.bank 1).sectorCount :=
  ⟨known_known 0 (by decide), by decide, by decide, by decide, by decide,
    known_doneNext 0 3 (by decide) (by decide), by decide, by decide, known_known 1 (by decide),
    by decide, by decide⟩

/-- `s` with these answers of the devices ready. -/
def answering (s : State) (ws : List Word) : State :=
  { s with env := { s.env with busInput := ws } }

/-- The machine at launch with its one bank at `a`. -/
def launchedAt (a : Nat) : State := State.atReset { tp with bankBase := [a] }

theorem highBase_inv : (launchedAt 0xFFFE0000).Inv where
  params := by decide
  bases := rfl
  banks := by
    intro bk hb
    obtain rfl : bk = Bank.atReset 0xFFFE0000 := by simpa [launchedAt, State.atReset] using hb
    constructor <;> decide
  empty := by unfold Bank.EmptyIfUnknown; decide
  apart := by decide
  memory := by decide
  idle := rfl

/-- The refusal of an outcome. -/
def refusalOf : Host.Outcome State Fault Refusal → Option Refusal
  | .refused r => some r
  | _ => none

/-- What a device answers to IdentCFI at 8/8: the Intel-style id, the fields, one region of `n + 1`
sectors of 64 KiB, the codes. -/
def cfiAnswers (n : Word) : List Word := [1, 0, 4, 8, 10, 4, 4, 4, 5, 0, 1, n, 0, 0, 1, 0x89, 0x18]

/-- No answers identify a range of `launched` that reaches the other bank or the end of addresses. -/
theorem launched_reach {b : Nat} (hb : b < 2) {bk : Bank} (h : launched.Detects b bk) :
    bk.baseAddress = b * 0x40000000 ∧ bk.baseAddress + bk.size ≤ b * 0x40000000 + 0x20000000 := by
  have hb' : (launched.bank b).baseAddress = b * 0x40000000 := by
    have : b = 0 ∨ b = 1 := by omega
    rcases this with rfl | rfl <;> decide
  obtain ⟨h1, h2⟩ := detects_reach h (by decide +kernel)
  have : launched.params.maxSectors = 8 := rfl
  rw [hb'] at h1 h2
  rw [this] at h2
  exact ⟨h1, h2.trans (Nat.add_le_add_left (by norm_num) _)⟩

theorem lowBase_inv : (launchedAt 0).Inv where
  params := by decide
  bases := rfl
  banks := by
    intro bk hb
    obtain rfl : bk = Bank.atReset 0 := by simpa [launchedAt, State.atReset] using hb
    constructor <;> decide
  empty := by unfold Bank.EmptyIfUnknown; decide
  apart := by decide
  memory := by decide
  idle := rfl

/-- How many passes Identify of bank 0 makes, the lane order of the last, and where the range it identifies
ends. -/
def identified (s : State) : Nat × Option (LaneOrder × Option Nat) :=
  let ps := s.passes (s.bank 0) (pairsFrom s.params.minPortWidth) 0
  (ps.length, ps.getLast?.map fun l => (l.bank.laneOrder, l.found.map fun bk =>
    bk.baseAddress + bk.size))

/-- A device found at the first pass, with a range inside the address space and one that ends at `2 ^ 32`;
one found by the legacy table at the other lane order; none found at two pairs. -/
theorem test_witness_IdentifyOutcome :
    let qry := [0x51, 0x52, 0x59]
    let f := answering (launchedAt 0xFFFE0000) (qry ++ cfiAnswers 0)
    let x := answering (launchedAt 0xFFFE0000) (qry ++ cfiAnswers 1)
    let g := answering (launchedAt 0) [0, 0, 0, 9, 9, 0, 0, 0, 0x01, 0xA4]
    let e := answering { launchedAt 0 with params := { tp with bankBase := [0], minPortWidth := .w32 } }
      (List.replicate 10 0)
    (∀ s ∈ [f, x, g, e], s.Ready 0 ∧ s.initDone = false ∧ (s.bank 0).vendorId = .unknown) ∧
    f.Inv ∧ x.Inv ∧ g.Inv ∧ e.Inv ∧ identified f = (1, some (.le, some 0xFFFF0000)) ∧ f.RangeOk 0 0xFFFF0000 ∧
    identified x = (1, some (.le, some 0x100000000)) ∧ ¬ x.RangeOk 0 0x100000000 ∧
    identified g = (2, some (.be, some 0x40000)) ∧ identified e = (2, some (.le, none)) := by
  refine ⟨?_, { highBase_inv with idle := rfl }, { highBase_inv with idle := rfl },
    { lowBase_inv with idle := rfl },
    { lowBase_inv with
      params := by decide
      banks := fun bk h => { lowBase_inv.banks bk h with }
      idle := rfl },
    by decide +kernel, ?_, by decide +kernel, ?_, by decide +kernel, by decide +kernel⟩
  · simp only [List.forall_mem_cons]
    exact ⟨⟨⟨rfl, rfl, by decide, by decide⟩, rfl, by decide⟩,
      ⟨⟨rfl, rfl, by decide, by decide⟩, rfl, by decide⟩,
      ⟨⟨rfl, rfl, by decide, by decide⟩, rfl, by decide⟩,
      ⟨⟨rfl, rfl, by decide, by decide⟩, rfl, by decide⟩, by simp⟩
  · unfold State.RangeOk
    decide +kernel
  · unfold State.RangeOk
    decide +kernel

/-- What Identify makes of these answers: the bank found at the other lane order, the trace that of the
passes. -/
theorem test_identify_flip :
    let s := answering (launchedAt 0) [0, 0, 0, 9, 9, 0, 0, 0, 0x01, 0xA4]
    (nextOf (exec (.identify 0) s)).map (fun t => ((t.bank 0).laneOrder, (t.bank 0).geometryPath,
      (t.bank 0).size, decide (t.log.trace =
        (s.passes (s.bank 0) (pairsFrom .w8) 0).flatMap Pass.events))) =
    some (.be, .legacy, 0x40000, true) := by decide +kernel

/-- Rejected; accepted, with one sector less than the address space holds; refused, with a range that
ends at `2 ^ 32`. -/
theorem test_witness_IdentCfiOutcome :
    let q := fun (s : State) k => queryByteIn (s.bank 0) (s.wordAt (s.bank 0) k)
    let pid := fun s : State => primarySet s.params.cfi (u16At (q s) 0)
    let end_ := fun s : State => (cfiBank s.params { s.bank 0 with cmdset := pid s } fun k =>
      q s (2 + k)).size
    let r := answering launched [4, 0]
    let f := answering (launchedAt 0xFFFE0000) (cfiAnswers 0)
    let x := answering (launchedAt 0xFFFE0000) (cfiAnswers 1)
    (r.Ready 0 ∧ r.Inv ∧ r.initDone = false ∧ (r.bank 0).vendorId = .unknown ∧ pid r = .none) ∧
    (f.Ready 0 ∧ f.Inv ∧ f.initDone = false ∧ (f.bank 0).vendorId = .unknown ∧ pid f ≠ .none ∧
      f.RangeOk 0 (0xFFFE0000 + end_ f)) ∧
    (x.Ready 0 ∧ x.Inv ∧ x.initDone = false ∧ (x.bank 0).vendorId = .unknown ∧ pid x ≠ .none ∧
      0xFFFE0000 + end_ x = 2 ^ 32 ∧ ¬ x.RangeOk 0 (0xFFFE0000 + end_ x)) := by
  refine ⟨⟨⟨rfl, rfl, by decide, by decide⟩, { launched_inv with idle := rfl }, rfl, by decide,
    by decide⟩, ⟨⟨rfl, rfl, by decide, by decide⟩, { highBase_inv with idle := rfl }, rfl, by decide, by decide,
    ?_⟩, ⟨rfl, rfl, by decide, by decide⟩, { highBase_inv with idle := rfl }, rfl, by decide, by decide,
    by decide +kernel, ?_⟩ <;>
  · unfold State.RangeOk
    decide +kernel

/-- A bank still Unknown at 0, beside a known one at 0x20000. -/
def beside : State :=
  { State.atReset { tp with bankBase := [0, 0x20000] } with
    banks := [Bank.atReset 0, { wAmd with
      baseAddress := 0x20000, sectors := [⟨0x20000, true⟩, ⟨0x20080, false⟩] }] }

/-- A pair in the table with room for its sectors, up to the last that fits; a pair outside the table;
a range that ends at `2 ^ 32`; a range that overlaps another bank's. -/
theorem test_witness_IdentLegacyOutcome :
    (∀ a ∈ [0, 0xFFFBFFFC, 0xFFFC0000], (launchedAt a).Ready 0 ∧ (launchedAt a).initDone = false ∧
      ((launchedAt a).bank 0).vendorId = .unknown ∧
      ((launchedAt a).params.legacyTable.find? fun e => e.mfrId == 0x01 && e.deviceId == 0xA4) =
        some ⟨0x01, 0xA4, .amd, .amdStyle, 4, 0x10000⟩ ∧
      ((launchedAt a).RangeOk 0 (a + min 4 8 * 0x10000) ↔ a ≠ 0xFFFC0000)) ∧
    (launched.params.legacyTable.find? fun e => e.mfrId == 0x02 && e.deviceId == 0xA4) = none ∧
    beside.Ready 0 ∧ beside.initDone = false ∧ (beside.bank 0).vendorId = .unknown ∧
    ¬ beside.RangeOk 0 (0 + min 4 8 * 0x10000) ∧ beside.RangeOk 0 0x20000 := by
  refine ⟨?_, by decide, ⟨rfl, rfl, by decide, by decide⟩, rfl, by decide, ?_, ?_⟩
  · intro a ha
    have : a = 0 ∨ a = 0xFFFBFFFC ∨ a = 0xFFFC0000 := by simpa using ha
    rcases this with rfl | rfl | rfl <;>
      exact ⟨⟨rfl, rfl, by decide, by decide⟩, rfl, by decide, by decide,
        by unfold State.RangeOk; decide⟩
  · unfold State.RangeOk; decide
  · unfold State.RangeOk; decide

/-- An Unknown bank; the AMD-style bank has codes of the table, the Intel-style one has not; the same
bank where its range would end at `2 ^ 32`. -/
theorem test_witness_DecodeLegacyOutcome :
    launched.Ready 0 ∧ launched.initDone = false ∧ (launched.bank 0).vendorId = .unknown ∧
    midInit.Ready 1 ∧ midInit.initDone = false ∧ (midInit.bank 1).vendorId ≠ .unknown ∧
    legacyEntry midInit.params (midInit.bank 1).mfrId (midInit.bank 1).deviceId =
      some ⟨0x01, 0xA4, .amd, .amdStyle, 4, 0x10000⟩ ∧
    midInit.RangeOk 1 (0x40000000 + min 4 8 * 0x10000) ∧
    midInit.Ready 0 ∧ (midInit.bank 0).vendorId ≠ .unknown ∧
    legacyEntry midInit.params (midInit.bank 0).mfrId (midInit.bank 0).deviceId = none ∧
    (let s := (launchedAt 0xFFFC0000).setBank 0 { wAmd with baseAddress := 0xFFFC0000 }
    s.Ready 0 ∧ s.initDone = false ∧ (s.bank 0).vendorId ≠ .unknown ∧
      legacyEntry s.params (s.bank 0).mfrId (s.bank 0).deviceId =
        some ⟨0x01, 0xA4, .amd, .amdStyle, 4, 0x10000⟩ ∧
      ¬ s.RangeOk 0 (0xFFFC0000 + min 4 8 * 0x10000)) := by
  refine ⟨launched_ready 0 (by decide), rfl, by decide, midInit_ready 1 (by decide), rfl, by decide,
    by decide, ?_, midInit_ready 0 (by decide), by decide, by decide,
    ⟨rfl, rfl, by decide, by decide⟩, rfl, by decide, by decide, ?_⟩ <;>
  · unfold State.RangeOk
    decide

/-- A known bank at `a` that answers one region of two 64 KiB sectors. -/
def decoding (a : Nat) : State :=
  let s := (launchedAt a).setBank 0 { wIntel with
    baseAddress := a, sectors := [], size := 0, portWidth := .w8, chipWidth := .w8 }
  answering (inCommand s) ((cfiAnswers 1).drop 2)

theorem decoding_inv (a : Nat) (h : a = 0 ∨ a = 0xFFFE0000) : (decoding a).Inv := by
  rcases h with rfl | rfl <;>
  exact {
    params := by decide
    bases := rfl
    banks := by
      intro bk hb
      obtain rfl := List.mem_singleton.mp hb
      constructor <;> decide
    empty := by unfold Bank.EmptyIfUnknown; decide
    apart := by decide
    memory := by decide
    idle := rfl }

/-- A known bank with its range inside the address space and, from 0xFFFE0000, at its end; an Unknown bank;
a known one in read-array mode and in Command mode. -/
theorem test_witness_DecodeCfiOutcome :
    (∀ a ∈ [0, 0xFFFE0000], (decoding a).Ready 0 ∧ (decoding a).Inv ∧ (decoding a).initDone = false ∧
      ((decoding a).bank 0).vendorId ≠ .unknown ∧ ((decoding a).bank 0).device.mode = .command ∧
      ((decoding a).RangeOk 0 (a + (cfiBank tp ((decoding a).bank 0) fun k =>
        queryByteIn ((decoding a).bank 0) (((decoding a).wordsAt 0 0 (cfiOffsets tp.cfi 255)).getD k 0)).size)
          ↔ a = 0)) ∧
    launched.Ready 0 ∧ launched.Inv ∧ launched.initDone = false ∧
    (launched.bank 0).vendorId = .unknown ∧
    midInit.Ready 1 ∧ midInit.Inv ∧ midInit.initDone = false ∧ (midInit.bank 1).vendorId ≠ .unknown ∧
    (midInit.bank 1).device.mode = .readArray ∧ (midInit.bank 1).cmdset = .amdStyle ∧
    (inCommand midInit).Ready 0 ∧ ((inCommand midInit).bank 0).vendorId ≠ .unknown ∧
    ((inCommand midInit).bank 0).device.mode = .command := by
  refine ⟨?_, launched_ready 0 (by decide), launched_inv, rfl, by decide, midInit_ready 1 (by decide),
    midInit_inv, rfl, by decide, by decide, by decide, ⟨rfl, rfl, by decide, by decide⟩, by decide,
    by decide⟩
  intro a h
  have h : a = 0 ∨ a = 0xFFFE0000 := by simpa using h
  refine ⟨?_, decoding_inv a h, rfl, ?_, ?_, ?_⟩ <;> rcases h with rfl | rfl
  iterate 2 exact ⟨rfl, rfl, by decide, by decide⟩
  iterate 4 decide
  all_goals
    unfold State.RangeOk
    decide +kernel

/-- `midInit` with a known bank that has no sector (R81 with no region). -/
def noSectors : State := midInit.setBank 0 { wIntel with sectors := [], size := 0 }

/-- `midInit` with a `PROTECT_OFFSET` outside every window. -/
def farProbe : State := { midInit with params := { tp with protectOffset := 0x1000 } }

theorem noSectors_inv : noSectors.Inv where
  params := by decide
  bases := by decide
  banks := by
    intro bk h
    have : bk = { wIntel with sectors := [], size := 0 } ∨ bk = wAmd := by
      simpa [noSectors, midInit, known] using h
    rcases this with rfl | rfl
    · constructor <;> decide
    · exact wAmd_wf
  empty := by unfold Bank.EmptyIfUnknown; decide
  apart := by decide
  memory := by decide
  idle := rfl

theorem farProbe_inv : farProbe.Inv where
  params := by decide
  bases := by decide
  banks := by
    intro bk h
    have : bk = wIntel ∨ bk = wAmd := by simpa [farProbe, midInit, known] using h
    rcases this with rfl | rfl
    · exact { wIntel_wf with }
    · exact { wAmd_wf with }
  empty := midInit_inv.empty
  apart := midInit_inv.apart
  memory := midInit_inv.memory
  idle := rfl

/-- An Unknown bank, a known one without a sector, one with sectors, and one whose probe would leave its
window. -/
theorem test_witness_ProbeProtectionOutcome :
    launched.Ready 0 ∧ launched.Inv ∧ launched.initDone = false ∧
    (launched.bank 0).vendorId = .unknown ∧
    noSectors.Ready 0 ∧ noSectors.Inv ∧ noSectors.initDone = false ∧
    (noSectors.bank 0).vendorId ≠ .unknown ∧ (noSectors.bank 0).sectorCount = 0 ∧
    midInit.Ready 0 ∧ midInit.Inv ∧ midInit.initDone = false ∧ midInit.params.protectOffset < 32 ∧
    (midInit.bank 0).vendorId ≠ .unknown ∧ (midInit.bank 0).sectorCount ≠ 0 ∧
    (∀ i < (midInit.bank 0).sectorCount, (midInit.bank 0).Accepts midInit.params
      ((midInit.bank 0).makeAddr i midInit.params.protectOffset)) ∧
    farProbe.Ready 0 ∧ farProbe.Inv ∧ farProbe.initDone = false ∧
    (farProbe.bank 0).vendorId ≠ .unknown ∧
    ∃ i < (farProbe.bank 0).sectorCount, ¬ (farProbe.bank 0).Accepts farProbe.params
      ((farProbe.bank 0).makeAddr i farProbe.params.protectOffset) := by
  refine ⟨launched_ready 0 (by decide), launched_inv, rfl, by decide,
    ⟨rfl, rfl, by decide, by decide⟩, noSectors_inv, rfl, by decide, by decide,
    midInit_ready 0 (by decide), midInit_inv, rfl, by decide, by decide, by decide, ?_,
    ⟨rfl, rfl, by decide, by decide⟩, farProbe_inv, rfl, by decide, ?_⟩ <;>
  · unfold Bank.Accepts
    decide

/-- Every bank Unknown, and every bank known before. -/
theorem test_witness_FlashInitOutcome :
    launched.Inv ∧ launched.env.resetIn = none ∧ launched.initDone = false ∧
    launched.seq.smState = .idle ∧ launched.params.protectOffset < 32 ∧
    (∀ b < launched.banks.length, ∀ bk, (launched.bank b).vendorId = .unknown →
      launched.Detects b bk → bk.baseAddress + bk.size < 2 ^ 32 ∧
        ∀ c < launched.banks.length, c ≠ b → ∀ ck, (launched.bank c).vendorId ≠ .unknown ∧
          ck = launched.bank c ∨ (launched.bank c).vendorId = .unknown ∧ launched.Detects c ck →
          rangesDisjoint bk ck = true) ∧
    midInit.Inv ∧ midInit.env.resetIn = none ∧ midInit.initDone = false ∧
    midInit.seq.smState = .idle ∧ midInit.params.protectOffset < 32 ∧
    ∀ b < midInit.banks.length, (midInit.bank b).vendorId ≠ .unknown := by
  refine ⟨launched_inv, rfl, rfl, rfl, by decide, fun b hb bk hu h => ?_, midInit_inv, rfl, rfl, rfl,
    by decide, by decide⟩
  have hb : b < 2 := hb
  obtain ⟨h1, h2⟩ := launched_reach hb h
  refine ⟨by omega, fun c hc hne ck hk => ?_⟩
  have hc : c < 2 := hc
  rcases hk with ⟨hv, -⟩ | ⟨-, hk⟩
  · have : c = 0 ∨ c = 1 := by omega
    rcases this with rfl | rfl <;> exact absurd (by decide) hv
  · obtain ⟨g1, g2⟩ := launched_reach hc hk
    simp only [rangesDisjoint, decide_eq_true_eq]
    omega

theorem test_witness_FlashGetSizeReturnsSize :
    launched.Ready 0 ∧ (launched.bank 0).EmptyIfUnknown ∧ (launched.bank 0).vendorId = .unknown := by
  refine ⟨launched_ready 0 (by decide), ?_, by decide⟩
  unfold Bank.EmptyIfUnknown
  decide

theorem test_witness_FlashPrintInfoReportsRecord : known.Ready 0 ∧ known.Ready 1 :=
  ⟨known_ready 0 (by decide), known_ready 1 (by decide)⟩

theorem test_witness_UnknownDeviceTouchesNoHardware :
    launched.Ready 1 ∧ (launched.bank 1).vendorId = .unknown ∧ (launched.bank 1).EmptyIfUnknown := by
  refine ⟨launched_ready 1 (by decide), by decide, ?_⟩
  unfold Bank.EmptyIfUnknown
  decide

/-- A range upside down and one a sector too long; a protected range; a destination a byte below the
bank and one that ends a byte past it; a range upside down. -/
theorem test_witness_RangesThatTouchNoHardware :
    known.Ready 0 ∧ (known.bank 0).vendorId ≠ .unknown ∧
    ¬ (2 ≤ 1 ∧ 1 < (known.bank 0).sectorCount) ∧ ¬ (0 ≤ 3 ∧ 3 < (known.bank 0).sectorCount) ∧
    1 < (known.bank 0).sectorCount ∧
    (∀ j, 1 ≤ j → j ≤ 1 → (known.bank 0).sectorProtected j = true) ∧
    (known.bank 0).baseAddress + (known.bank 0).size < 767 + [(1 : Byte), 2].length ∧
    known.Ready 1 ∧ (known.bank 1).vendorId ≠ .unknown ∧ 0x3FFFFFFF < (known.bank 1).baseAddress := by
  refine ⟨known_ready 0 (by decide), by decide, by decide, by decide, by decide, ?_, by decide,
    known_ready 1 (by decide), by decide, by decide⟩
  intro j h1 h2
  obtain rfl : j = 1 := by omega
  decide

/-- The whole bank, of which sector 1 is protected. -/
theorem test_witness_FlashEraseOutcome :
    known.Known 0 ∧ known.seq.smState = .idle ∧ (known.bank 0).device.mode = .readArray ∧
    0 ≤ 2 ∧ 2 < (known.bank 0).sectorCount ∧ known.DoneNext 0 (2 * (2 + 1 - 0)) ∧
    (known.bank 0).sectorProtected 1 = true ∧ (known.bank 0).sectorProtected 2 = false :=
  ⟨known_known 0 (by decide), rfl, by decide, by decide, by decide,
    known_doneNext 0 6 (by decide) (by decide), by decide, by decide⟩

/-- One byte in the upper half of the last word. -/
theorem test_witness_WriteMergedOutcome :
    known.Known 0 ∧ (known.bank 0).device.mode = .readArray ∧ known.seq.smState = .idle ∧
    766 % (known.bank 0).bytes = 0 ∧ (known.bank 0).sectorOf 766 = some 2 ∧
    [(0x12 : Byte)] ≠ [] ∧ 1 + [(0x12 : Byte)].length ≤ (known.bank 0).bytes ∧
    known.DoneNext 0 2 ∧
    (∀ j < [(0x12 : Byte)].length, Memory.read known.memory (766 + 1 + j) &&&
      [(0x12 : Byte)].getD j 0 = [(0x12 : Byte)].getD j 0) :=
  ⟨known_known 0 (by decide), by decide, rfl, by decide, by decide, by decide, by decide,
    known_doneNext 0 2 (by decide) (by decide), by decide⟩

/-- Four unaligned bytes up to the last one of the bank. -/
theorem test_witness_WriteBuffRoundTrip :
    known.Known 0 ∧ known.seq.smState = .idle ∧ (known.bank 0).device.mode = .readArray ∧
    [(1 : Byte), 2, 3] ≠ [] ∧ (known.bank 0).baseAddress ≤ 765 ∧
    765 + [(1 : Byte), 2, 3].length ≤ (known.bank 0).baseAddress + (known.bank 0).size ∧
    known.DoneNext 0 (2 * [(1 : Byte), 2, 3].length) ∧
    (∀ j < [(1 : Byte), 2, 3].length, Memory.read known.memory (765 + j) &&&
      [(1 : Byte), 2, 3].getD j 0 = [(1 : Byte), 2, 3].getD j 0) :=
  ⟨known_known 0 (by decide), rfl, by decide, by decide, by decide, by decide,
    known_doneNext 0 6 (by decide) (by decide), by decide⟩

/-- A range of two bytes that meets sectors 0 and 1, and a range past the bank. -/
theorem test_witness_FlashProtectOutcome :
    known.Known 0 ∧ known.seq.smState = .idle ∧ (known.bank 0).device.mode = .readArray ∧
    255 ≤ 256 ∧ ((known.bank 0).sectorStart 0 ≤ 256 ∧ 255 < (known.bank 0).sectorEnd 0) ∧
    ((known.bank 0).sectorStart 1 ≤ 256 ∧ 255 < (known.bank 0).sectorEnd 1) ∧
    ¬ ((known.bank 0).sectorStart 2 ≤ 256 ∧ 255 < (known.bank 0).sectorEnd 2) ∧
    known.DoneNext 0 ((known.bank 0).sectorCount * (known.bank 0).sectorCount) ∧
    (∀ j < (known.bank 0).sectorCount,
      ¬ ((known.bank 0).sectorStart j ≤ 768 ∧ 768 < (known.bank 0).sectorEnd j)) :=
  ⟨known_known 0 (by decide), rfl, by decide, by decide, by decide, by decide, by decide,
    known_doneNext 0 9 (by decide) (by decide), by decide⟩

theorem test_witness_CommandWordLanes :
    ChipWidth.w8.bits ≤ PortWidth.w32.bits ∧ 31 < PortWidth.w32.bits ∧
    3 < PortWidth.w32.bits / ChipWidth.w8.bits ∧ 7 < ChipWidth.w8.bits := by decide

theorem test_witness_WordsAndBytesInverse :
    [(1 : Byte), 2, 3, 4].length = PortWidth.w32.bytes ∧ 3 < PortWidth.w32.bytes := by decide

/-- Words that are done and that are not, on two lanes. -/
theorem test_witness_CompletionTestsLaneByLane :
    ChipWidth.w8.bits ≤ PortWidth.w16.bits ∧ doneIntel {} .w16 .w8 0x8080 = true ∧
    doneIntel {} .w16 .w8 0x0080 = false := by decide

theorem test_witness_ErrorDecodeOrder :
    doneIntel {} .w16 .w8 0x9088 = true ∧ wordError {} .w16 .w8 0x9088 = some .locking := by decide

theorem test_witness_TimeoutNormalisation :
    2 ^ 10 * 2 ^ 4 < 2 ^ 32 ∧ normTimeout .us 9 2 < 2 ^ 32 - 1 := by decide

theorem test_witness_MakeAddrStrictlyIncreasing : 0 < 1 ∧
    wIntel.makeAddr 0 2 = wIntel.makeAddr 0 2 := by decide

/-- The first and the last byte of the bank, and the first one past it. -/
theorem test_witness_SectorExtentsTileBank :
    Bank.Wf tp wIntel ∧ wIntel.sectorOf 0 = some 0 ∧ wIntel.sectorOf 767 = some 2 ∧
    wIntel.sectorOf 768 = none := ⟨wIntel_wf, by decide, by decide, by decide⟩

end Sys2Proof.Tests
end

section
/-! PROOFS. The launch state, the tiling of a bank by its sectors, and what a step does
(10_state.md R18, R21, R22; O4, O6, O60). -/

namespace Sys2Proof.Machine

/-! ### The invariant at launch -/

/-- At launch every bank has its reset values at a base of the parameters (70_reset_and_hazards.md
R128). -/
theorem State.mem_atReset_banks {p : Params} {bk : Bank} (h : bk ∈ (State.atReset p).banks) :
    ∃ a ∈ p.bankBase, bk = Bank.atReset a := by
  obtain ⟨a, ha, rfl⟩ := List.mem_map.mp h
  exact ⟨a, ha, rfl⟩

theorem State.atReset_inv {p : Params} (hp : paramsWf p = true) : (State.atReset p).Inv where
  params := hp
  bases := (List.map_map ..).trans (List.map_id _)
  banks bk h := by
    obtain ⟨a, ha, rfl⟩ := State.mem_atReset_banks h
    exact Bank.wf_atReset hp ha (Bank.atReset a).device
  empty bk h := by
    obtain ⟨a, -, rfl⟩ := State.mem_atReset_banks h
    exact fun _ => ⟨rfl, rfl, rfl⟩
  apart := pairwise_disjoint_of_empty fun bk h => by
    obtain ⟨a, -, rfl⟩ := State.mem_atReset_banks h
    rfl
  memory := rfl
  idle := rfl

theorem paramsWf_vectors : paramsWf Params.vectors = true := by decide

/-! ### Sectors tile the bank -/

/-- Ascending from a value at or below `a` to one above it, some step passes `a`. -/
theorem exists_step_past {f : Nat → Nat} {a : Nat} (h0 : f 0 ≤ a) :
    ∀ {n : Nat}, a < f n → ∃ i < n, f i ≤ a ∧ a < f (i + 1)
  | 0, hn => absurd hn (by omega)
  | n + 1, hn => by
    by_cases h : a < f n
    · obtain ⟨i, hi, hs⟩ := exists_step_past h0 h
      exact ⟨i, by omega, hs⟩
    · exact ⟨n, by omega, by omega, hn⟩

theorem Bank.sectorStart_count (bk : Bank) :
    bk.sectorStart bk.sectorCount = bk.baseAddress + bk.size := by
  simp [Bank.sectorStart, Bank.sectorCount]

/-- On a well-formed bank `sector_of` answers exactly the addresses of the bank's range. -/
theorem Bank.Wf.sectorOf_isSome_iff {p : Params} {bk : Bank} (w : Bank.Wf p bk) (a : Nat) :
    (bk.baseAddress ≤ a ∧ a < bk.baseAddress + bk.size) ↔ ∃ i, bk.sectorOf a = some i := by
  constructor
  · rintro ⟨h1, h2⟩
    obtain ⟨i, hi, hlo, hhi⟩ : ∃ i < bk.sectorCount, bk.sectorStart i ≤ a ∧ a < bk.sectorEnd i :=
      exists_step_past (w.first.trans_le h1) (h2.trans_eq bk.sectorStart_count.symm)
    exact ⟨i, w.sectorOf_eq hi hlo hhi⟩
  · rintro ⟨i, h⟩
    obtain ⟨hi, hlo, hhi⟩ := Bank.sectorOf_some h
    obtain ⟨h1, -, h2⟩ := w.extent hi
    omega

/-! ### A step -/

/-- A call placed that decodes is run, with the call taken. -/
theorem step_of_call {s : State} {c : List Byte} {cs : List (List Byte)} {i : Instr}
    (hr : s.env.resetIn ≠ some 0) (hc : s.calls = c :: cs) (hd : decodeCall c = .ok i) :
    step s = exec i (s.withCalls cs) := by
  simp [step, State.next, hr, hc, hd]

theorem step_of_no_call {s : State} (hr : s.env.resetIn ≠ some 0) (hc : s.calls = []) :
    step s = .next s := by
  simp [step, State.next, hr, hc]

theorem step_of_bad_call {s : State} {c : List Byte} {cs : List (List Byte)} {e : DecodeError}
    (hr : s.env.resetIn ≠ some 0) (hc : s.calls = c :: cs) (hd : decodeCall c = .error e) :
    step s = .refused (.badCall e) := by
  simp [step, State.next, hr, hc, hd]

theorem step_of_reset {s : State} (hr : s.env.resetIn = some 0) : step s = .next s.resetNow := by
  simp [step, State.next, hr]

/-- A step that ends in a next state: a system reset was due, there was nothing to do, or it ran a
call. -/
theorem step_eq_next {s t : State} (h : step s = .next t) :
    (s.env.resetIn = some 0 ∧ t = s.resetNow) ∨ t = s ∨
      ∃ i cs, exec i (s.withCalls cs) = .next t := by
  by_cases hr : s.env.resetIn = some 0
  · rw [step_of_reset hr] at h
    cases h
    exact .inl ⟨hr, rfl⟩
  · cases hc : s.calls with
    | nil =>
      rw [step_of_no_call hr hc] at h
      cases h
      exact .inr (.inl rfl)
    | cons c cs =>
      cases hd : decodeCall c with
      | ok i => exact .inr (.inr ⟨i, cs, step_of_call hr hc hd ▸ h⟩)
      | error e =>
        rw [step_of_bad_call hr hc hd] at h
        cases h

theorem decodeCall_of_decodeTableWord {nbits w : Nat} {i : Instr}
    (h : decodeTableWord nbits w = some i) : decodeCall (tableCall nbits w) = .ok i := by
  unfold decodeTableWord at h
  split at h
  · rename_i j hj
    rw [hj, Option.some.inj h]
  · cases h

/-- The first byte of a row is a byte of the table (30_encoding.md R66). -/
theorem decodeRow_of_not_mem {op : Byte} (form : Nat) (bs : List Byte) (h : op ∉ tableBytes) :
    decodeRow op.toNat form bs = .error (.unknownRow op.toNat form) := by
  have hne : ∀ n : Nat, BitVec.ofNat 8 n ∈ tableBytes → op.toNat ≠ n := by
    rintro n hn rfl
    exact h (by simpa using hn)
  unfold decodeRow
  split
  case h_23 => rfl
  all_goals exact absurd ‹_› (hne _ (by decide))

theorem decodeCall_of_not_mem {op : Byte} (form : Byte) (rest : List Byte) (h : op ∉ tableBytes) :
    decodeCall (op :: form :: rest) = .error (.unknownRow op.toNat form.toNat) := by
  simp only [decodeCall, decode, decodeRow_of_not_mem form.toNat rest h]

/-- Settles O6: at launch every bank is as reset leaves it, at a base that well-formed parameters
allow. -/
theorem invariantAtReset : Obligations.InvariantAtReset :=
  ⟨State.atReset_inv paramsWf_vectors, fun _ => State.atReset_inv⟩

/-- Settles O60: starts ascend from the base to the bank's end, so some extent passes each address,
and `sector_of` finds it. -/
theorem sectorExtentsTileBank : Obligations.SectorExtentsTileBank := by
  intro p bk w a
  refine ⟨w.sectorOf_isSome_iff a, fun i j hi hj hlo hhi => ?_⟩
  exact Option.some.inj ((w.sectorOf_eq hj hlo hhi).symm.trans hi)

/-- Settles O4, one lemma for each thing a step can find. -/
theorem stepRunsDecodedCall : Obligations.StepRunsDecodedCall := by
  intro s hr
  refine ⟨fun c cs i hc hd => step_of_call hr hc hd, fun nbits w i hd => ?_, step_of_no_call hr,
    fun op form rest cs hc hop => step_of_bad_call hr hc (decodeCall_of_not_mem form rest hop)⟩
  exact step_of_call (s := s.withFetchWord nbits w) hr rfl (decodeCall_of_decodeTableWord hd)

end Sys2Proof.Machine
end

section
/-! PROOFS. Relations that operations stay within. An operation is strung together from bus accesses
and a few other updates; a transitive relation that contains these updates (`BusClosed`, `OpClosed`,
`FlagClosed`) relates the states before and after every piece of it (`Res.Stays`), and so before and
after its row. -/

namespace Sys2Proof.Machine

/-! ### Staying within a relation -/

/-- The piece, run from `s`, ends within `F`, or a system reset cuts it within `F`. -/
def Res.Stays {α : Type} (F : State → State → Prop) (s : State) (r : Res α) : Prop :=
  r.Leads F s fun _ _ => True

/-- A relation that contains the bus accesses of bank `b`, timer reads and the sequencer's registers
among them. -/
structure BusClosed (b : Nat) (F : State → State → Prop) : Prop extends Framed F where
  bus : ∀ {s t}, BusFrame b s t → F s t
  lt : ∀ {s t}, F s t → b < s.banks.length → b < t.banks.length

/-- A relation that contains all that a sequence on bank `b` does but a change of flags. -/
structure OpClosed (b : Nat) (F : State → State → Prop) : Prop extends BusClosed b F where
  locks : ∀ {s} l, b < s.banks.length → F s (s.setLocks b l)
  drawn : ∀ s, F s s.drawn
  range : ∀ s r, F s (s.setRange r)
  array : ∀ s m, (Memory.wf s.memory = true → Memory.wf m = true) → F s (s.setMemory m)
  irqSave : ∀ s, F s (Machine.irqSave s)
  irqRestore : ∀ s, F s (Machine.irqRestore s)

/-- A relation that contains all that a sequence on bank `b` does, flags included. -/
structure FlagClosed (b : Nat) (F : State → State → Prop) : Prop extends OpClosed b F where
  flag : ∀ {s} i v, b < s.banks.length → F s (s.setBank b ((s.bank b).setProtected i v))

section
variable {α β : Type} {F : State → State → Prop} {b : Nat} {s : State}

theorem Res.Stays.ok_of {a : α} {t : State} (h : F s t) : (Res.ok a t).Stays F s := ⟨h, trivial⟩

theorem Res.Stays.ok (hF : Framed F) (a : α) : (Res.ok a s).Stays F s := .ok_of (hF.refl s)

theorem Res.Stays.stop_refused (e : Refusal) : (Res.refused e : Res α).Stays F s := trivial

theorem Res.Stays.bind (hF : Framed F) {r : Res α} {k : α → State → Res β} (h : r.Stays F s)
    (hk : ∀ a t, F s t → (k a t).Stays F t) : (r.bind k).Stays F s :=
  Res.Leads.bind hF h fun a t hf _ => hk a t hf

/-- A piece on a bank that exists, and then a piece on it. -/
theorem Res.Stays.andThen (hF : BusClosed b F) {r : Res α} {k : α → State → Res β}
    (hb : b < s.banks.length) (h : r.Stays F s)
    (hk : ∀ a t, b < t.banks.length → (k a t).Stays F t) : (r.bind k).Stays F s :=
  h.bind hF.toFramed fun a t hf => hk a t (hF.lt hf hb)

/-- A piece, and then an update of the state. -/
theorem Res.Stays.andUpdate (hF : BusClosed b F) {r : Res α} {g : α → β} {u : α → State → State}
    (hb : b < s.banks.length) (h : r.Stays F s)
    (hu : ∀ a t, b < t.banks.length → F t (u a t)) :
    (r.bind fun a t => .ok (g a) (u a t)).Stays F s :=
  h.andThen hF hb fun a t hb => .ok_of (hu a t hb)

/-- A piece, and then a value. -/
theorem Res.Stays.andReturn (hF : Framed F) {r : Res α} {g : α → State → β} (h : r.Stays F s) :
    (r.bind fun a t => .ok (g a t) t).Stays F s := h.bind hF fun _ _ _ => .ok hF _

/-- A piece started after an update. -/
theorem Res.Stays.after (hF : Framed F) {r : Res α} {t : State} (hf : F s t) (h : r.Stays F t) :
    r.Stays F s := Res.Leads.after hF hf h

theorem Res.Leads.stays {P : α → State → Prop} {r : Res α} (h : r.Leads F s P) : r.Stays F s :=
  h.mono fun _ _ _ _ => trivial

theorem Res.Stays.of_bus (hF : BusClosed b F) {P : α → State → Prop} {r : Res α}
    (h : r.Leads (BusFrame b) s P) : r.Stays F s :=
  h.stays.weaken fun _ hf => hF.bus hf

theorem Res.Stays.ite {c : Prop} [Decidable c] {x y : Res α} (hx : c → x.Stays F s)
    (hy : ¬ c → y.Stays F s) : (if c then x else y).Stays F s := by
  split
  · exact hx ‹_›
  · exact hy ‹_›

end

/-! ### Bus accesses and polls -/

section
variable {F : State → State → Prop} {b : Nat} {s : State} (hF : BusClosed b F)
include hF

theorem busRead_stays (a : Nat) : (busRead b a s).Stays F s := .of_bus hF (busRead_leads b a s)

theorem setSm_within (x : SmState) : F s (s.setSm x) := hF.bus (BusFrame.setSm b s x)

theorem readWords_stays (n a : Nat) : (readWords b a n s).Stays F s :=
  .of_bus hF (readWords_leads n)

variable (hb : b < s.banks.length)
include hb

theorem busWrite_stays (a : Nat) (v : Word) (c : Option Command) : (busWrite b a v c s).Stays F s :=
  .of_bus hF (busWrite_leads a v c hb)

theorem writeCommand_stays (a : Nat) (c : Command) : (writeCommand b a c s).Stays F s :=
  busWrite_stays hF hb a _ _

theorem writeCount_stays (a : Nat) (n : Byte) : (writeCount b a n s).Stays F s :=
  busWrite_stays hF hb a _ _

theorem writeData_stays (a : Nat) (d : Word) : (writeData b a d s).Stays F s :=
  busWrite_stays hF hb a _ _

theorem writeCommands_stays (cs : List (Nat × Command)) : (writeCommands b cs s).Stays F s :=
  .of_bus hF (writeCommands_leads cs hb)

theorem issue_stays : ∀ cs : List (Nat × Command), (issue b cs s).Stays F s
  | [] => .ok hF.toFramed ()
  | (a, c) :: cs => .of_bus hF (issue_leads a c cs hb)

theorem writeDataFrom_stays (a : Nat) (ds : List Word) : (writeDataFrom b a ds s).Stays F s :=
  .of_bus hF (writeDataFrom_leads ds hb)

theorem bankReset_stays (a : Nat) : (bankReset b a s).Stays F s := .of_bus hF (bankReset_leads a hb)

theorem identReset_stays : (identReset b s).Stays F s := writeCommands_stays hF hb _

theorem readIdEnter_stays : (readIdEnter b s).Stays F s := writeCommands_stays hF hb _

theorem poll_stays (a budget : Nat) (k : Kind) : (poll b a budget k s).Stays F s :=
  .of_bus hF (poll_leads a budget k hb)

theorem pollReady_stays (a budget : Nat) : (pollReady b a budget s).Stays F s :=
  .of_bus hF (pollReady_leads a budget hb)

end

/-! ### Changes of the array and of the lock bits -/

theorem programWordsAt_wf (o : ByteOrder) (w : Nat) : ∀ (ds : List Word) {m : Memory} {a : Nat},
    Memory.wf m = true → Memory.wf (programWordsAt o w m a ds) = true
  | [], _, _, h => h
  | _ :: ds, _, _, h => programWordsAt_wf o w ds (Memory.writeBytes_wf h)

section
variable {F : State → State → Prop} {b : Nat} {s : State} (hF : OpClosed b F)
include hF

theorem drawMemory_within (a n : Nat) : F s (s.drawMemory a n) :=
  hF.trans (hF.array s _ fun h => Memory.drawRange_wf h) (hF.drawn _)

theorem eraseEffect_within (a n : Nat) (k : Kind) : F s (eraseEffect a n k s) := by
  unfold eraseEffect
  split
  · exact hF.array s _ (Memory.eraseRange_wf a n)
  · exact drawMemory_within hF a n

theorem programEffect_within (a : Nat) (ds : List Word) (k : Kind) :
    F s (programEffect b a ds k s) := by
  unfold programEffect
  split
  · exact hF.array s _ (programWordsAt_wf _ _ ds)
  · exact drawMemory_within hF _ _

variable (hb : b < s.banks.length)
include hb

theorem setLocks_drawn_within (l : List Bool) : F s (s.setLocks b l).drawn :=
  hF.trans (hF.locks l hb) (hF.drawn _)

theorem gateLocks_within (i : Nat) (k : Kind) : F s (gateLocks b i k s) := by
  unfold gateLocks
  split <;> exact setLocks_drawn_within hF hb _

theorem openLocks_within : F s (s.openLocks b) := by
  unfold State.openLocks
  split
  · exact hF.refl s
  · exact setLocks_drawn_within hF hb _

theorem protectLocks_within (i : Nat) (lock : Bool) (k : Kind) :
    F s (protectLocks b i lock k s) := by
  have ho := openLocks_within hF hb
  have hb' := hF.lt ho hb
  unfold protectLocks
  split
  · simp only
    split
    · exact hF.trans ho (hF.locks _ hb')
    · exact hF.trans ho (setLocks_drawn_within hF hb' _)
  · split
    · exact hF.locks _ hb
    · exact setLocks_drawn_within hF hb _

end

/-! ### Erase and program -/

section
variable {F : State → State → Prop} {b : Nat} {s : State} (hF : OpClosed b F)
include hF

theorem withRange_stays {α : Type} {a n : Nat} {body : State → Res α}
    (hbody : ∀ t, t.banks = s.banks → (body t).Stays F t) : (withRange a n body s).Stays F s :=
  .after hF.toFramed (hF.range s (some (a, n)))
    ((hbody (s.setRange (some (a, n))) rfl).bind hF.toFramed fun _ t _ => .ok_of (hF.range t none))

variable (hb : b < s.banks.length)
include hb

theorem eraseIntelSteps_stays (i : Nat) : (eraseIntelSteps b i s).Stays F s := by
  refine (issue_stays hF.toBusClosed hb _).andThen hF.toBusClosed hb fun _ t hb => ?_
  refine (poll_stays hF.toBusClosed hb _ _ _).andThen hF.toBusClosed hb fun r u hb => ?_
  have hg := gateLocks_within hF hb i r
  have hb' := hF.lt hg hb
  refine .after hF.toFramed hg (.ite (fun _ => .ok hF.toFramed _) fun _ => ?_)
  exact (issue_stays hF.toBusClosed hb' _).andThen hF.toBusClosed hb' fun _ v hb =>
    poll_stays hF.toBusClosed hb _ _ _

theorem eraseAmdSteps_stays (i : Nat) : (eraseAmdSteps b i s).Stays F s :=
  (issue_stays hF.toBusClosed hb _).andThen hF.toBusClosed hb fun _ _ hb =>
    poll_stays hF.toBusClosed hb _ _ _

theorem erasing_stays {i : Nat} {steps : State → Res Kind}
    (hs : ∀ t, b < t.banks.length → (steps t).Stays F t) : (erasing b i steps s).Stays F s := by
  unfold erasing
  refine withRange_stays hF fun t ht => ?_
  have hb : b < t.banks.length := by rwa [ht]
  exact (hs t hb).andThen hF.toBusClosed hb fun r _ _ => .ok_of (eraseEffect_within hF _ _ r)

theorem eraseIntel_stays (i : Nat) : (eraseIntel b i s).Stays F s :=
  erasing_stays hF hb fun _ hb => eraseIntelSteps_stays hF hb i

theorem eraseAmd_stays (i : Nat) : (eraseAmd b i s).Stays F s :=
  erasing_stays hF hb fun _ hb => eraseAmdSteps_stays hF hb i

theorem erase_stays (i : Nat) : (erase b i s).Stays F s := by
  unfold erase
  split
  · exact eraseIntel_stays hF hb i
  · exact eraseAmd_stays hF hb i
  · exact .stop_refused _

theorem programSteps_stays (a : Nat) (d : Word) (cs : List (Nat × Command)) (at_ : Nat) :
    (programSteps b a d cs at_ s).Stays F s := by
  have hq := hF.irqSave s
  refine .after hF.toFramed hq ?_
  refine (issue_stays hF.toBusClosed (hF.lt hq hb) _).andThen hF.toBusClosed (hF.lt hq hb)
    fun _ t hb => ?_
  refine (writeData_stays hF.toBusClosed hb _ _).andThen hF.toBusClosed hb fun _ u hb => ?_
  have hq := hF.irqRestore u
  exact .after hF.toFramed hq (poll_stays hF.toBusClosed (hF.lt hq hb) _ _ _)

theorem programming_stays {a : Nat} {d : Word} {steps : Nat → State → Res Kind}
    (hs : ∀ i t, b < t.banks.length → (steps i t).Stays F t) :
    (programming b a d steps s).Stays F s := by
  unfold programming
  split
  · exact .stop_refused _
  · refine withRange_stays hF fun t ht => ?_
    refine (busRead_stays hF.toBusClosed a).andThen hF.toBusClosed (by rwa [ht]) fun old u hb => ?_
    refine .ite (fun _ => .ok hF.toFramed _) fun _ => ?_
    exact (hs _ u hb).andUpdate hF.toBusClosed hb fun r _ _ => programEffect_within hF a [d] r

theorem programWordIntel_stays (a : Nat) (d : Word) : (programWordIntel b a d s).Stays F s :=
  programming_stays hF hb fun _ _ hb => programSteps_stays hF hb a d _ _

theorem programWordAmd_stays (a : Nat) (d : Word) : (programWordAmd b a d s).Stays F s :=
  programming_stays hF hb fun _ _ hb => programSteps_stays hF hb a d _ _

theorem programWord_stays (a : Nat) (d : Word) : (programWord b a d s).Stays F s := by
  unfold programWord
  split
  · exact programWordIntel_stays hF hb a d
  · exact programWordAmd_stays hF hb a d
  · exact .stop_refused _

theorem bufferSteps_stays (a : Nat) (ds : List Word) (base : Nat) :
    (bufferSteps b a ds base s).Stays F s := by
  have hB := hF.toBusClosed
  have hq := hF.irqSave s
  refine .after hF.toFramed hq ?_
  refine (issue_stays hB (hF.lt hq hb) _).andThen hB (hF.lt hq hb) fun _ t hb => ?_
  refine (pollReady_stays hB hb _ _).andThen hB hb fun isReady u hb => ?_
  refine .ite (fun _ => .ok_of (hF.irqRestore u)) fun _ => ?_
  refine (writeCount_stays hB hb _ _).andThen hB hb fun _ u hb => ?_
  refine (writeDataFrom_stays hB hb _ _).andThen hB hb fun _ u hb => ?_
  refine (writeCommand_stays hB hb _ _).andThen hB hb fun _ u hb => ?_
  have hq := hF.irqRestore u
  exact .after hF.toFramed hq (poll_stays hB (hF.lt hq hb) _ _ _)

theorem programBufferIntel_stays (a : Nat) (ds : List Word) :
    (programBufferIntel b a ds s).Stays F s := by
  refine .ite (fun _ => .stop_refused _) fun _ => ?_
  split
  · exact .stop_refused _
  · refine .ite (fun _ => .stop_refused _) fun _ => withRange_stays hF fun t ht => ?_
    refine (readWords_stays hF.toBusClosed _ _).andThen hF.toBusClosed (by rwa [ht])
      fun olds u hb => ?_
    split
    · exact .ok hF.toFramed _
    · exact (bufferSteps_stays hF hb _ _ _).andUpdate hF.toBusClosed hb fun r _ _ =>
        programEffect_within hF a ds r

end

/-! ### Protect and the probe -/

section
variable {F : State → State → Prop} {b : Nat} {s : State} (hF : FlagClosed b F)
  (hb : b < s.banks.length)
include hF hb

theorem protectFlag_within (i : Nat) (lock : Bool) (k : Kind) : F s (protectFlag b i lock k s) := by
  unfold protectFlag
  split
  · exact hF.flag i lock hb
  · exact hF.refl s

theorem protectIntel_stays (i : Nat) (lock : Bool) : (protectIntel b i lock s).Stays F s := by
  refine (issue_stays hF.toBusClosed hb _).andThen hF.toBusClosed hb fun _ t hb => ?_
  refine (poll_stays hF.toBusClosed hb _ _ _).andUpdate hF.toBusClosed hb fun r u hb => ?_
  have hl := protectLocks_within hF.toOpClosed hb i lock r
  exact hF.trans hl (protectFlag_within hF (hF.lt hl hb) i lock r)

theorem protectAmd_stays (i : Nat) (lock : Bool) : (protectAmd b i lock s).Stays F s :=
  .ok_of (hF.flag i lock hb)

theorem protect_stays (i : Nat) (lock : Bool) : (protect b i lock s).Stays F s := by
  unfold protect
  split
  · exact protectIntel_stays hF hb i lock
  · exact protectAmd_stays hF hb i lock
  · exact .stop_refused _

end

section
variable {F : State → State → Prop} {b : Nat} (hF : FlagClosed b F)
include hF

theorem relock_stays : ∀ (js : List Nat) {s : State}, b < s.banks.length →
    (relock b js s).Stays F s
  | [], _, _ => .ok hF.toFramed _
  | j :: js, _, hb => (protectIntel_stays hF hb j true).andThen hF.toBusClosed hb fun _ _ hb =>
      .ite (fun _ => .ok hF.toFramed _) fun _ => relock_stays js hb

theorem protectSector_stays {s : State} (hb : b < s.banks.length) (i : Nat) (lock : Bool) :
    (protectSector b i lock s).Stays F s := by
  refine .ite (fun _ => ?_) fun _ => protect_stays hF hb i lock
  exact (protectIntel_stays hF hb i false).andThen hF.toBusClosed hb fun _ _ hb =>
    .ite (fun _ => .ok hF.toFramed _) fun _ => relock_stays hF _ hb

theorem protectSectors_stays (start stop : Nat) (lock : Bool) : ∀ (n i : Nat) {s : State},
    b < s.banks.length → (protectSectors b start stop lock i n s).Stays F s
  | 0, _, _, _ => .ok hF.toFramed _
  | n + 1, i, _, hb => by
    refine .ite (fun _ => ?_) fun _ => protectSectors_stays start stop lock n (i + 1) hb
    exact (protectSector_stays hF hb i lock).andThen hF.toBusClosed hb fun _ _ hb =>
      .ite (fun _ => .ok hF.toFramed _) fun _ => protectSectors_stays start stop lock n (i + 1) hb

theorem probeSectors_stays : ∀ (n i : Nat) {s : State}, b < s.banks.length →
    (probeSectors b i n s).Stays F s
  | 0, _, _, _ => .ok hF.toFramed _
  | n + 1, i, _, hb => (busRead_stays hF.toBusClosed _).andThen hF.toBusClosed hb fun w t hb =>
      have hf := hF.flag i ((w &&& (t.bank b).rep t.params.protectBit) != 0) hb
      .after hF.toFramed hf (probeSectors_stays n (i + 1) (hF.lt hf hb))

theorem probeLocks_within {s : State} (hb : b < s.banks.length) : F s (probeLocks b s) := by
  unfold probeLocks
  split
  · exact hF.locks _ hb
  · exact hF.refl s

theorem probeProtection_stays {s : State} (hb : b < s.banks.length) :
    (probeProtection b s).Stays F s := by
  refine .ite (fun _ => .ok hF.toFramed _) fun _ => ?_
  refine (readIdEnter_stays hF.toBusClosed hb).andThen hF.toBusClosed hb fun _ t hb => ?_
  refine (probeSectors_stays hF _ _ hb).andThen hF.toBusClosed hb fun _ u hb => ?_
  have hl := probeLocks_within hF hb
  exact .after hF.toFramed hl (bankReset_stays hF.toBusClosed (hF.lt hl hb) _)

end

/-! ### The host operations -/

section
variable {F : State → State → Prop} {b : Nat} (hF : OpClosed b F)
include hF

theorem eraseSectors_stays : ∀ (n i erased skipped : Nat) {s : State}, b < s.banks.length →
    (eraseSectors b i n erased skipped s).Stays F s
  | 0, _, _, _, _, _ => .ok hF.toFramed _
  | n + 1, i, _, _, _, hb => by
    refine .ite (fun _ => eraseSectors_stays n (i + 1) _ _ hb) fun _ => ?_
    exact (erase_stays hF hb i).andThen hF.toBusClosed hb fun _ _ hb =>
      .ite (fun _ => .ok hF.toFramed _) fun _ => eraseSectors_stays n (i + 1) _ _ hb

theorem flashErase_stays {s : State} (hb : b < s.banks.length) (first last : Nat) :
    (flashErase b first last s).Stays F s :=
  .ite (fun _ => .ok hF.toFramed _) fun _ => .ite (fun _ => .ok hF.toFramed _) fun _ =>
    (eraseSectors_stays hF _ _ _ _ hb).andReturn hF.toFramed

theorem writeMerged_stays {s : State} (hb : b < s.banks.length) (a off : Nat) (bs : List Byte) :
    (writeMerged b a off bs s).Stays F s :=
  .ite (fun _ => .stop_refused _) fun _ =>
    (busRead_stays hF.toBusClosed a).andThen hF.toBusClosed hb fun _ _ hb =>
      programWord_stays hF hb _ _

theorem writeHead_stays {s : State} (hb : b < s.banks.length) (p : Nat) (bs : List Byte) :
    (writeHead b p bs s).Stays F s :=
  .ite (fun _ => .ok hF.toFramed _) fun _ =>
    (writeMerged_stays hF hb _ _ _).andReturn hF.toFramed

theorem writeBuffered_stays : ∀ (fuel p : Nat) (bs : List Byte) {s : State}, b < s.banks.length →
    (writeBuffered b fuel p bs s).Stays F s
  | 0, _, _, _, _ => .ok hF.toFramed _
  | fuel + 1, p, bs, _, hb => by
    refine .ite (fun _ => .ok hF.toFramed _) fun _ => ?_
    exact (programBufferIntel_stays hF hb _ _).andThen hF.toBusClosed hb fun _ _ hb =>
      .ite (fun _ => .ok hF.toFramed _) fun _ => writeBuffered_stays fuel _ _ hb

theorem writeBody_stays : ∀ (fuel p : Nat) (bs : List Byte) {s : State}, b < s.banks.length →
    (writeBody b fuel p bs s).Stays F s
  | 0, _, _, _, _ => .ok hF.toFramed _
  | fuel + 1, p, bs, _, hb => by
    refine .ite (fun _ => .ok hF.toFramed _) fun _ => ?_
    exact (programWord_stays hF hb _ _).andThen hF.toBusClosed hb fun _ _ hb =>
      .ite (fun _ => .ok hF.toFramed _) fun _ => writeBody_stays fuel _ _ hb

theorem writeTail_stays {s : State} (hb : b < s.banks.length) (p : Nat) (bs : List Byte) :
    (writeTail b p bs s).Stays F s :=
  .ite (fun _ => .ok hF.toFramed _) fun _ => writeMerged_stays hF hb _ _ _

theorem writeSteps_stays {s : State} (hb : b < s.banks.length) (src : List Byte) (dest : Nat) :
    (writeSteps b src dest s).Stays F s := by
  refine (writeHead_stays hF hb _ _).andThen hF.toBusClosed hb fun _ _ hb => ?_
  refine .ite (fun _ => .ok hF.toFramed _) fun _ => ?_
  refine (writeBuffered_stays hF _ _ _ hb).andThen hF.toBusClosed hb fun _ _ hb => ?_
  refine .ite (fun _ => .ok hF.toFramed _) fun _ => ?_
  refine (writeBody_stays hF _ _ _ hb).andThen hF.toBusClosed hb fun _ _ hb => ?_
  exact .ite (fun _ => .ok hF.toFramed _) fun _ => writeTail_stays hF hb _ _

theorem asStatus_stays {s : State} {r : Res Kind} (h : r.Stays F s) : (asStatus r).Stays F s :=
  h.andReturn hF.toFramed

theorem writeBuff_stays {s : State} (hb : b < s.banks.length) (src : List Byte) (dest len : Nat) :
    (writeBuff b src dest len s).Stays F s := by
  refine .ite (fun _ => .stop_refused _) fun _ => ?_
  refine .ite (fun _ => .ok hF.toFramed _) fun _ => ?_
  refine .ite (fun _ => .ok hF.toFramed _) fun _ => ?_
  exact .ite (fun _ => .ok hF.toFramed _) fun _ => asStatus_stays hF (writeSteps_stays hF hb _ _)

end

theorem flashProtect_stays {F : State → State → Prop} {b : Nat} (hF : FlagClosed b F) {s : State}
    (hb : b < s.banks.length) (flag : ProtectFlag) (start stop : Nat) :
    (flashProtect flag start stop b s).Stays F s :=
  .ite (fun _ => .ok hF.toFramed _) fun _ => .ite (fun _ => .ok hF.toFramed _) fun _ =>
    asStatus_stays hF.toOpClosed (protectSectors_stays hF _ _ _ _ _ hb)

/-! ### Rows -/

section
variable {α : Type} {F : State → State → Prop} {b : Nat} {s : State}

theorem onBank_stays {body : State → Res α} (h : b < s.banks.length → (body s).Stays F s) :
    (onBank b body s).Stays F s := .ite h fun _ => .stop_refused _

theorem onVariant_stays {v : CmdSet} {body : State → Res α} (h : (body s).Stays F s) :
    (onVariant b v body s).Stays F s := .ite (fun _ => h) fun _ => .stop_refused _

theorem onKnown_stays (hF : Framed F) {body : State → Res (Option Result)}
    (h : (body s).Stays F s) : (onKnown b body s).Stays F s :=
  .ite (fun _ => .ok hF _) fun _ => h

theorem onSector_stays {i : Nat} {body : State → Res α} (h : (body s).Stays F s) :
    (onSector b i body s).Stays F s := .ite (fun _ => h) fun _ => .stop_refused _

theorem beforeInit_stays {body : State → Res α} (h : (body s).Stays F s) :
    (beforeInit body s).Stays F s := .ite (fun _ => .stop_refused _) fun _ => h

theorem asNothing_stays (hF : Framed F) {r : Res Unit} (h : r.Stays F s) :
    (asNothing r).Stays F s := h.andReturn hF

variable (hF : BusClosed b F) (hb : b < s.banks.length)
include hF hb

theorem commandRow_stays (a : Nat) (c : Command) : (commandRow b a c s).Stays F s :=
  (writeCommand_stays hF hb a c).andThen hF hb fun _ _ _ => .ok_of (setSm_within hF _)

theorem identRow_stays (off : Nat) (c : Command) : (identRow b off c s).Stays F s :=
  asNothing_stays hF.toFramed (writeCommand_stays hF hb _ c)

theorem resetRow_stays (a : Nat) (c : Command) : (resetRow b a c s).Stays F s := by
  refine (writeCommand_stays hF hb a c).andThen hF hb fun _ t _ => .ok_of ?_
  split
  · exact setSm_within hF _
  · exact hF.refl t

theorem statusRow_stays (a : Nat) (test : Word → Word → Verdict) :
    (statusRow b a test s).Stays F s := by
  refine (busRead_stays hF a).andThen hF hb fun w t _ => .ok_of ?_
  split
  · exact hF.trans (setSm_within hF _) (hF.bus (BusFrame.setPollPrev b _ w))
  · exact setSm_within hF _

end

/-- The rows that write protection flags, before or after `flash_init`. -/
def setsFlags : Instr → Bool
  | .probeProtection _ => true
  | i => isProtectOp i

/-- The rows that identify a bank or decode its geometry. -/
def identifies : Instr → Bool
  | .flashInit => true
  | i => isDecodeRow i

/-- The row `i` took `s` to `t` within `F`: it ran to its result, or a system reset cut it. -/
def RanWithin (F : State → State → Prop) (i : Instr) (s t : State) : Prop :=
  (∃ r u, F (s.enter i) u ∧ t = u.leave r) ∨
    (s.env.resetIn ≠ none ∧ ∃ u, F (s.enter i) u ∧ t = u.interruptedReset)

theorem RanWithin.of_call {F : State → State → Prop} {i : Instr}
    {body : State → Res (Option Result)} {s t : State} (h : call i body s = .next t)
    (hl : (body (s.enter i)).Stays F (s.enter i)) : RanWithin F i s t :=
  (call_leads hl h).imp (fun ⟨r, u, hf, _, ht⟩ => ⟨r, u, hf, ht⟩) id

/-- A row that identifies nothing stays within every relation that contains a sequence's updates of
its bank. -/
theorem exec_ran {F : State → State → Prop} {i : Instr} {s t : State} {c : Nat}
    (hi : identifies i = false) (hc : bankOf i = some c) (hO : OpClosed c F)
    (hflag : setsFlags i = true → FlagClosed c F) (h : exec i s = .next t) : RanWithin F i s t := by
  have heq : ∀ b, bankOf i = some b → c = b := fun b hb => Option.some.inj (hc.symm.trans hb)
  have hF : ∀ b, bankOf i = some b → OpClosed b F := fun b hb => heq b hb ▸ hO
  have hB : ∀ b, bankOf i = some b → BusClosed b F := fun b hb => (hF b hb).toBusClosed
  have hG : setsFlags i = true → ∀ b, bankOf i = some b → FlagClosed b F :=
    fun hs b hb => heq b hb ▸ hflag hs
  clear heq hflag hO hc
  cases i with
  | flashInit | identify | identCfi | identLegacy | decodeCfi | decodeLegacy => cases hi
  | flashGetSize b | flashPrintInfo b =>
    exact .of_call h (onBank_stays fun _ => .ok (hF b rfl).toFramed _)
  | flashErase b first last =>
    exact .of_call h (onBank_stays fun hb => flashErase_stays (hF b rfl) hb first last)
  | writeBuff b src dest len =>
    exact .of_call h (onBank_stays fun hb => writeBuff_stays (hF b rfl) hb src dest len)
  | flashProtect flag start stop b =>
    exact .of_call h (onBank_stays fun hb => flashProtect_stays (hG rfl b rfl) hb flag start stop)
  | readId b | cfiQuery b =>
    exact .of_call h (onBank_stays fun hb => identRow_stays (hB b rfl) hb _ _)
  | resetIntel b a | resetAmd b a =>
    exact .of_call h (onBank_stays fun hb => resetRow_stays (hB b rfl) hb a _)
  | clearStatus b a | blockErase b a | eraseConfirm b a | resume b a | program b a
  | writeToBuffer b a | bufferConfirm b a | lockSetup b a | lockSet b a | lockClear b a
  | sectorErase b a =>
    exact .of_call h (onBank_stays fun hb => onVariant_stays (commandRow_stays (hB b rfl) hb a _))
  | eraseSetup b | amdProgram b =>
    exact .of_call h (onBank_stays fun hb => onVariant_stays (commandRow_stays (hB b rfl) hb _ _))
  | unlock1 b | unlock2 b =>
    exact .of_call h (onBank_stays fun hb =>
      .ite (fun _ => commandRow_stays (hB b rfl) hb _ _) fun _ => identRow_stays (hB b rfl) hb _ _)
  | count b a n =>
    exact .of_call h (onBank_stays fun hb => onVariant_stays
      ((writeCount_stays (hB b rfl) hb a n).andThen (hB b rfl) hb fun _ _ _ =>
        .ok_of (setSm_within (hB b rfl) _)))
  | data b a d =>
    exact .of_call h (onBank_stays fun hb =>
      (writeData_stays (hB b rfl) hb a d).andThen (hB b rfl) hb fun _ _ _ =>
        .ok_of (setSm_within (hB b rfl) _))
  | statusIntel b a | statusAmd b a =>
    exact .of_call h (onBank_stays fun hb => onVariant_stays (statusRow_stays (hB b rfl) hb a _))
  | bankReset b a =>
    exact .of_call h (onBank_stays fun hb =>
      (bankReset_stays (hB b rfl) hb a).andReturn (hB b rfl).toFramed)
  | identReset b =>
    exact .of_call h (onBank_stays fun hb =>
      asNothing_stays (hB b rfl).toFramed (identReset_stays (hB b rfl) hb))
  | readIdEnter b =>
    exact .of_call h (onBank_stays fun hb =>
      asNothing_stays (hB b rfl).toFramed (readIdEnter_stays (hB b rfl) hb))
  | probeProtection b =>
    exact .of_call h (onBank_stays fun hb => beforeInit_stays (onKnown_stays (hF b rfl).toFramed
      (asNothing_stays (hF b rfl).toFramed (probeProtection_stays (hG rfl b rfl) hb))))
  | poll b a budget k =>
    exact .of_call h (onBank_stays fun hb =>
      asStatus_stays (hF b rfl) (poll_stays (hB b rfl) hb a budget _))
  | pollReady b a budget =>
    exact .of_call h (onBank_stays fun hb => onVariant_stays
      ((pollReady_stays (hB b rfl) hb a budget).andReturn (hF b rfl).toFramed))
  | eraseIntel b j =>
    exact .of_call h (onBank_stays fun hb => onKnown_stays (hF b rfl).toFramed (onVariant_stays
      (onSector_stays (asStatus_stays (hF b rfl) (eraseIntel_stays (hF b rfl) hb j)))))
  | eraseAmd b j =>
    exact .of_call h (onBank_stays fun hb => onKnown_stays (hF b rfl).toFramed (onVariant_stays
      (onSector_stays (asStatus_stays (hF b rfl) (eraseAmd_stays (hF b rfl) hb j)))))
  | programWordIntel b a d =>
    exact .of_call h (onBank_stays fun hb => onKnown_stays (hF b rfl).toFramed (onVariant_stays
      (asStatus_stays (hF b rfl) (programWordIntel_stays (hF b rfl) hb a _))))
  | programWordAmd b a d =>
    exact .of_call h (onBank_stays fun hb => onKnown_stays (hF b rfl).toFramed (onVariant_stays
      (asStatus_stays (hF b rfl) (programWordAmd_stays (hF b rfl) hb a _))))
  | programBufferIntel b a ds =>
    exact .of_call h (onBank_stays fun hb => onKnown_stays (hF b rfl).toFramed (onVariant_stays
      (asStatus_stays (hF b rfl) (programBufferIntel_stays (hF b rfl) hb a _))))
  | protectIntel b j lock =>
    exact .of_call h (onBank_stays fun hb => onKnown_stays (hF b rfl).toFramed (onVariant_stays
      (onSector_stays (asStatus_stays (hF b rfl) (protectIntel_stays (hG rfl b rfl) hb j lock)))))
  | protectAmd b j lock =>
    exact .of_call h (onBank_stays fun hb => onKnown_stays (hF b rfl).toFramed (onVariant_stays
      (onSector_stays (asStatus_stays (hF b rfl) (protectAmd_stays (hG rfl b rfl) hb j lock)))))
  | writeMerged b a off bs =>
    exact .of_call h (onBank_stays fun hb => onKnown_stays (hF b rfl).toFramed
      (asStatus_stays (hF b rfl) (writeMerged_stays (hF b rfl) hb a off bs)))
  | protectSector b j lock =>
    exact .of_call h (onBank_stays fun hb => onKnown_stays (hF b rfl).toFramed
      (onSector_stays (asStatus_stays (hF b rfl) (protectSector_stays (hG rfl b rfl) hb j lock))))

end Sys2Proof.Machine
end

section
/-! PROOFS. What operations make of the banks' registers (10_state.md R20, R21): which registers a
sequence leaves (`RegsFrame`, `BuiltFrame`), and what every row keeps of a bank and of the machine
(`Bank.Evolves`, `KeepFrame`, `Keeps`). -/

namespace Sys2Proof.Machine

/-! ### The same registers -/

theorem Bank.SameRegs.refl (x : Bank) : x.SameRegs x := rfl

theorem Bank.SameRegs.trans {x y z : Bank} (h : x.SameRegs y) (k : y.SameRegs z) : x.SameRegs z :=
  (congrArg (fun w : Bank => { w with device := x.device }) (show _ = y from k) :).trans h

theorem Bank.SameRegs.sectors {x y : Bank} (h : x.SameRegs y) : y.sectors = x.sectors :=
  (congrArg Bank.sectors (show _ = x from h) :)

theorem Bank.SameBuilt.refl (x : Bank) : x.SameBuilt x := ⟨rfl, rfl⟩

theorem Bank.SameBuilt.trans {x y z : Bank} (h : x.SameBuilt y) (k : y.SameBuilt z) :
    x.SameBuilt z :=
  ⟨(congrArg (fun w : Bank => { w with device := x.device, sectors := x.sectors }) k.1).trans h.1,
    k.2.trans h.2⟩

theorem Bank.SameRegs.sameBuilt {x y : Bank} (h : x.SameRegs y) : x.SameBuilt y :=
  ⟨(congrArg (fun w : Bank => { w with sectors := x.sectors }) (show _ = x from h) :),
    by rw [h.sectors]⟩

theorem Bank.setProtected_sameBuilt (bk : Bank) (i : Nat) (v : Bool) :
    bk.SameBuilt (bk.setProtected i v) := by
  unfold Bank.setProtected
  split
  · rename_i x hx
    refine ⟨rfl, ?_⟩
    obtain ⟨hi, rfl⟩ := List.getElem?_eq_some_iff.mp hx
    have hm : i < (bk.sectors.map Sector.startAddress).length := by simpa using hi
    simpa [List.map_set] using List.set_getElem_self hm
  · exact .refl bk

section
variable {x y : Bank} (h : x.SameBuilt y)
include h

theorem Bank.SameBuilt.vendorId : y.vendorId = x.vendorId :=
  (congrArg Bank.vendorId h.1 :)
theorem Bank.SameBuilt.cmdset : y.cmdset = x.cmdset :=
  (congrArg Bank.cmdset h.1 :)
theorem Bank.SameBuilt.size : y.size = x.size :=
  (congrArg Bank.size h.1 :)
theorem Bank.SameBuilt.baseAddress : y.baseAddress = x.baseAddress :=
  (congrArg Bank.baseAddress h.1 :)

end

/-- A start read off the list of starts. -/
theorem Bank.sectorStart_eq_getD (bk : Bank) (i : Nat) : bk.sectorStart i =
    (bk.sectors.map Sector.startAddress)[i]?.getD (bk.baseAddress + bk.size) := by
  unfold Bank.sectorStart
  cases h : bk.sectors[i]? <;> simp [h]

/-- The flags and the devices have no part in a bank's well-formedness. -/
theorem Bank.SameBuilt.wf {p : Params} {x y : Bank} (h : x.SameBuilt y) (w : Bank.Wf p x) :
    Bank.Wf p y := by
  obtain ⟨d, ss, rfl⟩ : ∃ d ss, x = { y with device := d, sectors := ss } := ⟨_, _, h.1.symm⟩
  have hs : y.sectors.map Sector.startAddress = ss.map Sector.startAddress := h.2
  refine { w with increasing := ?_, capacity := ?_, inBank := ?_, first := ?_ }
  · rw [← List.pairwise_map (R := (· < ·)), hs]
    exact List.pairwise_map.mpr w.increasing
  · have hl := congrArg List.length hs
    simp only [List.length_map] at hl
    exact hl.trans_le w.capacity
  · refine List.forall_mem_map (P := fun a => y.baseAddress ≤ a ∧ a + 128 ≤ y.baseAddress + y.size ∧
      (a - y.baseAddress) % 128 = 0) |>.mp ?_
    rw [hs]
    exact List.forall_mem_map.mpr w.inBank
  · rw [Bank.sectorStart_eq_getD, hs]
    exact (Bank.sectorStart_eq_getD _ 0).symm.trans w.first

theorem Bank.SameBuilt.emptyIfUnknown {x y : Bank} (h : x.SameBuilt y) (he : x.EmptyIfUnknown) :
    y.EmptyIfUnknown := by
  intro hu
  obtain ⟨h1, h2, h3⟩ := he (h.vendorId.symm.trans hu)
  refine ⟨?_, h.size.trans h2, h.cmdset.trans h3⟩
  have hs := h.2
  rw [h1] at hs
  exact List.map_eq_nil_iff.mp hs

/-! ### Frames of sequences -/

/-- As `OpFrame`, with the bank's registers as they were, flags included. -/
structure RegsFrame (b : Nat) (s t : State) : Prop extends OpFrame b s t where
  regs : (s.bank b).SameRegs (t.bank b)

/-- As `OpFrame`, with the bank's registers as they were but for the flags. -/
structure BuiltFrame (b : Nat) (s t : State) : Prop extends OpFrame b s t where
  built : (s.bank b).SameBuilt (t.bank b)

theorem RegsFrame.builtFrame {b : Nat} {s t : State} (h : RegsFrame b s t) : BuiltFrame b s t :=
  ⟨h.toOpFrame, h.regs.sameBuilt⟩

/-- An update that leaves the banks alone. -/
theorem RegsFrame.of_banks {b : Nat} {s t : State} (h : OpFrame b s t) (hb : t.banks = s.banks) :
    RegsFrame b s t := ⟨h, by rw [State.bank_eq_of_banks hb]; exact .refl _⟩

theorem RegsFrame.opClosed (b : Nat) : OpClosed b (RegsFrame b) where
  refl s := ⟨.refl b s, .refl _⟩
  trans h k := ⟨h.toOpFrame.trans k.toOpFrame, h.regs.trans k.regs⟩
  resets h := h.resets
  bus h := ⟨h.opFrame, h.sameRegs⟩
  lt h := h.toOpFrame.lt
  locks l hb := ⟨(BankFrame.setLocks hb l).toOpFrame, by
    rw [State.setLocks, State.setDevice_bank_self _ _ hb]; rfl⟩
  drawn s := .of_banks (BankFrame.drawn b s).toOpFrame rfl
  range s r := .of_banks (.setRange b s r) rfl
  array s m h := .of_banks (.setMemory b s m h) rfl
  irqSave s := .of_banks (BankFrame.irqSave b s).toOpFrame rfl
  irqRestore s := .of_banks (BankFrame.irqRestore b s).toOpFrame rfl

theorem BuiltFrame.flagClosed (b : Nat) : FlagClosed b (BuiltFrame b) where
  refl s := ⟨.refl b s, .refl _⟩
  trans h k := ⟨h.toOpFrame.trans k.toOpFrame, h.built.trans k.built⟩
  resets h := h.resets
  bus h := ((RegsFrame.opClosed b).bus h).builtFrame
  lt h := h.toOpFrame.lt
  locks l hb := ((RegsFrame.opClosed b).locks l hb).builtFrame
  drawn s := ((RegsFrame.opClosed b).drawn s).builtFrame
  range s r := ((RegsFrame.opClosed b).range s r).builtFrame
  array s m h := ((RegsFrame.opClosed b).array s m h).builtFrame
  irqSave s := ((RegsFrame.opClosed b).irqSave s).builtFrame
  irqRestore s := ((RegsFrame.opClosed b).irqRestore s).builtFrame
  flag {s} i v hb := by
    have hs := (s.bank b).setProtected_sameBuilt i v
    refine ⟨(BankFrame.setBank hb _ hs.baseAddress).toOpFrame, ?_⟩
    rw [State.setBank_bank_self s _ hb]
    exact hs

/-! ### What every row keeps of a bank -/

/-- What the bank `x` has become after a row, `y`: known for good once known (10_state.md R21 item
5), empty while Unknown (item 4), and well formed (the other items), each if it was so before. -/
structure Bank.Evolves (p : Params) (x y : Bank) : Prop where
  known : x.vendorId ≠ .unknown → y.cmdset = x.cmdset ∧ y.vendorId = x.vendorId
  empty : x.EmptyIfUnknown → y.EmptyIfUnknown
  wf : Bank.Wf p x → Bank.Wf p y

theorem Bank.Evolves.refl (p : Params) (x : Bank) : Bank.Evolves p x x :=
  ⟨fun _ => ⟨rfl, rfl⟩, id, id⟩

theorem Bank.Evolves.trans {p : Params} {x y z : Bank} (h : Bank.Evolves p x y)
    (k : Bank.Evolves p y z) : Bank.Evolves p x z where
  known hx := by
    obtain ⟨h1, h2⟩ := h.known hx
    obtain ⟨k1, k2⟩ := k.known (by rwa [h2])
    exact ⟨k1.trans h1, k2.trans h2⟩
  empty hx := k.empty (h.empty hx)
  wf hx := k.wf (h.wf hx)

theorem Bank.SameBuilt.evolves {x y : Bank} (h : x.SameBuilt y) (p : Params) : Bank.Evolves p x y :=
  ⟨fun _ => ⟨h.cmdset, h.vendorId⟩, h.emptyIfUnknown, h.wf⟩

/-- The range of bank `b` has no byte of another bank's (00_scope.md R9). -/
def State.Beside (s : State) (b : Nat) : Prop :=
  ∀ c < s.banks.length, c ≠ b → rangesDisjoint (s.bank b) (s.bank c) = true

theorem rangesDisjoint_comm (x y : Bank) : rangesDisjoint x y = rangesDisjoint y x := by
  unfold rangesDisjoint
  exact decide_eq_decide.mpr (by tauto)

theorem rangesDisjoint_congr {x x' y y' : Bank} (hb : x'.baseAddress = x.baseAddress)
    (hs : x'.size = x.size) (hb' : y'.baseAddress = y.baseAddress) (hs' : y'.size = y.size) :
    rangesDisjoint x' y' = rangesDisjoint x y := by
  simp only [rangesDisjoint, hb, hs, hb', hs']

theorem rangesDisjoint_of_size_zero {x : Bank} (h : x.size = 0) (y : Bank) :
    rangesDisjoint x y = true := by
  simp [rangesDisjoint, h]

/-- What a row keeps of its bank `b`, beside `OpFrame`. -/
structure KeepFrame (b : Nat) (s t : State) : Prop extends OpFrame b s t where
  evolves : Bank.Evolves s.params (s.bank b) (t.bank b)
  beside : s.Beside b → t.Beside b

theorem KeepFrame.trans {b : Nat} {s t u : State} (h : KeepFrame b s t) (k : KeepFrame b t u) :
    KeepFrame b s u :=
  ⟨h.toOpFrame.trans k.toOpFrame, h.evolves.trans (h.params ▸ k.evolves),
    fun hs => k.beside (h.beside hs)⟩

/-- Where the bank keeps its range, it stays beside the others. -/
theorem OpFrame.beside_of_size {b : Nat} {s t : State} (h : OpFrame b s t)
    (hs : (t.bank b).size = (s.bank b).size) (hbeside : s.Beside b) : t.Beside b := by
  intro c hc hne
  rw [rangesDisjoint_congr h.base hs (congrArg Bank.baseAddress (h.others c hne))
    (congrArg Bank.size (h.others c hne))]
  exact hbeside c (by rwa [← h.count]) hne

theorem BuiltFrame.keepFrame {b : Nat} {s t : State} (h : BuiltFrame b s t) : KeepFrame b s t :=
  ⟨h.toOpFrame, h.built.evolves _, h.toOpFrame.beside_of_size h.built.size⟩

theorem BusFrame.keepFrame {b : Nat} {s t : State} (h : BusFrame b s t) : KeepFrame b s t :=
  ((BuiltFrame.flagClosed b).bus h).keepFrame

/-- A write of the bank's registers that keeps its range or empties it. -/
theorem KeepFrame.setBank {b : Nat} {s : State} (hb : b < s.banks.length) (bk : Bank)
    (hbase : bk.baseAddress = (s.bank b).baseAddress)
    (hsize : bk.size = (s.bank b).size ∨ bk.size = 0)
    (h : Bank.Evolves s.params (s.bank b) bk) : KeepFrame b s (s.setBank b bk) := by
  have hf := (BankFrame.setBank hb bk hbase).toOpFrame
  have hself := State.setBank_bank_self s bk hb
  refine ⟨hf, by rwa [hself], fun hs => ?_⟩
  rcases hsize with hsize | hsize
  · exact hf.beside_of_size (by rwa [hself]) hs
  · intro c _ _
    exact rangesDisjoint_of_size_zero (by rwa [hself]) _

/-! ### What every row keeps of the machine -/

/-- What every row leaves, whatever banks it works on. -/
structure HostFrame (s t : State) : Prop where
  params : t.params = s.params
  calls : t.calls = s.calls
  count : t.banks.length = s.banks.length
  bases : ∀ c, (t.bank c).baseAddress = (s.bank c).baseAddress
  resets : s.env.resetIn = none → t.env.resetIn = none
  timer : s.env.timer ≤ t.env.timer
  memory : Memory.wf s.memory = true → Memory.wf t.memory = true
  trace : s.log.trace <+: t.log.trace

theorem HostFrame.framed : Framed HostFrame where
  refl _ := ⟨rfl, rfl, rfl, fun _ => rfl, id, le_refl _, id, List.prefix_refl _⟩
  trans h k := ⟨k.params.trans h.params, k.calls.trans h.calls, k.count.trans h.count,
    fun c => (k.bases c).trans (h.bases c), fun hr => k.resets (h.resets hr), h.timer.trans k.timer,
    fun hm => k.memory (h.memory hm), h.trace.trans k.trace⟩
  resets h := h.resets

theorem OpFrame.hostFrame {b : Nat} {s t : State} (h : OpFrame b s t) : HostFrame s t where
  params := h.params
  calls := h.calls
  count := h.count
  bases c := by
    by_cases hc : c = b
    · rw [hc]; exact h.base
    · rw [h.others c hc]
  resets := h.resets
  timer := h.timer
  memory := h.memory
  trace := h.trace

theorem HostFrame.map_bases {s t : State} (h : HostFrame s t) :
    t.banks.map Bank.baseAddress = s.banks.map Bank.baseAddress := by
  refine List.ext_getElem (by simpa using h.count) fun c hc hc' => ?_
  simp only [List.length_map] at hc hc'
  simpa [← State.bank_eq_getElem, hc, hc'] using h.bases c

/-- Detected ranges have no byte in common (00_scope.md R9). -/
def State.Apart (s : State) : Prop := s.banks.Pairwise fun x y => rangesDisjoint x y = true

theorem State.apart_iff (s : State) :
    s.Apart ↔ ∀ c d, c < d → d < s.banks.length → rangesDisjoint (s.bank c) (s.bank d) = true := by
  rw [State.Apart, List.pairwise_iff_getElem]
  constructor
  · intro h c d hcd hd
    rw [s.bank_eq_getElem (hcd.trans hd), s.bank_eq_getElem hd]
    exact h c d (hcd.trans hd) hd hcd
  · intro h c d hc hd hcd
    rw [← s.bank_eq_getElem hc, ← s.bank_eq_getElem hd]
    exact h c d hcd hd

theorem State.Apart.beside {s : State} (h : s.Apart) {b : Nat} (hb : b < s.banks.length) :
    s.Beside b := by
  intro c hc hne
  rcases Nat.lt_or_gt_of_ne hne with hlt | hlt
  · rw [rangesDisjoint_comm]
    exact s.apart_iff.mp h c b hlt hb
  · exact s.apart_iff.mp h b c hlt hc

/-- The invariant's clauses on the banks, and `HostFrame`. -/
structure Keeps (s t : State) : Prop extends HostFrame s t where
  evolves : ∀ c, Bank.Evolves s.params (s.bank c) (t.bank c)
  apart : s.Apart → t.Apart

theorem Keeps.refl (s : State) : Keeps s s :=
  ⟨HostFrame.framed.refl s, fun _ => .refl _ _, id⟩

theorem Keeps.trans {s t u : State} (h : Keeps s t) (k : Keeps t u) : Keeps s u :=
  ⟨HostFrame.framed.trans h.toHostFrame k.toHostFrame,
    fun c => (h.evolves c).trans (h.params ▸ k.evolves c), fun hs => k.apart (h.apart hs)⟩

/-- Ranges stay apart where one bank alone has changed and stays beside the others. -/
theorem KeepFrame.apart {b : Nat} {s t : State} (h : KeepFrame b s t) (hs : s.Apart) : t.Apart := by
  rw [State.apart_iff]
  intro c d hcd hd
  have hd' : d < s.banks.length := by rwa [← h.count]
  by_cases hc : c = b
  · subst hc
    exact h.beside (hs.beside (hcd.trans hd')) d hd (by omega)
  · by_cases hdb : d = b
    · subst hdb
      rw [rangesDisjoint_comm]
      exact h.beside (hs.beside hd') c (hcd.trans hd) (by omega)
    · rw [h.others c hc, h.others d hdb]
      exact s.apart_iff.mp hs c d hcd hd'

theorem KeepFrame.keeps {b : Nat} {s t : State} (h : KeepFrame b s t) : Keeps s t := by
  refine ⟨h.toOpFrame.hostFrame, fun c => ?_, h.apart⟩
  by_cases hc : c = b
  · subst hc
    exact h.evolves
  · rw [h.others c hc]
    exact .refl _ _

theorem Keeps.empty {s t : State} (h : Keeps s t) (hs : ∀ bk ∈ s.banks, bk.EmptyIfUnknown) :
    ∀ bk ∈ t.banks, bk.EmptyIfUnknown := by
  intro bk hbk
  obtain ⟨c, hc, rfl⟩ := List.mem_iff_getElem.mp hbk
  rw [← t.bank_eq_getElem hc]
  exact (h.evolves c).empty (hs _ (s.bank_mem (h.count ▸ hc)))

/-- The invariant, where it held before and no operation is left running. -/
theorem Keeps.inv {s t : State} (h : Keeps s t) (hs : s.Inv) (hpos : t.position = none) :
    t.Inv where
  params := h.params ▸ hs.params
  bases := by
    rw [h.params, ← hs.bases]
    exact h.map_bases
  banks bk hbk := by
    obtain ⟨c, hc, rfl⟩ := List.mem_iff_getElem.mp hbk
    rw [← t.bank_eq_getElem hc, h.params]
    exact (h.evolves c).wf (hs.bank (h.count ▸ hc))
  empty := h.empty hs.empty
  apart := h.apart hs.apart
  memory := h.memory hs.memory
  idle := hpos

end Sys2Proof.Machine
end

section
/-! PROOFS. Sector tables laid out end to end, and the well-formedness of a bank whose geometry has
been decoded (41_geometry.md R81, R82, R84, R85). -/

namespace Sys2Proof.Machine

/-! ### Tables laid out end to end -/

/-- The sectors lie end to end from `a` to `e`, each a positive multiple of 128 bytes. -/
def Tiles : Nat → List Sector → Nat → Prop
  | a, [], e => a = e
  | a, x :: xs, e => x.startAddress = a ∧ ∃ n, 128 ≤ n ∧ n % 128 = 0 ∧ Tiles (a + n) xs e

theorem Tiles.append : ∀ {xs ys : List Sector} {a m e : Nat}, Tiles a xs m → Tiles m ys e →
    Tiles a (xs ++ ys) e
  | [], _, _, _, _, rfl, hy => hy
  | _ :: _, _, _, _, _, ⟨hx, n, hn, hu, ht⟩, hy => ⟨hx, n, hn, hu, ht.append hy⟩

/-- A table reaches upward, in units of 128 bytes. -/
theorem Tiles.reach : ∀ {xs : List Sector} {a e : Nat}, Tiles a xs e → a ≤ e ∧ (e - a) % 128 = 0
  | [], _, _, rfl => by simp
  | _ :: _, _, _, ⟨_, n, _, hu, ht⟩ => by
    obtain ⟨h1, h2⟩ := ht.reach
    omega

/-- Every sector lies inside, at a multiple of 128 bytes. -/
theorem Tiles.inside : ∀ {xs : List Sector} {a e : Nat}, Tiles a xs e → ∀ x ∈ xs,
    a ≤ x.startAddress ∧ x.startAddress + 128 ≤ e ∧ (x.startAddress - a) % 128 = 0
  | [], _, _, _ => by simp
  | y :: ys, a, e, ⟨hy, n, hn, hu, ht⟩ => by
    intro x hx
    obtain ⟨h1, -⟩ := ht.reach
    rcases List.mem_cons.mp hx with rfl | hx
    · omega
    · have := ht.inside x hx
      omega

theorem Tiles.increasing : ∀ {xs : List Sector} {a e : Nat}, Tiles a xs e →
    xs.Pairwise fun x y => x.startAddress < y.startAddress
  | [], _, _, _ => .nil
  | y :: ys, a, e, ⟨hy, n, hn, _, ht⟩ => by
    refine .cons (fun x hx => ?_) ht.increasing
    have := ht.inside x hx
    omega

theorem sectorRun_length (addr size : Nat) : ∀ n, (sectorRun addr size n).length = n
  | 0 => rfl
  | n + 1 => congrArg (· + 1) (sectorRun_length (addr + size) size n)

theorem sectorRun_tiles {size : Nat} (h1 : 128 ≤ size) (h2 : size % 128 = 0) :
    ∀ (n addr : Nat), Tiles addr (sectorRun addr size n) (addr + n * size)
  | 0, _ => by simp [sectorRun, Tiles]
  | n + 1, addr => by
    have ih := sectorRun_tiles h1 h2 n (addr + size)
    rw [Nat.add_assoc, Nat.add_comm size, ← Nat.succ_mul] at ih
    exact ⟨rfl, size, h1, h2, ih⟩

/-- A block on some lanes is a positive multiple of 128 bytes (30_encoding.md R62). -/
theorem blockBytes_mul_unit (code : Nat) {mux : Nat} (hm : 1 ≤ mux) :
    128 ≤ blockBytes code * mux ∧ blockBytes code * mux % 128 = 0 := by
  obtain ⟨k, hk, hb⟩ : ∃ k, 1 ≤ k ∧ blockBytes code = 128 * k := by
    unfold blockBytes
    split
    · exact ⟨1, le_refl _, rfl⟩
    · exact ⟨code * 2, by omega, by omega⟩
  rw [hb, Nat.mul_assoc, Nat.mul_mod_right]
  have : 1 ≤ k * mux := Nat.mul_pos hk hm
  omega

/-- The walk over the regions lays its sectors end to end, and no more than there is room for. -/
theorem layRegions_tiles {mux : Nat} (hm : 1 ≤ mux) : ∀ (rs : List (Nat × Nat)) (room addr : Nat),
    Tiles addr (layRegions mux room addr rs).sectors (layRegions mux room addr rs).endAddr ∧
      (layRegions mux room addr rs).sectors.length ≤ room
  | [], _, _ => ⟨rfl, Nat.zero_le _⟩
  | (cm1, code) :: rs, room, addr => by
    obtain ⟨h1, h2⟩ := blockBytes_mul_unit code hm
    obtain ⟨ht, hl⟩ := layRegions_tiles hm rs (room - min (cm1 + 1) room)
      (addr + min (cm1 + 1) room * (blockBytes code * mux))
    refine ⟨(sectorRun_tiles h1 h2 _ _).append ht, ?_⟩
    simp only [layRegions, List.length_append, sectorRun_length]
    omega

/-! ### A bank after its geometry is decoded -/

/-- What a bank's well-formedness asks of it before its geometry: its place and its widths. -/
structure Bank.Placed (bk : Bank) : Prop where
  widths : bk.chipWidth.bits ≤ bk.portWidth.bits
  baseAligned : bk.baseAddress % 4 = 0
  baseRoom : bk.baseAddress + commandSpan * 4 < addrLimit

theorem Bank.Wf.placed {p : Params} {bk : Bank} (w : Bank.Wf p bk) : bk.Placed :=
  ⟨w.widths, w.baseAligned, w.baseRoom⟩

/-- The geometry of a bank as a decoder leaves it: sectors end to end from the base to the bank's
end, timeouts of 32 bits, a buffer of whole words. -/
structure Bank.Laid (p : Params) (bk : Bank) : Prop where
  tiles : Tiles bk.baseAddress bk.sectors (bk.baseAddress + bk.size)
  capacity : bk.sectorCount ≤ p.maxSectors
  sizeRoom : bk.baseAddress + bk.size < addrLimit
  timeouts : bk.eraseTimeout < addrLimit ∧ bk.writeTimeout < addrLimit ∧
    bk.bufferWriteTimeout < addrLimit
  buffer : bk.bufferSize % bk.bytes = 0 ∧ bk.bufferSize ≤ p.maxBufferWords * bk.bytes ∧
    (bk.cmdset = .amdStyle → bk.bufferSize = 0)

theorem Tiles.sectorStart_zero {bk : Bank}
    (h : Tiles bk.baseAddress bk.sectors (bk.baseAddress + bk.size)) :
    bk.sectorStart 0 = bk.baseAddress := by
  unfold Bank.sectorStart
  cases hs : bk.sectors with
  | nil =>
    rw [hs] at h
    exact h.symm
  | cons x xs =>
    rw [hs] at h
    exact h.1

/-- A placed bank with a decoded geometry is well formed, if it has a command set once known. -/
theorem Bank.Laid.wf {p : Params} {bk : Bank} (g : bk.Laid p) (hp : bk.Placed)
    (hv : bk.vendorId ≠ .unknown → bk.cmdset ≠ .none) : Bank.Wf p bk where
  increasing := g.tiles.increasing
  capacity := g.capacity
  widths := hp.widths
  inBank := g.tiles.inside
  first := g.tiles.sectorStart_zero
  sizeUnit := by
    have := g.tiles.reach
    omega
  baseAligned := hp.baseAligned
  baseRoom := hp.baseRoom
  sizeRoom := g.sizeRoom
  timeouts := g.timeouts
  variant := hv
  buffer _ := g.buffer

/-! ### What the decoders write -/

theorem normTimeout_lt (u : TimeUnit) (typ max : Nat) : normTimeout u typ max < addrLimit := by
  cases u <;> simp only [normTimeout, timeoutMax, addrLimit] <;> omega

theorem portWidth_bytes_eq_pow (p : PortWidth) : ∃ i, p.bytes = 2 ^ i := by
  cases p
  exacts [⟨0, rfl⟩, ⟨1, rfl⟩, ⟨2, rfl⟩]

/-- On widths that fit, the number of lanes is a power of two (00_scope.md R11). -/
theorem Bank.Placed.mux_eq_pow {bk : Bank} (h : bk.Placed) : ∃ j, bk.mux = 2 ^ j := by
  have hw := h.widths
  unfold Bank.mux Machine.mux
  cases hp : bk.portWidth <;> cases hc : bk.chipWidth <;> rw [hp, hc] at hw
  · exact ⟨0, rfl⟩
  · exact absurd hw (by decide)
  · exact ⟨1, rfl⟩
  · exact ⟨0, rfl⟩
  · exact ⟨2, rfl⟩
  · exact ⟨1, rfl⟩

/-- The buffer of a CFI bank is whole words, within the parameters' limit (41_geometry.md R84). -/
theorem bufferBytes_spec {p : Params} {bk : Bank} (h : bk.Placed) (bexp : Nat) :
    bufferBytes p bk bexp % bk.bytes = 0 ∧ bufferBytes p bk bexp ≤ p.maxBufferWords * bk.bytes ∧
      (bk.cmdset = .amdStyle → bufferBytes p bk bexp = 0) := by
  unfold bufferBytes
  split
  · exact ⟨Nat.zero_mod _, Nat.zero_le _, fun _ => rfl⟩
  · rename_i hc
    refine ⟨Nat.mod_eq_zero_of_dvd ?_, Nat.min_le_right _ _, fun ha => absurd (.inl ha) hc⟩
    have hle : bk.bytes ≤ 2 ^ bexp * bk.mux := by
      simp only [not_or, Nat.not_lt] at hc
      exact hc.2.2.2
    obtain ⟨i, hi⟩ : ∃ i, bk.bytes = 2 ^ i := portWidth_bytes_eq_pow bk.portWidth
    obtain ⟨j, hj⟩ := h.mux_eq_pow
    have hdvd : bk.bytes ∣ 2 ^ bexp * bk.mux := by
      rw [hi, hj, ← pow_add] at hle ⊢
      exact pow_dvd_pow 2 ((Nat.pow_le_pow_iff_right (by omega)).mp hle)
    rcases min_choice (2 ^ bexp * bk.mux) (p.maxBufferWords * bk.bytes) with h | h <;> rw [h]
    · exact hdvd
    · exact Nat.dvd_mul_left _ _

/-- A table that starts at the bank's base gives the bank its range. -/
theorem Bank.withTable_end {bk : Bank} {t : Table} (h : Tiles bk.baseAddress t.sectors t.endAddr) :
    (bk.withTable t).baseAddress + (bk.withTable t).size = t.endAddr := by
  have := h.reach
  simp only [Bank.withTable]
  omega

/-- A bank as DecodeCFI leaves it (R81, R82, R84). -/
theorem Bank.withCfi_laid {p : Params} {bk : Bank} (h : bk.Placed) (f : CfiFields)
    (hroom : (cfiTable p bk f).endAddr < addrLimit) :
    ((bk.withTable (cfiTable p bk f)).withCfi p f).Laid p := by
  have hm : 1 ≤ bk.mux := by
    obtain ⟨j, hj⟩ := h.mux_eq_pow
    exact hj ▸ Nat.two_pow_pos j
  obtain ⟨ht, hl⟩ := layRegions_tiles hm f.regions p.maxSectors bk.baseAddress
  have he := Bank.withTable_end (t := cfiTable p bk f) ht
  exact {
    tiles := he.symm ▸ ht
    capacity := hl
    sizeRoom := he.trans_lt hroom
    timeouts := ⟨normTimeout_lt _ _ _, normTimeout_lt _ _ _, normTimeout_lt _ _ _⟩
    buffer := bufferBytes_spec (bk := bk.withTable (cfiTable p bk f)) ⟨h.1, h.2, h.3⟩ f.bexp }

/-- An entry of the legacy table lays sectors of whole units (30_encoding.md R64). -/
theorem legacyEntryWf_iff {e : LegacyEntry} : legacyEntryWf e = true ↔
    e.vendor ≠ .unknown ∧ e.cmdset ≠ .none ∧ 1 ≤ e.sectorCount ∧ 128 ≤ e.uniformSectorSize ∧
      e.uniformSectorSize % 128 = 0 := by
  simp only [legacyEntryWf, Bool.and_eq_true, decide_eq_true_eq, bne_iff_ne, and_assoc]

/-- A bank as DecodeLegacy leaves it (R82, R85). -/
theorem Bank.withLegacy_laid {p : Params} (hp : ParamsOk p) {bk : Bank} (h : bk.Placed)
    {e : LegacyEntry} (he : legacyEntryWf e = true)
    (hroom : (legacyTableOf p bk e).endAddr < addrLimit) :
    ((bk.withTable (legacyTableOf p bk e)).withLegacy p).Laid p := by
  obtain ⟨-, -, -, h128, hunit⟩ := legacyEntryWf_iff.mp he
  obtain ⟨j, hj⟩ := h.mux_eq_pow
  have hm : 1 ≤ bk.mux := hj ▸ Nat.two_pow_pos j
  have ht : Tiles bk.baseAddress (legacyTableOf p bk e).sectors (legacyTableOf p bk e).endAddr :=
    sectorRun_tiles (h128.trans (Nat.le_mul_of_pos_right _ hm))
      (by rw [Nat.mul_mod, hunit, Nat.zero_mul, Nat.zero_mod]) _ _
  have hend := Bank.withTable_end ht
  exact {
    tiles := hend.symm ▸ ht
    capacity := (sectorRun_length _ _ _).trans_le (Nat.min_le_right _ _)
    sizeRoom := hend.trans_lt hroom
    timeouts := ⟨hp.erase, hp.write, hp.bufferWrite⟩
    buffer := ⟨Nat.zero_mod _, Nat.zero_le _, fun _ => rfl⟩ }

end Sys2Proof.Machine
end

section
/-! PROOFS. What identification makes of a bank (40_identification.md R72 to R80, 41_geometry.md
R81, R85), what every row keeps (`exec_keeps`), and the obligations that follow (O7, O12, O17). -/

namespace Sys2Proof.Machine

/-! ### Readers -/

section
variable {F : State → State → Prop} {b : Nat} {s : State} (hF : BusClosed b F)
include hF

theorem queryByte_stays (off : Nat) : (queryByte b off s).Stays F s :=
  (busRead_stays hF _).andReturn hF.toFramed

theorem idValue_stays (off : Nat) : (idValue b off s).Stays F s :=
  (busRead_stays hF _).andReturn hF.toFramed

theorem cfiU16_stays (off : Nat) : (cfiU16 b off s).Stays F s :=
  (queryByte_stays hF off).bind hF.toFramed fun _ _ _ =>
    (queryByte_stays hF (off + 1)).andReturn hF.toFramed

theorem readIds_stays : (readIds b s).Stays F s :=
  (idValue_stays hF 0).bind hF.toFramed fun _ _ _ => (idValue_stays hF 1).andReturn hF.toFramed

end

section
variable {F : State → State → Prop} {b : Nat} (hF : BusClosed b F)
include hF

theorem readRegions_stays : ∀ (n off : Nat) {s : State}, (readRegions b off n s).Stays F s
  | 0, _, _ => .ok hF.toFramed _
  | n + 1, off, _ => (cfiU16_stays hF off).bind hF.toFramed fun _ _ _ =>
      (cfiU16_stays hF (off + 2)).bind hF.toFramed fun _ _ _ =>
        (readRegions_stays n (off + 4)).andReturn hF.toFramed

theorem readCfiFields_stays {s : State} : (readCfiFields b s).Stays F s :=
  (queryByte_stays hF _).bind hF.toFramed fun _ _ _ =>
  (queryByte_stays hF _).bind hF.toFramed fun _ _ _ =>
  (queryByte_stays hF _).bind hF.toFramed fun _ _ _ =>
  (queryByte_stays hF _).bind hF.toFramed fun _ _ _ =>
  (queryByte_stays hF _).bind hF.toFramed fun _ _ _ =>
  (queryByte_stays hF _).bind hF.toFramed fun _ _ _ =>
  (cfiU16_stays hF _).bind hF.toFramed fun _ _ _ =>
  (queryByte_stays hF _).bind hF.toFramed fun _ _ _ =>
  (readRegions_stays hF _ _).andReturn hF.toFramed

end

theorem BusFrame.busClosed (b : Nat) : BusClosed b (BusFrame b) :=
  { BusFrame.framed b with bus := id, lt := fun h => h.lt }

/-- A piece made of bus accesses, inside an operation. -/
theorem Res.Stays.opLeads {α : Type} {b : Nat} {s : State} {r : Res α}
    (h : r.Stays (BusFrame b) s) : r.Leads (OpFrame b) s fun _ t => BusFrame b s t :=
  Res.Leads.weaken (h.mono fun _ _ hf _ => hf) fun _ hf => hf.opFrame

theorem BusFrame.placed {b : Nat} {s t : State} (h : BusFrame b s t) (hp : (s.bank b).Placed) :
    (t.bank b).Placed := by
  obtain ⟨m, hm⟩ := h.regs
  rw [hm]
  exact ⟨hp.1, hp.2, hp.3⟩

/-! ### Decoding a geometry -/

/-- What a decoder makes of the bank `x`: the same vendor and command set, and on a placed bank a
geometry (41_geometry.md R82, R84). -/
structure Bank.Decoded (p : Params) (x y : Bank) : Prop where
  vendor : y.vendorId = x.vendorId
  cmdset : y.cmdset = x.cmdset
  placed : x.Placed → y.Placed
  laid : x.Placed → y.Laid p

theorem Bank.Decoded.evolves {p : Params} {x y : Bank} (h : Bank.Decoded p x y)
    (hk : x.vendorId ≠ .unknown) : Bank.Evolves p x y where
  known _ := ⟨h.cmdset, h.vendor⟩
  empty _ hu := absurd (h.vendor.symm.trans hu) hk
  wf w := (h.laid w.placed).wf (h.placed w.placed) fun _ => h.cmdset ▸ w.variant hk

theorem Bank.Decoded.of_sameRegs {p : Params} {x x' y : Bank} (h : Bank.Decoded p x' y)
    (hs : x.SameRegs x') : Bank.Decoded p x y := by
  obtain ⟨d, rfl⟩ : ∃ d, x = { x' with device := d } := ⟨_, Eq.symm hs⟩
  exact ⟨h.vendor, h.cmdset, fun hp => h.placed ⟨hp.1, hp.2, hp.3⟩,
    fun hp => h.laid ⟨hp.1, hp.2, hp.3⟩⟩

section
variable {b : Nat} {s : State}

/-- A table stored: the bank has it, within the address space and beside the other banks' ranges. -/
theorem storeTable_leads (tab : Table) (finish : Bank → Bank) (hb : b < s.banks.length)
    (hbase : ∀ bk, (finish bk).baseAddress = bk.baseAddress) :
    (storeTable b tab finish s).Leads (OpFrame b) s fun _ t =>
      t.bank b = finish ((s.bank b).withTable tab) ∧ tab.endAddr < addrLimit ∧ t.Beside b := by
  unfold storeTable
  simp only
  split
  · rename_i hc
    obtain ⟨hroom, hfits⟩ := hc
    have hself := State.setBank_bank_self s (finish ((s.bank b).withTable tab)) hb
    refine .ok_of (BankFrame.setBank hb (finish ((s.bank b).withTable tab)) (hbase _)).toOpFrame
      ⟨hself, hroom, fun c hc hne => ?_⟩
    have hd := List.all_eq_true.mp hfits c (by simpa using hc)
    rw [hself, State.setBank_bank_other s _ hne]
    simpa [hne] using hd
  · exact .stop_refused _ _

theorem decodeCfi_leads (hb : b < s.banks.length) :
    (decodeCfi b s).Leads (OpFrame b) s fun _ t =>
      Bank.Decoded s.params (s.bank b) (t.bank b) ∧ t.Beside b := by
  refine (readCfiFields_stays (BusFrame.busClosed b)).opLeads.bind (OpFrame.framed b) ?_
  rintro f t - ht
  refine (storeTable_leads (cfiTable t.params (t.bank b) f) (Bank.withCfi t.params f) (ht.lt hb)
    fun _ => rfl).mono ?_
  rintro - u - ⟨hbk, hroom, hbeside⟩
  rw [ht.params] at hbk hroom
  refine ⟨.of_sameRegs (x' := t.bank b) ?_ ht.sameRegs, hbeside⟩
  rw [hbk]
  exact ⟨rfl, rfl, fun hp => ⟨hp.1, hp.2, hp.3⟩, fun hp => Bank.withCfi_laid hp f hroom⟩

theorem decodeLegacy_leads (hb : b < s.banks.length) (hp : ParamsOk s.params) {e : LegacyEntry}
    (he : legacyEntryWf e = true) : (decodeLegacy b e s).Leads (OpFrame b) s fun _ t =>
      Bank.Decoded s.params (s.bank b) (t.bank b) ∧ t.Beside b := by
  refine (storeTable_leads (legacyTableOf s.params (s.bank b) e) (Bank.withLegacy s.params) hb
    fun _ => rfl).mono ?_
  rintro - t - ⟨hbk, hroom, hbeside⟩
  refine ⟨?_, hbeside⟩
  rw [hbk]
  exact ⟨rfl, rfl, fun h => ⟨h.1, h.2, h.3⟩, fun h => Bank.withLegacy_laid hp h he hroom⟩

/-! ### Identifying a bank -/

/-- What an attempt to identify the Unknown bank `b` leaves; where it failed, the bank is Unknown
still (40_identification.md R72, R77). -/
def Tried (b : Nat) (s : State) (found : Bool) (t : State) : Prop :=
  KeepFrame b s t ∧ (found = false → (t.bank b).vendorId = .unknown)

theorem BusFrame.tried {t : State} (h : BusFrame b s t) (hu : (s.bank b).vendorId = .unknown) :
    Tried b s false t := ⟨h.keepFrame, fun _ => h.vendorId.trans hu⟩

theorem Tried.unknown {t : State} (h : Tried b s false t) : (t.bank b).vendorId = .unknown :=
  h.2 rfl

theorem Tried.trans {t u : State} {found : Bool} (h : Tried b s false t) (k : Tried b t found u) :
    Tried b s found u := ⟨h.1.trans k.1, k.2⟩

/-- A bank found: it was Unknown, and now has a vendor, a well-formed geometry and a range of its
own. -/
theorem Tried.of_found {t : State} (hf : OpFrame b s t) (hu : (s.bank b).vendorId = .unknown)
    (hv : (t.bank b).vendorId ≠ .unknown)
    (hw : (s.bank b).Placed → Bank.Wf s.params (t.bank b)) (hbeside : t.Beside b) :
    Tried b s true t :=
  ⟨⟨hf, ⟨fun hk => absurd hu hk, fun _ hk => absurd hk hv, fun w => hw w.placed⟩, fun _ => hbeside⟩,
    fun h => by cases h⟩

theorem vendorOf_ne_unknown {p : Params} (hp : ParamsOk p) (m : ChipId) (cs : CmdSet) :
    vendorOf p m cs ≠ .unknown := by
  unfold vendorOf
  split
  · exact hp.codes _ (List.mem_of_find?_eq_some ‹_›)
  · split <;> simp

theorem legacyEntry_wf {p : Params} (hp : ParamsOk p) {m d : ChipId} {e : LegacyEntry}
    (h : legacyEntry p m d = some e) : legacyEntryWf e = true :=
  hp.legacy e (List.mem_of_find?_eq_some h)

/-- The bank that IdentCFI accepts: decoded under the command set `cs` of its primary id, and named
after some more accesses (40_identification.md R74). -/
theorem Tried.of_cfi {t u v : State} {cs : CmdSet} (hb : b < s.banks.length)
    (hp : ParamsOk s.params) (hu : (s.bank b).vendorId = .unknown) (hcs : cs ≠ .none)
    (ht : BusFrame b s t) (hsu : OpFrame b s u)
    (hdec : Bank.Decoded s.params { t.bank b with cmdset := cs } (u.bank b))
    (hbeside : u.Beside b) (huv : BusFrame b u v) (m d : ChipId) :
    Tried b s true (v.setBank b (Bank.asCfi v.params cs m d (v.bank b))) := by
  have hsv := hsu.trans huv.opFrame
  have hself := State.setBank_bank_self v (Bank.asCfi v.params cs m d (v.bank b)) (hsv.lt hb)
  have hend := (BankFrame.setBank (hsv.lt hb) (Bank.asCfi v.params cs m d (v.bank b)) rfl).toOpFrame
  refine Tried.of_found (hsv.trans hend) hu ?_ (fun hx => ?_)
    (hend.beside_of_size (by rw [hself]; rfl) (huv.keepFrame.beside hbeside))
  · rw [hself]
    exact vendorOf_ne_unknown (hsv.params ▸ hp) _ _
  · have hpt := ht.placed hx
    have hpu := hdec.placed ⟨hpt.1, hpt.2, hpt.3⟩
    have hlaid := hdec.laid ⟨hpt.1, hpt.2, hpt.3⟩
    obtain ⟨n, hn⟩ := huv.regs
    rw [hself, hn]
    exact Bank.Laid.wf { hlaid with } ⟨hpu.1, hpu.2, hpu.3⟩ fun _ => hdec.cmdset.trans_ne hcs

/-- IdentCFI on an Unknown bank (40_identification.md R74). -/
theorem identCfi_leads (hb : b < s.banks.length) (hp : ParamsOk s.params)
    (hu : (s.bank b).vendorId = .unknown) :
    (identCfi b s).Leads (OpFrame b) s fun found t => Tried b s found t := by
  have hO := OpFrame.framed b
  have hB := BusFrame.busClosed b
  refine (cfiU16_stays hB _).opLeads.bind hO fun pid t hst ht => ?_
  simp only
  generalize cmdsetOfPrimary t.params.cfi pid = cs
  split
  · exact .ok hO (ht.tried hu)
  rename_i hcs
  have hbt := ht.lt hb
  have hset := (BankFrame.setBank hbt { t.bank b with cmdset := cs } rfl).toOpFrame
  have hself := State.setBank_bank_self t { t.bank b with cmdset := cs } hbt
  refine .after hO hset ((decodeCfi_leads (hset.lt hbt)).bind hO fun _ u htu hdec => ?_)
  obtain ⟨hdec, hbeside⟩ := hdec
  rw [hself, State.setBank_params, ht.params] at hdec
  have hsu := hst.trans (hset.trans htu)
  have hbu := hsu.lt hb
  refine (identReset_stays hB hbu).opLeads.bind hO fun _ v1 _ h1 => ?_
  refine (readIdEnter_stays hB (h1.lt hbu)).opLeads.bind hO fun _ v2 _ h2 => ?_
  refine (readIds_stays hB).opLeads.bind hO fun ids v3 _ h3 => ?_
  refine (identReset_stays hB ((h1.trans (h2.trans h3)).lt hbu)).opLeads.bind hO fun _ v _ h4 => ?_
  have huv := h1.trans (h2.trans (h3.trans h4))
  have hend := (BankFrame.setBank (huv.lt hbu) (Bank.asCfi v.params cs ids.1 ids.2 (v.bank b))
    rfl).toOpFrame
  exact .ok_of hend (.of_cfi hb hp hu hcs ht hsu hdec hbeside huv ids.1 ids.2)

/-- IdentLegacy on an Unknown bank, with an entry of the table (40_identification.md R75). -/
theorem identLegacy_leads (hb : b < s.banks.length) (hp : ParamsOk s.params)
    (hu : (s.bank b).vendorId = .unknown) {e : LegacyEntry} (he : legacyEntryWf e = true)
    (m d : ChipId) : (identLegacy b e m d s).Leads (OpFrame b) s fun _ t => Tried b s true t := by
  obtain ⟨hvendor, hcmdset, -⟩ := legacyEntryWf_iff.mp he
  have hset := (BankFrame.setBank hb (Bank.asLegacy s.params e m d (s.bank b)) rfl).toOpFrame
  have hself := State.setBank_bank_self s (Bank.asLegacy s.params e m d (s.bank b)) hb
  refine .after (OpFrame.framed b) hset ((decodeLegacy_leads (hset.lt hb) hp he).mono ?_)
  rintro - t ht ⟨hdec, hbeside⟩
  rw [hself, State.setBank_params] at hdec
  refine Tried.of_found (hset.trans ht) hu ?_ (fun hx => ?_) hbeside
  · rw [hdec.vendor]
    exact hvendor
  · have hx' : (Bank.asLegacy s.params e m d (s.bank b)).Placed := ⟨hx.1, hx.2, hx.3⟩
    exact (hdec.laid hx').wf (hdec.placed hx') fun _ => hdec.cmdset.trans_ne hcmdset

/-- Bus accesses, and then an attempt. -/
theorem Res.Stays.andTry {α β : Type} {r : Res α} {k : α → State → Res β} {found : β → Bool}
    (hb : b < s.banks.length) (hp : ParamsOk s.params) (hu : (s.bank b).vendorId = .unknown)
    (h : r.Stays (BusFrame b) s)
    (hk : ∀ a t, b < t.banks.length → ParamsOk t.params → (t.bank b).vendorId = .unknown →
      (k a t).Leads (OpFrame b) t fun e u => Tried b t (found e) u) :
    (r.bind k).Leads (OpFrame b) s fun e u => Tried b s (found e) u := by
  refine h.opLeads.bind (OpFrame.framed b) fun a t _ ht => ?_
  have htried := ht.tried hu
  exact (hk a t (ht.lt hb) (ht.params ▸ hp) htried.unknown).mono fun _ _ _ => htried.trans

/-- The CFI half of a pass (40_identification.md R72, R73). -/
theorem cfiHalf_leads (hb : b < s.banks.length) (hp : ParamsOk s.params)
    (hu : (s.bank b).vendorId = .unknown) :
    (cfiHalf b s).Leads (OpFrame b) s fun found t => Tried b s found t := by
  have hB := BusFrame.busClosed b
  refine (identReset_stays hB hb).andTry hb hp hu fun _ t hb hp hu => ?_
  refine (writeCommand_stays hB hb _ _).andTry hb hp hu fun _ t hb hp hu => ?_
  refine (queryByte_stays hB _).andTry hb hp hu fun q0 t hb hp hu => ?_
  refine (queryByte_stays hB _).andTry hb hp hu fun q1 t hb hp hu => ?_
  refine (queryByte_stays hB _).andTry hb hp hu fun q2 t hb hp hu => ?_
  split
  · exact identCfi_leads hb hp hu
  · exact .ok (OpFrame.framed b) ((BusFrame.refl b t).tried hu)

/-- The read-ID half of a pass (40_identification.md R72, R75, R76). -/
theorem legacyHalf_leads (hb : b < s.banks.length) (hp : ParamsOk s.params)
    (hu : (s.bank b).vendorId = .unknown) : (legacyHalf b s).Leads (OpFrame b) s fun e t =>
      Tried b s (decide (e = .accepted)) t := by
  have hB := BusFrame.busClosed b
  have hO := OpFrame.framed b
  refine (identReset_stays hB hb).andTry hb hp hu fun _ t hb hp hu => ?_
  refine (readIdEnter_stays hB hb).andTry hb hp hu fun _ t hb hp hu => ?_
  refine (readIds_stays hB).andTry hb hp hu fun ids t hb hp hu => ?_
  split
  · rename_i e he
    refine (identLegacy_leads hb hp hu (legacyEntry_wf hp he) _ _).bind hO fun _ u htu h => ?_
    refine (identReset_stays hB (htu.lt hb)).opLeads.bind hO fun _ v _ huv => ?_
    exact .ok hO ⟨h.1.trans huv.keepFrame, fun hf => by cases hf⟩
  · refine .ok hO ?_
    have hne : (if ids.1 ≠ 0 ∧ ids.2 ≠ 0 then PassEnd.flip else .next) ≠ .accepted := by
      split <;> simp
    rw [decide_eq_false hne]
    exact (BusFrame.refl b t).tried hu

/-- One attempt, and another one where it failed. -/
theorem Res.Leads.orTry {α β : Type} {r : Res α} {k : α → State → Res β} {found : α → Bool}
    {found' : β → Bool} (hb : b < s.banks.length) (hp : ParamsOk s.params)
    (h : r.Leads (OpFrame b) s fun a t => Tried b s (found a) t)
    (hfound : ∀ a t, found a = true →
      (k a t).Leads (OpFrame b) t fun e u => u = t ∧ found' e = true)
    (hnext : ∀ a t, found a = false → b < t.banks.length → ParamsOk t.params →
      (t.bank b).vendorId = .unknown →
      (k a t).Leads (OpFrame b) t fun e u => Tried b t (found' e) u) :
    (r.bind k).Leads (OpFrame b) s fun e u => Tried b s (found' e) u := by
  refine h.bind (OpFrame.framed b) fun a t hst ht => ?_
  cases ha : found a with
  | true =>
    refine (hfound a t ha).mono ?_
    rintro e u - ⟨rfl, he⟩
    exact ⟨ht.1, fun hf => by rw [he] at hf; cases hf⟩
  | false =>
    rw [ha] at ht
    exact (hnext a t ha (hst.lt hb) (hst.params ▸ hp) ht.unknown).mono fun _ _ _ => ht.trans

/-- One pass (40_identification.md R72). -/
theorem identPass_leads (hb : b < s.banks.length) (hp : ParamsOk s.params)
    (hu : (s.bank b).vendorId = .unknown) : (identPass b s).Leads (OpFrame b) s fun e t =>
      Tried b s (decide (e = .accepted)) t := by
  have hO := OpFrame.framed b
  refine Res.Leads.orTry (found := id) hb hp (cfiHalf_leads hb hp hu) ?_ ?_
  · rintro a t rfl
    exact .ok hO ⟨rfl, rfl⟩
  · rintro a t rfl hb hp hu
    exact legacyHalf_leads hb hp hu

/-- The widths and lane order of a pass, tried on an Unknown bank. -/
theorem Tried.atWidths (hb : b < s.banks.length) (hu : (s.bank b).vendorId = .unknown)
    {p : PortWidth} {c : ChipWidth} (hw : c.bits ≤ p.bits) (o : LaneOrder) :
    Tried b s false (s.setBank b (Bank.atWidths p c o (s.bank b))) := by
  refine ⟨.setBank hb _ rfl (.inl rfl) ?_, fun _ => ?_⟩
  · exact ⟨fun hk => absurd hu hk, id, fun w =>
      { w with widths := hw, buffer := fun hk => absurd hu hk }⟩
  · rw [State.setBank_bank_self s _ hb]
    exact hu

/-- A pass at given widths and lane order. -/
theorem identPass_atWidths_leads (hb : b < s.banks.length) (hp : ParamsOk s.params)
    (hu : (s.bank b).vendorId = .unknown) {p : PortWidth} {c : ChipWidth} (hw : c.bits ≤ p.bits)
    (o : LaneOrder) :
    (identPass b (s.setBank b (Bank.atWidths p c o (s.bank b)))).Leads (OpFrame b) s fun e t =>
      Tried b s (decide (e = .accepted)) t := by
  have ht := Tried.atWidths hb hu hw o
  refine .after (OpFrame.framed b) ht.1.toOpFrame ?_
  have hb' : b < (s.setBank b (Bank.atWidths p c o (s.bank b))).banks.length := ht.1.lt hb
  exact (identPass_leads hb' hp ht.unknown).mono fun _ _ _ => ht.trans

/-- The passes over one width pair (40_identification.md R76). -/
theorem tryPair_leads (hb : b < s.banks.length) (hp : ParamsOk s.params)
    (hu : (s.bank b).vendorId = .unknown) {p : PortWidth} {c : ChipWidth} (hw : c.bits ≤ p.bits) :
    (tryPair b p c s).Leads (OpFrame b) s fun found t => Tried b s found t := by
  have hO := OpFrame.framed b
  refine Res.Leads.orTry hb hp (identPass_atWidths_leads hb hp hu hw .le) ?_ ?_
  · intro e t he
    obtain rfl := of_decide_eq_true he
    exact .ok hO ⟨rfl, rfl⟩
  · intro e t he hb hp hu
    cases e with
    | accepted => cases he
    | next => exact .ok hO ((BusFrame.refl b t).tried hu)
    | flip =>
      exact (identPass_atWidths_leads hb hp hu hw .be).bind hO fun e u _ h =>
        .ok hO h

theorem tryPairs_leads : ∀ {pcs : List (PortWidth × ChipWidth)} {s : State}, b < s.banks.length →
    ParamsOk s.params → (s.bank b).vendorId = .unknown → (∀ pc ∈ pcs, pc.2.bits ≤ pc.1.bits) →
    (tryPairs b pcs s).Leads (OpFrame b) s fun found t => Tried b s found t
  | [], s, _, _, hu, _ => .ok (OpFrame.framed b) ((BusFrame.refl b s).tried hu)
  | (p, c) :: pcs, s, hb, hp, hu, hw => by
    refine Res.Leads.orTry (found := id) hb hp
      (tryPair_leads hb hp hu (hw (p, c) (List.mem_cons_self ..))) ?_ ?_
    · rintro a t rfl
      exact .ok (OpFrame.framed b) ⟨rfl, rfl⟩
    · rintro a t rfl hb hp hu
      exact tryPairs_leads hb hp hu fun pc hpc => hw pc (List.mem_cons_of_mem _ hpc)

theorem candidates_fit (least : PortWidth) : ∀ pc ∈ candidates least, pc.2.bits ≤ pc.1.bits := by
  have hall : ∀ pc ∈ allPairs, pc.2.bits ≤ pc.1.bits := by decide
  exact fun pc h => hall pc (List.mem_of_mem_filter h)

/-- A bank left Unknown has no geometry (40_identification.md R77). -/
theorem Bank.unidentified_evolves (p : Params) {x : Bank} (hu : x.vendorId = .unknown) :
    Bank.Evolves p x x.unidentified where
  known hk := absurd hu hk
  empty _ _ := ⟨rfl, rfl, rfl⟩
  wf w := { w with
    increasing := .nil
    capacity := Nat.zero_le _
    inBank := fun x hx => by cases hx
    first := rfl
    sizeUnit := rfl
    sizeRoom := lt_of_le_of_lt (Nat.le_add_right _ _) w.baseRoom
    variant := fun hk => absurd rfl hk
    buffer := fun hk => absurd rfl hk }

/-- Identify on an Unknown bank (40_identification.md R72). -/
theorem identify_leads (hb : b < s.banks.length) (hp : ParamsOk s.params)
    (hu : (s.bank b).vendorId = .unknown) :
    (identify b s).Leads (OpFrame b) s fun _ t => KeepFrame b s t := by
  have hO := OpFrame.framed b
  refine (tryPairs_leads hb hp hu (candidates_fit _)).bind hO fun found t hst ht => ?_
  cases found with
  | true => exact .ok hO ht.1
  | false =>
    refine (identReset_stays (BusFrame.busClosed b) (hst.lt hb)).opLeads.bind hO fun _ u _ htu => ?_
    have hun := htu.vendorId.trans ht.unknown
    have hset := KeepFrame.setBank (htu.lt (hst.lt hb)) (u.bank b).unidentified rfl (.inr rfl)
      (Bank.unidentified_evolves u.params hun)
    exact .ok_of hset.toOpFrame (ht.1.trans (htu.keepFrame.trans hset))

end

/-! ### What every row keeps -/

/-- A piece of an operation that ends with all of `Keeps`, or is cut within `HostFrame`. -/
def Res.Keeping {α : Type} (s : State) (r : Res α) : Prop :=
  r.Leads HostFrame s fun _ t => Keeps s t

section
variable {α β : Type} {b : Nat} {s : State}

theorem Res.Keeping.ok (a : α) : (Res.ok a s).Keeping s :=
  Res.Leads.ok HostFrame.framed (Keeps.refl s)

theorem Res.Keeping.of_leads {r : Res α} (h : r.Leads (OpFrame b) s fun _ t => KeepFrame b s t) :
    r.Keeping s :=
  Res.Leads.mono (h.weaken fun _ hf => hf.hostFrame) fun _ _ _ hk => hk.keeps

theorem Res.Keeping.of_built {r : Res α} (h : r.Stays (BuiltFrame b) s) : r.Keeping s :=
  Res.Leads.weaken (h.mono fun _ _ hf _ => hf.keepFrame.keeps) fun _ hf => hf.toOpFrame.hostFrame

theorem Res.Keeping.bind {r : Res α} {k : α → State → Res β} (h : r.Keeping s)
    (hk : ∀ a t, Keeps s t → (k a t).Keeping t) : (r.bind k).Keeping s :=
  Res.Leads.bind HostFrame.framed h fun a t _ ht => (hk a t ht).mono fun _ _ _ => ht.trans

theorem Res.Keeping.andReturn {r : Res α} {g : α → State → β} (h : r.Keeping s) :
    (r.bind fun a t => .ok (g a t) t).Keeping s := h.bind fun _ _ _ => .ok _

theorem Res.Keeping.ite {c : Prop} [Decidable c] {x y : Res α} (hx : c → x.Keeping s)
    (hy : ¬ c → y.Keeping s) : (if c then x else y).Keeping s := by
  split
  · exact hx ‹_›
  · exact hy ‹_›

theorem Res.Keeping.stop_refused (e : Refusal) : (Res.refused e : Res α).Keeping s := trivial

theorem onBank_keeping {body : State → Res α} (h : b < s.banks.length → (body s).Keeping s) :
    (onBank b body s).Keeping s := .ite h fun _ => .stop_refused _

theorem beforeInit_keeping {body : State → Res α} (h : (body s).Keeping s) :
    (beforeInit body s).Keeping s := .ite (fun _ => .stop_refused _) fun _ => h

theorem onKnown_keeping {body : State → Res (Option Result)}
    (h : (s.bank b).vendorId ≠ .unknown → (body s).Keeping s) : (onKnown b body s).Keeping s :=
  .ite (fun _ => .ok _) h

theorem onUnknown_keeping {body : State → Res α}
    (h : (s.bank b).vendorId = .unknown → (body s).Keeping s) : (onUnknown b body s).Keeping s :=
  .ite h fun _ => .stop_refused _

/-- A decoder on a known bank. -/
theorem Res.Keeping.of_decoded {r : Res α} (hk : (s.bank b).vendorId ≠ .unknown)
    (h : r.Leads (OpFrame b) s fun _ t =>
      Bank.Decoded s.params (s.bank b) (t.bank b) ∧ t.Beside b) : r.Keeping s :=
  .of_leads (h.mono fun _ _ hf ⟨hd, hbeside⟩ => ⟨hf, hd.evolves hk, fun _ => hbeside⟩)

/-- One bank of `flash_init` (43_facade.md R105). -/
theorem initBank_keeping (hb : b < s.banks.length) (hp : ParamsOk s.params) :
    (initBank b s).Keeping s := by
  refine Res.Keeping.bind (.ite (fun hu => ?_) fun _ => .ok ()) fun _ t ht => ?_
  · exact .of_leads (identify_leads hb hp hu)
  · exact .ite (fun _ => .ok ()) fun _ =>
      .of_built (probeProtection_stays (BuiltFrame.flagClosed b) (ht.count ▸ hb))

end

theorem initBanks_keeping : ∀ (n b : Nat) {s : State}, b + n ≤ s.banks.length →
    ParamsOk s.params → (initBanks b n s).Keeping s
  | 0, _, _, _, _ => .ok ()
  | n + 1, b, _, hb, hp => (initBank_keeping (by omega) hp).bind fun _ _ ht =>
      initBanks_keeping n (b + 1) (by rw [ht.count]; omega) (ht.params ▸ hp)

theorem Keeps.setInitDone (s : State) : Keeps s s.setInitDone :=
  { Keeps.refl s with }

theorem flashInit_keeping {s : State} (hp : ParamsOk s.params) : (flashInit s).Keeping s := by
  refine .ite (fun _ => .stop_refused _) fun _ => ?_
  refine (initBanks_keeping _ 0 (Nat.zero_add _).le hp).bind fun _ t _ => ?_
  exact Res.Leads.ok_of (Keeps.setInitDone t).toHostFrame (Keeps.setInitDone t)

/-- The state `t` after a row run from `s`: all of `Keeps` holds, or a system reset cut the row. -/
def Kept (s t : State) : Prop :=
  (t.position = none ∧ Keeps s t) ∨
    (s.env.resetIn ≠ none ∧ ∃ u, HostFrame s u ∧ t = u.interruptedReset)

theorem Keeps.enter_leave {s u : State} {i : Instr} (h : Keeps (s.enter i) u) (r : Option Result) :
    Keeps s (u.leave r) := { h with }

theorem HostFrame.of_enter {s u : State} {i : Instr} (h : HostFrame (s.enter i) u) :
    HostFrame s u := { h with }

theorem Kept.of_call {i : Instr} {body : State → Res (Option Result)} {s t : State}
    (h : call i body s = .next t)
    (hl : ParamsOk s.params → (body (s.enter i)).Keeping (s.enter i)) : Kept s t := by
  obtain ⟨-, hp, -⟩ := call_eq_next h
  rcases call_leads (hl (paramsWf_ok hp)) h with ⟨r, u, -, hk, rfl⟩ | ⟨hr, u, hf, rfl⟩
  · exact .inl ⟨rfl, hk.enter_leave r⟩
  · exact .inr ⟨hr, u, hf.of_enter, rfl⟩

theorem RanWithin.kept {b : Nat} {i : Instr} {s t : State} (h : RanWithin (BuiltFrame b) i s t) :
    Kept s t := by
  rcases h with ⟨r, u, hf, rfl⟩ | ⟨hr, u, hf, rfl⟩
  · exact .inl ⟨rfl, hf.keepFrame.keeps.enter_leave r⟩
  · exact .inr ⟨hr, u, hf.toOpFrame.hostFrame.of_enter, rfl⟩

/-- Every row but `flash_init` names a bank. -/
theorem bankOf_of_identifies {i : Instr} (h : identifies i = false) : ∃ b, bankOf i = some b := by
  cases i with
  | flashInit => cases h
  | _ => exact ⟨_, rfl⟩

/-- Every row keeps the invariant's clauses on the banks, known banks known, and `HostFrame`. -/
theorem exec_keeps {i : Instr} {s t : State} (h : exec i s = .next t) : Kept s t := by
  cases hi : identifies i with
  | false =>
    obtain ⟨b, hb⟩ := bankOf_of_identifies hi
    have hF := BuiltFrame.flagClosed b
    exact (exec_ran hi hb hF.toOpClosed (fun _ => hF) h).kept
  | true =>
    cases i with
    | flashInit => exact .of_call h fun hp => flashInit_keeping hp
    | identify b =>
      exact .of_call h fun hp => onBank_keeping fun hb => beforeInit_keeping
        (onUnknown_keeping fun hu => (Res.Keeping.of_leads (identify_leads hb hp hu)).andReturn)
    | identCfi b =>
      exact .of_call h fun hp => onBank_keeping fun hb => beforeInit_keeping
        (onUnknown_keeping fun hu => (Res.Keeping.of_leads
          ((identCfi_leads hb hp hu).mono fun _ _ _ ht => ht.1)).andReturn)
    | identLegacy b m d =>
      refine .of_call h fun hp => onBank_keeping fun hb => beforeInit_keeping
        (onUnknown_keeping fun hu => ?_)
      split
      · rename_i e he
        exact (Res.Keeping.of_leads ((identLegacy_leads hb hp hu (legacyEntry_wf hp he) m d).mono
          fun _ _ _ ht => ht.1)).andReturn
      · exact .ok _
    | decodeCfi b =>
      exact .of_call h fun hp => onBank_keeping fun hb => beforeInit_keeping
        (onKnown_keeping fun hk => (Res.Keeping.of_decoded hk (decodeCfi_leads hb)).andReturn)
    | decodeLegacy b =>
      refine .of_call h fun hp => onBank_keeping fun hb => beforeInit_keeping
        (onKnown_keeping fun hk => ?_)
      split
      · rename_i e he
        exact (Res.Keeping.of_decoded hk
          (decodeLegacy_leads hb hp (legacyEntry_wf hp he))).andReturn
      · exact .ok _
    | _ => cases hi

/-- A row that no system reset cuts short. -/
theorem exec_keeps_of_noReset {i : Instr} {s t : State} (hr : s.env.resetIn = none)
    (h : exec i s = .next t) : Keeps s t := by
  rcases exec_keeps h with ⟨-, hk⟩ | ⟨hn, -⟩
  · exact hk
  · exact absurd hr hn

/-! ### After `flash_init` -/

theorem call_refused {i : Instr} {body : State → Res (Option Result)} {s t : State} {e : Refusal}
    (hb : body (s.enter i) = .refused e) : call i body s ≠ .next t := by
  intro h
  obtain ⟨-, -, ⟨r, u, hok, -⟩ | hreset⟩ := call_eq_next h
  · rw [hb] at hok; cases hok
  · rw [hb] at hreset; cases hreset

theorem onBank_beforeInit_refused {α : Type} {b : Nat} {body : State → Res α} {s : State}
    (hd : s.initDone = true) : ∃ e, onBank b (beforeInit body) s = .refused e := by
  unfold onBank
  split
  · exact ⟨_, if_pos hd⟩
  · exact ⟨_, rfl⟩

/-- A part of identification, refused once `flash_init` has returned (10_state.md R20; log 15). -/
theorem call_beforeInit_refused {i : Instr} {b : Nat} {body : State → Res (Option Result)}
    {s t : State} (hd : s.initDone = true) : call i (onBank b (beforeInit body)) s ≠ .next t := by
  obtain ⟨e, he⟩ := onBank_beforeInit_refused (b := b) (body := body) (s := s.enter i) hd
  exact call_refused he

/-- No row identifies a bank, decodes a geometry or probes once `flash_init` has returned. -/
theorem exec_after_init {i : Instr} {s t : State} (hd : s.initDone = true)
    (h : exec i s = .next t) : identifies i = false ∧ setsFlags i = isProtectOp i := by
  cases i with
  | flashInit => exact absurd h (call_refused (if_pos hd))
  | identify | identCfi | identLegacy | decodeCfi | decodeLegacy | probeProtection =>
    exact absurd h (call_beforeInit_refused hd)
  | _ => exact ⟨rfl, rfl⟩

/-- A row that ran within a frame, no reset due. -/
theorem RanWithin.of_noReset {F : State → State → Prop} {i : Instr} {s t : State}
    (h : RanWithin F i s t) (hr : s.env.resetIn = none) : ∃ r u, F (s.enter i) u ∧ t = u.leave r :=
  h.resolve_right fun hn => hn.1 hr

/-- After `flash_init` a row stays within the frame of its bank that leaves the registers, or, if it
is a Protect row, all but the flags (10_state.md R20, R25). -/
theorem exec_after_init_frame {i : Instr} {s t : State} (hd : s.initDone = true)
    (hr : s.env.resetIn = none) (h : exec i s = .next t) :
    ∃ b r u, BuiltFrame b (s.enter i) u ∧ (isProtectOp i = false → RegsFrame b (s.enter i) u) ∧
      t = u.leave r := by
  obtain ⟨hi, hflags⟩ := exec_after_init hd h
  obtain ⟨b, hb⟩ := bankOf_of_identifies hi
  cases hp : isProtectOp i with
  | true =>
    have hF := BuiltFrame.flagClosed b
    obtain ⟨r, u, hf, rfl⟩ := (exec_ran hi hb hF.toOpClosed (fun _ => hF) h).of_noReset hr
    exact ⟨b, r, u, hf, fun hn => (by cases hn), rfl⟩
  | false =>
    have hG : setsFlags i = true → FlagClosed b (RegsFrame b) := fun hs => by
      rw [hflags, hp] at hs
      cases hs
    obtain ⟨r, u, hf, rfl⟩ := (exec_ran hi hb (RegsFrame.opClosed b) hG h).of_noReset hr
    exact ⟨b, r, u, hf.builtFrame, fun _ => hf, rfl⟩

/-! ### The obligations -/

theorem State.systemReset_inv {s : State} (h : s.Inv) : s.systemReset.Inv where
  params := h.params
  bases := (List.map_map ..).trans h.bases
  banks bk hbk := by
    obtain ⟨x, hx, rfl⟩ := List.mem_map.mp hbk
    exact Bank.wf_atReset h.params (h.bases ▸ List.mem_map_of_mem hx) _
  empty bk hbk := by
    obtain ⟨x, -, rfl⟩ := List.mem_map.mp hbk
    exact fun _ => ⟨rfl, rfl, rfl⟩
  apart := pairwise_disjoint_of_empty fun bk hbk => by
    obtain ⟨x, -, rfl⟩ := List.mem_map.mp hbk
    rfl
  memory := h.memory
  idle := rfl

theorem State.Inv.withCalls {s : State} (h : s.Inv) (cs : List (List Byte)) :
    (s.withCalls cs).Inv := { h with }

theorem HostFrame.interruptedReset_inv {s u : State} (h : HostFrame s u) (hs : s.Inv) :
    u.interruptedReset.Inv := by
  refine u.interruptedReset_inv (h.params ▸ hs.params) ?_ (h.memory hs.memory)
  rw [h.params, ← hs.bases]
  exact h.map_bases

theorem exec_inv {i : Instr} {s t : State} (hs : s.Inv) (h : exec i s = .next t) : t.Inv := by
  rcases exec_keeps h with ⟨hpos, hk⟩ | ⟨-, u, hf, rfl⟩
  · exact hk.inv hs hpos
  · exact hf.interruptedReset_inv hs

/-- Settles O7: a row keeps the invariant (`exec_keeps`); so does a system reset between calls. -/
theorem invariantKeptByStep : Obligations.InvariantKeptByStep := by
  intro s t hs h
  rcases step_eq_next h with ⟨-, rfl⟩ | rfl | ⟨i, cs, h⟩
  · rw [State.resetNow, if_pos hs.idle]
    exact State.systemReset_inv hs
  · exact hs
  · exact exec_inv (hs.withCalls cs) h

/-- Settles O12: after `flash_init` every row stays within the frame of its bank; before it, a known
bank keeps its command set and vendor through every row. -/
theorem banksConstantAfterInit : Obligations.BanksConstantAfterInit := by
  refine ⟨fun i s t c hd hr h => ?_, fun i s t c hr hk h => ?_⟩
  · obtain ⟨b, r, u, hbuilt, hregs, rfl⟩ := exec_after_init_frame hd hr h
    refine ⟨hbuilt.initDone.trans hd, ?_⟩
    by_cases hc : c = b
    · subst hc
      exact ⟨hbuilt.built, fun hp => (hregs hp).regs.sectors⟩
    · have hsame : (u.leave r).bank c = s.bank c := hbuilt.others c hc
      rw [hsame]
      exact ⟨.refl _, fun _ => rfl⟩
  · exact ((exec_keeps_of_noReset hr h).evolves c).known hk

/-- Settles O17: every row takes an empty Unknown bank to one or identifies it (`exec_keeps`), and a
system reset leaves empty banks. -/
theorem unknownBanksStayEmpty : Obligations.UnknownBanksStayEmpty := by
  intro i s t hs h
  rcases exec_keeps h with ⟨-, hk⟩ | ⟨-, u, -, rfl⟩
  · exact hk.empty hs
  · exact u.interruptedReset_empty

end Sys2Proof.Machine
end

section
/-! PROOFS. Words and the addresses they are accessed at (20_memory.md): where a sector's words lie
(R31), a word and its bytes (R35), what a read returns (R43), and accesses that cannot be made (R33,
R37; O11, O23, O53, O55). -/

namespace Sys2Proof.Machine

/-! ### Addresses of a sector's words (R31) -/

theorem Bank.makeAddr_strictMono (bk : Bank) (i : Nat) : StrictMono (bk.makeAddr i) := fun _ _ h =>
  Nat.add_lt_add_left (Nat.mul_lt_mul_of_pos_right h bk.bytes_pos) _

/-- Settles O53. -/
theorem makeAddrStrictlyIncreasing : Obligations.MakeAddrStrictlyIncreasing := fun bk i _ _ =>
  ⟨fun h => bk.makeAddr_strictMono i h, fun h => (bk.makeAddr_strictMono i).injective h⟩

/-! ### Words and their bytes (R35) -/

theorem bytesOf_big (n : Nat) (v : Word) : bytesOf .big n v = (bytesOf .little n v).reverse := rfl

theorem wordOf_big (bs : List Byte) : wordOf .big bs = wordOf .little bs.reverse := rfl

theorem length_bytesOf_little (n : Nat) (v : Word) : (bytesOf .little n v).length = n := by
  simp [bytesOf]

theorem getElem?_bytesOf_little (v : Word) {n j : Nat} (hj : j < n) :
    (bytesOf .little n v)[j]? = some (byteOf j v) := by
  simp [bytesOf, hj]

theorem getElem?_bytesOf_big (v : Word) {n j : Nat} (hj : j < n) :
    (bytesOf .big n v)[j]? = some (byteOf (n - 1 - j) v) := by
  rw [bytesOf_big, List.getElem?_reverse (by rwa [length_bytesOf_little]), length_bytesOf_little,
    getElem?_bytesOf_little v (by omega)]

/-- Bit `k` of byte `j` is bit `8 * j + k` of the word. -/
theorem getLsbD_byteOf (j k : Nat) (w : Word) :
    (byteOf j w).getLsbD k = (decide (k < 8) && w.getLsbD (8 * j + k)) := by
  simp [byteOf]

/-- Bit `i` of a word is bit `i % 8` of its byte `i / 8`. -/
theorem getLsbD_leWord : ∀ (bs : List Byte) {i : Nat}, i < 32 →
    (leWord bs).getLsbD i = (bs.getD (i / 8) 0).getLsbD (i % 8)
  | [], _, _ => by simp [leWord]
  | b :: bs, i, hi => by
    by_cases h : i < 8
    · simp [leWord, h, hi, Nat.div_eq_of_lt h, Nat.mod_eq_of_lt h]
    · obtain ⟨k, rfl⟩ : ∃ k, i = k + 8 := ⟨i - 8, by omega⟩
      have ih := getLsbD_leWord bs (show k < 32 by omega)
      rw [BitVec.getLsbD_eq_getElem (by omega)] at ih
      simp [leWord, hi, ih]

theorem byteOf_leWord (bs : List Byte) {j : Nat} (hj : j < 4) :
    byteOf j (leWord bs) = bs.getD j 0 := by
  refine BitVec.eq_of_getLsbD_eq fun k hk => ?_
  rw [getLsbD_byteOf, getLsbD_leWord bs (by omega), show (8 * j + k) / 8 = j by omega,
    show (8 * j + k) % 8 = k by omega]
  simp [hk]

/-- The bytes of the word that a port's bytes make are these bytes. -/
theorem bytesOf_wordOf_little {bs : List Byte} (h : bs.length ≤ 4) :
    bytesOf .little bs.length (wordOf .little bs) = bs := by
  refine List.ext_getElem (length_bytesOf_little ..) fun j _ hj => ?_
  simp [bytesOf, wordOf, byteOf_leWord bs (show j < 4 by omega), hj]

/-- The lines of a port, low bits of the word, are those of its bytes. -/
theorem getLsbD_toPort (p : PortWidth) (v : Word) (i : Nat) :
    (toPort p v).getLsbD i = (decide (i < 8 * p.bytes) && v.getLsbD i) := by
  have hmask : ∀ i < 32, (portMask p).getLsbD i = decide (i < 8 * p.bytes) := by
    cases p <;> decide
  by_cases hi : i < 32
  · simp [toPort, hmask i hi, Bool.and_comm]
  · simp [BitVec.getLsbD_of_ge _ _ (not_lt.mp hi)]

/-- The word that a port's bytes of `v` make is the part of `v` the port carries. -/
theorem wordOf_bytesOf_little (p : PortWidth) (v : Word) :
    wordOf .little (bytesOf .little p.bytes v) = toPort p v := by
  refine BitVec.eq_of_getLsbD_eq fun i hi => ?_
  rw [wordOf, getLsbD_leWord _ hi, getLsbD_toPort, List.getD_eq_getElem?_getD]
  by_cases h : i < 8 * p.bytes
  · rw [getElem?_bytesOf_little v (show i / 8 < p.bytes by omega), Option.getD_some, getLsbD_byteOf,
      Nat.div_add_mod]
    simp [h, Nat.mod_lt]
  · rw [List.getElem?_eq_none (by rw [length_bytesOf_little]; omega)]
    simp [h]

/-- Settles O55: big order is little order with the bytes reversed, on both sides. -/
theorem wordsAndBytesInverse : Obligations.WordsAndBytesInverse := by
  refine fun o p => ⟨fun v => ?_, fun bs h => ?_, fun v j hj =>
    ⟨getElem?_bytesOf_little v hj, getElem?_bytesOf_big v hj⟩⟩
  · cases o with
    | little => exact wordOf_bytesOf_little p v
    | big => rw [bytesOf_big, wordOf_big, List.reverse_reverse, wordOf_bytesOf_little]
  · have hp : p.bytes ≤ 4 := by rcases portWidth_bytes_cases p with h | h | h <;> omega
    rw [← h] at hp ⊢
    cases o with
    | little => exact bytesOf_wordOf_little hp
    | big =>
      have hrev := bytesOf_wordOf_little (bs := bs.reverse) (by simpa using hp)
      rw [bytesOf_big, wordOf_big, ← bs.length_reverse, hrev, List.reverse_reverse]

/-! ### What a read returns (R43) -/

/-- Settles O23: the array's word in read-array mode (`answer_readArray`), and the frame of any
answer. -/
theorem readArrayReturnsStoredWord : Obligations.ReadArrayReturnsStoredWord := by
  intro s b a
  obtain ⟨hframe, hseq, hbanks, -⟩ := answer_frame b a s
  exact ⟨answer_readArray, hbanks, hframe.memory, hseq⟩

/-! ### Accesses that cannot be made (R33, R37; log 31) -/

/-- The piece ends as an access of bank `b` at `a` does in `s`, if `a` is misaligned or outside the
bank's window. -/
def Res.StopsAt {α : Type} (s : State) (b a : Nat) (r : Res α) : Prop :=
  (a % (s.bank b).bytes ≠ 0 → r = .fault (.misalignedAccess a)) ∧
  (a % (s.bank b).bytes = 0 → (s.bank b).inWindow s.params a = false → r = .refused .outsideWindow)

/-- The row `j`, run in `s`, ends as such an access does. -/
def RowStopsAt (s : State) (b a : Nat) (j : Instr) : Prop :=
  (a % (s.bank b).bytes ≠ 0 → exec j s = .fault (.misalignedAccess a)) ∧
  (a % (s.bank b).bytes = 0 → (s.bank b).inWindow s.params a = false →
    exec j s = .refused .outsideWindow)

section
variable {α β : Type} {s : State} {b a : Nat}

/-- What comes after the stop does not run. -/
theorem Res.StopsAt.bind {r : Res α} (h : r.StopsAt s b a) (k : α → State → Res β) :
    (r.bind k).StopsAt s b a :=
  ⟨fun ha => by rw [h.1 ha]; rfl, fun ha hw => by rw [h.2 ha hw]; rfl⟩

/-- Accesses of the bank before the stop move neither its width nor its window. -/
theorem Res.StopsAt.of_frame {t : State} {r : Res α} (h : r.StopsAt t b a) (f : BusFrame b s t) :
    r.StopsAt s b a := by
  unfold Res.StopsAt at h ⊢
  rwa [f.bytes, f.inWindow] at h

theorem busRead_stopsAt (s : State) (b a : Nat) : (busRead b a s).StopsAt s b a :=
  ⟨fun ha => by simp [busRead, ha], fun ha hw => by simp [busRead, ha, hw]⟩

theorem busWrite_stopsAt (s : State) (b a : Nat) (v : Word) (c : Option Command) :
    (busWrite b a v c s).StopsAt s b a :=
  ⟨fun ha => by simp [busWrite, ha], fun ha hw => by simp [busWrite, ha, hw]⟩

theorem writeCommand_stopsAt (s : State) (b a : Nat) (c : Command) :
    (writeCommand b a c s).StopsAt s b a := busWrite_stopsAt ..

/-- A reset to read-array is at least one write, whatever the command set (30_encoding.md R53). -/
theorem bankReset_stopsAt (s : State) (b a : Nat) : (bankReset b a s).StopsAt s b a := by
  obtain ⟨c, cs, hc⟩ : ∃ c cs, resetWords (s.bank b).cmdset = c :: cs := by
    cases (s.bank b).cmdset <;> exact ⟨_, _, rfl⟩
  simp only [bankReset, hc, List.map_cons, writeCommands]
  exact ((writeCommand_stopsAt s b a c).bind _).bind _

theorem readWords_stopsAt (s : State) (b a : Nat) {n : Nat} (hn : n ≠ 0) :
    (readWords b a n s).StopsAt s b a := by
  obtain ⟨n, rfl⟩ := Nat.exists_eq_succ_of_ne_zero hn
  exact (busRead_stopsAt s b a).bind _

/-! Polls: the timer read at entry does not stop, the first status read does. -/

theorem pollLoop_stopsAt (test : Word → Word → Verdict) {fuel : Nat} (hf : fuel ≠ 0)
    (ha : s.seq.pollAddr = a) : (pollLoop test b fuel s).StopsAt s b a := by
  obtain ⟨fuel, rfl⟩ := Nat.exists_eq_succ_of_ne_zero hf
  rw [← ha]
  exact (busRead_stopsAt s b _).bind _

theorem pollFuel_ne_zero (s : State) : pollFuel s ≠ 0 := by simp [pollFuel]

theorem pollStart_stopsAt {k : State → Res β} (budget : Nat) (hr : s.env.resetIn = none)
    (hk : ∀ t, t.seq.pollAddr = a → (k t).StopsAt t b a) :
    ((readTimer ((s.setSm .polling).setPoll a budget)).bind fun n t =>
      k (t.setPollStart n)).StopsAt s b a := by
  have f0 := (BusFrame.setSm b s .polling).trans (BusFrame.setPoll b _ a budget)
  obtain ⟨n, t, e⟩ := readTimer_completes (f0.resets hr)
  obtain ⟨f1, -, hseq, -⟩ := (readTimer_leads b _).of_eq e
  rw [e, Res.bind_ok]
  exact (hk _ (by simp [hseq])).of_frame (f0.trans (f1.trans (BusFrame.setPollStart b t n)))

theorem poll_stopsAt (budget : Nat) (tkind : Kind) (hr : s.env.resetIn = none) :
    (poll b a budget tkind s).StopsAt s b a := by
  simp only [poll, pollEnter, Res.bind_assoc]
  refine pollStart_stopsAt (k := fun t => (if (t.bank b).cmdset = .amdStyle then
    (busRead b t.seq.pollAddr t).bind fun w t => .ok () (t.setPollPrev w) else .ok () t).bind _)
    budget hr fun t ha => ?_
  split
  · subst ha
    exact ((busRead_stopsAt t b _).bind _).bind _
  · exact (pollLoop_stopsAt _ (pollFuel_ne_zero t) ha).bind _

theorem pollReady_stopsAt (budget : Nat) (hr : s.env.resetIn = none) :
    (pollReady b a budget s).StopsAt s b a :=
  pollStart_stopsAt (k := fun t =>
    (pollLoop (readyVerdict t.params (t.bank b)) b (pollFuel t) t).bind _) budget hr fun t ha =>
    (pollLoop_stopsAt _ (pollFuel_ne_zero t) ha).bind _

/-! Sequences whose first access is a read at their operand. -/

theorem withRange_stopsAt {body : State → Res α} {x n : Nat}
    (h : ∀ t, (body t).StopsAt t b a) : (withRange x n body s).StopsAt s b a :=
  (h (s.setRange (some (x, n)))).bind _

theorem programming_stopsAt {i : Nat} (d : Word) (steps : Nat → State → Res Kind)
    (hi : (s.bank b).sectorOf a = some i) : (programming b a d steps s).StopsAt s b a := by
  simp only [programming, hi]
  exact withRange_stopsAt fun t => (busRead_stopsAt t b a).bind _

theorem programBufferIntel_stopsAt {i : Nat} {ds : List Word} (hv : (s.bank b).cmdset = .intelStyle)
    (hbuf : (s.bank b).bufferSize ≠ 0) (hi : (s.bank b).sectorOf a = some i)
    (hfit : bufferFits (s.bank b) a ds.length i = true) :
    (programBufferIntel b a ds s).StopsAt s b a := by
  have hn : ds.length ≠ 0 := by
    simp only [bufferFits, Bool.and_eq_true, decide_eq_true_eq] at hfit
    omega
  simp only [programBufferIntel, hv, hbuf, hi, hfit]
  exact withRange_stopsAt fun t => (readWords_stopsAt t b a hn).bind _

theorem writeMerged_stopsAt {off : Nat} {bs : List Byte} (hne : bs ≠ [])
    (hoff : off + bs.length ≤ (s.bank b).bytes) : (writeMerged b a off bs s).StopsAt s b a := by
  simp only [writeMerged, hne, not_lt.mpr hoff]
  exact (busRead_stopsAt s b a).bind _

/-! Rows. -/

theorem cmdset_none_or_intel {x : CmdSet} (h : x ≠ .amdStyle) : x = .none ∨ x = .intelStyle := by
  cases x <;> simp_all

theorem cmdset_none_or_amd {x : CmdSet} (h : x ≠ .intelStyle) : x = .none ∨ x = .amdStyle := by
  cases x <;> simp_all

theorem onVariant_stopsAt {v : CmdSet} {body : State → Res α}
    (hv : (s.bank b).cmdset = .none ∨ (s.bank b).cmdset = v) (h : (body s).StopsAt s b a) :
    (onVariant b v body s).StopsAt s b a := by
  rwa [onVariant_of hv]

theorem onKnown_stopsAt {body : State → Res (Option Result)} (hk : (s.bank b).vendorId ≠ .unknown)
    (h : (body s).StopsAt s b a) : (onKnown b body s).StopsAt s b a := by
  rwa [onKnown_of_known hk]

/-- A row whose body stops. -/
theorem rowStopsAt_of_body {j : Instr} {body : State → Res (Option Result)} (hs : s.Ready b)
    (he : exec j s = call j (onBank b body) s) (h : (body (s.enter j)).StopsAt (s.enter j) b a) :
    RowStopsAt s b a j := by
  have hbody : onBank b body (s.enter j) = body (s.enter j) := onBank_of_lt hs.bank
  unfold RowStopsAt
  rw [he]
  exact ⟨fun ha => by simp [call, hs.idle, hs.params, hbody, h.1 ha],
    fun ha hw => by simp [call, hs.idle, hs.params, hbody, h.2 ha hw]⟩

/-- The Intel-style command words with an address operand are one command row each. -/
theorem exec_intelCommandRows (s : State) (b a : Nat) : ∀ p ∈ intelCommandRows b a,
    exec p.1 s = call p.1 (onBank b (onVariant b .intelStyle (commandRow b a p.2))) s := by
  simp only [intelCommandRows, List.forall_mem_cons]
  exact ⟨rfl, rfl, rfl, rfl, rfl, rfl, rfl, rfl, rfl, rfl, List.forall_mem_nil _⟩

/-- The rows with an address operand that run on any bank. -/
theorem anyVariantRows_stopAt (hs : s.Ready b) (n : Nat) (d : Word) (k : TimeoutKind) :
    ∀ j ∈ [Instr.data b a d, .resetIntel b a, .resetAmd b a, .bankReset b a, .poll b a n k],
      RowStopsAt s b a j := by
  simp only [List.forall_mem_cons]
  refine ⟨?data, ?resetIntel, ?resetAmd, ?bankReset, ?poll, List.forall_mem_nil _⟩
  case data => exact rowStopsAt_of_body hs rfl ((busWrite_stopsAt ..).bind _)
  case resetIntel => exact rowStopsAt_of_body hs rfl ((writeCommand_stopsAt ..).bind _)
  case resetAmd => exact rowStopsAt_of_body hs rfl ((writeCommand_stopsAt ..).bind _)
  case bankReset => exact rowStopsAt_of_body hs rfl ((bankReset_stopsAt ..).bind _)
  case poll =>
    exact rowStopsAt_of_body hs rfl ((poll_stopsAt (s := s.enter _) n _ hs.noReset).bind _)

/-- The Intel-style rows with an address operand, command words aside. -/
theorem intelRows_stopAt (hs : s.Ready b) (hv : (s.bank b).cmdset ≠ .amdStyle) (n : Nat)
    (c : Byte) :
    ∀ j ∈ [Instr.count b a c, .statusIntel b a, .pollReady b a n], RowStopsAt s b a j := by
  have hv' := cmdset_none_or_intel hv
  simp only [List.forall_mem_cons]
  refine ⟨?count, ?status, ?pollReady, List.forall_mem_nil _⟩
  case count =>
    exact rowStopsAt_of_body hs rfl (onVariant_stopsAt hv' ((busWrite_stopsAt ..).bind _))
  case status =>
    exact rowStopsAt_of_body hs rfl (onVariant_stopsAt hv' ((busRead_stopsAt ..).bind _))
  case pollReady =>
    exact rowStopsAt_of_body hs rfl (onVariant_stopsAt hv'
      ((pollReady_stopsAt (s := s.enter _) n hs.noReset).bind _))

/-- The AMD-style rows with an address operand. -/
theorem amdRows_stopAt (hs : s.Ready b) (hv : (s.bank b).cmdset ≠ .intelStyle) :
    ∀ j ∈ [Instr.sectorErase b a, .statusAmd b a], RowStopsAt s b a j := by
  have hv' := cmdset_none_or_amd hv
  simp only [List.forall_mem_cons]
  refine ⟨?sectorErase, ?status, List.forall_mem_nil _⟩
  case sectorErase =>
    exact rowStopsAt_of_body hs rfl (onVariant_stopsAt hv' ((writeCommand_stopsAt ..).bind _))
  case status =>
    exact rowStopsAt_of_body hs rfl (onVariant_stopsAt hv' ((busRead_stopsAt ..).bind _))

end

/-- Settles O11: each row's first access is at its address operand, and stops there. -/
theorem badAddressesStop : Obligations.BadAddressesStop := by
  intro s b a n off i d k c bs ds hs
  refine ⟨anyVariantRows_stopAt hs n d k, fun hv => ⟨fun p hp => ?_, intelRows_stopAt hs hv n c⟩,
    fun hv => amdRows_stopAt hs hv, fun hk hne hoff => ?_, fun hk hi =>
    ⟨fun hv => ?_, fun hv => ?_, fun hv hbuf hfit => ?_⟩⟩
  · exact rowStopsAt_of_body hs (exec_intelCommandRows s b a p hp)
      (onVariant_stopsAt (cmdset_none_or_intel hv) ((writeCommand_stopsAt ..).bind _))
  · exact rowStopsAt_of_body hs rfl
      (onKnown_stopsAt hk ((writeMerged_stopsAt (s := s.enter _) hne hoff).bind _))
  · exact (rowStopsAt_of_body hs rfl (onKnown_stopsAt hk (onVariant_stopsAt
      (cmdset_none_or_intel hv) ((programming_stopsAt (s := s.enter _) _ _ hi).bind _)))).1
  · exact (rowStopsAt_of_body hs rfl (onKnown_stopsAt hk (onVariant_stopsAt
      (cmdset_none_or_amd hv) ((programming_stopsAt (s := s.enter _) _ _ hi).bind _)))).1
  · exact (rowStopsAt_of_body hs rfl (onKnown_stopsAt hk (onVariant_stopsAt (.inr hv)
      ((programBufferIntel_stopsAt (s := s.enter _) hv hbuf hi (by simpa using hfit)).bind _)))).1

end Sys2Proof.Machine
end

section
/-! PROOFS. Calls as bytes (30_encoding.md R53, R65, R66; log 1): each reader of an operand undoes its
writer, so decoding undoes encoding; and a reader answers only operands that fit their fields (O1, O2,
O3). -/

namespace Sys2Proof

/-! ### Readers undo writers -/

theorem fits_iff {n : Nat} : fits n = true ↔ n < 4294967296 := decide_eq_true_iff

theorem fits_toNat (w : Word) : fits w.toNat = true := fits_iff.mpr w.isLt

section
variable {α : Type}

theorem needNat_putNat {n : Nat} (h : fits n = true) (rest : List Byte)
    (k : Nat → List Byte → Except DecodeError α) : needNat (putNat n ++ rest) k = k n rest := by
  have hn := fits_iff.mp h
  simp only [putNat, needNat, List.cons_append, List.nil_append, BitVec.toNat_ofNat]
  congr 1
  omega

@[simp] theorem needWord_putWord (w : Word) (rest : List Byte)
    (k : Word → List Byte → Except DecodeError α) : needWord (putWord w ++ rest) k = k w rest := by
  simp [needWord, putWord, needNat_putNat (fits_toNat w)]

@[simp] theorem needByte_putByte (b : Byte) (rest : List Byte)
    (k : Byte → List Byte → Except DecodeError α) : needByte (putByte b ++ rest) k = k b rest := rfl

@[simp] theorem needId_putId (m : ChipId) (rest : List Byte)
    (k : ChipId → List Byte → Except DecodeError α) : needId (putId m ++ rest) k = k m rest := by
  have hm : (m.extractLsb' 8 8 ++ m.extractLsb' 0 8 : ChipId) = m := by
    simp only [BitVec.extractLsb'_append_extractLsb'_eq_extractLsb', BitVec.extractLsb'_eq_self]
  simp [needId, putId, hm]

@[simp] theorem needBool_putBool (b : Bool) (rest : List Byte)
    (k : Bool → List Byte → Except DecodeError α) : needBool (putBool b ++ rest) k = k b rest := by
  cases b <;> rfl

@[simp] theorem needFlag_putFlag (f : ProtectFlag) (rest : List Byte)
    (k : ProtectFlag → List Byte → Except DecodeError α) :
    needFlag (putFlag f ++ rest) k = k f rest := by
  cases f <;> rfl

@[simp] theorem needKind_putKind (x : TimeoutKind) (rest : List Byte)
    (k : TimeoutKind → List Byte → Except DecodeError α) :
    needKind (putKind x ++ rest) k = k x rest := by
  cases x <;> rfl

theorem needBytes_putBytes {l : List Byte} (h : fits l.length = true) (rest : List Byte)
    (k : List Byte → List Byte → Except DecodeError α) :
    needBytes (putBytes l ++ rest) k = k l rest := by
  simp [needBytes, putBytes, needNat_putNat h]

/-- The bytes of a word are its fields of eight bits. -/
theorem putWord_eq (w : Word) : putWord w =
    [w.extractLsb' 0 8, w.extractLsb' 8 8, w.extractLsb' 16 8, w.extractLsb' 24 8] := by
  simp [putWord, putNat, BitVec.extractLsb', Nat.shiftRight_eq_div_pow]

theorem takeWords_flatMap_putWord (rest : List Byte) : ∀ ws : List Word,
    takeWords ws.length (ws.flatMap putWord ++ rest) = some (ws, rest)
  | [] => rfl
  | w :: ws => by
    have hw : (w.extractLsb' 24 8 ++ w.extractLsb' 16 8 ++ w.extractLsb' 8 8 ++
        w.extractLsb' 0 8 : Word) = w := by
      simp only [BitVec.extractLsb'_append_extractLsb'_eq_extractLsb', BitVec.extractLsb'_eq_self]
    simp [putWord_eq, takeWords, takeWords_flatMap_putWord rest ws, hw]

theorem needWords_putWords {ws : List Word} (h : fits ws.length = true) (rest : List Byte)
    (k : List Word → List Byte → Except DecodeError α) :
    needWords (putWords ws ++ rest) k = k ws rest := by
  simp [needWords, putWords, needNat_putNat h, takeWords_flatMap_putWord]

end

/-- Decoding undoes encoding: a row's byte and form choose its reader, which reads back operand by
operand what was written. -/
theorem decode_encode {i : Instr} (h : i.wellFormed = true) (rest : List Byte) :
    decode (encode i ++ rest) = .ok (i, rest) := by
  cases i
  all_goals
    simp only [Instr.wellFormed, Bool.and_eq_true] at h
    simp [encode, decode, decodeRow, needNat_putNat, needBytes_putBytes, needWords_putWords, h]

theorem decodeCall_encode {i : Instr} (h : i.wellFormed = true) :
    decodeCall (encode i) = .ok i := by
  have hd := decode_encode h []
  rw [List.append_nil] at hd
  simp [decodeCall, hd]

/-- Settles O1. -/
theorem encodeDecodeRoundTrip : Obligations.EncodeDecodeRoundTrip := fun _ rest h =>
  ⟨decode_encode h rest, decodeCall_encode h⟩

/-- Settles O3. -/
theorem tableWordsDecode : Obligations.TableWordsDecode := by
  unfold Obligations.TableWordsDecode
  decide

/-! ### Readers answer operands that fit -/

theorem length_takeWords : ∀ {n : Nat} {bs : List Byte} {r : List Word × List Byte},
    takeWords n bs = some r → r.1.length = n
  | 0, _, _, h => by cases h; rfl
  | n + 1, b0 :: b1 :: b2 :: b3 :: rest, _, h => by
    obtain ⟨r, hr, rfl⟩ := Option.map_eq_some_iff.mp h
    simp [length_takeWords hr]

/-- What the decoder of a row answers: a call and the bytes after it, or why there is none. -/
abbrev RowAnswer := Except DecodeError (Instr × List Byte)

/-- If the answer is a call, it is a well-formed one. -/
def GivesWellFormed (r : RowAnswer) : Prop := ∀ i rest, r = .ok (i, rest) → i.wellFormed = true

/-! One rule per reader: what the reader answers is well formed when what follows it is. -/

namespace GivesWellFormed

theorem ok {i : Instr} {bs : List Byte} (h : i.wellFormed = true) :
    GivesWellFormed (.ok (i, bs)) := by
  rintro _ _ ⟨⟩
  exact h

theorem error (e : DecodeError) : GivesWellFormed (.error e) := nofun

theorem ite {c : Prop} [Decidable c] {x y : RowAnswer} (hx : GivesWellFormed x)
    (hy : GivesWellFormed y) : GivesWellFormed (if c then x else y) := by
  split
  · exact hx
  · exact hy

variable {bs : List Byte}

theorem nat {k : Nat → List Byte → RowAnswer}
    (h : ∀ n rest, fits n = true → GivesWellFormed (k n rest)) :
    GivesWellFormed (needNat bs k) := by
  unfold needNat
  split
  · next b0 b1 b2 b3 rest => exact h _ _ (fits_iff.mpr (by omega))
  · exact error _

theorem word {k : Word → List Byte → RowAnswer} (h : ∀ w rest, GivesWellFormed (k w rest)) :
    GivesWellFormed (needWord bs k) :=
  nat fun _ _ _ => h _ _

theorem byte {k : Byte → List Byte → RowAnswer} (h : ∀ b rest, GivesWellFormed (k b rest)) :
    GivesWellFormed (needByte bs k) := by
  unfold needByte
  split
  · exact h _ _
  · exact error _

theorem id {k : ChipId → List Byte → RowAnswer} (h : ∀ m rest, GivesWellFormed (k m rest)) :
    GivesWellFormed (needId bs k) := by
  unfold needId
  split
  · exact h _ _
  · exact error _

theorem bool {k : Bool → List Byte → RowAnswer} (h : ∀ b rest, GivesWellFormed (k b rest)) :
    GivesWellFormed (needBool bs k) :=
  byte fun _ _ => ite (h _ _) (ite (h _ _) (error _))

theorem flag {k : ProtectFlag → List Byte → RowAnswer}
    (h : ∀ f rest, GivesWellFormed (k f rest)) : GivesWellFormed (needFlag bs k) :=
  byte fun _ _ => ite (h _ _) (ite (h _ _) (error _))

theorem kind {k : TimeoutKind → List Byte → RowAnswer}
    (h : ∀ x rest, GivesWellFormed (k x rest)) : GivesWellFormed (needKind bs k) :=
  byte fun _ _ => ite (h _ _) (ite (h _ _) (ite (h _ _) (ite (h _ _) (error _))))

theorem bytes {k : List Byte → List Byte → RowAnswer}
    (h : ∀ l rest, fits l.length = true → GivesWellFormed (k l rest)) :
    GivesWellFormed (needBytes bs k) :=
  nat fun n rest hn => by
    split
    · exact error _
    · exact h _ _ (by rwa [List.length_take_of_le (by omega)])

theorem words {k : List Word → List Byte → RowAnswer}
    (h : ∀ ws rest, fits ws.length = true → GivesWellFormed (k ws rest)) :
    GivesWellFormed (needWords bs k) :=
  nat fun n rest hn => by
    split
    · next ws rest' hw => exact h _ _ (by rwa [length_takeWords hw])
    · exact error _

end GivesWellFormed

/-- A row's operands are read one after another, each by the reader of its kind. -/
theorem decodeRow_givesWellFormed (op form : Nat) (bs : List Byte) :
    GivesWellFormed (decodeRow op form bs) := by
  unfold decodeRow
  split
  all_goals try split
  all_goals
    with_reducible repeat' first
      | exact .error _
      | refine .nat fun _ _ _ => ?_
      | refine .word fun _ _ => ?_
      | refine .byte fun _ _ => ?_
      | refine .id fun _ _ => ?_
      | refine .bool fun _ _ => ?_
      | refine .flag fun _ _ => ?_
      | refine .kind fun _ _ => ?_
      | refine .bytes fun _ _ _ => ?_
      | refine .words fun _ _ _ => ?_
      | exact .ok (by simp only [Instr.wellFormed, Bool.and_self, *])

/-- Settles O2. -/
theorem decodedCallsAreWellFormed : Obligations.DecodedCallsAreWellFormed := by
  intro bs i h
  unfold decodeCall decode at h
  split at h
  · next j rest hd =>
    split at h <;> cases h
    split at hd
    · exact decodeRow_givesWellFormed _ _ _ _ _ hd
    · cases hd
  · cases h

end Sys2Proof
end

section
/-! PROOFS. Command words and status words lane by lane (30_encoding.md R51, R52, R55 to R57), and the
normalisation of timeouts (R63; O54, O56, O57, O58). -/

namespace Sys2Proof

theorem ChipWidth.eight_le_bits (c : ChipWidth) : 8 ≤ c.bits := by cases c <;> decide

theorem PortWidth.bits_le (p : PortWidth) : p.bits ≤ 32 := by cases p <;> decide

end Sys2Proof

namespace Sys2Proof.Machine

/-! ### Replicated words lane by lane (R51, R52) -/

/-- The lanes of a port fill its lines. -/
theorem mux_mul_bits {p : PortWidth} {c : ChipWidth} (h : c.bits ≤ p.bits) :
    mux p c * c.bits = p.bits := by
  revert h
  cases p <;> cases c <;> decide

/-- A byte in lane `k` of lanes of `m` bits, bit by bit. -/
theorem getLsbD_lane (v : Byte) {m k : Nat} (hm : 8 ≤ m) (hk : (k + 1) * m ≤ 32) (i : Nat) :
    (v.setWidth 32 <<< (k * m)).getLsbD i =
      (decide (k * m ≤ i ∧ i < (k + 1) * m) && v.getLsbD (i % m)) := by
  rw [Nat.succ_mul] at hk ⊢
  by_cases hlo : k * m ≤ i
  · obtain ⟨j, rfl⟩ := Nat.exists_eq_add_of_le hlo
    by_cases hj : j < m
    · simp [hj, Nat.mod_eq_of_lt, show k * m + j < 32 by omega]
    · simp [hj, BitVec.getLsbD_of_ge v j (by omega)]
  · simp [hlo, not_le.mp hlo]

/-- The sum of a byte in each of the first `n` lanes, bit by bit: no two lanes share a bit, so nothing
is carried. -/
theorem getLsbD_sum_lanes (v : Byte) {m : Nat} (hm : 8 ≤ m) : ∀ {n : Nat}, n * m ≤ 32 → ∀ i,
    ((List.range n).foldl (fun acc k => acc + (v.setWidth 32 <<< (k * m))) (0 : Word)).getLsbD i =
      (decide (i < n * m) && v.getLsbD (i % m))
  | 0, _, i => by simp
  | n + 1, hn, i => by
    have hn' : n * m ≤ (n + 1) * m := Nat.mul_le_mul_right m n.le_succ
    have ih := getLsbD_sum_lanes v hm (hn'.trans hn)
    have hlane := getLsbD_lane v hm hn
    rw [List.range_succ, List.foldl_append, List.foldl_cons, List.foldl_nil,
      BitVec.add_eq_or_of_and_eq_zero, BitVec.getLsbD_or, ih, hlane]
    · by_cases h : i < n * m
      · simp [h, h.trans_le hn']
      · simp [h, not_lt.mp h]
    · refine BitVec.eq_of_getLsbD_eq fun j _ => ?_
      rw [BitVec.getLsbD_and, ih, hlane]
      by_cases h : j < n * m <;> simp [h]

theorem getLsbD_replicate (v : Byte) {p : PortWidth} {c : ChipWidth} (h : c.bits ≤ p.bits)
    (i : Nat) : (replicate v p c).getLsbD i = (decide (i < p.bits) && v.getLsbD (i % c.bits)) := by
  have hw := mux_mul_bits h
  rw [replicate, getLsbD_sum_lanes v c.eight_le_bits (by rw [hw]; exact p.bits_le), hw]

/-- Bit `j` of lane `k` is a line of the port. -/
theorem lane_lt_bits {p : PortWidth} {c : ChipWidth} (h : c.bits ≤ p.bits) {k j : Nat}
    (hk : k < mux p c) (hj : j < c.bits) : k * c.bits + j < p.bits := by
  rw [← mux_mul_bits h]
  have := Nat.mul_le_mul_right c.bits (Nat.succ_le_of_lt hk)
  rw [Nat.succ_mul] at this
  omega

/-- Bit `j` of lane `k` of a replicated byte. -/
theorem getLsbD_replicate_lane (v : Byte) {p : PortWidth} {c : ChipWidth} (h : c.bits ≤ p.bits)
    {k j : Nat} (hk : k < mux p c) (hj : j < c.bits) :
    (replicate v p c).getLsbD (k * c.bits + j) = v.getLsbD j := by
  simp [getLsbD_replicate v h, lane_lt_bits h hk hj, Nat.mod_eq_of_lt hj]

/-- Settles O54: bit `j` of a lane is bit `j` of the byte, which has none past its eighth. -/
theorem commandWordLanes : Obligations.CommandWordLanes := by
  refine fun v p c h => ⟨fun k hk j hj => ?_, fun j hj => ?_⟩
  · rw [getLsbD_replicate_lane v h hk hj]
    by_cases h8 : j < 8
    · simp [h8]
    · simp [BitVec.getLsbD_of_ge v j (not_lt.mp h8)]
  · simp [getLsbD_replicate v h, not_lt.mpr hj]

/-! ### Status words lane by lane (R56, R57) -/

/-- Bit `j` of the low byte of lane `k`. -/
theorem getElem_laneByte (c : ChipWidth) (k : Nat) (w : Word) {j : Nat} (hj : j < 8) :
    (laneByte c k w)[j] = w.getLsbD (k * c.bits + j) := by
  simp [laneByte]

/-- A word masked with `R(m)` is `R(x)` just when each lane's byte masked with `m` is `x`. -/
theorem and_replicate_eq_replicate_iff {p : PortWidth} {c : ChipWidth} (h : c.bits ≤ p.bits)
    (m x : Byte) (w : Word) : w &&& replicate m p c = replicate x p c ↔
      ∀ k < mux p c, laneByte c k w &&& m = x := by
  constructor
  · intro he k hk
    refine BitVec.eq_of_getLsbD_eq fun j hj => ?_
    have hj' := hj.trans_le c.eight_le_bits
    have hbit := congrArg (·.getLsbD (k * c.bits + j)) he
    simpa [getElem_laneByte, hj, getLsbD_replicate_lane _ h hk hj'] using hbit
  · intro hl
    refine BitVec.eq_of_getLsbD_eq fun i _ => ?_
    rw [BitVec.getLsbD_and, getLsbD_replicate m h, getLsbD_replicate x h]
    by_cases hi : i < p.bits
    · have hk : i / c.bits < mux p c := by
        rw [Nat.div_lt_iff_lt_mul (by have := c.eight_le_bits; omega), mux_mul_bits h]
        exact hi
      by_cases hj : i % c.bits < 8
      · have hbit := congrArg (·.getLsbD (i % c.bits)) (hl _ hk)
        simpa [getElem_laneByte, hi, hj, Nat.div_add_mod'] using hbit
      · simp [BitVec.getLsbD_of_ge _ _ (not_lt.mp hj)]
    · simp [hi]

theorem laneByte_xor (c : ChipWidth) (k : Nat) (v w : Word) :
    laneByte c k (v ^^^ w) = laneByte c k v ^^^ laneByte c k w := by
  simp [laneByte, BitVec.ushiftRight_xor_distrib]

theorem replicate_zero (p : PortWidth) (c : ChipWidth) : replicate 0 p c = 0 := by
  cases p <;> cases c <;> decide

/-- Settles O56: both tests compare a masked word with a replicated byte, READY or 0. -/
theorem completionTestsLaneByLane : Obligations.CompletionTestsLaneByLane := by
  refine fun p c mask prev w h => ⟨?_, ?_⟩
  · rw [doneIntel, beq_iff_eq]
    exact and_replicate_eq_replicate_iff h _ _ w
  · rw [doneAmd, beq_iff_eq, ← replicate_zero p c, and_replicate_eq_replicate_iff h]
    simp only [laneByte_xor, mux]

/-- A property `has` of sub-kinds, tested by `f`: the order finds the first sub-kind that has it. -/
theorem find?_subKindOrder {f : SubKind → Bool} {has : SubKind → Prop}
    (hf : ∀ sub, f sub = true ↔ has sub) :
    (subKindOrder.find? f = some .commandSequence ↔ has .commandSequence) ∧
    (subKindOrder.find? f = some .eraseOrLockBit ↔ has .eraseOrLockBit ∧ ¬ has .commandSequence) ∧
    (subKindOrder.find? f = some .locking ↔ has .locking ∧ ¬ has .commandSequence ∧
      ¬ has .eraseOrLockBit) ∧
    (subKindOrder.find? f = some .vppLow ↔ has .vppLow ∧ ¬ has .commandSequence ∧
      ¬ has .eraseOrLockBit ∧ ¬ has .locking) ∧
    (subKindOrder.find? f = none ↔ ∀ sub, ¬ has sub) := by
  have hall : (∀ sub, ¬ f sub = true) ↔ ∀ sub ∈ subKindOrder, ¬ f sub = true :=
    forall_congr' fun sub => by cases sub <;> simp [subKindOrder]
  simp only [← hf]
  rw [hall, subKindOrder]
  match h1 : f .commandSequence, h2 : f .eraseOrLockBit, h3 : f .locking, h4 : f .vppLow with
  | true, _, _, _ => simp [h1]
  | false, true, _, _ => simp [h1, h2]
  | false, false, true, _ => simp [h1, h2, h3]
  | false, false, false, true => simp [h1, h2, h3, h4]
  | false, false, false, false => simp [h1, h2, h3, h4]

/-- Some lane of the word has this sub-kind. -/
theorem contains_laneErrors_iff (st : StatusBits) (p : PortWidth) (c : ChipWidth) (w : Word)
    (sub : SubKind) :
    ((List.range (mux p c)).map fun k => laneError st (laneByte c k w)).contains (some sub) = true ↔
      ∃ k < p.bits / c.bits, laneError st (laneByte c k w) = some sub := by
  simp [mux]

theorem amdVerdict_ne_error (mask : Byte) (p : PortWidth) (c : ChipWidth) (prev w : Word)
    (sub : SubKind) : amdVerdict mask p c prev w ≠ .error sub := by
  unfold amdVerdict
  split <;> nofun

/-- Settles O57: a word's sub-kind is the first of the order found among its lanes'. -/
theorem errorDecodeOrder : Obligations.ErrorDecodeOrder := by
  refine ⟨fun l => rfl, fun p c mask prev w => ?_⟩
  obtain ⟨hcs, helb, hlock, hvpp, hnone⟩ := find?_subKindOrder (contains_laneErrors_iff {} p c w)
  exact ⟨hcs, helb, hlock, hvpp, hnone, fun hd => if_pos hd, amdVerdict_ne_error mask p c prev w⟩

/-! ### Timeouts (R63) -/

/-- Settles O58: `2 ^ (typ + max)` is at least 1, and the rest is arithmetic of the minimum and of the
division rounded up. -/
theorem timeoutNormalisation : Obligations.TimeoutNormalisation := by
  intro typ max
  rw [← Nat.pow_add]
  have hpos : 1 ≤ 2 ^ (typ + max) := Nat.one_le_two_pow
  simp only [normTimeout, timeoutMax]
  refine ⟨fun u => ?bounds, fun h => ?ms, fun h => ?us⟩
  case bounds =>
    cases u with
    | us => simp only; omega
    | ms => simp only; omega
  case ms => omega
  case us => omega

end Sys2Proof.Machine
end

section
/-! PROOFS. Bus words run by themselves (log 13): a row whose body is one access ends in the state after
that access, with the row's update (O18 to O22). -/

namespace Sys2Proof.Machine

/-! ### One access inside a call -/

section
variable {s : State} {b a : Nat} {j : Instr} {body : State → Res (Option Result)} {t : State}

/-- The bank of a call accepts the offset that an unlock cycle or the CFI query uses. -/
theorem State.Ready.accepts_baseAddr (hs : s.Ready b) (hi : s.Inv) {off : Nat}
    (ho : off < windowSpan s.params) : (s.bank b).Accepts s.params ((s.bank b).baseAddr off) :=
  Bank.accepts_baseAddr (hi.bank hs.bank).baseAligned ho

/-- A row whose body runs to a result: only the position and the result are the call's own. -/
theorem exec_of_body (hs : s.Ready b) (he : exec j s = call j (onBank b body) s)
    {r x : Option Result} {p : Option Position}
    (h : body (s.enter j) = .ok r (t.placed p x)) : exec j s = .next (t.leave r) := by
  have hb : onBank b body (s.enter j) = body (s.enter j) := onBank_of_lt hs.bank
  rw [he]
  simp [call, hs.idle, hs.params, hb, h]

/-- A row whose body is one write and an update. -/
theorem exec_of_write (hs : s.Ready b) (ha : (s.bank b).Accepts s.params a)
    (he : exec j s = call j (onBank b body) s) {v : Word} {c : Option Command}
    {k : Unit → State → Res (Option Result)}
    (hb : body (s.enter j) = (busWrite b a v c (s.enter j)).bind k)
    (hk : ∀ p, k () ((s.ran b (modeAfter (s.bank b).cmdset (s.bank b).device.afterResetAmd c)
      (decide (c = some .resetAmd)) [.write a v]).placed p s.result) =
      .ok none (t.placed p s.result)) :
    exec j s = .next (t.leave none) := by
  refine exec_of_body hs he (hb.trans ?_) (p := (s.enter j).advance.position) (x := s.result)
  rw [busWrite_eq (s := s.enter j) v c hs.noReset ha]
  exact hk _

/-- A row whose body is one read and an update. -/
theorem exec_of_read (hs : s.Ready b) (ha : (s.bank b).Accepts s.params a)
    (he : exec j s = call j (onBank b body) s) {r : Option Result}
    {k : Word → State → Res (Option Result)}
    (hb : body (s.enter j) = (busRead b a (s.enter j)).bind k)
    (hk : ∀ p, k (answer b a s).1 (((answer b a s).2.note (.read a (answer b a s).1)).placed p
      s.result) = .ok r (t.placed p s.result)) :
    exec j s = .next (t.leave r) := by
  refine exec_of_body hs he (hb.trans ?_) (p := (s.enter j).advance.position) (x := s.result)
  have hread : busRead b a (s.enter j) = .ok (answer b a (s.enter j).advance).1
      ((answer b a (s.enter j).advance).2.note (.read a (answer b a (s.enter j).advance).1)) := by
    obtain ⟨haligned, hwindow⟩ := ha
    simp [busRead, haligned, hwindow, microStep_completes (s := s.enter j) hs.noReset]
  have hans : answer b a (s.enter j).advance = ((answer b a s).1,
      (answer b a s).2.placed (s.enter j).advance.position s.result) := answer_placed b a s ..
  rw [hread, hans]
  exact hk _

/-! ### Command words -/

/-- The devices after a command that is no reset are in Command mode (20_memory.md R42). -/
theorem modeAfter_of_not_reset (cs : CmdSet) (x : Bool) {c : Command} (hi : c ≠ .resetIntel)
    (ha : c ≠ .resetAmd) : modeAfter cs x (some c) = .command := by
  cases cs <;> simp [modeAfter, resetCommand, hi, hi.symm, ha.symm]

/-- A write of a command that is no reset. -/
theorem exec_of_writeCommand (hs : s.Ready b) (ha : (s.bank b).Accepts s.params a)
    (he : exec j s = call j (onBank b body) s) {c : Command} (hi : c ≠ .resetIntel)
    (hr : c ≠ .resetAmd) {k : Unit → State → Res (Option Result)}
    (hb : body (s.enter j) = (writeCommand b a c (s.enter j)).bind k)
    (hk : ∀ p, k () ((s.ran b .command false [.write a (s.commandWord b c)]).placed p s.result) =
      .ok none (t.placed p s.result)) :
    exec j s = .next (t.leave none) := by
  refine exec_of_write hs ha he hb fun p => ?_
  rw [modeAfter_of_not_reset _ _ hi hr, decide_eq_false (by simpa using hr)]
  exact hk p

/-- A command word of a sequence. -/
theorem exec_of_commandRow (hs : s.Ready b) (ha : (s.bank b).Accepts s.params a)
    (he : exec j s = call j (onBank b body) s) {c : Command} (hi : c ≠ .resetIntel)
    (hr : c ≠ .resetAmd) (hb : body (s.enter j) = commandRow b a c (s.enter j)) :
    exec j s = .next (((s.ran b .command false [.write a (s.commandWord b c)]).setSm
      .commandIssued).leave none) :=
  exec_of_writeCommand hs ha he hi hr hb fun _ => rfl

/-- A command word of identification. -/
theorem exec_of_identRow (hs : s.Ready b) (hinv : s.Inv) {off : Nat}
    (ho : off < windowSpan s.params) (he : exec j s = call j (onBank b body) s) {c : Command}
    (hi : c ≠ .resetIntel) (hr : c ≠ .resetAmd)
    (hb : body (s.enter j) = identRow b off c (s.enter j)) :
    exec j s = .next ((s.ran b .command false [.write ((s.bank b).baseAddr off)
      (s.commandWord b c)]).leave none) :=
  exec_of_writeCommand hs (hs.accepts_baseAddr hinv ho) he hi hr hb fun _ => rfl

/-- Accesses of a bank leave its command set. -/
theorem State.ran_cmdset (hs : s.Ready b) (m : DeviceMode) (l : Bool) (es : List BusEvent) :
    ((s.ran b m l es).bank b).cmdset = (s.bank b).cmdset := by
  rw [State.ran, State.saw_bank, State.setDevice_bank_self s _ hs.bank]

/-- The bank's own reset word takes the devices to read-array mode and the sequencer to `Idle`. -/
theorem exec_of_ownReset (hs : s.Ready b) (ha : (s.bank b).Accepts s.params a) {c : Command}
    (he : exec j s = call j (onBank b (resetRow b a c)) s)
    (hc : resetCommand (s.bank b).cmdset = some c) :
    exec j s = .next (((s.ran b .readArray (decide (some c = some .resetAmd))
      [.write a (s.commandWord b c)]).setSm .idle).leave none) := by
  refine exec_of_write hs ha he rfl fun p => ?_
  rw [State.placed_bank, State.ran_cmdset hs, if_pos hc, modeAfter, if_pos (.inl hc)]
  rfl

/-- Any other reset word is a write like any other, but for RESET_INTEL right after RESET_AMD. -/
theorem exec_of_otherReset (hs : s.Ready b) (ha : (s.bank b).Accepts s.params a) {c : Command}
    (he : exec j s = call j (onBank b (resetRow b a c)) s)
    (hc : resetCommand (s.bank b).cmdset ≠ some c) :
    exec j s = .next ((s.ran b
      (if (s.bank b).device.afterResetAmd = true ∧ c = .resetIntel then .readArray else .command)
      (decide (some c = some .resetAmd)) [.write a (s.commandWord b c)]).leave none) := by
  refine exec_of_write hs ha he rfl fun p => ?_
  rw [State.placed_bank, State.ran_cmdset hs, if_neg hc]
  simp only [modeAfter, hc, false_or]
  rfl

/-- A status word: the word read, its test, and the registers after. -/
theorem exec_of_statusRow (test : Word → Word → Verdict) (hs : s.Ready b)
    (ha : (s.bank b).Accepts s.params a) (he : exec j s = call j (onBank b body) s)
    (hb : body (s.enter j) = statusRow b a test (s.enter j)) :
    let w := (answer b a s).1
    let u := (answer b a s).2.note (.read a w)
    let v := test s.seq.pollPrev w
    exec j s = .next ((if v = .notDone then (u.setSm (smOfVerdict v)).setPollPrev w
      else u.setSm (smOfVerdict v)).leave (some (.verdict v))) := by
  refine exec_of_read hs ha he hb fun p => ?_
  have hseq : (answer b a s).2.seq = s.seq := (answer_frame b a s).2.1
  simp only [State.placed_seq, State.note_seq, hseq]
  split <;> rfl

end

/-- The Intel-style command words are no resets. -/
theorem intelCommandRows_not_reset (b a : Nat) :
    ∀ p ∈ intelCommandRows b a, p.2 ≠ .resetIntel ∧ p.2 ≠ .resetAmd := by
  simp [intelCommandRows]

/-- Settles O18: each is a command row on a bank of its variant. -/
theorem intelCommandWordsRun : Obligations.IntelCommandWordsRun := by
  intro s b a hs hv ha p hp
  obtain ⟨hi, hr⟩ := intelCommandRows_not_reset b a p hp
  exact exec_of_commandRow hs ha (exec_intelCommandRows s b a p hp) hi hr
    (onVariant_of (cmdset_none_or_intel hv))

/-- Settles O19: each is a command row at its offset. -/
theorem amdCommandWordsRun : Obligations.AmdCommandWordsRun := by
  intro s b a hs hinv hv ha
  have h1 := hs.accepts_baseAddr hinv (unlock1_lt_windowSpan s.params)
  have h2 := hs.accepts_baseAddr hinv (unlock2_lt_windowSpan s.params)
  simp only [amdCommandRows, List.forall_mem_cons]
  refine ⟨?unlock1, ?unlock2, ?eraseSetup, ?amdProgram, ?sectorErase, List.forall_mem_nil _⟩
  case unlock1 => exact exec_of_commandRow hs h1 rfl nofun nofun (if_pos hv)
  case unlock2 => exact exec_of_commandRow hs h2 rfl nofun nofun (if_pos hv)
  case eraseSetup => exact exec_of_commandRow hs h1 rfl nofun nofun (onVariant_of (.inr hv))
  case amdProgram => exact exec_of_commandRow hs h1 rfl nofun nofun (onVariant_of (.inr hv))
  case sectorErase => exact exec_of_commandRow hs ha rfl nofun nofun (onVariant_of (.inr hv))

/-- Settles O20: each is a row of identification at its offset. -/
theorem identCommandWordsRun : Obligations.IdentCommandWordsRun := by
  intro s b hs hinv
  have h1 := unlock1_lt_windowSpan s.params
  have h2 := unlock2_lt_windowSpan s.params
  simp only [identCommandRows, List.cons_append, List.nil_append, List.forall_mem_cons]
  refine ⟨?readId, ?cfiQuery, ?unlock⟩
  case readId => exact exec_of_identRow hs hinv h1 rfl nofun nofun rfl
  case cfiQuery => exact exec_of_identRow hs hinv (query_lt_windowSpan _) rfl nofun nofun rfl
  case unlock =>
    split
    · exact List.forall_mem_nil _
    · next hv =>
      simp only [List.forall_mem_cons]
      refine ⟨?unlock1, ?unlock2, List.forall_mem_nil _⟩
      case unlock1 => exact exec_of_identRow hs hinv h1 rfl nofun nofun (if_neg hv)
      case unlock2 => exact exec_of_identRow hs hinv h2 rfl nofun nofun (if_neg hv)

theorem resetCommand_eq_intel_iff {cs : CmdSet} :
    resetCommand cs = some .resetIntel ↔ cs = .intelStyle := by
  cases cs <;> simp [resetCommand]

theorem resetCommand_eq_amd_iff {cs : CmdSet} :
    resetCommand cs = some .resetAmd ↔ cs = .amdStyle := by
  cases cs <;> simp [resetCommand]

/-- Settles O21: a reset word is the bank's own or another one; the other two are one write each. -/
theorem resetCountAndDataWordsRun : Obligations.ResetCountAndDataWordsRun := by
  intro s b a n d hs ha rep wrote
  refine ⟨?resetIntel, ?resetAmd, fun hv => ?count, ?data⟩
  case resetIntel =>
    by_cases hv : (s.bank b).cmdset = .intelStyle
    · rw [if_pos hv]
      exact exec_of_ownReset hs ha rfl (resetCommand_eq_intel_iff.mpr hv)
    · rw [if_neg hv, exec_of_otherReset hs ha rfl (mt resetCommand_eq_intel_iff.mp hv)]
      simp only [and_true]
      rfl
  case resetAmd =>
    by_cases hv : (s.bank b).cmdset = .amdStyle
    · rw [if_pos hv]
      exact exec_of_ownReset hs ha rfl (resetCommand_eq_amd_iff.mpr hv)
    · rw [if_neg hv, exec_of_otherReset hs ha rfl (mt resetCommand_eq_amd_iff.mp hv)]
      simp only [reduceCtorEq, and_false]
      rfl
  case count =>
    exact exec_of_write hs ha rfl (onVariant_of (cmdset_none_or_intel hv)) fun _ => rfl
  case data => exact exec_of_write hs ha rfl rfl fun _ => rfl

/-- Settles O22: each is a status row with the test of its variant. -/
theorem statusWordsRun : Obligations.StatusWordsRun := by
  refine fun s b a hs ha => ⟨fun hv => ?intel, fun hv => ?amd⟩
  case intel =>
    exact exec_of_statusRow (fun _ => intelVerdict s.params.status (s.bank b).portWidth
      (s.bank b).chipWidth) hs ha rfl (onVariant_of (cmdset_none_or_intel hv))
  case amd =>
    exact exec_of_statusRow (amdVerdict s.params.amdToggleMask (s.bank b).portWidth
      (s.bank b).chipWidth) hs ha rfl (onVariant_of (cmdset_none_or_amd hv))

end Sys2Proof.Machine
end

section
/-! PROOFS. Rows refused on a bank of the other variant (40_identification.md R80; O10). -/

namespace Sys2Proof.Machine

section
variable {s : State} {b : Nat} {j : Instr} {v : CmdSet}

/-- A row whose body is refused. -/
theorem exec_of_refused {body : State → Res (Option Result)} {e : Refusal} (hs : s.Ready b)
    (he : exec j s = call j (onBank b body) s) (h : body (s.enter j) = .refused e) :
    exec j s = .refused e := by
  have hb : onBank b body (s.enter j) = body (s.enter j) := onBank_of_lt hs.bank
  rw [he]
  simp [call, hs.idle, hs.params, hb, h]

theorem onVariant_of_not {α : Type} {body : State → Res α}
    (h : ¬ ((s.bank b).cmdset = .none ∨ (s.bank b).cmdset = v)) :
    onVariant b v body s = .refused .variantMixed := if_neg h

/-- A bus word of a variant on a bank of the other. -/
theorem exec_of_otherVariant {body : State → Res (Option Result)} (hs : s.Ready b)
    (hv : ¬ ((s.bank b).cmdset = .none ∨ (s.bank b).cmdset = v))
    (he : exec j s = call j (onBank b (onVariant b v body)) s) :
    exec j s = .refused .variantMixed :=
  exec_of_refused hs he (onVariant_of_not (s := s.enter j) hv)

/-- A sequence of a variant on a known bank of the other. -/
theorem exec_of_otherVariant_known {body : State → Res (Option Result)} (hs : s.Ready b)
    (hk : (s.bank b).vendorId ≠ .unknown)
    (hv : ¬ ((s.bank b).cmdset = .none ∨ (s.bank b).cmdset = v))
    (he : exec j s = call j (onBank b (onKnown b (onVariant b v body))) s) :
    exec j s = .refused .variantMixed :=
  exec_of_refused hs he ((onKnown_of_known (s := s.enter j) hk).trans
    (onVariant_of_not (s := s.enter j) hv))

end

/-- Settles O10: each row tests the variant before anything else, on a known bank. -/
theorem variantsNeverMix : Obligations.VariantsNeverMix := by
  refine fun s b a i d ds n lock hs hk => ⟨fun ha => ?intelRows, fun hi => ?amdRows⟩
  case intelRows =>
    have hv : ¬ ((s.bank b).cmdset = .none ∨ (s.bank b).cmdset = .intelStyle) := by simp [ha]
    refine ⟨fun p hp => exec_of_otherVariant hs hv (exec_intelCommandRows s b a p hp), ?_⟩
    simp only [List.forall_mem_cons]
    refine ⟨?count, ?status, ?pollReady, ?erase, ?word, ?buffer, ?protect, List.forall_mem_nil _⟩
    case count | status | pollReady => exact exec_of_otherVariant hs hv rfl
    case erase | word | buffer | protect => exact exec_of_otherVariant_known hs hk hv rfl
  case amdRows =>
    have hv : ¬ ((s.bank b).cmdset = .none ∨ (s.bank b).cmdset = .amdStyle) := by simp [hi]
    simp only [List.forall_mem_cons]
    refine ⟨?setup, ?program, ?sectorErase, ?status, ?erase, ?word, ?protect,
      List.forall_mem_nil _⟩
    case setup | program | sectorErase | status => exact exec_of_otherVariant hs hv rfl
    case erase | word | protect => exact exec_of_otherVariant_known hs hk hv rfl

end Sys2Proof.Machine
end

section
/-! PROOFS. How an operation on one bank unfolds (`State.Reaches`): the bank so far, the bus events so
far, and how many of the devices' answers it has taken. One lemma for each access and for each reader. -/

namespace Sys2Proof.Machine

/-! ### Answers taken (20_memory.md R43; log 7) -/

/-- A draw takes the next answer. -/
theorem drawWord_answerAt (p : PortWidth) (s : State) :
    (drawWord p s).1 = toPort p (s.answerAt 0) ∧
      ∀ k, (drawWord p s).2.answerAt k = s.answerAt (1 + k) := by
  cases hi : s.env.busInput with
  | cons w ws => simp [drawWord, State.answerAt, hi, Nat.add_comm 1]
  | nil => simp [drawWord, State.answerAt, hi, Nat.add_assoc]

/-- Every read of the bank is a draw: its devices are in Command mode, or it has no array. -/
def Bank.Draws (bk : Bank) : Prop := bk.device.mode = .command ∨ bk.size = 0

theorem answer_of_draws {s : State} {b : Nat} (h : (s.bank b).Draws) (a : Nat) :
    answer b a s = drawWord (s.bank b).portWidth s := by
  refine if_neg fun ⟨hm, ha⟩ => ?_
  rcases h with h | h
  · rw [hm] at h
    cases h
  · have := (s.bank b).bytes_pos
    simp only [Bank.inArray, decide_eq_true_eq] at ha
    omega

theorem busRead_eq {s : State} {b a : Nat} (h : s.env.resetIn = none)
    (ha : (s.bank b).Accepts s.params a) :
    busRead b a s = .ok (answer b a s.advance).1
      ((answer b a s.advance).2.note (.read a (answer b a s.advance).1)) := by
  obtain ⟨haligned, hwindow⟩ := ha
  simp [busRead, haligned, hwindow, microStep_completes h]

/-! ### Command offsets below the window's end -/

theorem lt_windowSpan_of_mem {p : Params} : ∀ off ∈ commandOffsets p, off < windowSpan p :=
  fun _ h => lt_windowSpan_of_le h le_rfl

theorem qry_lt_windowSpan (p : Params) : p.cfi.qry + 2 < windowSpan p :=
  lt_windowSpan_of_mem _ (by simp [commandOffsets])

theorem primaryId_lt_windowSpan (p : Params) : p.cfi.primaryId + 1 < windowSpan p :=
  lt_windowSpan_of_mem _ (by simp [commandOffsets])

/-- The command offsets DecodeCFI reads of up to 255 regions (30_encoding.md R61). -/
theorem cfiOffsets_lt_windowSpan (p : Params) {n : Nat} (hn : n ≤ 255) :
    ∀ off ∈ cfiOffsets p.cfi n, off < windowSpan p := by
  have h := lt_windowSpan_of_mem (p := p)
  simp only [commandOffsets, List.forall_mem_cons] at h
  obtain ⟨-, -, -, -, -, hw, hb, he, hwm, hbm, hem, hexp, hcount, hregions, -⟩ := h
  simp only [cfiOffsets, List.forall_mem_append, List.forall_mem_cons, List.forall_mem_map,
    List.mem_range]
  exact ⟨⟨hw, hb, he, hwm, hbm, hem, by omega, hexp, hcount, List.forall_mem_nil _⟩,
    fun k hk => by omega⟩

/-! ### Where an operation on one bank has come to -/

/-- `t` is where an operation on bank `b`, begun in `s`, has come to: the bank is `bk`, the trace shows
`es` more, and `n` answers have been taken; the sequencer, the array, the timer and the other banks are
as they were. -/
structure State.Reaches (s : State) (b : Nat) (bk : Bank) (es : List BusEvent) (n : Nat)
    (t : State) : Prop where
  params : t.params = s.params
  initDone : t.initDone = s.initDone
  calls : t.calls = s.calls
  memory : t.memory = s.memory
  seq : t.seq = s.seq
  count : t.banks.length = s.banks.length
  others : ∀ c, c ≠ b → t.bank c = s.bank c
  ie : t.env.ie = s.env.ie
  timer : t.env.timer = s.env.timer
  noReset : t.env.resetIn = none
  hasBank : b < t.banks.length
  bank : t.bank b = bk
  base : bk.baseAddress = (s.bank b).baseAddress
  placed : bk.Placed
  trace : t.log.trace = s.log.trace ++ es
  answers : ∀ k, t.answerAt k = s.answerAt (n + k)

/-- The piece runs to the value `x`, and the operation begun in `s` on bank `b` has then come to `bk`,
`es` and `n`. -/
def Res.Runs {α : Type} (r : Res α) (s : State) (b : Nat) (x : α) (bk : Bank) (es : List BusEvent)
    (n : Nat) : Prop := r.Yields fun y t => y = x ∧ s.Reaches b bk es n t

/-- The piece runs so if the range it detects is one the configuration allows, and is refused otherwise
(00_scope.md R9; log 22). -/
def Res.RunsIf {α : Type} (r : Res α) (allowed : Prop) (s : State) (b : Nat) (x : α) (bk : Bank)
    (es : List BusEvent) (n : Nat) : Prop :=
  (allowed → r.Runs s b x bk es n) ∧ (¬ allowed → r = .refused .illFormedConfig)

section
variable {α β : Type} {s t : State} {b n m : Nat} {bk bk' : Bank} {es fs : List BusEvent} {x : α}
  {y : β} {allowed : Prop} {r : Res α} {k : α → State → Res β}

theorem State.Reaches.ok (h : s.Reaches b bk es n t) (x : α) : (Res.ok x t).Runs s b x bk es n :=
  .of_ok ⟨rfl, h⟩

theorem Res.Runs.bind (h : r.Runs s b x bk es n)
    (hk : ∀ t, s.Reaches b bk es n t → (k x t).Runs s b y bk' fs m) :
    (r.bind k).Runs s b y bk' fs m :=
  Res.Yields.bind h fun _ t ⟨hx, ht⟩ => hx ▸ hk t ht

theorem Res.Runs.bindIf (h : r.Runs s b x bk es n)
    (hk : ∀ t, s.Reaches b bk es n t → (k x t).RunsIf allowed s b y bk' fs m) :
    (r.bind k).RunsIf allowed s b y bk' fs m := by
  obtain ⟨_, t, rfl, rfl, ht⟩ := h
  exact hk t ht

theorem Res.RunsIf.bind (h : r.RunsIf allowed s b x bk es n)
    (hk : ∀ t, s.Reaches b bk es n t → (k x t).Runs s b y bk' fs m) :
    (r.bind k).RunsIf allowed s b y bk' fs m :=
  ⟨fun hok => (h.1 hok).bind hk, fun hno => by rw [h.2 hno]; rfl⟩

theorem Res.Runs.congr {es' : List BusEvent} {n' : Nat} (h : r.Runs s b x bk es n) (he : es = es')
    (hn : n = n') : r.Runs s b x bk es' n' := he ▸ hn ▸ h

theorem Res.RunsIf.congr {es' : List BusEvent} {n' : Nat} (h : r.RunsIf allowed s b x bk es n)
    (he : es = es') (hn : n = n') : r.RunsIf allowed s b x bk es' n' := he ▸ hn ▸ h

/-- Bus accesses of the bank. -/
theorem State.Reaches.access {u : State} (h : s.Reaches b bk es n t) (f : BusFrame b t u)
    (hseq : u.seq = t.seq) (htimer : u.env.timer = t.env.timer) (hbank : u.bank b = bk')
    (htrace : u.log.trace = t.log.trace ++ fs) (hans : ∀ k, u.answerAt k = t.answerAt (m + k)) :
    s.Reaches b bk' (es ++ fs) (n + m) u where
  params := f.params.trans h.params
  initDone := f.initDone.trans h.initDone
  calls := f.calls.trans h.calls
  memory := f.memory.trans h.memory
  seq := hseq.trans h.seq
  count := f.count.trans h.count
  others c hc := (f.others c hc).trans (h.others c hc)
  ie := f.ie.trans h.ie
  timer := htimer.trans h.timer
  noReset := f.resets h.noReset
  hasBank := f.lt h.hasBank
  bank := hbank
  base := by rw [← hbank, f.baseAddress, h.bank, h.base]
  placed := hbank ▸ f.placed (h.bank ▸ h.placed)
  trace := by rw [htrace, h.trace, List.append_assoc]
  answers k := by rw [hans, h.answers, Nat.add_assoc]

/-- What the frame of the row asks of where it ends. -/
theorem State.Reaches.frame (h : s.Reaches b bk es n t) (r : Option Result) :
    State.Frame b s (t.leave r) where
  params := h.params
  initDone := h.initDone
  calls := h.calls
  position := rfl
  count := h.count
  others := h.others
  ie := h.ie
  noReset := h.noReset
  timer := h.timer.ge

end

section
variable {s t : State} {b n : Nat} {bk : Bank} {es : List BusEvent}

/-- Where an operation starts. -/
theorem State.Ready.reaches (hs : s.Ready b) (hi : s.Inv) (j : Instr) :
    s.Reaches b (s.bank b) [] 0 (s.enter j) where
  params := rfl
  initDone := rfl
  calls := rfl
  memory := rfl
  seq := rfl
  count := rfl
  others _ _ := rfl
  ie := rfl
  timer := rfl
  noReset := hs.noReset
  hasBank := hs.bank
  bank := rfl
  base := rfl
  placed := (hi.bank hs.bank).placed
  trace := (List.append_nil _).symm
  answers k := by rw [Nat.zero_add]; rfl

/-- A write of the bank's registers. -/
theorem State.Reaches.setBank (h : s.Reaches b bk es n t) {bk' : Bank}
    (hbase : bk'.baseAddress = bk.baseAddress) (hw : bk'.chipWidth.bits ≤ bk'.portWidth.bits) :
    s.Reaches b bk' es n (t.setBank b bk') :=
  { h with
    count := by simpa using h.count
    others := fun c hc => (State.setBank_bank_other t bk' hc).trans (h.others c hc)
    hasBank := by simpa using h.hasBank
    bank := State.setBank_bank_self t bk' h.hasBank
    base := hbase.trans h.base
    placed := ⟨hw, hbase ▸ h.placed.baseAligned, hbase ▸ h.placed.baseRoom⟩ }

/-! ### Writes -/

theorem State.Reaches.accepts (h : s.Reaches b bk es n t) {off : Nat}
    (ho : off < windowSpan s.params) : bk.Accepts s.params (bk.baseAddr off) :=
  Bank.accepts_baseAddr h.placed.baseAligned ho

/-- A command written: the devices move, the trace shows it. -/
theorem State.Reaches.writeCommand (h : s.Reaches b bk es n t) {a : Nat} (c : Command)
    (ha : bk.Accepts s.params a) :
    (writeCommand b a c t).Runs s b () { bk with device := deviceAfter bk.cmdset bk.device (some c) }
      (es ++ bk.commandEvents s.params [(a, c)]) n := by
  obtain ⟨hbk, hp⟩ := And.intro h.bank h.params
  refine ⟨(), _, busWrite_eq _ _ h.noReset (by rwa [hbk, hp]), rfl, ?_⟩
  refine h.access (m := 0) (((BusFrame.advance b t).trans
    (.setDevice (s := t.advance) h.hasBank _ _)).trans (.note b _ _)) rfl rfl ?_ ?_
    fun k => by rw [Nat.zero_add]; rfl
  · rw [← hbk]
    exact State.setDevice_bank_self t.advance _ h.hasBank
  · simp [Bank.commandEvents, State.commandWord, Bank.rep, hbk, hp]

/-- Commands written in order. -/
theorem State.Reaches.writeCommands : ∀ (cs : List (Nat × Command)) {t : State} {bk : Bank}
    {es : List BusEvent}, s.Reaches b bk es n t → (∀ ac ∈ cs, bk.Accepts s.params ac.1) →
    (writeCommands b cs t).Runs s b () { bk with device := devicesAfter bk.cmdset bk.device cs }
      (es ++ bk.commandEvents s.params cs) n
  | [], _, _, es, h, _ => (h.ok ()).congr (List.append_nil es).symm rfl
  | (a, c) :: cs, _, bk, es, h, ha => by
    obtain ⟨hac, hcs⟩ := List.forall_mem_cons.mp ha
    refine (h.writeCommand c hac).bind fun _ hu => (hu.writeCommands cs hcs).congr ?_ rfl
    simp [Bank.commandEvents]

/-- The bank with its devices in mode `m`, the last write `RESET_AMD` or not. -/
def Bank.inMode (bk : Bank) (m : DeviceMode) (lastResetAmd : Bool) : Bank :=
  { bk with device := { bk.device with mode := m, afterResetAmd := lastResetAmd } }

/-- Both resets at the base (40_identification.md R70). -/
def Bank.resets (bk : Bank) : List (Nat × Command) :=
  [(bk.baseAddress, .resetAmd), (bk.baseAddress, .resetIntel)]

theorem State.Reaches.identReset (h : s.Reaches b bk es n t) :
    (identReset b t).Runs s b () (bk.inMode .readArray false)
      (es ++ bk.commandEvents s.params bk.resets) n := by
  have hd : devicesAfter bk.cmdset bk.device bk.resets =
      { bk.device with mode := .readArray, afterResetAmd := false } := by
    cases hc : bk.cmdset <;> rfl
  have hw := h.writeCommands bk.resets (by
    simp [Bank.resets, Bank.accepts_base h.placed.baseAligned])
  rw [hd] at hw
  rw [Machine.identReset, h.bank]
  exact hw

/-- The read-ID entry (40_identification.md R71). -/
theorem State.Reaches.readIdEnter (h : s.Reaches b bk es n t) :
    (readIdEnter b t).Runs s b () (bk.inMode .command false)
      (es ++ bk.commandEvents s.params (amdPrefix s.params bk .readId)) n := by
  have hd : devicesAfter bk.cmdset bk.device (amdPrefix s.params bk .readId) =
      { bk.device with mode := .command, afterResetAmd := false } := by
    cases hc : bk.cmdset <;> rfl
  have hw := h.writeCommands (amdPrefix s.params bk .readId) (by
    simp [amdPrefix, h.accepts (unlock1_lt_windowSpan s.params),
      h.accepts (unlock2_lt_windowSpan s.params)])
  rw [hd] at hw
  rw [Machine.readIdEnter, h.bank, h.params]
  exact hw

/-- The query command (40_identification.md R72). -/
theorem State.Reaches.cfiQuery (h : s.Reaches b bk es n t) :
    (Machine.writeCommand b ((t.bank b).baseAddr t.params.cfi.query) .cfiQuery t).Runs s b ()
      (bk.inMode .command false)
      (es ++ bk.commandEvents s.params [(bk.baseAddr s.params.cfi.query, .cfiQuery)]) n := by
  have hd : deviceAfter bk.cmdset bk.device (some .cfiQuery) =
      { bk.device with mode := .command, afterResetAmd := false } := by
    cases hc : bk.cmdset <;> simp [deviceAfter, modeAfter, resetCommand]
  have hw := h.writeCommand .cfiQuery (h.accepts (query_lt_windowSpan s.params))
  rw [hd] at hw
  rw [h.bank, h.params]
  exact hw

/-! ### Reads -/

/-- Reads of the bank at command offsets, the first of which takes the `n`-th answer. -/
def State.reads (s : State) (bk : Bank) (n : Nat) (offs : List Nat) : List BusEvent :=
  readEvents bk (fun k => s.wordAt bk (n + k)) offs

/-- The byte a query read yields that takes the `n + k`-th answer. -/
def State.queryAt (s : State) (bk : Bank) (n k : Nat) : Byte := queryByteIn bk (s.wordAt bk (n + k))

/-- The code an identification read yields that takes the `n`-th answer. -/
def State.codeAt (s : State) (bk : Bank) (n : Nat) : ChipId := idCodeIn bk (s.wordAt bk n)

theorem State.reads_append (s : State) (bk : Bank) (n : Nat) (xs ys : List Nat) :
    s.reads bk n (xs ++ ys) = s.reads bk n xs ++ s.reads bk (n + xs.length) ys := by
  simp only [State.reads, readEvents, List.mapIdx_append, Nat.add_assoc, Nat.add_comm xs.length]

theorem State.queryAt_add (s : State) (bk : Bank) (n m k : Nat) :
    s.queryAt bk (n + m) k = s.queryAt bk n (m + k) := by
  simp only [State.queryAt, Nat.add_assoc]

theorem State.Reaches.busRead (h : s.Reaches b bk es n t) (hd : bk.Draws) {off : Nat}
    (ho : off < windowSpan s.params) :
    (Machine.busRead b ((t.bank b).baseAddr off) t).Runs s b (s.wordAt bk n) bk
      (es ++ s.reads bk n [off]) (n + 1) := by
  obtain ⟨hbk, hp⟩ := And.intro h.bank h.params
  obtain ⟨hw, hans⟩ := drawWord_answerAt bk.portWidth t.advance
  obtain ⟨f, hseq, hbanks, hlog, -, htimer⟩ := drawWord_frame b bk.portWidth t.advance
  have hr := busRead_eq (s := t) (b := b) (a := bk.baseAddr off) h.noReset
    (by rw [hbk, hp]; exact h.accepts ho)
  have hv : toPort bk.portWidth (t.advance.answerAt 0) = s.wordAt bk n :=
    congrArg (toPort bk.portWidth) (h.answers 0)
  rw [answer_of_draws (s := t.advance) (hbk ▸ hd), State.advance_bank, hbk, hw, hv] at hr
  rw [hbk]
  refine ⟨_, _, hr, rfl, h.access (((BusFrame.advance b t).trans f).trans (.note b _ _)) hseq htimer
    ?_ ?_ hans⟩
  · exact (State.bank_eq_of_banks hbanks b).trans hbk
  · simp [hlog, State.reads, readEvents]

end

/-! ### The readers of the CFI table and of the codes (30_encoding.md R58 to R62) -/

section
variable {s t : State} {b n : Nat} {bk : Bank} {es : List BusEvent}

theorem State.Reaches.queryByte (h : s.Reaches b bk es n t) (hd : bk.Draws) {off : Nat}
    (ho : off < windowSpan s.params) :
    (queryByte b off t).Runs s b (s.queryAt bk n 0) bk (es ++ s.reads bk n [off]) (n + 1) :=
  (h.busRead hd ho).bind fun u hu => by
    rw [hu.bank, queryByteOf_eq]
    exact hu.ok _

theorem State.Reaches.idValue (h : s.Reaches b bk es n t) (hd : bk.Draws) {off : Nat}
    (ho : off < windowSpan s.params) :
    (idValue b off t).Runs s b (s.codeAt bk n) bk (es ++ s.reads bk n [off]) (n + 1) :=
  (h.busRead hd ho).bind fun u hu => by
    rw [hu.bank, idValueOf_eq hu.placed.widths]
    exact hu.ok _

/-- A 16-bit field is two query bytes (30_encoding.md R60). -/
theorem State.Reaches.cfiU16 (h : s.Reaches b bk es n t) (hd : bk.Draws) {off : Nat}
    (ho : off + 1 < windowSpan s.params) :
    (cfiU16 b off t).Runs s b (u16At (s.queryAt bk n) 0) bk (es ++ s.reads bk n [off, off + 1])
      (n + 2) :=
  (h.queryByte hd (Nat.lt_of_succ_lt ho)).bind fun _ hu =>
  (hu.queryByte hd ho).bind fun _ hv => by
    rw [← u16At_eq]
    refine (hv.ok _).congr ?_ rfl
    rw [List.append_assoc]
    exact congrArg (es ++ ·) (s.reads_append bk n [off] [off + 1]).symm

/-- The codes, manufacturer first (40_identification.md R71). -/
theorem State.Reaches.readIds (h : s.Reaches b bk es n t) (hd : bk.Draws) :
    (readIds b t).Runs s b (s.codeAt bk n, s.codeAt bk (n + 1)) bk (es ++ s.reads bk n [0, 1])
      (n + 2) :=
  (h.idValue hd (lt_windowSpan_of_lt (by decide))).bind fun _ hu =>
  (hu.idValue hd (lt_windowSpan_of_lt (by decide))).bind fun _ hv => by
    refine (hv.ok _).congr ?_ rfl
    rw [List.append_assoc]
    exact congrArg (es ++ ·) (s.reads_append bk n [0] [1]).symm

theorem u16At_queryAt_add (s : State) (bk : Bank) (n m k : Nat) :
    u16At (s.queryAt bk (n + m)) k = u16At (s.queryAt bk n) (m + k) := by
  simp only [u16At, State.queryAt_add, Nat.add_assoc]

/-- The regions of the CFI table from command offset `off` on (30_encoding.md R62). -/
theorem State.Reaches.readRegions (hd : bk.Draws) : ∀ (count : Nat) {off n : Nat} {t : State}
    {es : List BusEvent}, s.Reaches b bk es n t → off + 4 * count ≤ windowSpan s.params →
    (readRegions b off count t).Runs s b
      ((List.range count).map fun i =>
        (u16At (s.queryAt bk n) (4 * i), u16At (s.queryAt bk n) (2 + 4 * i)))
      bk (es ++ s.reads bk n ((List.range (4 * count)).map (off + ·))) (n + 4 * count)
  | 0, _, _, _, es, h, _ => (h.ok _).congr (List.append_nil es).symm rfl
  | count + 1, off, n, _, es, h, ho => by
    refine (h.cfiU16 hd (by omega)).bind fun _ h1 => ?_
    refine (h1.cfiU16 hd (by omega)).bind fun _ h2 => ?_
    refine (h2.readRegions hd count (by omega)).bind fun _ h3 => ?_
    have hvalue : (List.range (count + 1)).map (fun i =>
          (u16At (s.queryAt bk n) (4 * i), u16At (s.queryAt bk n) (2 + 4 * i))) =
        (u16At (s.queryAt bk n) 0, u16At (s.queryAt bk (n + 2)) 0) ::
          (List.range count).map fun i => (u16At (s.queryAt bk (n + 2 + 2)) (4 * i),
            u16At (s.queryAt bk (n + 2 + 2)) (2 + 4 * i)) := by
      simp only [List.range_succ_eq_map, List.map_cons, List.map_map, u16At_queryAt_add,
        Nat.add_assoc]
      refine congrArg (_ :: ·) (List.map_congr_left fun i _ => ?_)
      simp only [Function.comp_apply, Nat.succ_eq_add_one]
      grind
    have hoffs : (List.range (4 * (count + 1))).map (off + ·) =
        [off, off + 1] ++ ([off + 2, off + 2 + 1] ++ (List.range (4 * count)).map (off + 4 + ·)) := by
      rw [show 4 * (count + 1) = 4 + 4 * count by omega, List.range_add, List.map_append,
        List.map_map]
      simp [List.range_succ, Function.comp_def, Nat.add_assoc]
    rw [hvalue, hoffs, s.reads_append, s.reads_append]
    refine (h3.ok _).congr ?_ (by omega)
    simp [List.append_assoc]

/-- What DecodeCFI reads when its query bytes are `q 0`, `q 1`, ... (41_geometry.md R81). -/
def cfiFieldsOf (q : Nat → Byte) : CfiFields where
  tw := q 0
  tb := q 1
  te := q 2
  mw := q 3
  mb := q 4
  me := q 5
  bexp := u16At q 6
  regions := (List.range (q 8).toNat).map fun i => (u16At q (9 + 4 * i), u16At q (11 + 4 * i))

/-- The bank DecodeCFI makes of these fields. -/
theorem withCfi_cfiFieldsOf (p : Params) (bk : Bank) (q : Nat → Byte) :
    (bk.withTable (cfiTable p bk (cfiFieldsOf q))).withCfi p (cfiFieldsOf q) = cfiBank p bk q := rfl

theorem State.Reaches.readCfiFields (h : s.Reaches b bk es n t) (hd : bk.Draws) :
    let count := (s.queryAt bk n 8).toNat
    (readCfiFields b t).Runs s b (cfiFieldsOf (s.queryAt bk n)) bk
      (es ++ s.reads bk n (cfiOffsets s.params.cfi count)) (n + 9 + 4 * count) := by
  intro count
  have hcount : count < 256 := (s.queryAt bk n 8).isLt
  have ho := cfiOffsets_lt_windowSpan s.params (n := 255) le_rfl
  simp only [cfiOffsets, List.forall_mem_append, List.forall_mem_cons, List.forall_mem_map,
    List.mem_range] at ho
  obtain ⟨⟨hw, hb, he, hwm, hbm, hem, -, hexp, hnum, -⟩, hregions⟩ := ho
  have hlast := hregions (4 * 255 - 1) (by omega)
  rw [Machine.readCfiFields, h.params]
  refine (h.queryByte hd hw).bind fun _ h => (h.queryByte hd hb).bind fun _ h => ?_
  refine (h.queryByte hd he).bind fun _ h => (h.queryByte hd hwm).bind fun _ h => ?_
  refine (h.queryByte hd hbm).bind fun _ h => (h.queryByte hd hem).bind fun _ h => ?_
  refine (h.cfiU16 hd hexp).bind fun _ h => (h.queryByte hd hnum).bind fun _ h => ?_
  refine (h.readRegions hd count (by omega)).bind fun _ h => ?_
  have hvalue : (cfiFieldsOf (s.queryAt bk n)).regions = (List.range count).map fun i =>
      (u16At (s.queryAt bk (n + 9)) (4 * i), u16At (s.queryAt bk (n + 9)) (2 + 4 * i)) := by
    simp only [u16At_queryAt_add, ← Nat.add_assoc]
    rfl
  have hreads : s.reads bk n (cfiOffsets s.params.cfi count) = _ := s.reads_append bk n _ _
  rw [show cfiFieldsOf (s.queryAt bk n) = { cfiFieldsOf (s.queryAt bk n) with
    regions := (cfiFieldsOf (s.queryAt bk n)).regions } from rfl, hvalue, hreads]
  refine (h.ok _).congr ?_ rfl
  simp only [List.append_assoc]
  rfl


end

end Sys2Proof.Machine
end

section
/-! PROOFS. A table stored, and IdentLegacy (40_identification.md R75, 41_geometry.md R85; O39). -/

namespace Sys2Proof.Machine

/-! ### Storing a table -/

/-- The test of a table stored is the configuration's condition on the range (00_scope.md R9; log
22). -/
theorem storeTable_eq {s t : State} {b : Nat} {tab : Table} {finish : Bank → Bank} {bk : Bank}
    (hbk : finish ((t.bank b).withTable tab) = bk)
    (hcount : t.banks.length = s.banks.length) (hothers : ∀ c, c ≠ b → t.bank c = s.bank c)
    (hbase : bk.baseAddress = (s.bank b).baseAddress)
    (hend : tab.endAddr = bk.baseAddress + bk.size) :
    (s.RangeOk b (bk.baseAddress + bk.size) → storeTable b tab finish t = .ok () (t.setBank b bk)) ∧
    (¬ s.RangeOk b (bk.baseAddress + bk.size) →
      storeTable b tab finish t = .refused .illFormedConfig) := by
  have hbeside : t.fitsBeside b bk = true ↔ ∀ c < s.banks.length, c ≠ b →
      bk.baseAddress + bk.size ≤ (s.bank b).baseAddress ∨ (s.bank c).size = 0 ∨
        bk.baseAddress + bk.size ≤ (s.bank c).baseAddress ∨
        (s.bank c).baseAddress + (s.bank c).size ≤ (s.bank b).baseAddress := by
    simp only [State.fitsBeside, hcount, List.all_eq_true, List.mem_range, Bool.or_eq_true,
      beq_iff_eq, rangesDisjoint, decide_eq_true_eq]
    refine forall₂_congr fun c _ => ?_
    by_cases hc : c = b
    · simp [hc]
    · rw [hothers c hc]
      omega
  have hok : (tab.endAddr < addrLimit ∧ t.fitsBeside b bk = true) ↔
      s.RangeOk b (bk.baseAddress + bk.size) := by rw [hbeside, hend]; rfl
  subst hbk
  exact ⟨fun h => if_pos (hok.mpr h), fun h => if_neg (mt hok.mp h)⟩

theorem sectorRun_eq_map (addr size : Nat) : ∀ n, sectorRun addr size n =
    (List.range n).map fun i => { startAddress := addr + i * size, isProtected := false }
  | 0 => rfl
  | n + 1 => by
    rw [sectorRun, sectorRun_eq_map (addr + size) size n, List.range_succ_eq_map]
    simp [Function.comp_def, Nat.succ_mul, Nat.add_assoc, Nat.add_comm size]

/-- DecodeLegacy of the bank as IdentLegacy has named it (40_identification.md R75). -/
theorem withLegacy_asLegacy (p : Params) (bk : Bank) (e : LegacyEntry) (m d : ChipId) :
    ((Bank.asLegacy p e m d bk).withTable (legacyTableOf p (Bank.asLegacy p e m d bk) e)).withLegacy
      p = legacyBank p bk e m d := by
  simp only [Bank.withLegacy, Bank.withTable, legacyTableOf, legacyBank, legacyGeometry,
    sectorRun_eq_map, Nat.add_sub_cancel_left, decide_eq_true_eq]
  rfl

/-- IdentLegacy with its entry: the bank of the entry, or a refusal for its range. -/
theorem identLegacy_eq {s t : State} {b : Nat} (hb : b < t.banks.length) (e : LegacyEntry)
    (m d : ChipId) (hcount : t.banks.length = s.banks.length)
    (hothers : ∀ c, c ≠ b → t.bank c = s.bank c)
    (hbase : (t.bank b).baseAddress = (s.bank b).baseAddress) :
    let bk := legacyBank t.params (t.bank b) e m d
    (s.RangeOk b (bk.baseAddress + bk.size) → identLegacy b e m d t = .ok () (t.setBank b bk)) ∧
    (¬ s.RangeOk b (bk.baseAddress + bk.size) →
      identLegacy b e m d t = .refused .illFormedConfig) := by
  intro bk
  have hself := State.setBank_bank_self t (Bank.asLegacy t.params e m d (t.bank b)) hb
  have h := storeTable_eq (s := s) (t := t.setBank b (Bank.asLegacy t.params e m d (t.bank b)))
    (tab := legacyTableOf t.params (Bank.asLegacy t.params e m d (t.bank b)) e)
    (finish := Bank.withLegacy t.params) (bk := bk)
    (by rw [hself]; exact withLegacy_asLegacy ..)
    (by simpa using hcount)
    (fun c hc => (State.setBank_bank_other t _ hc).trans (hothers c hc)) hbase rfl
  rw [identLegacy, decodeLegacy, hself]
  have hset : (t.setBank b (Bank.asLegacy t.params e m d (t.bank b))).setBank b bk =
      t.setBank b bk := by simp [State.setBank]
  rwa [hset] at h

/-! ### Rows of identification (log 15) -/

section
variable {s : State} {b : Nat} {j : Instr} {body : State → Res (Option Result)}

/-- A part of identification, before `flash_init` has returned, on an Unknown bank. -/
theorem identBody_eq (hd : s.initDone = false) (hu : (s.bank b).vendorId = .unknown) :
    beforeInit (onUnknown b body) (s.enter j) = body (s.enter j) :=
  (beforeInit_of (s := s.enter j) hd).trans (if_pos hu)

theorem exec_ident_of_ok (hs : s.Ready b) (hd : s.initDone = false)
    (hu : (s.bank b).vendorId = .unknown)
    (he : exec j s = call j (onBank b (beforeInit (onUnknown b body))) s) {r : Option Result}
    {t : State} (h : body (s.enter j) = .ok r t) : exec j s = .next (t.leave r) :=
  exec_of_body (p := t.position) (x := t.result) hs he ((identBody_eq hd hu).trans h)

theorem exec_ident_of_refused (hs : s.Ready b) (hd : s.initDone = false)
    (hu : (s.bank b).vendorId = .unknown)
    (he : exec j s = call j (onBank b (beforeInit (onUnknown b body))) s) {e : Refusal}
    (h : body (s.enter j) = .refused e) : exec j s = .refused e :=
  exec_of_refused hs he ((identBody_eq hd hu).trans h)

theorem exec_ident_of_runs (hs : s.Ready b) (hd : s.initDone = false)
    (hu : (s.bank b).vendorId = .unknown)
    (he : exec j s = call j (onBank b (beforeInit (onUnknown b body))) s) {r : Option Result}
    {bk : Bank} {es : List BusEvent} {n : Nat} (h : (body (s.enter j)).Runs s b r bk es n) :
    ∃ t, s.Reaches b bk es n t ∧ exec j s = .next (t.leave r) := by
  obtain ⟨_, t, hbody, rfl, ht⟩ := h
  exact ⟨t, ht, exec_ident_of_ok hs hd hu he hbody⟩

end

/-- Settles O39: the row is IdentLegacy with the entry found (`identLegacy_eq`), or no change. -/
theorem identLegacyOutcome : Obligations.IdentLegacyOutcome := by
  intro s b m d hs hd hu
  have hentry : legacyEntry (s.enter (.identLegacy b m d)).params m d =
    s.params.legacyTable.find? fun e => e.mfrId == m && e.deviceId == d := rfl
  split
  · rename_i he
    exact exec_ident_of_ok (t := s.enter (.identLegacy b m d)) hs hd hu rfl
      (by simp only [hentry, he])
  · rename_i e he
    obtain ⟨hstored, hrefused⟩ := identLegacy_eq (s := s) (t := s.enter (.identLegacy b m d)) hs.bank
      e m d rfl (fun _ _ => rfl) rfl
    refine ⟨fun hok => ?_, fun hno => ?_⟩
    · exact exec_ident_of_ok (t := (s.enter (.identLegacy b m d)).setBank b
        (legacyBank s.params (s.bank b) e m d)) hs hd hu rfl
        (by simp only [hentry, he, hstored hok]; rfl)
    · exact exec_ident_of_refused hs hd hu rfl
        (by simp only [hentry, he, hrefused hno, Res.bind_refused])

end Sys2Proof.Machine
end

section
/-! PROOFS. DecodeCFI and IdentCFI (40_identification.md R74, 41_geometry.md R81; O38). -/

namespace Sys2Proof.Machine

/-! ### IdentCFI -/

section
variable {s t : State} {b n : Nat} {bk : Bank} {es : List BusEvent}

/-- DecodeCFI of a bank without an array (41_geometry.md R81). -/
theorem State.Reaches.decodeCfi (h : s.Reaches b bk es n t) (hz : bk.size = 0) :
    let q := s.queryAt bk n
    let found := cfiBank s.params bk q
    (decodeCfi b t).RunsIf (s.RangeOk b (found.baseAddress + found.size)) s b () found
      (es ++ s.reads bk n (cfiOffsets s.params.cfi (q 8).toNat)) (n + 9 + 4 * (q 8).toNat) := by
  intro q found
  refine (h.readCfiFields (.inr hz)).bindIf fun u hu => ?_
  obtain ⟨j, hj⟩ := h.placed.mux_eq_pow
  have htiles := (layRegions_tiles (hj ▸ Nat.two_pow_pos j) (cfiFieldsOf q).regions
    s.params.maxSectors bk.baseAddress).1
  obtain ⟨hstored, hrefused⟩ := storeTable_eq (s := s) (t := u) (bk := found)
    (tab := cfiTable s.params bk (cfiFieldsOf q)) (finish := Bank.withCfi s.params (cfiFieldsOf q))
    (by rw [hu.bank]; exact withCfi_cfiFieldsOf ..) hu.count hu.others h.base
    (Bank.withTable_end htiles).symm
  rw [hu.params, hu.bank]
  exact ⟨fun hok => ⟨(), _, hstored hok, rfl, hu.setBank rfl h.placed.widths⟩, hrefused⟩

/-- The command set of the primary id whose first byte takes the `n`-th answer (40_identification.md
R74). -/
def State.primaryAt (s : State) (bk : Bank) (n : Nat) : CmdSet :=
  primarySet s.params.cfi (u16At (s.queryAt bk n) 0)

/-- The number of regions IdentCFI reads that takes the `n`-th answer first. -/
def State.regionsAt (s : State) (bk : Bank) (n : Nat) : Nat := (s.queryAt bk n 10).toNat

/-- The bank that IdentCFI finds when it takes the `n`-th answer first (40_identification.md R74). -/
def State.cfiFound (s : State) (bk : Bank) (n : Nat) : Bank :=
  cfiNamed s.params (cfiBank s.params { bk with cmdset := s.primaryAt bk n } (s.queryAt bk (n + 2)))
    (s.codeAt bk (n + 11 + 4 * s.regionsAt bk n)) (s.codeAt bk (n + 11 + 4 * s.regionsAt bk n + 1))

/-- The reads of the primary id. -/
def State.primaryReads (s : State) (bk : Bank) (n : Nat) : List BusEvent :=
  s.reads bk n [s.params.cfi.primaryId, s.params.cfi.primaryId + 1]

/-- The read-ID entry and the two codes (40_identification.md R71, R75). -/
def State.readIdEvents (s : State) (bk : Bank) (n : Nat) : List BusEvent :=
  bk.commandEvents s.params (amdPrefix s.params bk .readId) ++ s.reads bk n [0, 1]

/-- What IdentCFI does after the primary id. -/
def State.cfiEvents (s : State) (bk : Bank) (n : Nat) : List BusEvent :=
  s.reads bk (n + 2) (cfiOffsets s.params.cfi (s.regionsAt bk n)) ++
    bk.commandEvents s.params bk.resets ++ s.readIdEvents bk (n + 11 + 4 * s.regionsAt bk n) ++
    bk.commandEvents s.params bk.resets

theorem cmdsetOfPrimary_queryAt (s : State) (bk : Bank) (n : Nat) :
    cmdsetOfPrimary s.params.cfi (u16At (s.queryAt bk n) 0) = s.primaryAt bk n :=
  cmdsetOfPrimary_eq ..

/-- IdentCFI rejects a primary id that names no command set, and writes nothing. -/
theorem State.Reaches.identCfi_rejects (h : s.Reaches b bk es n t) (hz : bk.size = 0)
    (hcs : s.primaryAt bk n = .none) :
    (identCfi b t).Runs s b false bk (es ++ s.primaryReads bk n) (n + 2) := by
  rw [Machine.identCfi, h.params]
  refine (h.cfiU16 (.inr hz) (primaryId_lt_windowSpan _)).bind fun u hu => ?_
  rw [hu.params, cmdsetOfPrimary_queryAt]
  simp only [if_pos hcs]
  exact hu.ok false

/-- IdentCFI accepts one that names a command set, if the range decoded is allowed. -/
theorem State.Reaches.identCfi_accepts (h : s.Reaches b bk es n t) (hz : bk.size = 0)
    (hcs : s.primaryAt bk n ≠ .none) :
    let found := s.cfiFound bk n
    (identCfi b t).RunsIf (s.RangeOk b (found.baseAddress + found.size)) s b true
      (found.inMode .readArray false) (es ++ s.primaryReads bk n ++ s.cfiEvents bk n)
      (n + 13 + 4 * s.regionsAt bk n) := by
  intro found
  rw [Machine.identCfi, h.params]
  refine (h.cfiU16 (.inr hz) (primaryId_lt_windowSpan _)).bindIf fun u hu => ?_
  rw [hu.params, cmdsetOfPrimary_queryAt, hu.bank]
  simp only [if_neg hcs]
  have hset := hu.setBank (bk' := { bk with cmdset := s.primaryAt bk n }) rfl hu.placed.widths
  refine (hset.decodeCfi hz).bind fun _ h1 => ?_
  refine h1.identReset.bind fun _ h2 => h2.readIdEnter.bind fun _ h3 => ?_
  refine (h3.readIds (.inl rfl)).bind fun _ h4 => h4.identReset.bind fun v h5 => ?_
  rw [h5.bank, h5.params]
  have hn : n + 2 + 9 + 4 * s.regionsAt bk n + 2 = n + 13 + 4 * s.regionsAt bk n := by omega
  refine ((h5.setBank (bk' := found.inMode .readArray false) rfl h5.placed.widths).ok true).congr
    ?_ hn
  simp only [State.cfiEvents, State.readIdEvents, List.append_assoc]
  rfl

end

/-- An Unknown bank is empty. -/
theorem State.Inv.blank {s : State} {b : Nat} (hi : s.Inv) (hs : s.Ready b)
    (hu : (s.bank b).vendorId = .unknown) :
    (s.bank b).sectors = [] ∧ (s.bank b).size = 0 ∧ (s.bank b).cmdset = .none :=
  hi.empty _ (State.bank_mem s hs.bank) hu

theorem writeEvents_commandWrites (s : State) (b : Nat) (cs : List (Nat × Command)) :
    writeEvents (s.commandWrites b cs) = (s.bank b).commandEvents s.params cs := by
  simp only [writeEvents, State.commandWrites, List.map_map]
  rfl

theorem State.reads_zero (s : State) (bk : Bank) (offs : List Nat) :
    s.reads bk 0 offs = readEvents bk (s.wordAt bk) offs := by
  simp only [State.reads, Nat.zero_add]

theorem State.queryAt_zero (s : State) (bk : Bank) :
    s.queryAt bk 0 = fun k => queryByteIn bk (s.wordAt bk k) :=
  funext fun k => by rw [State.queryAt, Nat.zero_add]

/-- Settles O38: the row is IdentCFI from the first answer on (`State.Reaches.identCfi_rejects`,
`State.Reaches.identCfi_accepts`). -/
theorem identCfiOutcome : Obligations.IdentCfiOutcome := by
  intro s b hs hi hd hu bk cfi w q cs n ids found o1 o2 resets pid ended
  have hstart := hs.reaches hi (.identCfi b)
  have hrow : exec (.identCfi b) s = call (.identCfi b) (onBank b (beforeInit (onUnknown b fun t =>
    (identCfi b t).bind fun accepted t => .ok (some (.ident accepted)) t))) s := rfl
  have hz : bk.size = 0 := (hi.blank hs hu).2.1
  have hq : s.queryAt bk 0 = q := s.queryAt_zero bk
  have hcs : s.primaryAt bk 0 = cs := by rw [State.primaryAt, hq]
  have hn : s.regionsAt bk 0 = n := by rw [State.regionsAt, hq]
  have hfound : s.cfiFound bk 0 = found := by
    simp only [State.cfiFound, hcs, hn, Nat.zero_add]
    rfl
  have hpid : s.primaryReads bk 0 = pid := s.reads_zero _ _
  have hresets : bk.commandEvents s.params bk.resets = resets :=
    (writeEvents_commandWrites s b _).symm
  have hevents : s.cfiEvents bk 0 = readEvents bk (fun k => w (2 + k)) (cfiOffsets cfi n) ++ resets ++
      writeEvents (s.commandWrites b [(o1, .unlock1), (o2, .unlock2), (o1, .readId)]) ++
      readEvents bk (fun k => w (ids + k)) [0, 1] ++ resets := by
    simp only [State.cfiEvents, State.readIdEvents, hresets, hn, Nat.zero_add,
      writeEvents_commandWrites, List.append_assoc]
    rfl
  have haccepts (hsome : cs ≠ .none) := hstart.identCfi_accepts hz (hcs.trans_ne hsome)
  rw [hfound, hpid, hevents] at haccepts
  refine ⟨fun hnone => ?rejected, fun hsome hok => ?accepted, fun hsome hno => ?refused⟩
  case rejected =>
    obtain ⟨t, ht, he⟩ := exec_ident_of_runs hs hd hu hrow
      ((hstart.identCfi_rejects hz (hcs.trans hnone)).bind fun _ h => h.ok _)
    exact ⟨_, he, rfl, ⟨ht.frame _, ht.memory, ht.seq⟩, ht.bank, by rw [← hpid]; exact ht.trace⟩
  case accepted =>
    obtain ⟨t, ht, he⟩ := exec_ident_of_runs hs hd hu hrow
      (((haccepts hsome).1 hok).bind fun _ h => h.ok _)
    have hbank : (t.leave (some (.ident true))).bank b = found.inMode .readArray false := ht.bank
    refine ⟨_, he, rfl, ⟨ht.frame _, ht.memory, ht.seq⟩, ?_, ?_, ?_⟩
    · rw [hbank]
      rfl
    · rw [hbank]
      rfl
    · simpa only [State.leave_log, List.nil_append, List.append_assoc] using ht.trace
  case refused =>
    exact exec_ident_of_refused hs hd hu rfl (by rw [(haccepts hsome).2 hno]; rfl)

end Sys2Proof.Machine
end

section
/-! PROOFS. The passes of Identify (40_identification.md R69 to R77; O37). -/

namespace Sys2Proof.Machine

/-! ### A pass read off the answers -/

section
variable (s : State) (bk : Bank) (n : Nat)

/-- The query bytes are "QRY" (40_identification.md R73). -/
abbrev State.IsQry : Prop :=
  s.queryAt bk n 0 = 0x51 ∧ s.queryAt bk n 1 = 0x52 ∧ s.queryAt bk n 2 = 0x59

/-- Both resets, the query command and the three query bytes (40_identification.md R72). -/
def State.queryEvents : List BusEvent :=
  bk.commandEvents s.params bk.resets ++
    bk.commandEvents s.params [(bk.baseAddr s.params.cfi.query, .cfiQuery)] ++
    s.reads bk n [s.params.cfi.qry, s.params.cfi.qry + 1, s.params.cfi.qry + 2]

/-- How many answers a pass takes before the codes, if IdentCFI does not accept. -/
def State.idsAt : Nat := if s.IsQry bk n then 5 else 3

/-- What a pass does up to the codes, if IdentCFI does not accept. -/
def State.triedEvents : List BusEvent :=
  s.queryEvents bk n ++ (if s.IsQry bk n then s.primaryReads bk (n + 3) else []) ++
    bk.commandEvents s.params bk.resets ++ s.readIdEvents bk (n + s.idsAt bk n)

variable {s bk n}

theorem readEvents_wordAt_add (k : Nat) (offs : List Nat) :
    readEvents bk (fun j => s.wordAt bk (n + (k + j))) offs = s.reads bk (n + k) offs := by
  simp only [State.reads, Nat.add_assoc]

/-- A pass at which IdentCFI accepts. -/
theorem State.pass_of_cfi (h : s.IsQry bk n ∧ s.primaryAt bk (n + 3) ≠ .none) :
    s.pass bk n = {
      bank := bk
      events := s.queryEvents bk n ++ s.primaryReads bk (n + 3) ++ s.cfiEvents bk (n + 3)
      answers := 16 + 4 * s.regionsAt bk (n + 3)
      found := some (s.cfiFound bk (n + 3))
      flip := false } := by
  have hids : n + 3 + 11 + 4 * s.regionsAt bk (n + 3) = n + (14 + 4 * s.regionsAt bk (n + 3)) := by
    omega
  refine (if_pos h).trans ?_
  simp only [Pass.mk.injEq, readEvents_wordAt_add]
  refine ⟨trivial, ?events, ?answers, ?found, trivial⟩
  case answers =>
    change 14 + 4 * s.regionsAt bk (n + 3) + 2 = _
    omega
  case found =>
    have hq : s.queryAt bk (n + 5) = fun k => s.queryAt bk n (5 + k) :=
      funext fun k => s.queryAt_add bk n 5 k
    rw [State.cfiFound, hids, hq]
    rfl
  case events =>
    rw [State.queryEvents, State.cfiEvents, State.readIdEvents, hids, s.reads_append]
    simp only [List.append_assoc]
    rfl

/-- A pass at which the codes are in the legacy table. -/
theorem State.pass_of_entry (h : ¬ (s.IsQry bk n ∧ s.primaryAt bk (n + 3) ≠ .none))
    {e : LegacyEntry} (he : entryOf s.params (s.codeAt bk (n + s.idsAt bk n))
      (s.codeAt bk (n + s.idsAt bk n + 1)) = some e) :
    s.pass bk n = {
      bank := bk
      events := s.triedEvents bk n ++ bk.commandEvents s.params bk.resets
      answers := s.idsAt bk n + 2
      found := some (legacyBank s.params bk e (s.codeAt bk (n + s.idsAt bk n))
        (s.codeAt bk (n + s.idsAt bk n + 1)))
      flip := false } := by
  refine (if_neg h).trans ?_
  simp only [readEvents_wordAt_add, State.triedEvents, State.readIdEvents, List.append_assoc]
  split
  · rename_i e' hfound
    obtain rfl : e = e' := Option.some.inj (he.symm.trans hfound)
    rfl
  · rename_i hnone
    cases he.symm.trans hnone

/-- A pass at which nothing is found. -/
theorem State.pass_of_noEntry (h : ¬ (s.IsQry bk n ∧ s.primaryAt bk (n + 3) ≠ .none))
    (he : entryOf s.params (s.codeAt bk (n + s.idsAt bk n))
      (s.codeAt bk (n + s.idsAt bk n + 1)) = none) :
    s.pass bk n = {
      bank := bk
      events := s.triedEvents bk n
      answers := s.idsAt bk n + 2
      found := none
      flip := decide (s.codeAt bk (n + s.idsAt bk n) ≠ 0 ∧
        s.codeAt bk (n + s.idsAt bk n + 1) ≠ 0) } := by
  refine (if_neg h).trans ?_
  simp only [readEvents_wordAt_add, State.triedEvents, State.readIdEvents, List.append_assoc]
  split
  · rename_i hfound
    cases he.symm.trans hfound
  · rfl

end

/-! ### One pass run -/

section
variable {s t : State} {b n : Nat} {bk : Bank} {es : List BusEvent} {m : DeviceMode} {x : Bool}

/-- The CFI half of a pass up to the test for "QRY" (40_identification.md R72, R73). -/
theorem State.Reaches.cfiHalf_eq (h : s.Reaches b (bk.inMode m x) es n t) (hz : bk.size = 0) :
    ∃ u, s.Reaches b (bk.inMode .command false) (es ++ s.queryEvents bk n) (n + 3) u ∧
      cfiHalf b t = if s.IsQry bk n then identCfi b u else .ok false u := by
  have hqry := qry_lt_windowSpan s.params
  obtain ⟨_, t1, e1, rfl, h1⟩ := h.identReset
  obtain ⟨_, t2, e2, rfl, h2⟩ := h1.cfiQuery
  obtain ⟨_, t3, e3, rfl, h3⟩ := h2.queryByte (.inr hz) (Nat.lt_of_add_right_lt hqry)
  obtain ⟨_, t4, e4, rfl, h4⟩ := h3.queryByte (.inr hz) (Nat.lt_of_succ_lt hqry)
  obtain ⟨_, t5, e5, rfl, h5⟩ := h4.queryByte (.inr hz) hqry
  refine ⟨t5, ?_, ?_⟩
  · simp only [State.queryEvents, List.append_assoc] at h5 ⊢
    exact h5
  · simp only [cfiHalf, e1, e2, h2.params, e3, h3.params, e4, h4.params, e5, Res.bind_ok]
    rfl

/-- The CFI half of a pass, where IdentCFI does not accept (40_identification.md R73, R74). -/
theorem State.Reaches.cfiHalf_rejects (h : s.Reaches b (bk.inMode m x) es n t) (hz : bk.size = 0)
    (hno : ¬ (s.IsQry bk n ∧ s.primaryAt bk (n + 3) ≠ .none)) :
    (cfiHalf b t).Runs s b false (bk.inMode .command false)
      (es ++ s.queryEvents bk n ++ if s.IsQry bk n then s.primaryReads bk (n + 3) else [])
      (n + s.idsAt bk n) := by
  obtain ⟨u, hu, he⟩ := h.cfiHalf_eq hz
  rw [he, State.idsAt]
  by_cases hq : s.IsQry bk n
  · simp only [if_pos hq]
    exact hu.identCfi_rejects hz (not_not.mp fun hcs => hno ⟨hq, hcs⟩)
  · simp only [if_neg hq, List.append_nil]
    exact hu.ok false

/-- Both resets, the read-ID entry and the codes (40_identification.md R72). -/
theorem State.Reaches.readCodes (h : s.Reaches b (bk.inMode m x) es n t) :
    ∃ u, s.Reaches b (bk.inMode .command false)
        (es ++ bk.commandEvents s.params bk.resets ++ s.readIdEvents bk n) (n + 2) u ∧
      ∀ k : ChipId × ChipId → State → Res PassEnd,
        ((Machine.identReset b t).bind fun _ t => (Machine.readIdEnter b t).bind fun _ t =>
          (Machine.readIds b t).bind k) = k (s.codeAt bk n, s.codeAt bk (n + 1)) u := by
  obtain ⟨_, t1, e1, rfl, h1⟩ := h.identReset
  obtain ⟨_, t2, e2, rfl, h2⟩ := h1.readIdEnter
  obtain ⟨_, t3, e3, rfl, h3⟩ := h2.readIds (.inl rfl)
  refine ⟨t3, ?_, fun k => ?_⟩
  · simp only [State.readIdEvents, List.append_assoc] at h3 ⊢
    exact h3
  · simp only [e1, e2, e3, Res.bind_ok]
    rfl

theorem State.Reaches.identLegacy (h : s.Reaches b bk es n t) (e : LegacyEntry) (m d : ChipId) :
    let found := legacyBank s.params bk e m d
    (identLegacy b e m d t).RunsIf (s.RangeOk b (found.baseAddress + found.size)) s b () found es
      n := by
  intro found
  obtain ⟨hstored, hrefused⟩ := identLegacy_eq (s := s) (t := t) h.hasBank e m d h.count h.others
    (by rw [h.bank, h.base])
  rw [h.params, h.bank] at hstored hrefused
  exact ⟨fun hok => ⟨(), _, hstored hok, rfl, h.setBank rfl h.placed.widths⟩, hrefused⟩

/-- The read-ID half of a pass, with an entry of the codes (40_identification.md R75). -/
theorem State.Reaches.legacyHalf_accepts (h : s.Reaches b (bk.inMode m x) es n t) {e : LegacyEntry}
    (he : entryOf s.params (s.codeAt bk n) (s.codeAt bk (n + 1)) = some e) :
    let found := legacyBank s.params bk e (s.codeAt bk n) (s.codeAt bk (n + 1))
    (legacyHalf b t).RunsIf (s.RangeOk b (found.baseAddress + found.size)) s b .accepted
      (found.inMode .readArray false)
      (es ++ bk.commandEvents s.params bk.resets ++ s.readIdEvents bk n ++
        bk.commandEvents s.params bk.resets) (n + 2) := by
  intro found
  obtain ⟨u, hu, hcodes⟩ := h.readCodes
  have he : legacyEntry u.params (s.codeAt bk n) (s.codeAt bk (n + 1)) = some e := hu.params ▸ he
  rw [legacyHalf, hcodes]
  simp only [he]
  exact (hu.identLegacy e _ _).bind fun _ h1 => h1.identReset.bind fun _ h2 => h2.ok _

/-- The read-ID half of a pass, without an entry (40_identification.md R75, R76). -/
theorem State.Reaches.legacyHalf_rejects (h : s.Reaches b (bk.inMode m x) es n t)
    (he : entryOf s.params (s.codeAt bk n) (s.codeAt bk (n + 1)) = none) :
    (legacyHalf b t).Runs s b
      (if s.codeAt bk n ≠ 0 ∧ s.codeAt bk (n + 1) ≠ 0 then .flip else .next)
      (bk.inMode .command false)
      (es ++ bk.commandEvents s.params bk.resets ++ s.readIdEvents bk n) (n + 2) := by
  obtain ⟨u, hu, hcodes⟩ := h.readCodes
  have he : legacyEntry u.params (s.codeAt bk n) (s.codeAt bk (n + 1)) = none := hu.params ▸ he
  rw [legacyHalf, hcodes]
  simp only [he]
  exact hu.ok _

/-- An attempt to identify the bank: it finds `bk`, which is stored if its range is one the configuration
allows, and answers `yes`; or it finds none, leaves the registers of `tried`, and answers `no`. -/
def Res.Attempts {α : Type} (r : Res α) (s : State) (b : Nat) (found : Option Bank) (yes no : α)
    (tried : Bank) (es : List BusEvent) (n : Nat) : Prop :=
  match found with
  | some bk => r.RunsIf (s.RangeOk b (bk.baseAddress + bk.size)) s b yes (bk.inMode .readArray false)
      es n
  | none => ∃ m x, r.Runs s b no (tried.inMode m x) es n

theorem Res.attempts_some {α : Type} {r : Res α} {found tried : Bank} {yes no : α} :
    r.Attempts s b (some found) yes no tried es n ↔
      r.RunsIf (s.RangeOk b (found.baseAddress + found.size)) s b yes (found.inMode .readArray false)
        es n := Iff.rfl

theorem Res.attempts_none {α : Type} {r : Res α} {tried : Bank} {yes no : α} :
    r.Attempts s b none yes no tried es n ↔ ∃ m x, r.Runs s b no (tried.inMode m x) es n := Iff.rfl

/-- One pass does what `State.pass` says (40_identification.md R72). -/
theorem State.Reaches.identPass (h : s.Reaches b (bk.inMode m x) es n t) (hz : bk.size = 0) :
    (identPass b t).Attempts s b (s.pass bk n).found .accepted
      (if (s.pass bk n).flip = true then .flip else .next) bk (es ++ (s.pass bk n).events)
      (n + (s.pass bk n).answers) := by
  by_cases hcfi : s.IsQry bk n ∧ s.primaryAt bk (n + 3) ≠ .none
  · obtain ⟨u, hu, he⟩ := h.cfiHalf_eq hz
    rw [Machine.identPass, he, if_pos hcfi.1, State.pass_of_cfi hcfi]
    refine Res.RunsIf.congr ((hu.identCfi_accepts hz hcfi.2).bind fun _ h => h.ok _) ?_ ?_
    · simp only [List.append_assoc]
      rfl
    · show n + 3 + 13 + 4 * s.regionsAt bk (n + 3) = n + (16 + 4 * s.regionsAt bk (n + 3))
      omega
  · have hhalf := h.cfiHalf_rejects hz hcfi
    rw [Machine.identPass]
    cases he : entryOf s.params (s.codeAt bk (n + s.idsAt bk n))
      (s.codeAt bk (n + s.idsAt bk n + 1)) with
    | some e =>
      rw [State.pass_of_entry hcfi he]
      refine Res.RunsIf.congr (hhalf.bindIf fun _ h => h.legacyHalf_accepts he) ?_ rfl
      simp only [State.triedEvents, List.append_assoc]
    | none =>
      rw [State.pass_of_noEntry hcfi he]
      simp only [decide_eq_true_eq]
      refine ⟨_, _, (hhalf.bind fun _ h => h.legacyHalf_rejects he).congr ?_ rfl⟩
      simp only [State.triedEvents, List.append_assoc]

end

/-! ### The passes over width pairs (R69, R72, R76) -/

theorem State.pass_bank (s : State) (bk : Bank) (n : Nat) : (s.pass bk n).bank = bk := by
  simp only [State.pass]
  split
  · rfl
  · split <;> rfl

/-- The passes over one width pair: a second one only after two non-zero response bytes. -/
def State.pairPasses (s : State) (bk : Bank) (pc : PortWidth × ChipWidth) (n : Nat) : List Pass :=
  let le := s.pass (Bank.atWidths pc.1 pc.2 .le bk) n
  le :: if le.found.isSome = true then []
    else if le.flip = true then [s.pass (Bank.atWidths pc.1 pc.2 .be bk) (n + le.answers)] else []

theorem State.passes_cons (s : State) (bk : Bank) (pc : PortWidth × ChipWidth)
    (rest : List (PortWidth × ChipWidth)) (n : Nat) (before : Pass) :
    let ps := s.pairPasses bk pc n
    s.passes bk (pc :: rest) n = ps ++ if (ps.getLastD before).found.isSome = true then []
      else s.passes bk rest (n + (ps.map Pass.answers).sum) := by
  obtain ⟨p, c⟩ := pc
  simp only [State.passes, State.pairPasses, Bank.atWidths]
  split
  · rename_i hle
    simp [hle]
  · rename_i hle
    split
    · rename_i hflip
      simp [hle, hflip]
    · rename_i hflip
      have hflip := Bool.eq_true_of_not_eq_false hflip
      split
      · rename_i hbe
        simp [hle, hflip, hbe]
      · rename_i hbe
        simp [hle, hflip, hbe, Nat.add_assoc]

theorem State.pairPasses_length_le (s : State) (bk : Bank) (pc : PortWidth × ChipWidth) (n : Nat) :
    (s.pairPasses bk pc n).length ≤ 2 := by
  simp only [State.pairPasses, List.length_cons]
  split
  · simp
  · split <;> simp

theorem State.passes_length_le (s : State) (bk : Bank) :
    ∀ (pcs : List (PortWidth × ChipWidth)) (n : Nat), (s.passes bk pcs n).length ≤ 2 * pcs.length
  | [], _ => le_rfl
  | pc :: rest, n => by
    have hpair := s.pairPasses_length_le bk pc n
    rw [s.passes_cons bk pc rest n (s.pass bk n), List.length_append, List.length_cons]
    split
    · simp only [List.length_nil]
      omega
    · have := s.passes_length_le bk rest (n + ((s.pairPasses bk pc n).map Pass.answers).sum)
      omega

theorem State.mem_pairPasses {s : State} {bk : Bank} {pc : PortWidth × ChipWidth} {n : Nat}
    {ps : Pass} (h : ps ∈ s.pairPasses bk pc n) :
    ∃ o k, ps = s.pass (Bank.atWidths pc.1 pc.2 o bk) k := by
  rcases List.mem_cons.mp h with rfl | h
  · exact ⟨_, _, rfl⟩
  · split at h
    · cases h
    · split at h
      · exact ⟨_, _, List.mem_singleton.mp h⟩
      · cases h

theorem State.pairPasses_getLastD_mem (s : State) (bk : Bank) (pc : PortWidth × ChipWidth) (n : Nat)
    (before : Pass) : (s.pairPasses bk pc n).getLastD before ∈ s.pairPasses bk pc n := by
  simp only [State.pairPasses, List.getLastD_cons]
  exact List.getLastD_mem_cons

/-- Every pass is at some widths and lane order of the bank. -/
theorem State.mem_passes {s : State} {bk : Bank} {ps : Pass} :
    ∀ {pcs : List (PortWidth × ChipWidth)} {n : Nat}, ps ∈ s.passes bk pcs n →
      ∃ p c o k, ps = s.pass (Bank.atWidths p c o bk) k
  | [], _, h => by cases h
  | pc :: rest, n, h => by
    rw [s.passes_cons bk pc rest n ps] at h
    rcases List.mem_append.mp h with h | h
    · obtain ⟨o, k, hk⟩ := State.mem_pairPasses h
      exact ⟨_, _, o, k, hk⟩
    · split at h
      · cases h
      · exact State.mem_passes h

/-! ### The passes run -/

/-- The piece runs the passes `ps`, after the pass `before`, and answers whether the last one identifies
the bank: `yes` or `no`. -/
def Res.RunsPasses {α : Type} (r : Res α) (s : State) (b : Nat) (yes no : α) (before : Pass)
    (ps : List Pass) (es : List BusEvent) (n : Nat) : Prop :=
  r.Attempts s b (ps.getLastD before).found yes no (ps.getLastD before).bank
    (es ++ ps.flatMap Pass.events) (n + (ps.map Pass.answers).sum)

section
variable {α β : Type} {s t : State} {b n : Nat} {bk : Bank} {es : List BusEvent} {m : DeviceMode}
  {x : Bool} {p p' : PortWidth} {c c' : ChipWidth} {o' : LaneOrder} {before : Pass} {ps qs : List Pass}

/-- No pass more. -/
theorem State.Reaches.noPass (h : s.Reaches b (before.bank.inMode m x) es n t)
    (hnone : before.found = none) (yes no : α) :
    (Res.ok no t).RunsPasses s b yes no before [] es n := by
  rw [Res.RunsPasses, List.getLastD_nil, hnone]
  exact ⟨m, x, (h.ok no).congr (List.append_nil es).symm rfl⟩

/-- Passes, and more passes where these have not identified the bank. -/
theorem Res.RunsPasses.bind {r : Res α} {k : α → State → Res β} {yes no : α} {yes' no' : β}
    (h : r.RunsPasses s b yes no before ps es n) (hyes : ∀ t, k yes t = .ok yes' t)
    (hno : (ps.getLastD before).found = none → ∀ m x t,
      s.Reaches b ((ps.getLastD before).bank.inMode m x) (es ++ ps.flatMap Pass.events)
        (n + (ps.map Pass.answers).sum) t →
      (k no t).RunsPasses s b yes' no' (ps.getLastD before) qs (es ++ ps.flatMap Pass.events)
        (n + (ps.map Pass.answers).sum)) :
    (r.bind k).RunsPasses s b yes' no' before
      (ps ++ if (ps.getLastD before).found.isSome = true then [] else qs) es n := by
  unfold Res.RunsPasses at h
  cases hf : (ps.getLastD before).found with
  | some found =>
    rw [hf] at h
    simp only [Option.isSome_some, if_true, List.append_nil, Res.RunsPasses, hf]
    exact Res.RunsIf.bind h fun t ht => by rw [hyes]; exact ht.ok _
  | none =>
    rw [hf] at h
    obtain ⟨m, x, _, t, rfl, rfl, ht⟩ := h
    have hlast : (ps ++ qs).getLastD before = qs.getLastD (ps.getLastD before) := by
      simp only [List.getLastD_eq_getLast?, List.getLast?_append]
      cases qs.getLast? <;> rfl
    have hk := hno hf m x t ht
    simp only [Res.RunsPasses] at hk ⊢
    simpa [hlast, Nat.add_assoc] using hk

theorem State.Reaches.atWidths (h : s.Reaches b ((Bank.atWidths p' c' o' bk).inMode m x) es n t)
    (hw : c.bits ≤ p.bits) (o : LaneOrder) :
    s.Reaches b ((Bank.atWidths p c o bk).inMode m x) es n
      (t.setBank b (Bank.atWidths p c o (t.bank b))) := by
  rw [h.bank]
  exact h.setBank rfl hw

/-- A pass at given widths and lane order. -/
theorem State.Reaches.passAt (h : s.Reaches b ((Bank.atWidths p' c' o' bk).inMode m x) es n t)
    (hz : bk.size = 0) (hw : c.bits ≤ p.bits) (o : LaneOrder) (before : Pass) :
    let pass := s.pass (Bank.atWidths p c o bk) n
    (Machine.identPass b (t.setBank b (Bank.atWidths p c o (t.bank b)))).RunsPasses s b .accepted
      (if pass.flip = true then .flip else .next) before [pass] es n := by
  intro pass
  simpa [Res.RunsPasses, pass, s.pass_bank] using (h.atWidths hw o).identPass hz

/-- The passes over one width pair (40_identification.md R76). -/
theorem State.Reaches.tryPair (h : s.Reaches b ((Bank.atWidths p' c' o' bk).inMode m x) es n t)
    (hz : bk.size = 0) (hw : c.bits ≤ p.bits) (before : Pass) :
    (tryPair b p c t).RunsPasses s b true false before (s.pairPasses bk (p, c) n) es n := by
  refine (h.passAt hz hw .le before).bind (fun _ => rfl) fun hnone m x u hu => ?_
  cases hflip : (s.pass (Bank.atWidths p c .le bk) n).flip with
  | false => exact hu.noPass hnone true false
  | true =>
    have hu' := hu
    rw [List.getLastD_cons, List.getLastD_nil, s.pass_bank] at hu'
    have hbe := (hu'.passAt hz hw .be (s.pass (Bank.atWidths p c .le bk) n)).bind
      (k := fun e t => .ok (decide (e = .accepted)) t) (yes' := true) (no' := false) (qs := [])
      (fun _ => rfl) fun hnone _ _ _ ht => by
        have hno (f : Bool) :
            decide ((if f = true then PassEnd.flip else .next) = .accepted) = false := by
          cases f <;> rfl
        rw [hno]
        exact ht.noPass hnone true false
    simpa using hbe

/-- The passes over the pairs, one after another (40_identification.md R72). -/
theorem State.Reaches.tryPairs (hz : bk.size = 0) : ∀ (pcs : List (PortWidth × ChipWidth)) {n : Nat}
    {t : State} {es : List BusEvent} {before : Pass} {m : DeviceMode} {x : Bool},
    (∀ pc ∈ pcs, pc.2.bits ≤ pc.1.bits) → s.Reaches b (before.bank.inMode m x) es n t →
    (∃ p c o, before.bank = Bank.atWidths p c o bk) → before.found = none →
    (tryPairs b pcs t).RunsPasses s b true false before (s.passes bk pcs n) es n
  | [], _, _, _, _, _, _, _, h, _, hnone => h.noPass hnone true false
  | (p, c) :: rest, n, t, es, before, m, x, hw, h, ⟨p', c', o', hbefore⟩, hnone => by
    obtain ⟨hpc, hrest⟩ := List.forall_mem_cons.mp hw
    rw [hbefore] at h
    rw [s.passes_cons bk (p, c) rest n before]
    refine (h.tryPair hz hpc before).bind (fun _ => rfl) fun hnone' m x u hu => ?_
    obtain ⟨o, k, hk⟩ := State.mem_pairPasses (s.pairPasses_getLastD_mem bk (p, c) n before)
    exact tryPairs hz rest hrest hu ⟨p, c, o, by rw [hk, s.pass_bank]⟩ hnone'

end

/-! ### Identify -/

/-- A bank that a pass finds is known, and its devices are as they were. -/
theorem State.pass_found_known {s : State} {bk found : Bank} {n : Nat} (hp : ParamsOk s.params)
    (h : (s.pass bk n).found = some found) :
    (found.vendorId ≠ .unknown ∧ found.cmdset ≠ .none ∧ found.geometryPath ≠ .none) ∧
      found.device = bk.device := by
  by_cases hcfi : s.IsQry bk n ∧ s.primaryAt bk (n + 3) ≠ .none
  · rw [State.pass_of_cfi hcfi] at h
    obtain rfl : s.cfiFound bk (n + 3) = found := Option.some.inj h
    exact ⟨⟨vendorOf_ne_unknown hp _ _, hcfi.2, nofun⟩, rfl⟩
  · cases he : entryOf s.params (s.codeAt bk (n + s.idsAt bk n))
      (s.codeAt bk (n + s.idsAt bk n + 1)) with
    | some e =>
      rw [State.pass_of_entry hcfi he] at h
      obtain rfl := Option.some.inj h
      obtain ⟨hvendor, hcmdset, -⟩ := legacyEntryWf_iff.mp (legacyEntry_wf hp he)
      exact ⟨⟨hvendor, hcmdset, nofun⟩, rfl⟩
    | none =>
      rw [State.pass_of_noEntry hcfi he] at h
      cases h

theorem pairsFrom_eq_candidates (least : PortWidth) : pairsFrom least = candidates least := rfl

theorem pairsFrom_ne_nil (least : PortWidth) : pairsFrom least ≠ [] := by
  cases least <;> decide

theorem pairsFrom_length_le (least : PortWidth) : (pairsFrom least).length ≤ 5 :=
  List.length_filter_le _ _

theorem State.passes_ne_nil (s : State) (bk : Bank) {pcs : List (PortWidth × ChipWidth)} (n : Nat)
    (h : pcs ≠ []) : s.passes bk pcs n ≠ [] := by
  obtain ⟨pc, rest, rfl⟩ := List.exists_cons_of_ne_nil h
  rw [s.passes_cons bk pc rest n (s.pass bk n)]
  exact List.append_ne_nil_of_left_ne_nil (List.cons_ne_nil _ _) _

/-- The bank before any pass, as the passes see it. -/
def State.beforePasses (s : State) (b : Nat) : Pass where
  bank := s.bank b
  events := []
  answers := 0
  found := none
  flip := false

section
variable {s t : State} {b n : Nat} {bk : Bank} {es : List BusEvent} {m : DeviceMode} {x : Bool}

/-- The passes of Identify (40_identification.md R72). -/
theorem State.Ready.tryPairs (hs : s.Ready b) (hi : s.Inv) (hz : (s.bank b).size = 0) (j : Instr)
    {last : Pass}
    (hlast : (s.passes (s.bank b) (pairsFrom s.params.minPortWidth) 0).getLast? = some last) :
    let passes := s.passes (s.bank b) (pairsFrom s.params.minPortWidth) 0
    (Machine.tryPairs b (candidates s.params.minPortWidth) (s.enter j)).Attempts s b last.found true
      false last.bank (passes.flatMap Pass.events) (passes.map Pass.answers).sum := by
  rw [pairsFrom_eq_candidates] at hlast
  have hrun := State.Reaches.tryPairs (before := s.beforePasses b) (m := (s.bank b).device.mode)
    (x := (s.bank b).device.afterResetAmd) hz (pairsFrom s.params.minPortWidth)
    (candidates_fit _) (hs.reaches hi j) ⟨_, _, _, rfl⟩ rfl
  simpa only [pairsFrom_eq_candidates, Res.RunsPasses, List.getLastD_eq_getLast?, hlast,
    Option.getD_some, List.nil_append, Nat.zero_add] using hrun

theorem Res.Runs.asNothing {r : Res Unit} (h : r.Runs s b () bk es n) :
    (asNothing r).Runs s b none bk es n := h.bind fun _ ht => ht.ok none

/-- Where a pass has found the bank, Identify ends there. -/
theorem Res.RunsIf.identify {allowed : Prop}
    (h : (tryPairs b (candidates t.params.minPortWidth) t).RunsIf allowed s b true bk es n) :
    (identify b t).RunsIf allowed s b () bk es n := h.bind fun _ ht => ht.ok ()

/-- Where no pass has, both resets follow, and the bank is Unknown (40_identification.md R72, R77). -/
theorem Res.Runs.identify
    (h : (tryPairs b (candidates t.params.minPortWidth) t).Runs s b false (bk.inMode m x) es n) :
    (identify b t).Runs s b () (bk.inMode .readArray false).unidentified
      (es ++ bk.commandEvents s.params bk.resets) n :=
  h.bind fun _ ht => ht.identReset.bind fun _ hu => by
    rw [hu.bank]
    exact (hu.setBank (bk' := (bk.inMode .readArray false).unidentified) rfl
      hu.placed.widths).ok ()

end

/-- An empty Unknown bank left Unknown loses its geometry path and nothing else. -/
theorem Bank.unidentified_eq {bk : Bank} (hu : bk.vendorId = .unknown) (hsectors : bk.sectors = [])
    (hz : bk.size = 0) (hcmdset : bk.cmdset = .none) :
    bk.unidentified = { bk with geometryPath := .none } := by
  rw [Bank.unidentified, ← hu, ← hsectors, ← hz, ← hcmdset]

/-- Settles O37: Identify runs the passes (`State.Ready.tryPairs`), and ends with the bank the last one
finds or with both resets. -/
theorem identifyOutcome : Obligations.IdentifyOutcome := by
  intro s b hs hi hd hu passes events taken ended
  have hrow : exec (.identify b) s = call (.identify b) (onBank b (beforeInit (onUnknown b fun t =>
    asNothing (identify b t)))) s := rfl
  obtain ⟨hsectors, hz, hcmdset⟩ := hi.blank hs hu
  have hlength : passes.length ≤ 10 :=
    (s.passes_length_le _ _ 0).trans (Nat.mul_le_mul_left 2 (pairsFrom_length_le _))
  obtain ⟨last, hlast⟩ := Option.ne_none_iff_exists'.mp (mt List.getLast?_eq_none_iff.mp
    (s.passes_ne_nil (s.bank b) 0 (pairsFrom_ne_nil s.params.minPortWidth)))
  obtain ⟨p, c, o, k, hpass⟩ := State.mem_passes (List.mem_of_getLast? hlast)
  have hended {t : State} {bk : Bank} {es : List BusEvent} (ht : s.Reaches b bk es taken t)
      (hempty : bk.EmptyIfUnknown) (hdevice : bk.device = { (s.bank b).device with
        mode := .readArray, afterResetAmd := false }) : ended (t.leave none) :=
    ⟨rfl, ht.frame _, ht.memory, ht.seq, ht.timer, ht.bank ▸ hempty, ht.bank ▸ hdevice, ht.answers⟩
  have hrun : (tryPairs b (candidates s.params.minPortWidth) (s.enter (.identify b))).Attempts s b
    last.found true false last.bank events taken := hs.tryPairs hi hz (.identify b) hlast
  refine ⟨hlength, last, hlast, ?_⟩
  split
  · rename_i bk hfound
    rw [hfound] at hrun
    obtain ⟨⟨hvendor, hset, hpath⟩, hdevice⟩ :=
      State.pass_found_known (paramsWf_ok hs.params) (hpass ▸ hfound)
    have hident := Res.RunsIf.identify (t := s.enter (.identify b)) (Res.attempts_some.mp hrun)
    refine ⟨hvendor, hset, hpath, fun hok => ?_, fun hno =>
      exec_ident_of_refused hs hd hu hrow (congrArg asNothing (hident.2 hno))⟩
    obtain ⟨t, ht, he⟩ := exec_ident_of_runs hs hd hu hrow (hident.1 hok).asNothing
    refine ⟨_, he, hended ht (fun h => absurd h hvendor) ?_, ?_, ht.trace⟩
    · exact congrArg (fun d : Device => { d with mode := .readArray, afterResetAmd := false }) hdevice
    · rw [State.leave_bank, ht.bank]
      rfl
  · rename_i hfound
    rw [hfound] at hrun
    obtain ⟨m, x, hrun⟩ := Res.attempts_none.mp hrun
    obtain ⟨t, ht, he⟩ := exec_ident_of_runs hs hd hu hrow
      (Res.Runs.identify (t := s.enter (.identify b)) hrun).asNothing
    have hbank : last.bank = Bank.atWidths p c o (s.bank b) := by rw [hpass, s.pass_bank]
    rw [hbank] at ht ⊢
    rw [Bank.unidentified_eq (bk := (Bank.atWidths p c o (s.bank b)).inMode .readArray false) hu
      hsectors hz hcmdset] at ht
    refine ⟨_, he, hended ht (fun _ => ⟨hsectors, hz, hcmdset⟩) rfl, ?_, ?_⟩
    · rw [State.leave_bank, ht.bank]
      rfl
    · rw [State.leave_log, ht.trace, List.append_assoc]
      rfl

end Sys2Proof.Machine
end

section
/-! PROOFS. The region walk against the list of the sector sizes its regions describe (41_geometry.md R81
to R83; O42). -/

namespace Sys2Proof.Machine

/-- Unprotected sectors of the sizes given, end to end from `addr`. -/
def sectorsFrom : (addr : Nat) → List Nat → List Sector
  | _, [] => []
  | addr, n :: ns => { startAddress := addr, isProtected := false } :: sectorsFrom (addr + n) ns

@[simp] theorem sectorsFrom_length : ∀ (ns : List Nat) (addr : Nat),
    (sectorsFrom addr ns).length = ns.length
  | [], _ => rfl
  | _ :: ns, _ => congrArg (· + 1) (sectorsFrom_length ns _)

/-- A sector starts where the ones before it end. -/
theorem sectorsFrom_getElem? : ∀ {ns : List Nat} {i : Nat} (addr : Nat), i < ns.length →
    (sectorsFrom addr ns)[i]? =
      some { startAddress := addr + (ns.take i).sum, isProtected := false }
  | _ :: _, 0, _, _ => rfl
  | n :: ns, i + 1, addr, h => by
    have ih := sectorsFrom_getElem? (ns := ns) (addr + n) (Nat.lt_of_succ_lt_succ h)
    simpa [sectorsFrom, Nat.add_assoc] using ih

theorem sectorsFrom_append : ∀ (ms ns : List Nat) (addr : Nat),
    sectorsFrom addr (ms ++ ns) = sectorsFrom addr ms ++ sectorsFrom (addr + ms.sum) ns
  | [], _, _ => rfl
  | m :: ms, ns, addr => by
    simp [sectorsFrom, sectorsFrom_append ms ns, Nat.add_assoc]

theorem sectorsFrom_replicate (size : Nat) : ∀ (n addr : Nat),
    sectorsFrom addr (List.replicate n size) = sectorRun addr size n
  | 0, _ => rfl
  | n + 1, addr => congrArg (_ :: ·) (sectorsFrom_replicate size n (addr + size))

/-- The sizes of the sectors that the regions describe, in order (30_encoding.md R62). -/
def regionSizes (mux : Nat) (rs : List (Nat × Nat)) : List Nat :=
  rs.flatMap fun r => List.replicate (r.1 + 1) (blockBytes r.2 * mux)

/-- The walk retains the first `room` sectors described. -/
theorem layRegions_eq (mux : Nat) : ∀ (rs : List (Nat × Nat)) (room addr : Nat),
    layRegions mux room addr rs =
      { sectors := sectorsFrom addr ((regionSizes mux rs).take room)
        endAddr := addr + ((regionSizes mux rs).take room).sum
        truncated := decide (room < (regionSizes mux rs).length) }
  | [], room, addr => by simp [layRegions, regionSizes, sectorsFrom]
  | (cm1, code) :: rs, room, addr => by
    have hsizes : regionSizes mux ((cm1, code) :: rs) =
        List.replicate (cm1 + 1) (blockBytes code * mux) ++ regionSizes mux rs := rfl
    have htake : (regionSizes mux ((cm1, code) :: rs)).take room =
        List.replicate (min (cm1 + 1) room) (blockBytes code * mux) ++
          (regionSizes mux rs).take (room - min (cm1 + 1) room) := by
      rw [hsizes, List.take_append, List.take_replicate, List.length_replicate, Nat.min_comm room]
      congr 2
      omega
    rw [htake, hsizes, layRegions, layRegions_eq mux rs]
    simp only [sectorsFrom_append, sectorsFrom_replicate, List.sum_append, List.sum_replicate,
      smul_eq_mul, List.length_append, List.length_replicate, Nat.add_assoc, Table.mk.injEq, true_and,
      ← Bool.decide_or, decide_eq_decide]
    omega

/-- Settles O42: the walk lays the first `room` of the sizes described end to end (`layRegions_eq`). -/
theorem regionWalkRetainsFirstSectors : Obligations.RegionWalkRetainsFirstSectors := by
  intro mux room addr rs sizes t
  have ht : t = { sectors := sectorsFrom addr (sizes.take room)
                  endAddr := addr + (sizes.take room).sum
                  truncated := decide (room < sizes.length) } := layRegions_eq mux rs room addr
  have hlength : t.sectors.length = (sizes.take room).length := by rw [ht, sectorsFrom_length]
  refine ⟨hlength.trans (List.length_take ..), by rw [ht], by rw [ht, decide_eq_true_eq],
    fun i hi => ?_⟩
  have hroom : i < min room sizes.length := by rwa [hlength, List.length_take] at hi
  rw [ht, sectorsFrom_getElem? addr (hlength ▸ hi), List.take_take, Nat.min_eq_left (by omega)]

end Sys2Proof.Machine
end

section
/-! PROOFS. Rows of a decoder or of the probe before `flash_init` has returned (log 14, 15), and
DecodeLegacy (41_geometry.md R85; O40). -/

namespace Sys2Proof.Machine

/-! ### Rows on a known bank -/

section
variable {s : State} {b : Nat} {j : Instr} {body : State → Res (Option Result)}

/-- On an Unknown bank such a row is `UnknownDevice` at once (log 14). -/
theorem exec_unknownDevice (hs : s.Ready b) (hd : s.initDone = false)
    (hu : (s.bank b).vendorId = .unknown)
    (he : exec j s = call j (onBank b (beforeInit (onKnown b body))) s) :
    exec j s = .next (s.leave (some (.status .unknownDevice))) :=
  exec_of_body (t := s) (p := (s.enter j).position) (x := s.result) hs he
    ((beforeInit_of (s := s.enter j) hd).trans (if_pos hu))

/-- On a known bank it runs its body. -/
theorem knownBody_eq (hd : s.initDone = false) (hk : (s.bank b).vendorId ≠ .unknown) :
    beforeInit (onKnown b body) (s.enter j) = body (s.enter j) :=
  (beforeInit_of (s := s.enter j) hd).trans (onKnown_of_known (s := s.enter j) hk)

theorem exec_known_of_ok (hs : s.Ready b) (hd : s.initDone = false)
    (hk : (s.bank b).vendorId ≠ .unknown)
    (he : exec j s = call j (onBank b (beforeInit (onKnown b body))) s) {r : Option Result}
    {t : State} (h : body (s.enter j) = .ok r t) : exec j s = .next (t.leave r) :=
  exec_of_body (p := t.position) (x := t.result) hs he ((knownBody_eq hd hk).trans h)

theorem exec_known_of_refused (hs : s.Ready b) (hd : s.initDone = false)
    (hk : (s.bank b).vendorId ≠ .unknown)
    (he : exec j s = call j (onBank b (beforeInit (onKnown b body))) s) {e : Refusal}
    (h : body (s.enter j) = .refused e) : exec j s = .refused e :=
  exec_of_refused hs he ((knownBody_eq hd hk).trans h)

end

/-! ### DecodeLegacy -/

theorem withLegacy_legacyTableOf (p : Params) (bk : Bank) (e : LegacyEntry) :
    (bk.withTable (legacyTableOf p bk e)).withLegacy p = legacyGeometry p bk e := by
  simp only [Bank.withLegacy, Bank.withTable, legacyTableOf, legacyGeometry, sectorRun_eq_map,
    Nat.add_sub_cancel_left, decide_eq_true_eq]
  rfl

/-- DecodeLegacy with its entry: the geometry of the entry, or a refusal for its range. -/
theorem decodeLegacy_eq (s : State) (b : Nat) (e : LegacyEntry) :
    let bk := legacyGeometry s.params (s.bank b) e
    (s.RangeOk b (bk.baseAddress + bk.size) → decodeLegacy b e s = .ok () (s.setBank b bk)) ∧
    (¬ s.RangeOk b (bk.baseAddress + bk.size) →
      decodeLegacy b e s = .refused .illFormedConfig) :=
  storeTable_eq (withLegacy_legacyTableOf ..) rfl (fun _ _ => rfl) rfl rfl

/-- Settles O40: the row is DecodeLegacy with the entry found (`decodeLegacy_eq`), or no change. -/
theorem decodeLegacyOutcome : Obligations.DecodeLegacyOutcome := by
  intro s b hs hd
  refine ⟨fun hu => exec_unknownDevice hs hd hu rfl, fun hk => ?_⟩
  have hentry : legacyEntry (s.enter (.decodeLegacy b)).params
      ((s.enter (.decodeLegacy b)).bank b).mfrId ((s.enter (.decodeLegacy b)).bank b).deviceId =
    s.params.legacyTable.find? fun e =>
      e.mfrId == (s.bank b).mfrId && e.deviceId == (s.bank b).deviceId := rfl
  split
  · rename_i he
    exact exec_known_of_ok (t := s.enter (.decodeLegacy b)) hs hd hk rfl
      (by simp only [hentry, he])
  · rename_i e he
    obtain ⟨hstored, hrefused⟩ := decodeLegacy_eq (s.enter (.decodeLegacy b)) b e
    refine ⟨fun hok => ?_, fun hno => ?_⟩
    · exact exec_known_of_ok (t := (s.enter (.decodeLegacy b)).setBank b
        (legacyGeometry s.params (s.bank b) e)) hs hd hk rfl
        (by simp only [hentry, he, hstored hok]; rfl)
    · exact exec_known_of_refused hs hd hk rfl
        (by simp only [hentry, he, hrefused hno, Res.bind_refused])

end Sys2Proof.Machine
end

section
/-! PROOFS. Reads of a bank in any mode (20_memory.md R42, R43): the array's word, or the next answer. -/

namespace Sys2Proof.Machine

/-- A read of the bank at `a` yields array data. -/
def Bank.readsArray (bk : Bank) (a : Nat) : Bool :=
  decide (bk.device.mode = .readArray ∧ bk.inArray a bk.bytes = true)

/-- How many answers a read at `a` takes. -/
def Bank.answersTaken (bk : Bank) (a : Nat) : Nat := if bk.readsArray a then 0 else 1

/-- The word a read of `bk` at `a` yields, where `n` answers have been taken. -/
def State.readWord (s : State) (bk : Bank) (n a : Nat) : Word :=
  if bk.readsArray a then wordOf s.params.hostByteOrder (Memory.readBytes s.memory a bk.bytes)
  else s.wordAt bk n

theorem Bank.readsArray_of_command {bk : Bank} (h : bk.device.mode = .command) (a : Nat) :
    bk.readsArray a = false := by
  simp [Bank.readsArray, h]

theorem answer_eq (b a : Nat) (s : State) :
    (answer b a s).1 = s.readWord (s.bank b) 0 a ∧
      ∀ k, (answer b a s).2.answerAt k = s.answerAt ((s.bank b).answersTaken a + k) := by
  simp only [State.readWord, Bank.answersTaken, Bank.readsArray, decide_eq_true_eq, answer]
  split
  · exact ⟨rfl, fun k => by rw [Nat.zero_add]⟩
  · exact drawWord_answerAt ..

/-- A read inside an operation, at any address the bank accepts. -/
theorem State.Reaches.busReadAt {s t : State} {b n a : Nat} {bk : Bank} {es : List BusEvent}
    (h : s.Reaches b bk es n t) (ha : bk.Accepts s.params a) :
    (Machine.busRead b a t).Runs s b (s.readWord bk n a) bk (es ++ [.read a (s.readWord bk n a)])
      (n + bk.answersTaken a) := by
  obtain ⟨hbk, hp⟩ := And.intro h.bank h.params
  obtain ⟨hword, hans⟩ := answer_eq b a t.advance
  obtain ⟨f, hseq, hbanks, hlog, -, htimer⟩ := answer_frame b a t.advance
  have hr := busRead_eq (s := t) (b := b) (a := a) h.noReset (by rwa [hbk, hp])
  rw [State.advance_bank, hbk] at hword hans
  have hvalue : t.advance.readWord bk 0 a = s.readWord bk n a := by
    have hnext : t.advance.answerAt 0 = s.answerAt n := h.answers 0
    simp only [State.readWord, State.wordAt, State.advance_params, State.advance_memory, hp, h.memory,
      hnext]
  rw [hword, hvalue] at hr
  refine ⟨_, _, hr, rfl, h.access (((BusFrame.advance b t).trans f).trans (.note b _ _)) hseq htimer
    ?_ ?_ hans⟩
  · exact (State.bank_eq_of_banks hbanks b).trans hbk
  · simp [hlog]

end Sys2Proof.Machine
end

section
/-! PROOFS. DecodeCFI of a bank in any mode (41_geometry.md R81 to R84; O41): its readers go through a
list of command offsets, of which `State.HasRead` says how many have been read. -/

namespace Sys2Proof.Machine

/-! ### The words at a list of command offsets -/

/-- How many answers reads of the bank at the command offsets take. -/
def Bank.answersFor (bk : Bank) (offs : List Nat) : Nat :=
  (offs.map fun off => bk.answersTaken (bk.baseAddr off)).sum

theorem State.wordsAt_cons (s : State) (b n off : Nat) (offs : List Nat) :
    s.wordsAt b n (off :: offs) = s.readWord (s.bank b) n ((s.bank b).baseAddr off) ::
      s.wordsAt b (n + (s.bank b).answersTaken ((s.bank b).baseAddr off)) offs := by
  simp only [State.wordsAt, State.readWord, Bank.answersTaken, Bank.readsArray, decide_eq_true_eq]
  split <;> rfl

theorem State.wordsAt_getElem? (s : State) (b : Nat) : ∀ (offs : List Nat) (n k : Nat),
    (s.wordsAt b n offs)[k]? = offs[k]?.map fun off =>
      s.readWord (s.bank b) (n + (s.bank b).answersFor (offs.take k)) ((s.bank b).baseAddr off)
  | [], _, _ => rfl
  | off :: offs, n, 0 => by simp [s.wordsAt_cons, Bank.answersFor]
  | off :: offs, n, k + 1 => by
    simp [s.wordsAt_cons, s.wordsAt_getElem? b offs, Bank.answersFor, Nat.add_assoc]

/-- In Command mode every read takes one answer. -/
theorem Bank.answersFor_of_command {bk : Bank} (h : bk.device.mode = .command) (offs : List Nat) :
    bk.answersFor offs = offs.length := by
  simp [Bank.answersFor, Bank.answersTaken, Bank.readsArray_of_command h]

/-- The word the `k`-th read at the command offsets `offs` yields. -/
def State.offsetWord (s : State) (b : Nat) (offs : List Nat) (k : Nat) : Word :=
  (s.wordsAt b 0 offs).getD k 0

/-- The query byte of that word (30_encoding.md R58). -/
def State.offsetByte (s : State) (b : Nat) (offs : List Nat) (k : Nat) : Byte :=
  queryByteIn (s.bank b) (s.offsetWord b offs k)

theorem State.offsetWord_eq (s : State) (b : Nat) {offs : List Nat} {k off : Nat}
    (h : offs[k]? = some off) : s.offsetWord b offs k =
      s.readWord (s.bank b) ((s.bank b).answersFor (offs.take k)) ((s.bank b).baseAddr off) := by
  simp [State.offsetWord, List.getD_eq_getElem?_getD, s.wordsAt_getElem?, h]

theorem State.offsetWord_of_command {s : State} {b : Nat} (h : (s.bank b).device.mode = .command)
    {offs : List Nat} {k : Nat} (hk : k < offs.length) :
    s.offsetWord b offs k = s.wordAt (s.bank b) k := by
  rw [s.offsetWord_eq b (List.getElem?_eq_getElem hk), Bank.answersFor_of_command h,
    List.length_take_of_le hk.le, State.readWord, Bank.readsArray_of_command h]
  rfl

/-! ### Reading through the list -/

/-- The events of the first `k` reads at the command offsets `offs` of bank `b`. -/
def State.offsetEvents (s : State) (b : Nat) (offs : List Nat) (k : Nat) : List BusEvent :=
  readEvents (s.bank b) (s.offsetWord b offs) (offs.take k)

/-- The operation begun in `s` on bank `b` has come to `t` by the first `k` reads at the command
offsets `offs`. -/
def State.HasRead (s : State) (b : Nat) (offs : List Nat) (k : Nat) (t : State) : Prop :=
  s.Reaches b (s.bank b) (s.offsetEvents b offs k) ((s.bank b).answersFor (offs.take k)) t

/-- The piece runs to the value `x`, and the first `k` reads have then been made. -/
def Res.Reads {α : Type} (r : Res α) (s : State) (b : Nat) (offs : List Nat) (x : α) (k : Nat) :
    Prop :=
  r.Runs s b x (s.bank b) (s.offsetEvents b offs k) ((s.bank b).answersFor (offs.take k))

theorem Res.Reads.bind {α β : Type} {r : Res α} {g : α → State → Res β} {s : State} {b : Nat}
    {offs : List Nat} {x : α} {y : β} {k m : Nat} (h : r.Reads s b offs x k)
    (hg : ∀ t, s.HasRead b offs k t → (g x t).Reads s b offs y m) :
    (r.bind g).Reads s b offs y m := Res.Runs.bind h hg

theorem State.HasRead.ok {α : Type} {s t : State} {b : Nat} {offs : List Nat} {k : Nat}
    (h : s.HasRead b offs k t) (x : α) : (Res.ok x t).Reads s b offs x k := State.Reaches.ok h x

section
variable {s t : State} {b k off : Nat} {offs : List Nat}
  (hoffs : ∀ off ∈ offs, off < windowSpan s.params)
include hoffs

theorem State.HasRead.queryByte (h : s.HasRead b offs k t) (hk : offs[k]? = some off) :
    (queryByte b off t).Reads s b offs (s.offsetByte b offs k) (k + 1) := by
  have hword := s.offsetWord_eq b hk
  have hr := State.Reaches.busReadAt h
    (Bank.accepts_baseAddr h.placed.baseAligned (hoffs off (List.mem_of_getElem? hk)))
  rw [← hword] at hr
  have hlength : (offs.take k).length = k :=
    List.length_take_of_le (List.getElem?_eq_some_iff.mp hk).1.le
  rw [Machine.queryByte, h.bank]
  refine Res.Runs.bind (hr.congr (es' := s.offsetEvents b offs (k + 1))
    (n' := (s.bank b).answersFor (offs.take (k + 1))) ?_ ?_) fun u hu => ?_
  · simp [State.offsetEvents, readEvents, List.take_add_one, hk, List.mapIdx_append, hlength]
  · simp [Bank.answersFor, List.take_add_one, hk]
  · rw [hu.bank, queryByteOf_eq]
    exact hu.ok _

theorem State.HasRead.cfiU16 (h : s.HasRead b offs k t) (hlo : offs[k]? = some off)
    (hhi : offs[k + 1]? = some (off + 1)) :
    (cfiU16 b off t).Reads s b offs (u16At (s.offsetByte b offs) k) (k + 2) :=
  (h.queryByte hoffs hlo).bind fun _ hu => (hu.queryByte hoffs hhi).bind fun _ hv => by
    rw [← u16At_eq]
    exact hv.ok _

/-- The regions of the CFI table, where the offsets go up by one through them (30_encoding.md R62). -/
theorem State.HasRead.readRegions : ∀ (count : Nat) {off k : Nat} {t : State},
    s.HasRead b offs k t → (∀ i < 4 * count, offs[k + i]? = some (off + i)) →
    (readRegions b off count t).Reads s b offs
      ((List.range count).map fun i =>
        (u16At (s.offsetByte b offs) (k + 4 * i), u16At (s.offsetByte b offs) (k + 2 + 4 * i)))
      (k + 4 * count)
  | 0, _, _, _, h, _ => h.ok _
  | count + 1, off, k, _, h, hup => by
    refine (h.cfiU16 hoffs (hup 0 (by omega)) (hup 1 (by omega))).bind fun _ h1 => ?_
    refine (h1.cfiU16 hoffs (hup 2 (by omega)) (hup 3 (by omega))).bind fun _ h2 => ?_
    refine (h2.readRegions count (off := off + 4) fun i hi => ?_).bind fun _ h3 => ?_
    · rw [Nat.add_assoc k, Nat.add_assoc k, Nat.add_assoc off]
      exact hup (4 + i) (by omega)
    · have hvalue : (List.range (count + 1)).map (fun i =>
            (u16At (s.offsetByte b offs) (k + 4 * i), u16At (s.offsetByte b offs) (k + 2 + 4 * i))) =
          (u16At (s.offsetByte b offs) k, u16At (s.offsetByte b offs) (k + 2)) ::
            (List.range count).map fun i => (u16At (s.offsetByte b offs) (k + 2 + 2 + 4 * i),
              u16At (s.offsetByte b offs) (k + 2 + 2 + 2 + 4 * i)) := by
        rw [List.range_succ_eq_map, List.map_cons, List.map_map]
        refine congrArg (_ :: ·) (List.map_congr_left fun i _ => ?_)
        simp only [Function.comp_apply, Nat.succ_eq_add_one, Nat.mul_add, Nat.add_comm (4 * i),
          ← Nat.add_assoc]
      rw [hvalue, show k + 4 * (count + 1) = k + 2 + 2 + 4 * count by omega]
      exact h3.ok _

end

/-! ### DecodeCFI -/

/-- The offsets of the regions come after nine others (30_encoding.md R61). -/
theorem cfiOffsets_getElem?_region (c : CfiLayout) {n i : Nat} (hi : i < 4 * n) :
    (cfiOffsets c n)[9 + i]? = some (c.regions + i) := by
  rw [cfiOffsets, List.getElem?_append_right (by simp)]
  simp [hi]

/-- The reads of `n` regions begin those of more. -/
theorem cfiOffsets_take (c : CfiLayout) {n m : Nat} (hn : n ≤ m) :
    (cfiOffsets c m).take (9 + 4 * n) = cfiOffsets c n := by
  rw [cfiOffsets, List.take_append, ← List.map_take, List.take_range,
    List.take_of_length_le (by simp), List.length_cons]
  simp [cfiOffsets, hn]

section
variable {s t : State} {b : Nat}

/-- The reads of DecodeCFI, in order (41_geometry.md R81). -/
theorem State.HasRead.readCfiFields (h : s.HasRead b (cfiOffsets s.params.cfi 255) 0 t) :
    let q := s.offsetByte b (cfiOffsets s.params.cfi 255)
    (readCfiFields b t).Reads s b (cfiOffsets s.params.cfi 255) (cfiFieldsOf q)
      (9 + 4 * (q 8).toNat) := by
  intro q
  have hn : (q 8).toNat < 256 := (q 8).isLt
  have ho := cfiOffsets_lt_windowSpan s.params (n := 255) le_rfl
  rw [Machine.readCfiFields, h.params]
  refine (h.queryByte ho rfl).bind fun _ h => (h.queryByte ho rfl).bind fun _ h => ?_
  refine (h.queryByte ho rfl).bind fun _ h => (h.queryByte ho rfl).bind fun _ h => ?_
  refine (h.queryByte ho rfl).bind fun _ h => (h.queryByte ho rfl).bind fun _ h => ?_
  refine (h.cfiU16 ho rfl rfl).bind fun _ h => (h.queryByte ho rfl).bind fun _ h => ?_
  exact (h.readRegions ho (q 8).toNat fun i hi => cfiOffsets_getElem?_region _ (by omega)).bind
    fun _ h => h.ok _

/-- The table of the fields read, stored, if its range is one the configuration allows. -/
theorem State.Reaches.storeCfi {n : Nat} {bk : Bank} {es : List BusEvent}
    (h : s.Reaches b bk es n t) (q : Nat → Byte) :
    let found := cfiBank s.params bk q
    (storeTable b (cfiTable t.params (t.bank b) (cfiFieldsOf q))
      (Bank.withCfi t.params (cfiFieldsOf q)) t).RunsIf
        (s.RangeOk b (found.baseAddress + found.size)) s b () found es n := by
  intro found
  obtain ⟨j, hj⟩ := h.placed.mux_eq_pow
  have htiles := (layRegions_tiles (hj ▸ Nat.two_pow_pos j) (cfiFieldsOf q).regions
    s.params.maxSectors bk.baseAddress).1
  rw [h.params, h.bank]
  obtain ⟨hstored, hrefused⟩ := storeTable_eq (s := s) (t := t) (bk := found)
    (tab := cfiTable s.params bk (cfiFieldsOf q)) (finish := Bank.withCfi s.params (cfiFieldsOf q))
    (by rw [h.bank]; exact withCfi_cfiFieldsOf ..) h.count h.others h.base
    (Bank.withTable_end htiles).symm
  exact ⟨fun hok => ⟨(), _, hstored hok, rfl, h.setBank rfl h.placed.widths⟩, hrefused⟩

/-- DecodeCFI of a bank in any mode (41_geometry.md R81). -/
theorem State.HasRead.decodeCfi (h : s.HasRead b (cfiOffsets s.params.cfi 255) 0 t) :
    let q := s.offsetByte b (cfiOffsets s.params.cfi 255)
    let offs := cfiOffsets s.params.cfi (q 8).toNat
    let found := cfiBank s.params (s.bank b) q
    (decodeCfi b t).RunsIf (s.RangeOk b (found.baseAddress + found.size)) s b () found
      (readEvents (s.bank b) (s.offsetWord b (cfiOffsets s.params.cfi 255)) offs)
      ((s.bank b).answersFor offs) := by
  intro q offs found
  have hn : (q 8).toNat < 256 := (q 8).isLt
  have hr := h.readCfiFields
  rw [Res.Reads, State.offsetEvents, cfiOffsets_take _ (show (q 8).toNat ≤ 255 by omega)] at hr
  exact hr.bindIf fun u hu => hu.storeCfi q

end

/-- What DecodeCFI makes of a placed bank fits the parameters (41_geometry.md R83, R84,
70_reset_and_hazards.md R136). -/
theorem cfiBank_fits (p : Params) {bk : Bank} (hbk : bk.Placed) (q : Nat → Byte) :
    let decoded := cfiBank p bk q
    decoded.sectorCount ≤ p.maxSectors ∧
      1 ≤ decoded.eraseTimeout ∧ 1 ≤ decoded.writeTimeout ∧ 1 ≤ decoded.bufferWriteTimeout ∧
      decoded.bufferSize % bk.bytes = 0 ∧ (bk.cmdset = .amdStyle → decoded.bufferSize = 0) := by
  have htimeout (u : TimeUnit) (typ max : Nat) : 1 ≤ normTimeout u typ max :=
    ((timeoutNormalisation typ max).1 u).1
  obtain ⟨hwords, -, hamd⟩ := bufferBytes_spec (p := p) hbk (u16At q 6)
  refine ⟨?_, htimeout .., htimeout .., htimeout .., hwords, hamd⟩
  simp [cfiBank, cfiWalk, Bank.sectorCount, layRegions_eq]

/-- Settles O41: the row is DecodeCFI from its first read on (`State.HasRead.decodeCfi`). -/
theorem decodeCfiOutcome : Obligations.DecodeCfiOutcome := by
  intro s b hs hi hd bk w q offs decoded
  have hn : (q 8).toNat < 256 := (q 8).isLt
  have hrun := State.HasRead.decodeCfi (s := s) (b := b) (hs.reaches hi (.decodeCfi b))
  refine ⟨fun hu => exec_unknownDevice hs hd hu rfl, fun hk => ⟨fun hm k hlt => ?_, fun hok => ?_,
    fun hno => ?_, cfiBank_fits s.params (hi.bank hs.bank).placed q⟩⟩
  · refine State.offsetWord_of_command hm (hlt.trans_le ?_)
    simp only [offs, cfiOffsets, List.length_append, List.length_map, List.length_range]
    omega
  · obtain ⟨_, t, hbody, -, ht⟩ := hrun.1 hok
    exact ⟨_, exec_known_of_ok (t := t) (r := none) hs hd hk rfl (congrArg asNothing hbody), ht.bank,
      rfl, ht.trace, ht.memory, ht.seq, ht.frame none⟩
  · exact exec_known_of_refused hs hd hk rfl (congrArg asNothing (hrun.2 hno))

end Sys2Proof.Machine
end

section
/-! PROOFS. ProbeProtection (41_geometry.md R86; O43): each lock read sets one flag, which moves neither
the words of the later reads nor their addresses. -/

namespace Sys2Proof.Machine

/-! ### Flags set one after another -/

section
variable {x y : Bank} (h : x.SameBuilt y)
include h

theorem Bank.SameBuilt.portWidth : y.portWidth = x.portWidth := (congrArg Bank.portWidth h.1 :)
theorem Bank.SameBuilt.chipWidth : y.chipWidth = x.chipWidth := (congrArg Bank.chipWidth h.1 :)
theorem Bank.SameBuilt.bytes : y.bytes = x.bytes := (congrArg Bank.bytes h.1 :)

theorem Bank.SameBuilt.sectorCount : y.sectorCount = x.sectorCount := by
  simpa [Bank.sectorCount] using congrArg List.length h.2

theorem Bank.SameBuilt.makeAddr (i off : Nat) : y.makeAddr i off = x.makeAddr i off := by
  simp only [Bank.makeAddr, Bank.sectorStart_eq_getD, h.2, h.bytes, h.baseAddress, h.size]

theorem Bank.SameBuilt.accepts_iff (p : Params) (a : Nat) : y.Accepts p a ↔ x.Accepts p a := by
  simp only [Bank.Accepts, Bank.inWindow, Bank.inArray, h.bytes, h.baseAddress, h.size]

theorem Bank.SameBuilt.commandEvents (p : Params) (cs : List (Nat × Command)) :
    y.commandEvents p cs = x.commandEvents p cs := by
  simp only [Bank.commandEvents, h.portWidth, h.chipWidth]

end

theorem Bank.inMode_sameBuilt (bk : Bank) (m : DeviceMode) (lastResetAmd : Bool) :
    bk.SameBuilt (bk.inMode m lastResetAmd) := ⟨rfl, rfl⟩

theorem Bank.SameRegs.sectorProtected {x y : Bank} (h : x.SameRegs y) (i : Nat) :
    y.sectorProtected i = x.sectorProtected i := by
  simp only [Bank.sectorProtected, h.sectors]

theorem Bank.setProtected_device (bk : Bank) (i : Nat) (v : Bool) :
    (bk.setProtected i v).device = bk.device := by
  unfold Bank.setProtected
  split <;> rfl

theorem Bank.setProtected_sectorProtected_self {bk : Bank} {i : Nat} (hi : i < bk.sectorCount)
    (v : Bool) : (bk.setProtected i v).sectorProtected i = v := by
  have hi : i < bk.sectors.length := hi
  simp [Bank.setProtected, Bank.sectorProtected, hi]

theorem Bank.setProtected_sectorProtected_other (bk : Bank) {i j : Nat} (hj : j ≠ i) (v : Bool) :
    (bk.setProtected i v).sectorProtected j = bk.sectorProtected j := by
  unfold Bank.setProtected
  split
  · simp [Bank.sectorProtected, List.getElem?_set_ne hj.symm]
  · rfl

/-- The flags of the sectors `i` upward set to `v`, `n` of them. -/
def Bank.setFlags (v : Nat → Bool) : (i n : Nat) → Bank → Bank
  | _, 0, bk => bk
  | i, n + 1, bk => Bank.setFlags v (i + 1) n (bk.setProtected i (v i))

theorem Bank.setFlags_sameBuilt (v : Nat → Bool) : ∀ (n i : Nat) (bk : Bank),
    bk.SameBuilt (Bank.setFlags v i n bk)
  | 0, _, bk => .refl bk
  | n + 1, i, bk =>
    (bk.setProtected_sameBuilt i (v i)).trans (Bank.setFlags_sameBuilt v n (i + 1) _)

theorem Bank.setFlags_sectorProtected_before (v : Nat → Bool) : ∀ (n : Nat) {i j : Nat} (bk : Bank),
    j < i → (Bank.setFlags v i n bk).sectorProtected j = bk.sectorProtected j
  | 0, _, _, _, _ => rfl
  | n + 1, i, j, bk, h => by
    rw [Bank.setFlags, Bank.setFlags_sectorProtected_before v n _ (by omega),
      bk.setProtected_sectorProtected_other (by omega)]

/-- Each flag set is the one asked for. -/
theorem Bank.setFlags_sectorProtected (v : Nat → Bool) : ∀ (n : Nat) {i j : Nat} {bk : Bank},
    i ≤ j → j < i + n → j < bk.sectorCount → (Bank.setFlags v i n bk).sectorProtected j = v j
  | 0, _, _, _, _, _, _ => by omega
  | n + 1, i, j, bk, hi, hj, hc => by
    rcases Nat.eq_or_lt_of_le hi with rfl | hi
    · rw [Bank.setFlags, Bank.setFlags_sectorProtected_before v n _ (Nat.lt_succ_self i),
        Bank.setProtected_sectorProtected_self hc]
    · exact Bank.setFlags_sectorProtected v n hi (by omega)
        ((bk.setProtected_sameBuilt i (v i)).sectorCount ▸ hc)

/-! ### The lock reads -/

/-- The address of the lock read of sector `i`. -/
def State.lockAddr (s : State) (bk : Bank) (i : Nat) : Nat := bk.makeAddr i s.params.protectOffset

/-- Some lane of the word the lock read of sector `i` yields has the protect bit, where it takes the
`i`-th answer. -/
def State.lockFlag (s : State) (bk : Bank) (i : Nat) : Bool :=
  (s.wordAt bk i &&& bk.rep s.params.protectBit) != 0

/-- The lock read of sector `i` on the bus. -/
def State.lockEvent (s : State) (bk : Bank) (i : Nat) : BusEvent :=
  .read (s.lockAddr bk i) (s.wordAt bk i)

section
variable {s : State} {b : Nat} {bk : Bank}

theorem State.Reaches.lockAddr_eq {t : State} {x : Bank} {es : List BusEvent} {n : Nat}
    (h : s.Reaches b x es n t) (hx : bk.SameBuilt x) (i : Nat) :
    (t.bank b).makeAddr i t.params.protectOffset = s.lockAddr bk i := by
  rw [h.bank, h.params, hx.makeAddr]
  rfl

/-- One lock read, and its flag set; the `i`-th answer is that of sector `i`. -/
theorem State.Reaches.probeSector {t : State} {x : Bank} {es : List BusEvent} {i : Nat}
    (h : s.Reaches b x es i t) (hx : bk.SameBuilt x) (hm : x.device.mode = .command) (n : Nat)
    (ha : bk.Accepts s.params (s.lockAddr bk i)) :
    ∃ u, s.Reaches b (x.setProtected i (s.lockFlag bk i)) (es ++ [s.lockEvent bk i]) (i + 1) u ∧
      probeSectors b i (n + 1) t = probeSectors b (i + 1) n u := by
  have hword : s.readWord x i (s.lockAddr bk i) = s.wordAt bk i := by
    rw [State.readWord, Bank.readsArray_of_command hm, State.wordAt, hx.portWidth]
    rfl
  obtain ⟨w, u, hread, rfl, hu⟩ := h.busReadAt ((hx.accepts_iff s.params _).mpr ha)
  rw [hword, Bank.answersTaken, Bank.readsArray_of_command hm] at hu
  have hset := x.setProtected_sameBuilt i (s.lockFlag bk i)
  have hflag : (s.wordAt bk i &&& (u.bank b).rep u.params.protectBit != 0) = s.lockFlag bk i := by
    rw [hu.bank, hu.params, Bank.rep, hx.portWidth, hx.chipWidth]
    rfl
  refine ⟨_, hu.setBank hset.baseAddress ?_, ?_⟩
  · rw [hset.portWidth, hset.chipWidth]
    exact hu.placed.widths
  · rw [Machine.probeSectors, h.lockAddr_eq hx, hread, Res.bind_ok, hword, hflag, hu.bank]

/-- The lock reads of the sectors `i` upward. -/
theorem State.Reaches.probeSectors : ∀ (n : Nat) {i : Nat} {t : State} {x : Bank}
    {es : List BusEvent}, s.Reaches b x es i t → bk.SameBuilt x → x.device.mode = .command →
    (∀ j, i ≤ j → j < i + n → bk.Accepts s.params (s.lockAddr bk j)) →
    (probeSectors b i n t).Runs s b () (Bank.setFlags (s.lockFlag bk) i n x)
      (es ++ (List.range' i n).map (s.lockEvent bk)) (i + n)
  | 0, _, _, _, es, h, _, _, _ => (h.ok ()).congr (List.append_nil es).symm rfl
  | n + 1, i, _, x, es, h, hx, hm, ha => by
    obtain ⟨u, hu, heq⟩ := h.probeSector hx hm n (ha i le_rfl (by omega))
    rw [heq]
    refine (hu.probeSectors n (hx.trans (x.setProtected_sameBuilt ..))
      ((x.setProtected_device ..).symm ▸ hm) fun j hj hlt => ha j (by omega) (by omega)).congr ?_
      (by omega)
    simp [List.range'_succ]

/-- Lock reads one of which is outside the window, all of them aligned. -/
theorem State.Reaches.probeSectors_refused : ∀ (n : Nat) {i : Nat} {t : State} {x : Bank}
    {es : List BusEvent}, s.Reaches b x es i t → bk.SameBuilt x → x.device.mode = .command →
    (∀ j, s.lockAddr bk j % bk.bytes = 0) →
    (∃ j, i ≤ j ∧ j < i + n ∧ ¬ bk.Accepts s.params (s.lockAddr bk j)) →
    Machine.probeSectors b i n t = .refused .outsideWindow
  | 0, _, _, _, _, _, _, _, _, ⟨_, _, _, _⟩ => by omega
  | n + 1, i, t, x, es, h, hx, hm, hal, ⟨j, hj, hlt, hno⟩ => by
    by_cases ha : bk.Accepts s.params (s.lockAddr bk i)
    · obtain ⟨u, hu, heq⟩ := h.probeSector hx hm n ha
      have hne : j ≠ i := fun e => hno (e ▸ ha)
      rw [heq]
      exact hu.probeSectors_refused n (hx.trans (x.setProtected_sameBuilt ..))
        ((x.setProtected_device ..).symm ▸ hm) hal ⟨j, by omega, by omega, hno⟩
    · have hstop := (busRead_stopsAt t b (s.lockAddr bk i)).2
      rw [h.bank, h.params, hx.bytes] at hstop
      have hwindow : x.inWindow s.params (s.lockAddr bk i) = false :=
        Bool.eq_false_iff.mpr fun hw => ha ((hx.accepts_iff s.params _).mp
          ⟨hx.bytes ▸ hal i, hw⟩)
      rw [Machine.probeSectors, h.lockAddr_eq hx, hstop (hal i) hwindow, Res.bind_refused]

/-! ### The end of the probe -/

/-- The lock register written (log 10). -/
theorem State.Reaches.probeLocks {t : State} {es : List BusEvent} {n : Nat}
    (h : s.Reaches b bk es n t) :
    ∃ bk', bk.SameRegs bk' ∧ s.Reaches b bk' es n (probeLocks b t) := by
  unfold Machine.probeLocks
  split
  · rw [State.setLocks, State.setDevice, h.bank]
    exact ⟨{ bk with device := { bk.device with lockBits := bk.sectors.map Sector.isProtected } },
      rfl, h.setBank rfl h.placed.widths⟩
  · exact ⟨bk, .refl bk, h⟩

/-- A reset to read-array at the base (42_sequencer.md R87): its writes, read-array mode, and then the
sequencer idle. -/
theorem State.Reaches.bankReset {t : State} {es : List BusEvent} {n : Nat}
    (h : s.Reaches b bk es n t) :
    ∃ bk' u, bankReset b bk.baseAddress t = .ok () (u.setSm .idle) ∧
      bk.SameRegs bk' ∧ bk'.device.mode = .readArray ∧
      s.Reaches b bk' (es ++ bk.commandEvents s.params
        ((resetWords bk.cmdset).map fun c => (bk.baseAddress, c))) n u := by
  obtain ⟨_, u, hu, rfl, hr⟩ := h.writeCommands
    ((resetWords bk.cmdset).map fun c => (bk.baseAddress, c))
    (by simpa using fun _ _ => Bank.accepts_base h.placed.baseAligned)
  refine ⟨_, u, ?_, ?_, devicesAfter_resetWords .., hr⟩
  · rw [Machine.bankReset, h.bank, hu, Res.bind_ok]
  · rfl

/-- The events of a probe of the bank. -/
def State.probeEvents (s : State) (bk : Bank) : List BusEvent :=
  bk.commandEvents s.params (amdPrefix s.params bk .readId) ++
    (List.range bk.sectorCount).map (s.lockEvent bk) ++
    bk.commandEvents s.params ((resetWords bk.cmdset).map fun c => (bk.baseAddress, c))

/-- Everything a probe does from the first answer on (41_geometry.md R86). -/
theorem State.Reaches.probeProtection {t : State} (h : s.Reaches b bk [] 0 t)
    (hn : bk.sectorCount ≠ 0)
    (ha : ∀ i < bk.sectorCount, bk.Accepts s.params (s.lockAddr bk i)) :
    ∃ bk' u, probeProtection b t = .ok () (u.setSm .idle) ∧
      bk.SameBuilt bk' ∧ (∀ i < bk.sectorCount, bk'.sectorProtected i = s.lockFlag bk i) ∧
      bk'.device.mode = .readArray ∧ s.Reaches b bk' (s.probeEvents bk) bk.sectorCount u := by
  have hid := bk.inMode_sameBuilt .command false
  obtain ⟨_, t1, henter, -, h1⟩ := h.readIdEnter
  obtain ⟨_, t2, hprobe, -, h2⟩ := h1.probeSectors bk.sectorCount hid rfl
    fun j _ hj => ha j (by omega)
  obtain ⟨x, hx, h3⟩ := h2.probeLocks
  obtain ⟨bk', u, hreset, hbk', hmode, h4⟩ := h3.bankReset
  have hflags := hid.trans (Bank.setFlags_sameBuilt (s.lockFlag bk) bk.sectorCount 0 _)
  have hsame := hflags.trans hx.sameBuilt
  refine ⟨bk', u, ?_, hsame.trans hbk'.sameBuilt, fun i hi => ?_, hmode, ?_⟩
  · rw [Machine.probeProtection, h.bank, if_neg hn, henter, Res.bind_ok, h1.bank, hid.sectorCount,
      hprobe, Res.bind_ok, h2.bank, hflags.baseAddress, ← hreset, hsame.baseAddress]
  · rw [(hx.trans hbk').sectorProtected,
      Bank.setFlags_sectorProtected _ _ (Nat.zero_le i) (by omega) (hi.trans_eq hid.sectorCount.symm)]
  · rw [hsame.commandEvents, hsame.cmdset, hsame.baseAddress, List.nil_append, Nat.zero_add,
      ← List.range_eq_range'] at h4
    exact h4

/-- A probe with a lock read outside the window. -/
theorem State.Reaches.probeProtection_refused {t : State} (h : s.Reaches b bk [] 0 t)
    (hal : ∀ i, s.lockAddr bk i % bk.bytes = 0)
    (hno : ∃ i < bk.sectorCount, ¬ bk.Accepts s.params (s.lockAddr bk i)) :
    Machine.probeProtection b t = .refused .outsideWindow := by
  have hid := bk.inMode_sameBuilt .command false
  obtain ⟨i, hi, hi'⟩ := hno
  obtain ⟨_, t1, henter, -, h1⟩ := h.readIdEnter
  rw [Machine.probeProtection, h.bank, if_neg (by omega), henter, Res.bind_ok, h1.bank,
    hid.sectorCount, h1.probeSectors_refused bk.sectorCount hid rfl hal
      ⟨i, Nat.zero_le i, by omega, hi'⟩, Res.bind_refused]

end

/-- Settles O43: the row is a probe from the first answer on (`State.Reaches.probeProtection`,
`State.Reaches.probeProtection_refused`), or, without a sector, nothing. -/
theorem probeProtectionOutcome : Obligations.ProbeProtectionOutcome := by
  intro s b hs hi hd o1 o2 word
  have hw := hi.bank hs.bank
  have hstart := hs.reaches hi (.probeProtection b)
  refine ⟨fun hu => exec_unknownDevice hs hd hu rfl, fun hk hn => ?noSector,
    fun ho i hlt => hw.accepts_makeAddr hlt ho, fun hk hn ha => ?probed, fun hk hno => ?refused⟩
  case noSector =>
    have hbody : probeProtection b (s.enter (.probeProtection b)) =
      .ok () (s.enter (.probeProtection b)) := if_pos hn
    exact exec_known_of_ok (t := s.enter (.probeProtection b)) hs hd hk rfl
      (congrArg asNothing hbody)
  case probed =>
    obtain ⟨bk', u, hbody, hsame, hflags, hmode, hu⟩ := hstart.probeProtection hn ha
    have hword {i : Nat} (hlt : i < (s.bank b).sectorCount) :
        ((List.range (s.bank b).sectorCount).map (s.wordAt (s.bank b))).getD i 0 =
          s.wordAt (s.bank b) i := by
      simp [List.getD_eq_getElem?_getD, hlt]
    refine ⟨_, (List.range (s.bank b).sectorCount).map (s.wordAt (s.bank b)),
      exec_known_of_ok (t := u.setSm .idle) (r := none) hs hd hk rfl (congrArg asNothing hbody),
      by simp, ?trace, fun i hlt => hword hlt, ⟨{ hu.frame none with }, rfl, ?mode⟩, ?built,
      hu.memory, fun i hlt => ?flag⟩
    case trace =>
      have hreads : (List.range (s.bank b).sectorCount).map (fun i => BusEvent.read (word i)
          (((List.range (s.bank b).sectorCount).map (s.wordAt (s.bank b))).getD i 0)) =
          (List.range (s.bank b).sectorCount).map (s.lockEvent (s.bank b)) :=
        List.map_congr_left fun i hlt => by
          rw [hword (List.mem_range.mp hlt)]
          rfl
      rw [hreads, State.resetWrites, writeEvents_commandWrites, writeEvents_commandWrites,
        List.append_assoc, List.append_assoc, ← List.append_assoc (Bank.commandEvents ..)]
      exact hu.trace
    case mode => exact hu.bank ▸ hmode
    case built => exact hu.bank ▸ hsame
    case flag =>
      have hbank : ((u.setSm .idle).leave none).bank b = bk' := hu.bank
      rw [hbank, hflags i hlt, hword hlt, State.lockFlag, bne_iff_ne]
      rfl
  case refused =>
    refine exec_known_of_refused hs hd hk rfl
      (congrArg asNothing (hstart.probeProtection_refused (fun i => ?_) hno))
    rw [State.lockAddr, Bank.makeAddr, Nat.add_mul_mod_self_right]
    exact (s.bank b).aligned_of_four (hw.sectorStart_aligned i)

end Sys2Proof.Machine
end

section
/-! PROOFS. A poll told once (42_sequencer.md R89, R90): its trace, the registers it leaves
(10_state.md R23) and its result, from every state in which its address is accepted (`poll_runs`,
`pollReady_runs`); O25, O26. -/

namespace Sys2Proof.Machine

/-! ### What the events of a poll say -/

section
variable {test : Word → Word → Verdict} {a t0 budget : Nat}

/-- Events that are a run of a poll's loop are reads of the poll address and of the timer. -/
theorem pollOutcome_reads {prev : Word} {es : List BusEvent} {o : Option Verdict}
    (h : pollOutcome test a t0 budget prev es = some o) :
    writesOf es = [] ∧ ∀ x ∈ accessesOf es, x = a := by
  induction prev, es using pollOutcome.induct test a t0 budget with
  | case1 prev x w hx => simp [hx.1]
  | case2 prev x w hx => simp [pollOutcome, hx] at h
  | case3 prev x w t hx => simp [hx.1]
  | case4 prev x w t hx => simp [pollOutcome, hx] at h
  | case5 prev x w t es hne hx ih =>
    rw [pollOutcome.eq_3 _ _ _ _ _ _ _ _ _ hne, if_pos hx] at h
    simpa [hx.1] using ih h
  | case6 prev x w t es hne hx =>
    rw [pollOutcome.eq_3 _ _ _ _ _ _ _ _ _ hne, if_neg hx] at h
    cases h
  | case7 prev es h1 h2 h3 =>
    rw [pollOutcome.eq_4 _ _ _ _ _ _ h1 h2 h3] at h
    cases h

/-- A run that a status word ended: the test gave its verdict, and it was not "not done". -/
theorem pollOutcome_verdict {prev : Word} {es : List BusEvent} {v : Verdict}
    (h : pollOutcome test a t0 budget prev es = some (some v)) :
    v ≠ .notDone ∧ ∃ x y, test x y = v := by
  induction prev, es using pollOutcome.induct test a t0 budget with
  | case1 prev x w hx =>
    rw [pollOutcome, if_pos hx] at h
    cases h
    exact ⟨hx.2, prev, w, rfl⟩
  | case2 prev x w hx => simp [pollOutcome, hx] at h
  | case3 prev x w t hx => simp [pollOutcome, hx] at h
  | case4 prev x w t hx => simp [pollOutcome, hx] at h
  | case5 prev x w t es hne hx ih =>
    rw [pollOutcome.eq_3 _ _ _ _ _ _ _ _ _ hne, if_pos hx] at h
    exact ih h
  | case6 prev x w t es hne hx =>
    rw [pollOutcome.eq_3 _ _ _ _ _ _ _ _ _ hne, if_neg hx] at h
    cases h
  | case7 prev es h1 h2 h3 =>
    rw [pollOutcome.eq_4 _ _ _ _ _ _ h1 h2 h3] at h
    cases h

end

section
variable {p : Params} {bk : Bank} {a t0 budget : Nat} {es : List BusEvent}

/-- A poll's events after its start time: perhaps a toggle reference, then a run of the loop. -/
theorem pollTraceOutcome_run {o : Option Verdict}
    (h : pollTraceOutcome p bk a t0 budget es = some o) :
    (∃ w fs, es = .read a w :: fs ∧ pollOutcome (pollVerdict p bk) a t0 budget w fs = some o) ∨
      pollOutcome (pollVerdict p bk) a t0 budget 0 es = some o := by
  unfold pollTraceOutcome at h
  split at h
  · split at h
    · rename_i x w fs
      split at h
      · rename_i hx
        exact .inl ⟨w, fs, by rw [hx], h⟩
      · cases h
    · cases h
  · exact .inr h

theorem pollTraceOutcome_reads {o : Option Verdict}
    (h : pollTraceOutcome p bk a t0 budget es = some o) :
    writesOf es = [] ∧ ∀ x ∈ accessesOf es, x = a := by
  rcases pollTraceOutcome_run h with ⟨w, fs, rfl, hrun⟩ | hrun
  · simpa using pollOutcome_reads hrun
  · exact pollOutcome_reads hrun

theorem pollTraceOutcome_verdict {v : Verdict}
    (h : pollTraceOutcome p bk a t0 budget es = some (some v)) :
    v ≠ .notDone ∧ ∃ x y, pollVerdict p bk x y = v := by
  rcases pollTraceOutcome_run h with ⟨w, fs, rfl, hrun⟩ | hrun
  · exact pollOutcome_verdict hrun
  · exact pollOutcome_verdict hrun

/-- A bank without a command set has no done pattern: its polls expire (42_sequencer.md R89). -/
theorem pollTraceOutcome_of_none {o : Option Verdict} (hc : bk.cmdset = .none)
    (h : pollTraceOutcome p bk a t0 budget es = some o) : o = none := by
  cases o with
  | none => rfl
  | some v =>
    obtain ⟨hne, x, y, hv⟩ := pollTraceOutcome_verdict h
    simp only [pollVerdict, hc] at hv
    exact absurd hv.symm hne

/-- An AMD-style poll decodes no error bit (30_encoding.md R57). -/
theorem kindOfOutcome_of_amd {tkind : Kind} {o : Option Verdict} (hc : bk.cmdset = .amdStyle)
    (h : pollTraceOutcome p bk a t0 budget es = some o) :
    kindOfOutcome tkind o = .ok ∨ kindOfOutcome tkind o = tkind := by
  cases o with
  | none => exact .inr rfl
  | some v =>
    obtain ⟨-, x, y, rfl⟩ := pollTraceOutcome_verdict h
    simp only [pollVerdict, hc, amdVerdict]
    split <;> exact .inl rfl

end

theorem kindOfOutcome_cases (tkind : Kind) (o : Option Verdict) :
    kindOfOutcome tkind o = .ok ∨ kindOfOutcome tkind o = tkind ∨
      ∃ sub, kindOfOutcome tkind o = .hardwareError sub := by
  cases o with
  | none => exact .inr (.inl rfl)
  | some v =>
    cases v with
    | error sub => exact .inr (.inr ⟨sub, rfl⟩)
    | notDone | done => exact .inl rfl

/-- `Done` is what a run has whose last status word was done. -/
theorem eq_done_of_kindOfOutcome {tkind : Kind} {o : Option Verdict} (ht : tkind ≠ .ok)
    (hne : o ≠ some .notDone) (h : kindOfOutcome tkind o = .ok) : o = some .done := by
  cases o with
  | none => exact absurd h ht
  | some v =>
    cases v with
    | error sub => cases h
    | notDone => exact absurd rfl hne
    | done => rfl

theorem kindOfTimeout_ne_ok (k : TimeoutKind) : kindOfTimeout k ≠ .ok := by
  cases k <;> exact Kind.noConfusion

/-! ### The registers a poll leaves (10_state.md R23) -/

theorem pollPrevAfter_next (prev w : Word) (a n : Nat) {es : List BusEvent} (he : es ≠ []) :
    pollPrevAfter prev (.read a w :: .timer n :: es) = pollPrevAfter w es := by
  obtain ⟨e, fs, rfl⟩ := List.exists_cons_of_ne_nil he
  rfl

theorem pollPrevOf_of_not_amd {cs : CmdSet} (h : cs ≠ .amdStyle) (prev : Word)
    (es : List BusEvent) : pollPrevOf cs prev es = pollPrevAfter prev es := if_neg h

section
variable {b : Nat}

/-- `poll_prev` after the loop of a poll is the last word that was not done and did not end it. -/
theorem pollLoop_prev (test : Word → Word → Verdict) : ∀ (fuel : Nat) {s t : State} {e : PollEnd},
    pollLoop test b fuel s = .ok e t →
    ∃ es, es ≠ [] ∧ t.log.trace = s.log.trace ++ es ∧
      t.seq.pollPrev = pollPrevAfter s.seq.pollPrev es
  | 0, _, _, _, h => by cases h
  | fuel + 1, s, t, e, h => by
    obtain ⟨w, u, hread, hrest⟩ := Res.bind_eq_ok h
    obtain ⟨-, -, -, q1, -, l1, -, -⟩ := (busRead_leads b _ s).of_eq hread
    split at hrest
    · obtain ⟨n, v, htime, hrest⟩ := Res.bind_eq_ok hrest
      obtain ⟨-, -, q2, -, -, -, l2⟩ := (readTimer_leads b u).of_eq htime
      split at hrest
      · cases hrest
        exact ⟨[.read s.seq.pollAddr w, .timer n], by simp, by simp [l2, l1],
          by rw [q2, q1]; rfl⟩
      · obtain ⟨es, he, hl, hp⟩ := pollLoop_prev test fuel hrest
        refine ⟨.read s.seq.pollAddr w :: .timer n :: es, by simp, by simp [hl, l2, l1], ?_⟩
        rw [hp, pollPrevAfter_next _ _ _ _ he]
        rfl
    · cases hrest
      exact ⟨[.read s.seq.pollAddr w], by simp, by simp [l1], by rw [q1]; rfl⟩

/-- The loop of a poll as its trace shows it, and the registers it leaves. -/
theorem pollLoop_run {test : Word → Word → Verdict} {fuel : Nat} {s t : State} {e : PollEnd}
    (h : pollLoop test b fuel s = .ok e t) :
    ∃ es, t.log.trace = s.log.trace ++ es ∧
      pollOutcome test s.seq.pollAddr s.seq.pollStart s.seq.pollBudget s.seq.pollPrev es =
        some e.toOutcome ∧
      t.seq = { s.seq with pollPrev := pollPrevAfter s.seq.pollPrev es } := by
  obtain ⟨es, -, htrace, houtcome⟩ := pollLoop_outcome test fuel h
  obtain ⟨fs, -, htrace', hprev⟩ := pollLoop_prev test fuel h
  obtain rfl := List.append_cancel_left (htrace.symm.trans htrace')
  obtain ⟨-, -, hseq, -⟩ := (pollLoop_leads test fuel).of_eq h
  exact ⟨es, htrace, houtcome, by rw [hseq, hprev]⟩

theorem State.resetEvents_eq (s : State) (b a : Nat) :
    s.resetEvents b a = writeEvents (s.resetWrites b a) := (writeEvents_commandWrites ..).symm

/-- The reset that ends a poll. -/
theorem pollExit_run {a : Nat} {x : SmState} {k k' : Kind} {s t : State} (hb : b < s.banks.length)
    (h : pollExit b a x k s = .ok k' t) :
    k' = k ∧ t.seq = { s.seq with smState := .idle } ∧ (t.bank b).device.mode = .readArray ∧
      t.log.trace = s.log.trace ++ writeEvents (s.resetWrites b a) := by
  obtain ⟨_, u, hreset, hend⟩ := Res.bind_eq_ok h
  cases hend
  obtain ⟨-, -, hseq, hmode, hlog, -⟩ := (bankReset_leads (s := s.setSm x) a hb).of_eq hreset
  exact ⟨rfl, hseq, hmode, (congrArg Log.trace hlog).trans (by
    rw [State.resetEvents_eq]
    rfl)⟩

/-- A poll that has run: the events after its start time `t0` are `es`, the run of the loop they are
has the outcome `o`, and then comes the reset. -/
structure Polled (b a budget : Nat) (tkind k : Kind) (s t : State) (t0 : Nat) (es : List BusEvent)
    (o : Option Verdict) : Prop where
  frame : BusFrame b s t
  outcome : pollTraceOutcome s.params (s.bank b) a t0 budget es = some o
  kind : k = kindOfOutcome tkind o
  trace : t.log.trace = s.log.trace ++ .timer t0 :: es ++ writeEvents (s.resetWrites b a)
  seq : t.seq = polledSeq a budget t0 (pollPrevOf (s.bank b).cmdset s.seq.pollPrev es)
    s.seq.savedIrq
  mode : (t.bank b).device.mode = .readArray

theorem BusFrame.resetWrites {s t : State} (f : BusFrame b s t) (a : Nat) :
    t.resetWrites b a = s.resetWrites b a := by
  simp only [State.resetWrites, State.commandWrites, f.commandWord, f.cmdset]

/-- The registers a poll leaves, beside its trace. -/
theorem poll_seq {a budget : Nat} {tkind k : Kind} {s t : State} (hb : b < s.banks.length)
    (h : poll b a budget tkind s = .ok k t) :
    ∃ t0 es, t.log.trace = s.log.trace ++ .timer t0 :: es ++ writeEvents (s.resetWrites b a) ∧
      t.seq = polledSeq a budget t0 (pollPrevOf (s.bank b).cmdset s.seq.pollPrev es)
        s.seq.savedIrq := by
  obtain ⟨_, u, henter, h⟩ := Res.bind_eq_ok h
  obtain ⟨f1, -, hpolling, ha, hbudget, -⟩ := (pollEnter_leads a budget).of_eq henter
  obtain ⟨-, -, -, htrace⟩ := pollEnter_trace henter
  obtain ⟨e, v, hloop, h⟩ := Res.bind_eq_ok h
  obtain ⟨f2, -⟩ := (pollLoop_leads _ _).of_eq hloop
  obtain ⟨es, hrun, -, hseq⟩ := pollLoop_run hloop
  have f := f1.trans f2
  obtain ⟨x, k', hexit⟩ : ∃ x k', pollExit b a x k' v = .ok k t := by
    cases e with
    | expired => exact ⟨_, _, h⟩
    | answered y => cases y <;> exact ⟨_, _, h⟩
  obtain ⟨-, hidle, -, hreset⟩ := pollExit_run (f.lt hb) hexit
  rw [f.resetWrites, hrun] at hreset
  rw [hseq] at hidle
  have hleft (prev : Word) : { u.seq with pollPrev := prev, smState := .idle } =
      polledSeq a budget u.seq.pollStart prev s.seq.savedIrq := by
    rw [← ha, ← hbudget, ← f1.saved]
    rfl
  split at htrace
  · next hc =>
    refine ⟨u.seq.pollStart, .read a u.seq.pollPrev :: es, by simp [hreset, htrace], ?_⟩
    rw [hidle, hleft, hc]
    rfl
  · next hc =>
    refine ⟨u.seq.pollStart, es, by simp [hreset, htrace.1], ?_⟩
    rw [hidle, hleft, pollPrevOf_of_not_amd hc, htrace.2]

/-- A poll always returns (60_exceptions.md R123), and it is a run of the loop of R89. -/
theorem poll_runs {a : Nat} (budget : Nat) (tkind : Kind) {s : State} (hr : s.env.resetIn = none)
    (hb : b < s.banks.length) (ha : (s.bank b).Accepts s.params a) :
    ∃ k t t0 es o, poll b a budget tkind s = .ok k t ∧ Polled b a budget tkind k s t t0 es o := by
  obtain ⟨k, t, h⟩ := poll_completes budget tkind hr hb ha
  obtain ⟨f, -, -, hmode, -⟩ := (poll_leads a budget tkind hb).of_eq h
  obtain ⟨t0, es, o, htrace, houtcome, hkind⟩ := poll_outcome hb h
  obtain ⟨t0', es', htrace', hseq⟩ := poll_seq hb h
  rw [State.resetEvents_eq] at htrace
  have heq := List.append_cancel_left
    (List.append_cancel_right (htrace.symm.trans htrace'))
  obtain ⟨rfl, rfl⟩ : t0 = t0' ∧ es = es' := by simpa using heq
  exact ⟨k, t, t0, es, o, h, f, houtcome, hkind, htrace, hseq, hmode⟩

/-! ### The ready poll (42_sequencer.md R90) -/

/-- A ready poll that has run: as `Polled`, with no toggle reference; seeing ready it leaves the
devices mid-sequence, expired it resets them. -/
structure ReadyPolled (b a budget : Nat) (ready : Bool) (s t : State) (t0 : Nat)
    (es : List BusEvent) (o : Option Verdict) : Prop where
  frame : BusFrame b s t
  outcome : pollOutcome (readyVerdict s.params (s.bank b)) a t0 budget 0 es = some o
  result : ready = o.isSome
  seen : ready = true → (t.bank b).device = (s.bank b).device ∧
    t.log.trace = s.log.trace ++ .timer t0 :: es ∧
    t.seq = { polledSeq a budget t0 (pollPrevAfter s.seq.pollPrev es) s.seq.savedIrq with
      smState := .commandIssued }
  expired : ready = false → (t.bank b).device.mode = .readArray ∧
    t.log.trace = s.log.trace ++ .timer t0 :: es ++ writeEvents (s.resetWrites b a) ∧
    t.seq = polledSeq a budget t0 (pollPrevAfter s.seq.pollPrev es) s.seq.savedIrq

/-- A ready poll is its entry, a run of the loop, and its end. -/
theorem pollReady_parts {a budget : Nat} {ready : Bool} {s t : State}
    (h : pollReady b a budget s = .ok ready t) :
    ∃ n u e v, readTimer ((s.setSm .polling).setPoll a budget) = .ok n u ∧
      pollLoop (readyVerdict u.params (u.bank b)) b (pollFuel (u.setPollStart n))
        (u.setPollStart n) = .ok e v ∧
      ((∃ y, e = .answered y ∧ ready = true ∧ t = v.setSm .commandIssued) ∨
        e = .expired ∧ ready = false ∧
          pollExit b a .timedOut .bufferWriteTimeout v = .ok .bufferWriteTimeout t) := by
  obtain ⟨n, u, htimer, h⟩ := Res.bind_eq_ok h
  obtain ⟨e, v, hloop, h⟩ := Res.bind_eq_ok h
  refine ⟨n, u, e, v, htimer, hloop, ?_⟩
  cases e with
  | answered y =>
    cases h
    exact .inl ⟨y, rfl, rfl, rfl⟩
  | expired =>
    obtain ⟨k, w, hexit, h⟩ := Res.bind_eq_ok h
    cases h
    obtain ⟨-, rfl⟩ := pollExit_busInput hexit
    exact .inr ⟨rfl, rfl, hexit⟩

theorem pollReady_runs {a : Nat} (budget : Nat) {s : State} (hr : s.env.resetIn = none)
    (hb : b < s.banks.length) (ha : (s.bank b).Accepts s.params a) :
    ∃ ready t t0 es o, pollReady b a budget s = .ok ready t ∧
      ReadyPolled b a budget ready s t t0 es o := by
  obtain ⟨ready, t, h⟩ := pollReady_completes budget hr hb ha
  obtain ⟨f, -⟩ := (pollReady_leads a budget hb).of_eq h
  obtain ⟨n, u, e, v, htimer, hloop, hend⟩ := pollReady_parts h
  obtain ⟨f1, -, hseq1, hbanks1, -, -, hlog1⟩ := (readTimer_leads b _).of_eq htimer
  have hu : u.bank b = s.bank b := State.bank_eq_of_banks hbanks1 b
  obtain ⟨f2, hbanks2, -⟩ := (pollLoop_leads _ _).of_eq hloop
  have hv : v.bank b = s.bank b := (State.bank_eq_of_banks hbanks2 b).trans hu
  have fv : BusFrame b s v := ((BusFrame.setSm b s .polling).trans (.setPoll b _ a budget)).trans
    ((f1.trans (.setPollStart b u n)).trans f2)
  obtain ⟨es, htrace, houtcome, hseq⟩ := pollLoop_run hloop
  simp only [State.setPollStart_seq, State.setPollStart_log, hseq1, hlog1, hu,
    f1.params, State.setPoll_seq, State.setPoll_log, State.setPoll_params, State.setSm_seq,
    State.setSm_log, State.setSm_params] at htrace houtcome hseq
  rw [pollOutcome_prev (fun _ _ _ => rfl) _ 0] at houtcome
  rw [List.append_assoc, List.singleton_append] at htrace
  refine ⟨ready, t, n, es, e.toOutcome, h, ?_⟩
  rcases hend with ⟨y, rfl, rfl, rfl⟩ | ⟨rfl, rfl, hexit⟩
  · exact ⟨f, houtcome, rfl, fun _ => ⟨congrArg Bank.device hv, htrace, by
      rw [State.setSm_seq, hseq]
      rfl⟩, nofun⟩
  · obtain ⟨-, hidle, hmode, hreset⟩ := pollExit_run (fv.lt hb) hexit
    rw [fv.resetWrites, htrace] at hreset
    exact ⟨f, houtcome, rfl, nofun, fun _ => ⟨hmode, hreset, by
      rw [hidle, hseq]
      rfl⟩⟩

/-- What an Intel-style poll takes as done, a ready poll takes as ready (42_sequencer.md R90). -/
theorem readyVerdict_of_done {p : Params} {bk : Bank} (hc : bk.cmdset = .intelStyle) {x y w : Word}
    (h : pollVerdict p bk x w = .done) : readyVerdict p bk y w = .done := by
  simp only [pollVerdict, hc, intelVerdict] at h
  split at h
  · next hd => exact if_pos hd
  · cases h

/-- A ready poll of devices with a done answer ready sees it, and leaves the others ready. -/
theorem pollReady_doneNext {a budget n : Nat} {ready : Bool} {s t : State}
    (h : pollReady b a budget s = .ok ready t) (hm : (s.bank b).device.mode = .command)
    (hc : (s.bank b).cmdset = .intelStyle) (hd : s.DoneNext b (1 + n)) :
    ready = true ∧ t.DoneNext b n := by
  obtain ⟨w, rest, hi, hv⟩ := hd
  obtain ⟨m, u, e, v, htimer, hloop, hend⟩ := pollReady_parts h
  obtain ⟨f1, -, -, hbanks1, -⟩ := (readTimer_leads b _).of_eq htimer
  have hu : u.bank b = s.bank b := State.bank_eq_of_banks hbanks1 b
  have hinput : u.env.busInput = w :: (List.replicate n w ++ rest) := by
    rw [readTimer_busInput htimer]
    simpa [Nat.add_comm 1 n, List.replicate_succ] using hi
  obtain ⟨rfl, hleft⟩ := pollLoop_done hloop (w := w) (by simpa [hu] using hm) hinput (by
    rw [State.setPollStart_bank, hu, f1.params]
    exact readyVerdict_of_done hc hv)
  obtain ⟨f2, -⟩ := (pollLoop_leads _ _).of_eq hloop
  rcases hend with ⟨y, -, rfl, rfl⟩ | ⟨he, -⟩
  · refine ⟨rfl, w, rest, hleft, ?_⟩
    have f := (f1.trans (.setPollStart b u m)).trans f2
    simp only [pollVerdict, State.setSm_params, State.setSm_bank, f.params, f.cmdset, f.portWidth,
      f.chipWidth] at hv ⊢
    exact hv
  · cases he

end

/-! ### Rows that are one poll -/

/-- What accesses of its bank make of the state a call on it starts in is within the frame of the
row. -/
theorem BusFrame.rowFrame {s u : State} {b : Nat} {j : Instr} (f : BusFrame b (s.enter j) u)
    (hr : s.env.resetIn = none) (r : Option Result) : State.Frame b s (u.leave r) where
  params := f.params
  initDone := f.initDone
  calls := f.calls
  position := rfl
  count := f.count
  others := f.others
  ie := f.ie
  noReset := f.resets hr
  timer := f.timer

/-- Settles O25: the row is one poll (`poll_runs`), and devices that answer done end it at once
(`poll_doneNext`). -/
theorem pollRunsItsLoop : Obligations.PollRunsItsLoop := by
  intro s b a budget kind hs ha
  let start := s.enter (.poll b a budget kind)
  obtain ⟨k, u, t0, es, o, hrun, h⟩ :=
    poll_runs (s := start) budget (kindOfTimeout kind) hs.noReset hs.bank ha
  refine ⟨_, t0, es, o, exec_of_body (t := u) (p := u.position) (x := u.result) hs rfl
    (congrArg asStatus hrun), h.trace, h.outcome, ?result, fun hm hd => ?done,
    fun hc => pollTraceOutcome_of_none hc h.outcome, h.seq,
    ⟨h.frame.rowFrame hs.noReset _, congrArg Sequencer.smState h.seq, h.mode⟩, h.frame.sameRegs,
    h.frame.memory⟩
  case result => exact congrArg (fun k => some (Result.status k)) h.kind
  case done =>
    have hk : k = .ok := (poll_doneNext (s := start) (n := 0) hs.bank hrun hm (hd.mono (by
      unfold doneCost
      split <;> omega))).1
    refine eq_done_of_kindOfOutcome (kindOfTimeout_ne_ok kind) ?_ (h.kind.symm.trans hk)
    rintro rfl
    exact (pollTraceOutcome_verdict h.outcome).1 rfl

/-- Settles O26: the row is one ready poll (`pollReady_runs`), which a done answer ends at once
(`pollReady_doneNext`). -/
theorem pollReadyRunsItsLoop : Obligations.PollReadyRunsItsLoop := by
  intro s b a budget hs ha hv
  let start := s.enter (.pollReady b a budget)
  obtain ⟨ready, u, t0, es, o, hrun, h⟩ := pollReady_runs (s := start) budget hs.noReset hs.bank ha
  refine ⟨_, t0, es, o, exec_of_body (t := u) (p := u.position) (x := u.result) hs rfl
    ((onVariant_of (s := start) (cmdset_none_or_intel hv)).trans (congrArg (Res.bind · _) hrun)),
    h.outcome, fun hm hc hd => ?done, h.frame.rowFrame hs.noReset _, h.frame.sameRegs,
    h.frame.memory, ?ends⟩
  case done =>
    obtain ⟨hready, -⟩ := pollReady_doneNext (s := start) (n := 0) hrun hm hc hd
    obtain ⟨v, rfl⟩ := Option.isSome_iff_exists.mp (h.result.symm.trans hready)
    obtain ⟨hne, x, y, rfl⟩ := pollOutcome_verdict h.outcome
    unfold readyVerdict at hne ⊢
    split at hne
    · next hd => rw [if_pos hd]
    · exact absurd rfl hne
  case ends =>
    obtain rfl := h.result
    cases o with
    | some v =>
      obtain ⟨hdevice, htrace, hseq⟩ := h.seen rfl
      exact ⟨rfl, hseq, hdevice, htrace⟩
    | none =>
      obtain ⟨hmode, htrace, hseq⟩ := h.expired rfl
      exact ⟨rfl, hseq, hmode, htrace⟩

end Sys2Proof.Machine
end

section
/-! PROOFS. What an erase and a program leave in the array (20_memory.md R44): every byte outside
the range addressed, and on `Done` the bytes inside it. -/

namespace Sys2Proof.Machine

/-! ### Bytes read after bytes written -/

theorem Memory.readBytes_congr {m m' : Memory} : ∀ {n a : Nat},
    (∀ x, a ≤ x → x < a + n → Memory.read m x = Memory.read m' x) →
    Memory.readBytes m a n = Memory.readBytes m' a n
  | 0, _, _ => rfl
  | n + 1, a, h => by
    rw [Memory.readBytes, Memory.readBytes, h a le_rfl (by omega),
      Memory.readBytes_congr (n := n) fun x h1 h2 => h x (by omega) (by omega)]

theorem Memory.readBytes_eq_map (m : Memory) : ∀ (n a : Nat),
    Memory.readBytes m a n = (List.range n).map fun j => Memory.read m (a + j)
  | 0, _ => rfl
  | n + 1, a => by
    rw [Memory.readBytes, Memory.readBytes_eq_map m n, List.range_succ_eq_map]
    simp [Function.comp_def, Nat.add_assoc, Nat.add_comm 1]

theorem Memory.readBytes_writeBytes {m : Memory} (h : Memory.wf m = true) (a : Nat)
    (vs : List Byte) : Memory.readBytes (Memory.writeBytes m a vs) a vs.length = vs := by
  rw [Memory.readBytes_eq_map]
  refine List.ext_getElem (by simp) fun j h1 h2 => ?_
  simp [Memory.read_writeBytes h, h2]

theorem length_bytesOf (o : ByteOrder) (n : Nat) (v : Word) : (bytesOf o n v).length = n := by
  cases o <;> simp [bytesOf]

/-! ### Words programmed -/

section
variable {m : Memory} (hm : Memory.wf m = true) (o : ByteOrder) (p : PortWidth)
include hm

theorem programWordAt_wf (w a : Nat) (d : Word) : Memory.wf (programWordAt o w m a d) = true :=
  Memory.writeBytes_wf hm

theorem programWordAt_read_outside (w a : Nat) (d : Word) {x : Nat} (hx : x < a ∨ a + w ≤ x) :
    Memory.read (programWordAt o w m a d) x = Memory.read m x := by
  rw [programWordAt, Memory.read_writeBytes hm, length_bytesOf, if_neg (by omega)]

/-- The word programmed is `old & d`. -/
theorem programWordAt_word (a : Nat) (d : Word) :
    wordOf o (Memory.readBytes (programWordAt o p.bytes m a d) a p.bytes) =
      toPort p (wordOf o (Memory.readBytes m a p.bytes) &&& d) := by
  have h := Memory.readBytes_writeBytes hm a
    (bytesOf o p.bytes (wordOf o (Memory.readBytes m a p.bytes) &&& d))
  rw [length_bytesOf] at h
  rw [programWordAt, h]
  exact (wordsAndBytesInverse o p).1 _

end

theorem programWordsAt_read_outside (o : ByteOrder) (w : Nat) : ∀ (ds : List Word) {m : Memory}
    {a x : Nat}, Memory.wf m = true → (x < a ∨ a + ds.length * w ≤ x) →
    Memory.read (programWordsAt o w m a ds) x = Memory.read m x
  | [], _, _, _, _, _ => rfl
  | d :: ds, m, a, x, hm, hx => by
    rw [List.length_cons, Nat.succ_mul] at hx
    rw [programWordsAt, programWordsAt_read_outside o w ds (programWordAt_wf hm o w a d) (by omega),
      programWordAt_read_outside hm o w a d (by omega)]

/-- Word `j` of those programmed is `old & d`. -/
theorem programWordsAt_word (o : ByteOrder) (p : PortWidth) : ∀ (ds : List Word) {m : Memory}
    {a j : Nat}, Memory.wf m = true → j < ds.length →
    wordOf o (Memory.readBytes (programWordsAt o p.bytes m a ds) (a + j * p.bytes) p.bytes) =
      toPort p (wordOf o (Memory.readBytes m (a + j * p.bytes) p.bytes) &&& ds.getD j 0)
  | [], _, _, _, _, hj => absurd hj (Nat.not_lt_zero _)
  | d :: ds, m, a, 0, hm, _ => by
    have hrest : Memory.readBytes (programWordsAt o p.bytes m a (d :: ds)) a p.bytes =
        Memory.readBytes (programWordAt o p.bytes m a d) a p.bytes :=
      Memory.readBytes_congr fun x _ hx =>
        programWordsAt_read_outside o p.bytes ds (programWordAt_wf hm o _ a d) (.inl hx)
    rw [Nat.zero_mul, Nat.add_zero, hrest]
    exact programWordAt_word hm o p a d
  | d :: ds, m, a, j + 1, hm, hj => by
    have hat : a + (j + 1) * p.bytes = a + p.bytes + j * p.bytes := by
      rw [Nat.succ_mul]
      omega
    have hfirst : Memory.readBytes (programWordAt o p.bytes m a d) (a + p.bytes + j * p.bytes)
        p.bytes = Memory.readBytes m (a + p.bytes + j * p.bytes) p.bytes :=
      Memory.readBytes_congr fun x hx _ => programWordAt_read_outside hm o _ a d (by omega)
    rw [hat, programWordsAt, programWordsAt_word o p ds (programWordAt_wf hm o _ a d)
      (Nat.lt_of_succ_lt_succ hj), hfirst]
    rfl

theorem toPort_toPort (p : PortWidth) (v : Word) : toPort p (toPort p v) = toPort p v := by
  rw [toPort, toPort, BitVec.and_assoc, BitVec.and_self]

/-! ### The effect of a sequence -/

/-- An Erase of `[a, a + n)` that ended in `k`. -/
theorem eraseEffect_array {s : State} (hm : Memory.wf s.memory = true) (a n : Nat) (k : Kind) :
    State.SameOutside a n s (eraseEffect a n k s) ∧
      (k = .ok → ∀ x, a ≤ x → x < a + n → Memory.read (eraseEffect a n k s).memory x = 0xFF) := by
  by_cases hk : k = .ok
  · rw [eraseEffect, if_pos hk]
    exact ⟨fun x hx => (Memory.read_eraseRange hm a n x).trans (if_neg (by omega)),
      fun _ x h1 h2 => (Memory.read_eraseRange hm a n x).trans (if_pos ⟨h1, h2⟩)⟩
  · rw [eraseEffect, if_neg hk]
    exact ⟨fun x hx => Memory.read_drawRange hm hx, fun h => absurd h hk⟩

/-- A program of words `ds` at `a` that the array can take, and that ended in `k`. -/
theorem programEffect_array {s : State} (hm : Memory.wf s.memory = true) {b a : Nat}
    {ds : List Word} (k : Kind) (hport : ∀ d ∈ ds, toPort (s.bank b).portWidth d = d)
    (hold : ∀ j < ds.length, s.arrayWord b (a + j * (s.bank b).bytes) &&& ds.getD j 0 =
      ds.getD j 0) :
    State.SameOutside a (ds.length * (s.bank b).bytes) s (programEffect b a ds k s) ∧
      (k = .ok → ∀ j < ds.length, (programEffect b a ds k s).arrayWord b
        (a + j * (s.bank b).bytes) = ds.getD j 0) := by
  by_cases hk : k = .ok
  · rw [programEffect, if_pos hk]
    refine ⟨fun x hx => programWordsAt_read_outside _ _ ds hm hx, fun _ j hj => ?_⟩
    refine (programWordsAt_word _ (s.bank b).portWidth ds hm hj).trans ?_
    refine (congrArg _ (hold j hj)).trans (hport _ ?_)
    rw [List.getD_eq_getElem _ _ hj]
    exact List.getElem_mem hj
  · rw [programEffect, if_neg hk]
    exact ⟨fun x hx => Memory.read_drawRange hm hx, fun h => absurd h hk⟩

end Sys2Proof.Machine
end

section
/-! PROOFS. How a sequence unfolds: what it has changed so far (`Stage`), and where a piece of it
takes the state (`State.RunsTo`, `Res.Ran`). One rule for each piece the sequences of
42_sequencer.md are made of. -/

namespace Sys2Proof.Machine

/-! ### Stages -/

/-- What a sequence has made of the state so far: the bus events it has added, the sequencer
registers, the interrupt enable, the array, the mode and the lock bits of its bank's devices, and
how many of the answers held ready it has taken if all of them were done. -/
structure Stage where
  events : List BusEvent
  seq : Sequencer
  ie : Bool
  memory : Memory
  mode : DeviceMode
  locks : List Bool
  answers : Nat

/-- The stage a sequence of bank `b` starts at. -/
def State.stage (s : State) (b : Nat) : Stage where
  events := []
  seq := s.seq
  ie := s.env.ie
  memory := s.memory
  mode := (s.bank b).device.mode
  locks := (s.bank b).device.lockBits
  answers := 0

/-- The stage at the start of an interrupt-masked window (R93). -/
def Stage.masked (g : Stage) : Stage :=
  { g with events := g.events ++ [.irqOff], seq := { g.seq with savedIrq := g.ie }, ie := false }

/-- The stage at its end: the interrupt state saved is restored. -/
def Stage.restored (g : Stage) : Stage :=
  { g with events := g.events ++ [.irqRestore], ie := g.seq.savedIrq }

/-- A sequence of bank `b` begun in `s` has come to the stage `g` in `t`; the bank's registers and
all that is not the bank's are as they were. -/
structure State.RunsTo (s : State) (b : Nat) (g : Stage) (t : State) : Prop
    extends RegsFrame b s t where
  noReset : t.env.resetIn = none
  hasBank : b < t.banks.length
  events : t.log.trace = s.log.trace ++ g.events
  seq : t.seq = g.seq
  ie : t.env.ie = g.ie
  array : t.memory = g.memory
  mode : (t.bank b).device.mode = g.mode
  locks : (t.bank b).device.lockBits = g.locks
  answers : ∀ n, s.DoneNext b (g.answers + n) → t.DoneNext b n

/-- The piece runs to a value and a stage of which `P` holds. -/
def Res.Ran {α : Type} (r : Res α) (s : State) (b : Nat) (P : α → Stage → Prop) : Prop :=
  r.Yields fun x t => ∃ g, P x g ∧ s.RunsTo b g t

section
variable {α β : Type} {s t u : State} {b : Nat} {g : Stage} {r : Res α} {P : α → Stage → Prop}

theorem State.RunsTo.ok (h : s.RunsTo b g t) {x : α} (hP : P x g) : (Res.ok x t).Ran s b P :=
  .of_ok ⟨g, hP, h⟩

theorem Res.Ran.bind {k : α → State → Res β} {Q : β → Stage → Prop} (h : r.Ran s b P)
    (hk : ∀ x g t, P x g → s.RunsTo b g t → (k x t).Ran s b Q) : (r.bind k).Ran s b Q :=
  Res.Yields.bind h fun x t ⟨g, hP, ht⟩ => hk x g t hP ht

theorem Res.Ran.mono {Q : α → Stage → Prop} (h : r.Ran s b P) (hPQ : ∀ x g, P x g → Q x g) :
    r.Ran s b Q :=
  Res.Yields.mono h fun x _ ⟨g, hP, ht⟩ => ⟨g, hPQ x g hP, ht⟩

theorem State.Ready.runsTo (hs : s.Ready b) (j : Instr) :
    (s.enter j).RunsTo b (s.stage b) (s.enter j) where
  toRegsFrame := (RegsFrame.opClosed b).refl _
  noReset := hs.noReset
  hasBank := hs.bank
  events := (List.append_nil _).symm
  seq := rfl
  ie := rfl
  array := rfl
  mode := rfl
  locks := rfl
  answers n h := by rwa [State.stage, Nat.zero_add] at h

/-! ### The bank of a sequence -/

theorem Bank.SameBuilt.sectorStart {x y : Bank} (h : x.SameBuilt y) (i : Nat) :
    y.sectorStart i = x.sectorStart i := by
  simp only [Bank.sectorStart_eq_getD, h.2, h.baseAddress, h.size]

theorem Bank.SameBuilt.sectorOf {x y : Bank} (h : x.SameBuilt y) (a : Nat) :
    y.sectorOf a = x.sectorOf a := by
  rw [Bank.sectorOf, Bank.sectorOf, h.sectorCount]
  exact List.find?_congr fun i _ => decide_eq_decide.mpr (by
    rw [Bank.sectorEnd, Bank.sectorEnd, h.sectorStart, h.sectorStart])

theorem Bank.SameBuilt.inArray {x y : Bank} (h : x.SameBuilt y) (a n : Nat) :
    y.inArray a n = x.inArray a n := by
  simp only [Bank.inArray, h.baseAddress, h.size]

theorem Bank.SameBuilt.pollVerdict {x y : Bank} (h : x.SameBuilt y) (p : Params) :
    pollVerdict p y = pollVerdict p x := by
  funext prev w
  simp only [Machine.pollVerdict, h.cmdset, h.portWidth, h.chipWidth]

theorem Bank.SameBuilt.readyVerdict {x y : Bank} (h : x.SameBuilt y) (p : Params) :
    readyVerdict p y = readyVerdict p x := by
  funext prev w
  simp only [Machine.readyVerdict, h.portWidth, h.chipWidth]

theorem Bank.SameBuilt.pollTraceOutcome {x y : Bank} (h : x.SameBuilt y) (p : Params)
    (a t0 budget : Nat) (es : List BusEvent) :
    pollTraceOutcome p y a t0 budget es = pollTraceOutcome p x a t0 budget es := by
  simp only [Machine.pollTraceOutcome, h.pollVerdict, h.cmdset]

section
variable (h : s.RunsTo b g t)
include h

theorem State.RunsTo.built : (s.bank b).SameBuilt (t.bank b) := h.regs.sameBuilt

theorem State.RunsTo.accepts {a : Nat} (ha : (s.bank b).Accepts s.params a) :
    (t.bank b).Accepts t.params a := by
  rw [h.params]
  exact (h.built.accepts_iff s.params a).mpr ha

theorem State.RunsTo.commandWrites (cs : List (Nat × Command)) :
    t.commandWrites b cs = s.commandWrites b cs := by
  simp only [State.commandWrites, State.commandWord, Bank.rep, h.params, h.built.portWidth,
    h.built.chipWidth]

theorem State.RunsTo.resetWrites (a : Nat) : t.resetWrites b a = s.resetWrites b a := by
  rw [State.resetWrites, h.commandWrites, h.built.cmdset]
  rfl

/-- What the frame of the row and its end say, at a stage with the sequencer idle, the devices in
read-array mode and the interrupt enable as before (10_state.md R23). -/
theorem State.RunsTo.settled {s₀ : State} {j : Instr} (hs : s = s₀.enter j)
    (hidle : g.seq.smState = .idle) (hmode : g.mode = .readArray) (hie : g.ie = s₀.env.ie)
    (r : Option Result) : State.Settled b s₀ (t.leave r) := by
  subst hs
  exact
    { frame :=
        { params := h.params, initDone := h.initDone, calls := h.calls, position := rfl
          count := h.count, others := h.others, ie := h.ie.trans hie, noReset := h.noReset
          timer := h.timer }
      sequencer := (congrArg Sequencer.smState h.seq).trans hidle
      device := h.mode.trans hmode }

/-! ### One more piece -/

/-- A piece within the frame: what it leaves of the answers, and the rest of the new stage. -/
theorem State.RunsTo.step (f : RegsFrame b t u) {g' : Stage} {fs : List BusEvent} {n : Nat}
    (hevents : u.log.trace = t.log.trace ++ fs) (hseq : u.seq = g'.seq) (hie : u.env.ie = g'.ie)
    (harray : u.memory = g'.memory) (hmode : (u.bank b).device.mode = g'.mode)
    (hlocks : (u.bank b).device.lockBits = g'.locks)
    (hanswers : ∀ k, t.DoneNext b (n + k) → u.DoneNext b k)
    (hfs : g'.events = g.events ++ fs) (hn : g'.answers = g.answers + n) : s.RunsTo b g' u where
  toRegsFrame := (RegsFrame.opClosed b).trans h.toRegsFrame f
  noReset := f.resets h.noReset
  hasBank := f.toOpFrame.lt h.hasBank
  events := by rw [hevents, h.events, hfs, List.append_assoc]
  seq := hseq
  ie := hie
  array := harray
  mode := hmode
  locks := hlocks
  answers k hk := hanswers k (h.answers _ (by rwa [hn, Nat.add_assoc] at hk))

/-- An update that is no bus access: the answers stay. -/
theorem State.RunsTo.update (f : RegsFrame b t u) {g' : Stage} {fs : List BusEvent}
    (hevents : u.log.trace = t.log.trace ++ fs) (hseq : u.seq = g'.seq) (hie : u.env.ie = g'.ie)
    (harray : u.memory = g'.memory) (hmode : (u.bank b).device.mode = g'.mode)
    (hlocks : (u.bank b).device.lockBits = g'.locks) (hinput : u.env.busInput = t.env.busInput)
    (hfs : g'.events = g.events ++ fs) (hn : g'.answers = g.answers) : s.RunsTo b g' u :=
  h.step f (n := 0) hevents hseq hie harray hmode hlocks
    (fun k hk => State.DoneNext.congr (Nat.zero_add k ▸ hk) hinput f.params f.regs.sameBuilt.cmdset
      f.regs.sameBuilt.portWidth f.regs.sameBuilt.chipWidth) hfs hn

/-- Bus accesses of the bank. -/
theorem State.RunsTo.bus (f : BusFrame b t u) {fs : List BusEvent} {q : Sequencer}
    {m : DeviceMode} {n : Nat} (hevents : u.log.trace = t.log.trace ++ fs) (hseq : u.seq = q)
    (hmode : (u.bank b).device.mode = m) (hanswers : ∀ k, t.DoneNext b (n + k) → u.DoneNext b k) :
    s.RunsTo b { g with
      events := g.events ++ fs, seq := q, mode := m, answers := g.answers + n } u :=
  h.step ((RegsFrame.opClosed b).bus f) hevents hseq (f.ie.trans h.ie) (f.memory.trans h.array)
    hmode (f.lockBits.trans h.locks) hanswers rfl rfl

/-- Bus writes of the bank, which take no answer. -/
theorem State.RunsTo.written (f : BusFrame b t u) {fs : List BusEvent} {q : Sequencer}
    {m : DeviceMode} (hevents : u.log.trace = t.log.trace ++ fs) (hseq : u.seq = q)
    (hmode : (u.bank b).device.mode = m) (hinput : u.env.busInput = t.env.busInput) :
    s.RunsTo b { g with events := g.events ++ fs, seq := q, mode := m } u :=
  h.bus f (n := 0) hevents hseq hmode fun k hk => f.doneNext (Nat.zero_add k ▸ hk) hinput

theorem State.RunsTo.setRange (r : Option (Nat × Nat)) : s.RunsTo b g (t.setRange r) :=
  h.update ((RegsFrame.opClosed b).range t r) (List.append_nil _).symm h.seq h.ie h.array h.mode
    h.locks rfl (List.append_nil _).symm rfl

theorem State.RunsTo.irqSave : s.RunsTo b g.masked (irqSave t) :=
  h.update ((RegsFrame.opClosed b).irqSave t) rfl (by rw [irqSave_seq, h.seq, h.ie]; rfl) rfl
    h.array h.mode h.locks rfl rfl rfl

theorem State.RunsTo.irqRestore : s.RunsTo b g.restored (irqRestore t) :=
  h.update ((RegsFrame.opClosed b).irqRestore t) rfl h.seq (congrArg Sequencer.savedIrq h.seq)
    h.array h.mode h.locks rfl rfl rfl

/-- A change of the lock bits. -/
theorem State.RunsTo.setLocks (l : List Bool) :
    s.RunsTo b { g with locks := l } (t.setLocks b l) := by
  have hbank := State.setDevice_bank_self t { (t.bank b).device with lockBits := l } h.hasBank
  exact h.update ((RegsFrame.opClosed b).locks l h.hasBank) (List.append_nil _).symm h.seq h.ie
    h.array ((congrArg (fun x : Bank => x.device.mode) hbank).trans h.mode)
    (congrArg (fun x : Bank => x.device.lockBits) hbank) rfl (List.append_nil _).symm rfl

theorem State.RunsTo.drawn : s.RunsTo b g t.drawn :=
  h.update ((RegsFrame.opClosed b).drawn t) (List.append_nil _).symm h.seq h.ie h.array h.mode
    h.locks rfl (List.append_nil _).symm rfl

/-- A change of the array. -/
theorem State.RunsTo.setMemory {m : Memory} (hm : Memory.wf t.memory = true → Memory.wf m = true) :
    s.RunsTo b { g with memory := m } (t.setMemory m) :=
  h.update ((RegsFrame.opClosed b).array t m hm) (List.append_nil _).symm h.seq h.ie rfl h.mode
    h.locks rfl (List.append_nil _).symm rfl

end

/-- A piece run with its range on record. -/
theorem State.RunsTo.withRange (h : s.RunsTo b g t) {a n : Nat} {body : State → Res α}
    (hbody : ∀ t, s.RunsTo b g t → (body t).Ran s b P) : (withRange a n body t).Ran s b P :=
  (hbody _ (h.setRange (some (a, n)))).bind fun _ _ _ hP hu => (hu.setRange none).ok hP

end

end Sys2Proof.Machine
end

section
/-! PROOFS. The rules of bus writes and polls inside a sequence (42_sequencer.md R88 to R90): the
stage each leads to (`Res.Ran`), in Command mode. -/

namespace Sys2Proof.Machine

/-- The stage after bus writes that show as `es`. -/
def Stage.wrote (g : Stage) (es : List BusEvent) : Stage :=
  { g with events := g.events ++ es, mode := .command }

/-- The stage after the opening writes of a sequence, which show as `es` (R88). -/
def Stage.issued (g : Stage) (es : List BusEvent) : Stage :=
  { g.wrote es with seq := { g.seq with smState := .commandIssued } }

/-- The stage after a poll of bank `b` of `s` at `a`, from the start time `t0` on (R89). -/
def Stage.polled (g : Stage) (s : State) (b a budget t0 : Nat) (es : List BusEvent) : Stage :=
  { g with
    events := g.events ++ (.timer t0 :: es ++ writeEvents (s.resetWrites b a))
    seq := polledSeq a budget t0 (pollPrevOf (s.bank b).cmdset g.seq.pollPrev es) g.seq.savedIrq
    mode := .readArray
    answers := g.answers + doneCost (s.bank b).cmdset }

/-- The stage after a ready poll that saw ready (R90). -/
def Stage.sawReady (g : Stage) (a budget t0 : Nat) (es : List BusEvent) : Stage :=
  { g with
    events := g.events ++ .timer t0 :: es
    seq := { polledSeq a budget t0 (pollPrevAfter g.seq.pollPrev es) g.seq.savedIrq with
      smState := .commandIssued }
    answers := g.answers + 1 }

@[simp] theorem State.stage_answers (s : State) (b : Nat) : (s.stage b).answers = 0 := rfl
@[simp] theorem Stage.issued_answers (g : Stage) (es : List BusEvent) :
    (g.issued es).answers = g.answers := rfl
@[simp] theorem Stage.polled_answers (g : Stage) (s : State) (b a budget t0 : Nat)
    (es : List BusEvent) :
    (g.polled s b a budget t0 es).answers = g.answers + doneCost (s.bank b).cmdset := rfl

theorem Stage.restored_events (g : Stage) : g.restored.events = g.events ++ [.irqRestore] := rfl
theorem Stage.polled_events (g : Stage) (s : State) (b a budget t0 : Nat) (es : List BusEvent) :
    (g.polled s b a budget t0 es).events =
      g.events ++ (.timer t0 :: es ++ writeEvents (s.resetWrites b a)) := rfl
theorem Stage.sawReady_events (g : Stage) (a budget t0 : Nat) (es : List BusEvent) :
    (g.sawReady a budget t0 es).events = g.events ++ .timer t0 :: es := rfl

theorem doneCost_of_intel {cs : CmdSet} (h : cs = .intelStyle) : doneCost cs = 1 := by
  rw [h]
  rfl

/-! ### Command words that open a sequence (R88) -/

theorem writeCommands_device {b : Nat} (cs : List (Nat × Command)) {s t : State} {x : Unit}
    (hb : b < s.banks.length) (h : writeCommands b cs s = .ok x t) :
    (t.bank b).device = devicesAfter (s.bank b).cmdset (s.bank b).device cs := by
  obtain ⟨-, -, hdevice, -⟩ := (writeCommands_leads cs hb).of_eq h
  exact hdevice

theorem issue_device {b a : Nat} {c : Command} {cs : List (Nat × Command)} {s t : State} {x : Unit}
    (hb : b < s.banks.length) (h : issue b ((a, c) :: cs) s = .ok x t) :
    (t.bank b).device = devicesAfter (s.bank b).cmdset (s.bank b).device ((a, c) :: cs) := by
  obtain ⟨_, u, hfirst, hrest⟩ := Res.bind_eq_ok h
  obtain ⟨f, -, -, hdevice, -⟩ := (writeCommand_leads a c hb).of_eq hfirst
  have hrest := writeCommands_device (s := u.setSm .commandIssued) cs (f.lt hb) hrest
  rwa [State.setSm_bank, f.cmdset, hdevice] at hrest

section
variable {s t : State} {b : Nat} {g : Stage} (h : s.RunsTo b g t)
include h

/-- The opening writes of a sequence, the last of which is no reset. -/
theorem State.RunsTo.issue {a : Nat} {c : Command} {cs : List (Nat × Command)}
    (ha : ∀ ac ∈ (a, c) :: cs, (s.bank b).Accepts s.params ac.1)
    (hm : ∀ d, (devicesAfter (s.bank b).cmdset d ((a, c) :: cs)).mode = .command) :
    (issue b ((a, c) :: cs) t).Ran s b fun _ g' =>
      g' = g.issued (writeEvents (s.commandWrites b ((a, c) :: cs))) := by
  obtain ⟨x, u, hrun⟩ := issue_completes cs h.noReset h.hasBank fun ac hac => h.accepts (ha ac hac)
  obtain ⟨f, hseq, hlog, -⟩ := (issue_leads a c cs h.hasBank).of_eq hrun
  refine ⟨x, u, hrun, _, rfl, h.written f ?_ (by rw [hseq, h.seq]) ?_ (issue_busInput hrun)⟩
  · rw [hlog, ← h.commandWrites, writeEvents_commandWrites]
    rfl
  · rw [issue_device h.hasBank hrun, h.built.cmdset]
    exact hm _

/-! ### Single writes -/

theorem State.RunsTo.busWrite {a : Nat} (ha : (s.bank b).Accepts s.params a) (v : Word)
    {c : Option Command} (hm : ∀ d, (deviceAfter (s.bank b).cmdset d c).mode = .command) :
    (busWrite b a v c t).Ran s b fun _ g' => g' = g.wrote [.write a v] := by
  obtain ⟨x, u, hrun⟩ := busWrite_completes v c h.noReset (h.accepts ha)
  obtain ⟨f, -, hseq, hdevice, hlog, -⟩ := (busWrite_leads a v c h.hasBank).of_eq hrun
  refine ⟨x, u, hrun, _, rfl, h.written f (congrArg Log.trace hlog) (hseq.trans h.seq) ?_
    (busWrite_busInput hrun)⟩
  rw [hdevice, h.built.cmdset]
  exact hm _

theorem State.RunsTo.writeData {a : Nat} (ha : (s.bank b).Accepts s.params a) (d : Word) :
    (writeData b a d t).Ran s b fun _ g' =>
      g' = g.wrote [.write a (toPort (s.bank b).portWidth d)] := by
  rw [Machine.writeData, h.built.portWidth]
  exact h.busWrite ha _ fun _ => rfl

theorem State.RunsTo.writeCount {a : Nat} (ha : (s.bank b).Accepts s.params a) (n : Byte) :
    (writeCount b a n t).Ran s b fun _ g' => g' = g.wrote [.write a ((s.bank b).rep n)] := by
  rw [Machine.writeCount, Bank.rep, h.built.portWidth, h.built.chipWidth]
  exact h.busWrite ha _ fun _ => rfl

theorem State.RunsTo.writeCommand {a : Nat} (ha : (s.bank b).Accepts s.params a) {c : Command}
    (hm : ∀ d, (deviceAfter (s.bank b).cmdset d (some c)).mode = .command) :
    (writeCommand b a c t).Ran s b fun _ g' =>
      g' = g.wrote [.write a (s.commandWord b c)] := by
  rw [Machine.writeCommand, State.commandWord, Bank.rep, h.params, h.built.portWidth,
    h.built.chipWidth]
  exact h.busWrite ha _ hm

end

/-- Data words at ascending word addresses. -/
theorem State.RunsTo.writeDataFrom {s : State} {b : Nat} : ∀ (ds : List Word) {a : Nat} {t : State}
    {g : Stage}, s.RunsTo b g t → g.mode = .command →
    (∀ k < ds.length, (s.bank b).Accepts s.params (a + k * (s.bank b).bytes)) →
    (writeDataFrom b a ds t).Ran s b fun _ g' =>
      g' = g.wrote (dataEvents (s.bank b).portWidth a ds)
  | [], _, _, g, h, hm, _ => h.ok (by simp [dataEvents, Stage.wrote, ← hm])
  | d :: ds, a, t, g, h, hm, ha => by
    refine (h.writeData (by simpa using ha 0 (by simp)) d).bind fun _ g1 u hg1 hu => ?_
    subst hg1
    rw [hu.built.bytes]
    refine (hu.writeDataFrom ds rfl fun k hk => ?_).mono fun _ g2 hg2 => ?_
    · have hnext := ha (k + 1) (by simpa using hk)
      rwa [Nat.succ_mul, Nat.add_comm (k * _), ← Nat.add_assoc] at hnext
    · subst hg2
      simp [dataEvents, Bank.bytes, Stage.wrote]

/-! ### Polls -/

section
variable {s t : State} {b : Nat} {g : Stage} (h : s.RunsTo b g t) (hm : g.mode = .command)
include h hm

/-- A poll in Command mode: `Done` if enough done answers are ready. -/
theorem State.RunsTo.poll {a : Nat} (ha : (s.bank b).Accepts s.params a) (budget : Nat)
    (tkind : Kind) :
    (poll b a budget tkind t).Ran s b fun k g' => ∃ t0 es o,
      pollTraceOutcome s.params (s.bank b) a t0 budget es = some o ∧ k = kindOfOutcome tkind o ∧
      (s.DoneNext b (g.answers + doneCost (s.bank b).cmdset) → k = .ok) ∧
      g' = g.polled s b a budget t0 es := by
  obtain ⟨k, u, t0, es, o, hrun, hp⟩ := poll_runs budget tkind h.noReset h.hasBank (h.accepts ha)
  have hdone (n : Nat) (hd : t.DoneNext b (doneCost (s.bank b).cmdset + n)) :
      k = .ok ∧ u.DoneNext b n :=
    poll_doneNext h.hasBank hrun (h.mode.trans hm) (by rwa [h.built.cmdset])
  refine ⟨k, u, hrun, _, ⟨t0, es, o, ?_, hp.kind, fun hd => (hdone 0 (h.answers _ hd)).1, rfl⟩,
    h.bus hp.frame ?_ ?_ hp.mode fun n hd => (hdone n hd).2⟩
  · rw [← h.built.pollTraceOutcome, ← h.params]
    exact hp.outcome
  · rw [hp.trace, h.resetWrites, List.append_assoc]
  · rw [hp.seq, h.seq, h.built.cmdset]

/-- A ready poll of an Intel-style bank in Command mode: ready if a done answer is. -/
theorem State.RunsTo.pollReady {a : Nat} (ha : (s.bank b).Accepts s.params a) (budget : Nat)
    (hc : (s.bank b).cmdset = .intelStyle) :
    (pollReady b a budget t).Ran s b fun ready g' => ∃ t0 es o,
      pollOutcome (readyVerdict s.params (s.bank b)) a t0 budget 0 es = some o ∧
      ready = o.isSome ∧ (s.DoneNext b (g.answers + 1) → ready = true) ∧
      g' = if ready = true then g.sawReady a budget t0 es else g.polled s b a budget t0 es := by
  obtain ⟨ready, u, t0, es, o, hrun, hp⟩ := pollReady_runs budget h.noReset h.hasBank (h.accepts ha)
  have hdone (n : Nat) (hd : t.DoneNext b (1 + n)) : ready = true ∧ u.DoneNext b n :=
    pollReady_doneNext hrun (h.mode.trans hm) (h.built.cmdset.trans hc) hd
  refine ⟨ready, u, hrun, _, ⟨t0, es, o, ?_, hp.result, fun hd => (hdone 0 (h.answers _ hd)).1,
    rfl⟩, ?_⟩
  · rw [← h.built.readyVerdict, ← h.params]
    exact hp.outcome
  · cases ready with
    | true =>
      obtain ⟨hdevice, htrace, hseq⟩ := hp.seen rfl
      have hmode : (u.bank b).device.mode = g.mode := by rw [hdevice, h.mode]
      exact h.bus hp.frame htrace (by rw [hseq, h.seq]) hmode fun n hd => (hdone n hd).2
    | false =>
      obtain ⟨hmode, htrace, hseq⟩ := hp.expired rfl
      rw [h.resetWrites, List.append_assoc] at htrace
      rw [if_neg Bool.false_ne_true, Stage.polled, hc]
      exact h.bus hp.frame htrace (by rw [hseq, h.seq]; rfl) hmode fun n hd => (hdone n hd).2

end

end Sys2Proof.Machine
end

section
/-! PROOFS. Erase (42_sequencer.md R94 to R96; O27, O28), and how the row of a sequence ends. -/

namespace Sys2Proof.Machine

/-! ### The row of a sequence -/

section
variable {s : State} {b : Nat} {j : Instr} {v : CmdSet} {body : State → Res (Option Result)}
  {r : Res Kind}

/-- A sequence of a known bank of its variant returns the kind its body ran to; only the position
and the result are the call's own. -/
theorem exec_sequence_of_ok (hs : s.Known b) (hv : (s.bank b).cmdset = v)
    (he : exec j s = call j (onBank b (onKnown b (onVariant b v body))) s)
    (hbody : body (s.enter j) = asStatus r) {k : Kind} {t : State} {p : Option Position}
    {x : Option Result} (hr : r = .ok k (t.placed p x)) :
    exec j s = .next (t.leave (some (.status k))) :=
  exec_of_body hs.ready he ((onKnown_of_known (s := s.enter j) hs.known).trans
    ((onVariant_of (s := s.enter j) (.inr hv)).trans (hbody.trans (congrArg asStatus hr))))

theorem exec_sequence {P : Kind → Stage → Prop} (hs : s.Known b) (hv : (s.bank b).cmdset = v)
    (he : exec j s = call j (onBank b (onKnown b (onVariant b v body))) s)
    (hbody : body (s.enter j) = asStatus r) (hr : r.Ran (s.enter j) b P) :
    ∃ k g u, P k g ∧ (s.enter j).RunsTo b g u ∧
      exec j s = .next (u.leave (some (.status k))) := by
  obtain ⟨k, u, hrun, g, hP, hu⟩ := hr
  exact ⟨k, g, u, hP, hu,
    exec_sequence_of_ok (p := u.position) (x := u.result) hs hv he hbody hrun⟩

end

/-- The bank of a sequence is well formed. -/
theorem State.Known.wf {s : State} {b : Nat} (hs : s.Known b) : Bank.Wf s.params (s.bank b) :=
  hs.inv.bank hs.ready.bank

/-! ### Parts of the bank the sequences read -/

section
variable {x y : Bank} (h : x.SameBuilt y)
include h

theorem Bank.SameBuilt.eraseTimeout : y.eraseTimeout = x.eraseTimeout :=
  (congrArg Bank.eraseTimeout h.1 :)
theorem Bank.SameBuilt.writeTimeout : y.writeTimeout = x.writeTimeout :=
  (congrArg Bank.writeTimeout h.1 :)
theorem Bank.SameBuilt.bufferWriteTimeout : y.bufferWriteTimeout = x.bufferWriteTimeout :=
  (congrArg Bank.bufferWriteTimeout h.1 :)
theorem Bank.SameBuilt.resumeAfterErase : y.resumeAfterErase = x.resumeAfterErase :=
  (congrArg Bank.resumeAfterErase h.1 :)
theorem Bank.SameBuilt.baseAddr (off : Nat) : y.baseAddr off = x.baseAddr off := by
  simp only [Bank.baseAddr, h.baseAddress, h.bytes]
theorem Bank.SameBuilt.sectorEnd (i : Nat) : y.sectorEnd i = x.sectorEnd i := h.sectorStart (i + 1)
theorem Bank.SameBuilt.amdPrefix (p : Params) (c : Command) :
    amdPrefix p y c = amdPrefix p x c := by
  simp only [Machine.amdPrefix, h.baseAddr]
theorem Bank.SameBuilt.amdEraseWrites (p : Params) (a : Nat) :
    amdEraseWrites p y a = amdEraseWrites p x a := by
  simp only [Machine.amdEraseWrites, h.amdPrefix, h.baseAddr]

end

/-- The unlock cycles and the command after them go to accepted addresses. -/
theorem Bank.Wf.accepts_amdPrefix {p : Params} {bk : Bank} (w : Bank.Wf p bk) (c : Command) :
    ∀ ac ∈ amdPrefix p bk c, bk.Accepts p ac.1 := by
  have h1 := Bank.accepts_baseAddr w.baseAligned (unlock1_lt_windowSpan p)
  have h2 := Bank.accepts_baseAddr w.baseAligned (unlock2_lt_windowSpan p)
  simp [amdPrefix, h1, h2]

theorem Bank.Wf.accepts_amdEraseWrites {p : Params} {bk : Bank} (w : Bank.Wf p bk) {i : Nat}
    (hi : i < bk.sectorCount) :
    ∀ ac ∈ amdEraseWrites p bk (bk.sectorStart i), bk.Accepts p ac.1 := by
  have h1 := Bank.accepts_baseAddr w.baseAligned (unlock1_lt_windowSpan p)
  have h2 := Bank.accepts_baseAddr w.baseAligned (unlock2_lt_windowSpan p)
  have h3 := w.accepts_sectorStart hi
  rw [amdEraseWrites, List.forall_mem_append]
  exact ⟨w.accepts_amdPrefix .eraseSetup, by simp [h1, h2, h3]⟩

@[simp] theorem accessesOf_writeEvents (ws : List (Nat × Word)) :
    accessesOf (writeEvents ws) = ws.map Prod.fst := by
  induction ws with
  | nil => rfl
  | cons w ws ih => exact congrArg (w.1 :: ·) ih

/-! ### The effect on the array (20_memory.md R44) -/

section
variable {s t : State} {b : Nat} {g : Stage} (h : s.RunsTo b g t) (hg : g.memory = s.memory)
  (hm : Memory.wf s.memory = true)
include h hg hm

theorem State.RunsTo.eraseEffect (a n : Nat) (k : Kind) :
    ∃ m, s.RunsTo b { g with memory := m } (eraseEffect a n k t) ∧
      State.SameOutside a n s (s.setMemory m) ∧
      (k = .ok → ∀ x, a ≤ x → x < a + n → Memory.read m x = 0xFF) := by
  have ht : t.memory = s.memory := h.array.trans hg
  obtain ⟨hout, hin⟩ := eraseEffect_array (s := t) (ht ▸ hm) a n k
  refine ⟨(Machine.eraseEffect a n k t).memory, ?_, fun x hx => (hout x hx).trans (by rw [ht]), hin⟩
  unfold Machine.eraseEffect
  split
  · exact h.setMemory (Memory.eraseRange_wf a n)
  · exact (h.setMemory fun hw => Memory.drawRange_wf hw).drawn

end

/-- A byte of the state is that of the stage. -/
theorem State.RunsTo.read {s t : State} {b : Nat} {g : Stage} (h : s.RunsTo b g t) (x : Nat) :
    Memory.read t.memory x = Memory.read g.memory x := congrArg (Memory.read · x) h.array

/-- Where the array of the stage is as before, so is that of the state. -/
theorem State.RunsTo.sameOutside {s t : State} {b a n : Nat} {g : Stage} (h : s.RunsTo b g t)
    (hout : State.SameOutside a n s (s.setMemory g.memory)) : State.SameOutside a n s t :=
  fun x hx => (h.read x).trans (hout x hx)

/-- A sequence of which `P` holds before its effect, with the effect of an Erase of sector `i`. -/
theorem State.RunsTo.erasing {s t : State} {b : Nat} {g : Stage} (h : s.RunsTo b g t)
    (hm : Memory.wf s.memory = true) (i : Nat) {steps : State → Res Kind}
    {P : Kind → Stage → Prop} (hsteps : ∀ t, s.RunsTo b g t → (steps t).Ran s b P)
    (hP : ∀ k g, P k g → g.memory = s.memory) :
    let a := (s.bank b).sectorStart i
    let e := (s.bank b).sectorEnd i
    (erasing b i steps t).Ran s b fun k g' => ∃ g₀ m, P k g₀ ∧ g' = { g₀ with memory := m } ∧
      State.SameOutside a (e - a) s (s.setMemory m) ∧
      (k = .ok → ∀ x, a ≤ x → x < e → Memory.read m x = 0xFF) := by
  intro a e
  unfold Machine.erasing
  rw [h.built.sectorStart, h.built.sectorEnd]
  refine h.withRange fun t ht => (hsteps t ht).bind fun k g₀ u hk hu => ?_
  obtain ⟨m, hu', hout, hin⟩ := hu.eraseEffect (hP k g₀ hk) hm a (e - a) k
  exact hu'.ok ⟨g₀, m, hk, rfl, hout, fun hk x h1 h2 => hin hk x h1 (by omega)⟩

/-! ### AMD-style (R95) -/

section
variable {s t : State} {b i : Nat} (h : s.RunsTo b (s.stage b) t) (hw : Bank.Wf s.params (s.bank b))
  (hi : i < (s.bank b).sectorCount)
include h hw hi

/-- The six writes, and the poll. -/
theorem State.RunsTo.eraseAmdSteps (hc : (s.bank b).cmdset = .amdStyle) :
    let a := (s.bank b).sectorStart i
    let budget := (s.bank b).eraseTimeout
    (eraseAmdSteps b i t).Ran s b fun k g => ∃ t0 es o,
      pollTraceOutcome s.params (s.bank b) a t0 budget es = some o ∧
      k = kindOfOutcome .eraseTimeout o ∧ (s.DoneNext b 2 → k = .ok) ∧
      g = ((s.stage b).issued (writeEvents
        (s.commandWrites b (amdEraseWrites s.params (s.bank b) a)))).polled s b a budget t0 es := by
  intro a budget
  unfold Machine.eraseAmdSteps
  simp only [h.params, h.built.amdEraseWrites, h.built.sectorStart]
  refine (h.issue (hw.accepts_amdEraseWrites hi) fun d => by rw [hc]; rfl).bind
    fun _ g u hg hu => ?_
  subst hg
  rw [hu.built.eraseTimeout]
  refine (hu.poll rfl (hw.accepts_sectorStart hi) budget .eraseTimeout).mono fun k g hk => ?_
  obtain ⟨t0, es, o, houtcome, hkind, hdone, rfl⟩ := hk
  rw [hc] at hdone
  exact ⟨t0, es, o, houtcome, hkind, hdone, rfl⟩

end

/-- Settles O28: the row is the six writes and the poll (`State.RunsTo.eraseAmdSteps`), and then the
effect on the array. -/
theorem eraseAmdOutcome : Obligations.EraseAmdOutcome := by
  intro s b i hs hc hi a e budget o1 o2
  have hsteps := (hs.ready.runsTo (.eraseAmd b i)).erasing hs.inv.memory i
    (fun _ ht => ht.eraseAmdSteps hs.wf hi hc) fun k g hg => by
      obtain ⟨-, -, -, -, -, -, rfl⟩ := hg
      rfl
  obtain ⟨k, g, u, ⟨_, m, ⟨t0, es, o, houtcome, hkind, hdone, rfl⟩, rfl, hout, hin⟩, hu, hrow⟩ :=
    exec_sequence hs hc rfl (onSector_of_lt (s := s.enter _) hi) hsteps
  have hreads := pollTraceOutcome_reads houtcome
  refine ⟨_, k, t0, es, o, hrow, rfl, hkind ▸ kindOfOutcome_of_amd hc houtcome, hdone, ?trace,
    houtcome, hkind, hreads.1, hreads.2, ?seq, hu.settled rfl rfl rfl rfl _, hu.regs, hu.locks,
    hu.sameOutside hout, fun hk x h1 h2 => (hu.read x).trans (hin hk x h1 h2)⟩
  case trace =>
    rw [List.append_assoc, List.append_assoc]
    exact hu.events
  case seq =>
    rw [← hc]
    exact hu.seq

/-! ### Intel-style (R94) -/

/-- The lock bits after the lock gate (93_implementation_defined.md I9). -/
theorem State.RunsTo.gateLocks {s t : State} {b : Nat} {g : Stage} (h : s.RunsTo b g t) (i : Nat)
    (k : Kind) : ∃ l, s.RunsTo b { g with locks := l } (gateLocks b i k t) := by
  unfold Machine.gateLocks
  split <;> exact ⟨_, (h.setLocks _).drawn⟩

/-- The stage after the lock gate of the sector at `a` and its poll. -/
def State.gateStage (s : State) (b a t0 : Nat) (es : List BusEvent) (locks : List Bool) : Stage :=
  { ((s.stage b).issued (writeEvents (s.commandWrites b (gateWrites a)))).polled s b a
      (s.bank b).eraseTimeout t0 es with locks := locks }

section
variable {s : State} {b a t0 : Nat} {es : List BusEvent}

theorem Stage.issued_accesses {g : Stage} (hg : ∀ x ∈ accessesOf g.events, x = a)
    {cs : List (Nat × Command)} (hcs : ∀ ac ∈ cs, ac.1 = a) :
    ∀ x ∈ accessesOf (g.issued (writeEvents (s.commandWrites b cs))).events, x = a := by
  simp only [Stage.issued, Stage.wrote, accessesOf_append, List.forall_mem_append]
  exact ⟨hg, by simpa [State.commandWrites] using hcs⟩

/-- A poll accesses the bank at its own address, reset included. -/
theorem Stage.polled_accesses {g : Stage} {budget : Nat} {o : Option Verdict}
    (hg : ∀ x ∈ accessesOf g.events, x = a)
    (hrun : pollTraceOutcome s.params (s.bank b) a t0 budget es = some o) :
    ∀ x ∈ accessesOf (g.polled s b a budget t0 es).events, x = a := by
  simp only [Stage.polled, accessesOf_append, accessesOf_timer, List.forall_mem_append]
  exact ⟨hg, (pollTraceOutcome_reads hrun).2, by simp [State.resetWrites, State.commandWrites]⟩

theorem State.gateStage_accesses {o : Option Verdict} {l : List Bool}
    (hrun : pollTraceOutcome s.params (s.bank b) a t0 (s.bank b).eraseTimeout es = some o) :
    ∀ x ∈ accessesOf (s.gateStage b a t0 es l).events, x = a :=
  Stage.polled_accesses (Stage.issued_accesses (g := s.stage b) (by simp [State.stage])
    (by simp [gateWrites])) hrun

end

theorem blockEraseWrites_at (a : Nat) (withResume : Bool) :
    ∀ ac ∈ blockEraseWrites a withResume, ac.1 = a := by
  cases withResume <;> simp [blockEraseWrites]

theorem devicesAfter_blockEraseWrites (d : Device) (a : Nat) (withResume : Bool) :
    (devicesAfter .intelStyle d (blockEraseWrites a withResume)).mode = .command := by
  cases withResume <;> rfl

section
variable {s t : State} {b i : Nat} (h : s.RunsTo b (s.stage b) t) (hw : Bank.Wf s.params (s.bank b))
  (hi : i < (s.bank b).sectorCount)
include h hw hi

/-- The lock gate and its poll; if that is `Done`, the block erase and its poll. -/
theorem State.RunsTo.eraseIntelSteps (hc : (s.bank b).cmdset = .intelStyle) :
    let a := (s.bank b).sectorStart i
    let budget := (s.bank b).eraseTimeout
    let run := pollTraceOutcome s.params (s.bank b) a
    (eraseIntelSteps b i t).Ran s b fun k g => (s.DoneNext b 2 → k = .ok) ∧ ∃ t1 p1 o1 l,
      run t1 budget p1 = some o1 ∧
      if kindOfOutcome .eraseTimeout o1 = .ok then
        ∃ t2 p2 o2, run t2 budget p2 = some o2 ∧ k = kindOfOutcome .eraseTimeout o2 ∧
          g = ((s.gateStage b a t1 p1 l).issued (writeEvents (s.commandWrites b
            (blockEraseWrites a (s.bank b).resumeAfterErase)))).polled s b a budget t2 p2
      else k = kindOfOutcome .eraseTimeout o1 ∧ g = s.gateStage b a t1 p1 l := by
  intro a budget run
  have ha := hw.accepts_sectorStart hi
  have hcost := doneCost_of_intel hc
  unfold Machine.eraseIntelSteps
  simp only [h.built.sectorStart, h.built.eraseTimeout, h.built.resumeAfterErase]
  refine (h.issue (by simpa using ha) fun d => by rw [hc]; rfl).bind fun _ g u hg hu => ?_
  subst hg
  refine (hu.poll rfl ha budget .eraseTimeout).bind fun k g v hk hv => ?_
  obtain ⟨t1, p1, o1, hrun1, rfl, hdone1, rfl⟩ := hk
  simp only [Stage.issued_answers, State.stage_answers, hcost] at hdone1
  obtain ⟨l, hv⟩ := hv.gateLocks i (kindOfOutcome .eraseTimeout o1)
  split
  · next hk =>
    exact hv.ok ⟨fun hd => hdone1 (hd.mono (by decide)), t1, p1, o1, l, hrun1, by
      rw [if_neg hk]
      exact ⟨rfl, rfl⟩⟩
  · next hk =>
    rw [ne_eq, not_not] at hk
    refine (hv.issue (fun ac hac => blockEraseWrites_at _ _ ac hac ▸ ha) fun d => ?_).bind
      fun _ g w hg hw => ?_
    · rw [hc]
      exact devicesAfter_blockEraseWrites d a _
    subst hg
    refine (hw.poll rfl ha budget .eraseTimeout).mono fun k g hk2 => ?_
    obtain ⟨t2, p2, o2, hrun2, hkind2, hdone2, rfl⟩ := hk2
    simp only [Stage.issued_answers, Stage.polled_answers, State.stage_answers, hcost] at hdone2
    refine ⟨hdone2, t1, p1, o1, l, hrun1, ?_⟩
    rw [if_pos hk]
    exact ⟨t2, p2, o2, hrun2, hkind2, rfl⟩

end

/-- Settles O27: the row is the lock gate and, if its poll is `Done`, the block erase
(`State.RunsTo.eraseIntelSteps`), and then the effect on the array. -/
theorem eraseIntelOutcome : Obligations.EraseIntelOutcome := by
  intro s b i hs hc hi a e budget gate blockErase reset poll
  have hsteps := (hs.ready.runsTo (.eraseIntel b i)).erasing hs.inv.memory i
    (fun _ ht => ht.eraseIntelSteps hs.wf hi hc) fun k g hg => by
      obtain ⟨-, _, _, _, _, -, hg⟩ := hg
      split at hg
      · obtain ⟨_, _, _, -, -, rfl⟩ := hg
        rfl
      · obtain ⟨-, rfl⟩ := hg
        rfl
  obtain ⟨k, g, u, ⟨g₀, m, ⟨hdone, t1, p1, o1, l, hrun1, hend⟩, rfl, hout, hin⟩, hu, hrow⟩ :=
    exec_sequence hs hc rfl (onSector_of_lt (s := s.enter _) hi) hsteps
  obtain ⟨hkinds, hat, hidle, hmode, hie⟩ :
      (k = .ok ∨ k = .eraseTimeout ∨ ∃ sub, k = .hardwareError sub) ∧
      (∀ x ∈ accessesOf g₀.events, x = a) ∧ g₀.seq.smState = .idle ∧ g₀.mode = .readArray ∧
      g₀.ie = s.env.ie := by
    split at hend
    · obtain ⟨_, _, _, hrun2, rfl, rfl⟩ := hend
      exact ⟨kindOfOutcome_cases .., Stage.polled_accesses (Stage.issued_accesses
        (State.gateStage_accesses hrun1) (blockEraseWrites_at _ _)) hrun2, rfl, rfl, rfl⟩
    · obtain ⟨rfl, rfl⟩ := hend
      exact ⟨kindOfOutcome_cases .., State.gateStage_accesses hrun1, rfl, rfl, rfl⟩
  refine ⟨_, k, g₀.events, t1, p1, o1, hrow, rfl, hkinds, hdone, hu.events, hat, hrun1, ?ends,
    hu.settled rfl hidle hmode hie _, hu.regs, hu.sameOutside hout,
    fun hk x h1 h2 => (hu.read x).trans (hin hk x h1 h2)⟩
  have hv : (s.bank b).cmdset ≠ .amdStyle := by simp [hc]
  have hseq := hu.seq
  split at hend
  · next hk1 =>
    obtain ⟨t2, p2, o2, hrun2, hkind2, rfl⟩ := hend
    rw [if_pos hk1]
    refine ⟨t2, p2, o2, hrun2, hkind2, ?_, hseq.trans ?_⟩
    · simp only [State.gateStage, Stage.polled, Stage.issued, Stage.wrote, State.stage,
        List.nil_append, List.append_assoc]
      rfl
    · rw [← pollPrevOf_of_not_amd hv, ← pollPrevOf_of_not_amd hv]
      rfl
  · next hk1 =>
    obtain ⟨hkind1, rfl⟩ := hend
    rw [if_neg hk1]
    refine ⟨hkind1, ?_, hseq.trans ?_⟩
    · rw [List.append_assoc]
      rfl
    · rw [← pollPrevOf_of_not_amd hv]
      rfl

end Sys2Proof.Machine
end

section
/-! PROOFS. Single-word program (42_sequencer.md R97 to R99; O29, O30, O31). -/

namespace Sys2Proof.Machine

/-! ### Words read from the array (20_memory.md R43) -/

section
variable {s t : State} {b : Nat} {g : Stage}

/-- A read in read-array mode of a word of the array: only the trace and the position move. -/
theorem busRead_array {a : Nat} (hr : s.env.resetIn = none) (ha : a % (s.bank b).bytes = 0)
    (hm : (s.bank b).device.mode = .readArray)
    (hin : (s.bank b).inArray a (s.bank b).bytes = true) :
    busRead b a s = .ok (s.arrayWord b a)
      ((s.note (.read a (s.arrayWord b a))).placed s.advance.position s.result) := by
  rw [busRead_eq hr (Bank.accepts_inArray ha hin), answer_readArray (s := s.advance) hm hin]
  rfl

theorem State.RunsTo.arrayWord (h : s.RunsTo b g t) (a : Nat) :
    t.arrayWord b a = (s.setMemory g.memory).arrayWord b a := by
  simp only [State.arrayWord, h.params, h.array, h.built.bytes]
  rfl

theorem State.RunsTo.arrayWord_of_memory (h : s.RunsTo b g t) (hg : g.memory = s.memory) (a : Nat) :
    t.arrayWord b a = s.arrayWord b a := by
  rw [h.arrayWord, hg]
  rfl

/-- A read inside a sequence that has not changed the array. -/
theorem State.RunsTo.busRead {a : Nat} (h : s.RunsTo b g t) (hg : g.memory = s.memory)
    (ha : a % (s.bank b).bytes = 0) (hm : g.mode = .readArray)
    (hin : (s.bank b).inArray a (s.bank b).bytes = true) :
    (busRead b a t).Ran s b fun w g' => w = s.arrayWord b a ∧
      g' = { g with events := g.events ++ [.read a w] } := by
  rw [← h.built.inArray, ← h.built.bytes] at hin
  have hrun := busRead_array (s := t) h.noReset (by rwa [h.built.bytes]) (h.mode.trans hm) hin
  obtain ⟨f, -⟩ := (busRead_leads b a t).of_eq hrun
  refine ⟨_, _, hrun, _, ⟨h.arrayWord_of_memory hg a, rfl⟩, h.written f rfl h.seq h.mode rfl⟩

end

/-! ### The effect on the array (20_memory.md R44) -/

theorem State.RunsTo.programEffect {s t : State} {b : Nat} {g : Stage} (h : s.RunsTo b g t)
    (hg : g.memory = s.memory) (hm : Memory.wf s.memory = true) {a : Nat} {ds : List Word}
    (hport : ∀ d ∈ ds, toPort (s.bank b).portWidth d = d)
    (hold : ∀ j < ds.length, s.arrayWord b (a + j * (s.bank b).bytes) &&& ds.getD j 0 =
      ds.getD j 0) (k : Kind) :
    ∃ m, s.RunsTo b { g with memory := m } (programEffect b a ds k t) ∧
      State.SameOutside a (ds.length * (s.bank b).bytes) s (s.setMemory m) ∧
      (k = .ok → ∀ j < ds.length, (s.setMemory m).arrayWord b (a + j * (s.bank b).bytes) =
        ds.getD j 0) := by
  have ht : t.memory = s.memory := h.array.trans hg
  have hu : s.RunsTo b { g with memory := (Machine.programEffect b a ds k t).memory }
      (Machine.programEffect b a ds k t) := by
    unfold Machine.programEffect
    split
    · exact h.setMemory fun hw => programWordsAt_wf _ _ ds hw
    · exact (h.setMemory fun hw => Memory.drawRange_wf hw).drawn
  obtain ⟨hout, hin⟩ := programEffect_array (s := t) (ht ▸ hm) k (b := b) (a := a) (ds := ds)
    (by rwa [h.built.portWidth])
    (by simpa only [h.arrayWord_of_memory hg, h.built.bytes] using hold)
  rw [h.built.bytes] at hout hin
  exact ⟨_, hu, fun x hx => (hout x hx).trans (by rw [ht]),
    fun hk j hj => (hu.arrayWord _).symm.trans (hin hk j hj)⟩

/-! ### The precondition (R97) -/

/-- A word of a sector, read in read-array mode before its program. -/
structure State.WordAt (s : State) (b a i : Nat) : Prop where
  aligned : a % (s.bank b).bytes = 0
  mode : (s.bank b).device.mode = .readArray
  sector : (s.bank b).sectorOf a = some i
  inArray : (s.bank b).inArray a (s.bank b).bytes = true

theorem State.Known.wordAt {s : State} {b a i : Nat} (hs : s.Known b)
    (hm : (s.bank b).device.mode = .readArray) (ha : a % (s.bank b).bytes = 0)
    (hi : (s.bank b).sectorOf a = some i) : s.WordAt b a i := by
  obtain ⟨hlt, h1, h2⟩ := Bank.sectorOf_some hi
  exact ⟨ha, hm, hi, hs.wf.word_inArray hlt ha h1 h2⟩

theorem State.WordAt.enter {s : State} {b a i : Nat} (h : s.WordAt b a i) (j : Instr) :
    (s.enter j).WordAt b a i := ⟨h.aligned, h.mode, h.sector, h.inArray⟩

theorem programmable_iff (old d : Word) : programmable old d = true ↔ old &&& d = d := beq_iff_eq

/-- A word the array cannot take: one read, and the failure. -/
theorem programming_notErased {s : State} {b a i : Nat} {d : Word} (h : s.WordAt b a i)
    (hr : s.env.resetIn = none) (hno : s.arrayWord b a &&& d ≠ d)
    (steps : Nat → State → Res Kind) :
    ∃ p, programming b a d steps s =
      .ok (.notErased a) ((s.note (.read a (s.arrayWord b a))).placed p s.result) := by
  have hp : programmable (s.arrayWord b a) d = false :=
    Bool.eq_false_iff.mpr (mt (programmable_iff _ d).mp hno)
  have hread : busRead b a (s.setRange (some (a, (s.bank b).bytes))) = .ok (s.arrayWord b a) _ :=
    busRead_array hr h.aligned h.mode h.inArray
  simp only [programming, h.sector, withRange, hread, Res.bind_ok, hp, if_pos]
  exact ⟨_, rfl⟩

/-- Settles O29: the row stops after its read (`programming_notErased`). -/
theorem programNotErasedIssuesNoCommand : Obligations.ProgramNotErasedIssuesNoCommand := by
  intro s b a i d hs hm ha hi hno
  have hword := hs.wordAt hm ha hi
  refine ⟨fun hc => ?intel, fun hc => ?amd⟩
  case intel =>
    obtain ⟨p, hrun⟩ := programming_notErased (hword.enter (.programWordIntel b a d))
      hs.ready.noReset hno _
    exact exec_sequence_of_ok hs hc rfl rfl hrun
  case amd =>
    obtain ⟨p, hrun⟩ := programming_notErased (hword.enter (.programWordAmd b a d))
      hs.ready.noReset hno _
    exact exec_sequence_of_ok hs hc rfl rfl hrun

/-! ### The masked window and the poll (R93) -/

/-- The stage before the poll of a single-word program: the opening writes `ws` and the data write
inside the masked window. -/
def Stage.programIssued (g : Stage) (ws : List BusEvent) (a : Nat) (d : Word) : Stage :=
  ((g.masked.issued ws).wrote [.write a d]).restored

section
variable {s t : State} {b : Nat} {g : Stage} {a i : Nat} {d : Word}

theorem State.RunsTo.programSteps (h : s.RunsTo b g t) {pollAt x : Nat} {c : Command}
    {cs : List (Nat × Command)} (ha : (s.bank b).Accepts s.params a)
    (hp : (s.bank b).Accepts s.params pollAt)
    (hcs : ∀ ac ∈ (x, c) :: cs, (s.bank b).Accepts s.params ac.1)
    (hm : ∀ d, (devicesAfter (s.bank b).cmdset d ((x, c) :: cs)).mode = .command)
    (hd : toPort (s.bank b).portWidth d = d) :
    (programSteps b a d ((x, c) :: cs) pollAt t).Ran s b fun k g' => ∃ t0 es o,
      pollTraceOutcome s.params (s.bank b) pollAt t0 (s.bank b).writeTimeout es = some o ∧
      k = kindOfOutcome .programTimeout o ∧
      (s.DoneNext b (g.answers + doneCost (s.bank b).cmdset) → k = .ok) ∧
      g' = (g.programIssued (writeEvents (s.commandWrites b ((x, c) :: cs))) a d).polled s b pollAt
        (s.bank b).writeTimeout t0 es := by
  unfold Machine.programSteps
  refine (h.irqSave.issue hcs hm).bind fun _ g1 u hg1 hu => ?_
  subst hg1
  refine (hu.writeData ha d).bind fun _ g2 v hg2 hv => ?_
  subst hg2
  rw [hd] at hv
  rw [hv.built.writeTimeout]
  exact hv.irqRestore.poll rfl hp (s.bank b).writeTimeout .programTimeout

/-- The stage after the read of a single-word program. -/
def State.readStage (s : State) (b a : Nat) : Stage :=
  { s.stage b with events := [.read a (s.arrayWord b a)] }

/-- A word the array can take: one read, the sequence, and its effect. -/
theorem State.RunsTo.programming (h : s.RunsTo b (s.stage b) t) (hm : Memory.wf s.memory = true)
    (hw : s.WordAt b a i) (hd : toPort (s.bank b).portWidth d = d)
    (hold : s.arrayWord b a &&& d = d) {steps : Nat → State → Res Kind} {P : Kind → Stage → Prop}
    (hsteps : ∀ t, s.RunsTo b (s.readStage b a) t → (steps i t).Ran s b P)
    (hP : ∀ k g, P k g → g.memory = s.memory) :
    (programming b a d steps t).Ran s b fun k g' => ∃ g₀ m, P k g₀ ∧ g' = { g₀ with memory := m } ∧
      State.SameOutside a (s.bank b).bytes s (s.setMemory m) ∧
      (k = .ok → (s.setMemory m).arrayWord b a = d) := by
  have hsector : (t.bank b).sectorOf a = some i := (h.built.sectorOf a).trans hw.sector
  simp only [Machine.programming, hsector]
  refine h.withRange fun t ht => ?_
  refine (ht.busRead rfl hw.aligned hw.mode hw.inArray).bind fun old g u hg hu => ?_
  obtain ⟨rfl, rfl⟩ := hg
  rw [if_neg (by simpa using (programmable_iff _ d).mpr hold)]
  refine (hsteps u hu).bind fun k g₀ v hk hv => ?_
  obtain ⟨m, hv', hout, hin⟩ := hv.programEffect (hP k g₀ hk) hm (a := a) (ds := [d])
    (by simpa using hd) (by simpa using hold) k
  exact hv'.ok ⟨g₀, m, hk, rfl, by simpa using hout, by simpa using hin⟩

/-- The stage a single-word program ends at, its effect aside. -/
def State.programStage (s : State) (b a : Nat) (d : Word) (cs : List (Nat × Command))
    (pollAt t0 : Nat) (es : List BusEvent) : Stage :=
  ((s.readStage b a).programIssued (writeEvents (s.commandWrites b cs)) a d).polled s b pollAt
    (s.bank b).writeTimeout t0 es

/-- What a single-word program with the opening writes `cs` and a poll at `pollAt` ends in. -/
def State.Programs (s : State) (b a : Nat) (d : Word) (cs : List (Nat × Command)) (pollAt : Nat)
    (k : Kind) (g : Stage) : Prop :=
  ∃ t0 es o m,
    pollTraceOutcome s.params (s.bank b) pollAt t0 (s.bank b).writeTimeout es = some o ∧
    k = kindOfOutcome .programTimeout o ∧ (s.DoneNext b (doneCost (s.bank b).cmdset) → k = .ok) ∧
    g = { s.programStage b a d cs pollAt t0 es with memory := m } ∧
    State.SameOutside a (s.bank b).bytes s (s.setMemory m) ∧
    (k = .ok → (s.setMemory m).arrayWord b a = d)

theorem State.RunsTo.programs (h : s.RunsTo b (s.stage b) t) (hmem : Memory.wf s.memory = true)
    (hw : s.WordAt b a i) (hd : toPort (s.bank b).portWidth d = d)
    (hold : s.arrayWord b a &&& d = d) {steps : Nat → State → Res Kind} {pollAt x : Nat}
    {c : Command} {cs : List (Nat × Command)}
    (hsteps : ∀ t, s.RunsTo b (s.readStage b a) t →
      steps i t = Machine.programSteps b a d ((x, c) :: cs) pollAt t)
    (hp : (s.bank b).Accepts s.params pollAt)
    (hcs : ∀ ac ∈ (x, c) :: cs, (s.bank b).Accepts s.params ac.1)
    (hm : ∀ d, (devicesAfter (s.bank b).cmdset d ((x, c) :: cs)).mode = .command) :
    (Machine.programming b a d steps t).Ran s b (s.Programs b a d ((x, c) :: cs) pollAt) := by
  have ha : (s.bank b).Accepts s.params a := Bank.accepts_inArray hw.aligned hw.inArray
  refine (h.programming hmem hw hd hold (fun u hu => hsteps u hu ▸
    hu.programSteps ha hp hcs hm hd) ?_).mono fun k g hg => ?_
  · rintro k g ⟨_, _, _, -, -, -, rfl⟩
    rfl
  · obtain ⟨_, m, ⟨t0, es, o, houtcome, hkind, hdone, rfl⟩, rfl, hout, hin⟩ := hg
    exact ⟨t0, es, o, m, houtcome, hkind, fun hd => hdone (by rwa [State.readStage,
      State.stage_answers, Nat.zero_add]), rfl, hout, hin⟩

end

/-- Settles O30: the row is the read, two command writes and the data write, and the poll at the
sector's start (`State.RunsTo.programs`). -/
theorem programWordIntelOutcome : Obligations.ProgramWordIntelOutcome := by
  intro s b a i d hs hm hc ha hi v base budget hold
  have hbase := hs.wf.accepts_sectorStart (Bank.sectorOf_some hi).1
  have hrun := (hs.ready.runsTo (.programWordIntel b a d)).programs hs.inv.memory
    ((hs.wordAt hm ha hi).enter _) (toPort_toPort _ d) hold (pollAt := base) (x := base)
    (c := .clearStatus) (cs := [(base, .program)])
    (steps := fun i s => Machine.programSteps b a v [((s.bank b).sectorStart i, .clearStatus),
      ((s.bank b).sectorStart i, .program)] ((s.bank b).sectorStart i) s)
    (fun t ht => by rw [ht.built.sectorStart]; rfl) hbase (by simpa using hbase)
    fun _ => by rw [State.enter_bank, hc]; rfl
  obtain ⟨k, g, u, ⟨t0, es, o, m, houtcome, hkind, hdone, rfl, hout, hin⟩, hu, hrow⟩ :=
    exec_sequence hs hc rfl rfl hrun
  obtain ⟨hwrites, hat⟩ := pollTraceOutcome_reads houtcome
  refine ⟨_, k, t0, es, o, hrow, rfl, hkind ▸ kindOfOutcome_cases .., fun hd => hdone ?done, ?trace,
    houtcome, hkind, hwrites, hat, ?seq, hu.settled rfl rfl rfl rfl _, hu.regs, hu.sameOutside hout,
    fun hk => (hu.arrayWord a).trans (hin hk)⟩
  case done =>
    rw [State.enter_bank, doneCost_of_intel hc]
    exact hd
  case trace =>
    rw [List.append_assoc, List.append_assoc]
    exact hu.events
  case seq =>
    rw [← pollPrevOf_of_not_amd (cs := (s.bank b).cmdset) (by simp [hc])]
    exact hu.seq

/-- Settles O31: the row is the read, the unlock cycles and the data write, and the poll at the data
address (`State.RunsTo.programs`). -/
theorem programWordAmdOutcome : Obligations.ProgramWordAmdOutcome := by
  intro s b a i d hs hm hc ha hi v o1 o2 budget hold
  have hword := (hs.wordAt hm ha hi).enter (.programWordAmd b a d)
  have hrun := (hs.ready.runsTo (.programWordAmd b a d)).programs hs.inv.memory hword
    (toPort_toPort _ d) hold (pollAt := a) (x := o1) (c := .unlock1)
    (cs := [(o2, .unlock2), (o1, .amdProgram)])
    (steps := fun _ s => Machine.programSteps b a v (amdPrefix s.params (s.bank b) .amdProgram) a s)
    (fun t ht => by rw [ht.params, ht.built.amdPrefix]; rfl)
    (Bank.accepts_inArray ha hword.inArray) (hs.wf.accepts_amdPrefix .amdProgram)
    fun _ => by rw [State.enter_bank, hc]; rfl
  obtain ⟨k, g, u, ⟨t0, es, o, m, houtcome, hkind, hdone, rfl, hout, hin⟩, hu, hrow⟩ :=
    exec_sequence hs hc rfl rfl hrun
  obtain ⟨hwrites, hat⟩ := pollTraceOutcome_reads houtcome
  refine ⟨_, k, t0, es, o, hrow, rfl, hkind ▸ kindOfOutcome_of_amd hc houtcome,
    fun hd => hdone ?done, ?trace, houtcome, hkind, hwrites, hat, ?seq,
    hu.settled rfl rfl rfl rfl _, hu.regs, hu.sameOutside hout,
    fun hk => (hu.arrayWord a).trans (hin hk)⟩
  case done =>
    rw [State.enter_bank, hc]
    exact hd
  case trace =>
    rw [List.append_assoc, List.append_assoc]
    exact hu.events
  case seq =>
    rw [← hc]
    exact hu.seq

end Sys2Proof.Machine
end

section
/-! PROOFS. Buffered program (42_sequencer.md R100; O32, O33). -/

namespace Sys2Proof.Machine

/-! ### The reads -/

/-- The `n` words of the array from `a` upward. -/
def State.arrayWords (s : State) (b a n : Nat) : List Word :=
  (List.range n).map fun k => s.arrayWord b (a + k * (s.bank b).bytes)

/-- Their reads on the bus. -/
def State.arrayReads (s : State) (b a n : Nat) : List BusEvent :=
  (List.range n).map fun k => .read (a + k * (s.bank b).bytes)
    (s.arrayWord b (a + k * (s.bank b).bytes))

theorem map_range_succ_words {α : Type} (f : Nat → α) (a w n : Nat) :
    (List.range (n + 1)).map (fun k => f (a + k * w)) =
      f a :: (List.range n).map fun k => f (a + w + k * w) := by
  rw [List.range_succ_eq_map, List.map_cons, List.map_map, Nat.zero_mul, Nat.add_zero]
  refine congrArg (f a :: ·) (List.map_congr_left fun k _ => congrArg f ?_)
  rw [Nat.succ_mul]
  omega

theorem State.arrayWords_succ (s : State) (b a n : Nat) : s.arrayWords b a (n + 1) =
    s.arrayWord b a :: s.arrayWords b (a + (s.bank b).bytes) n :=
  map_range_succ_words (s.arrayWord b) ..

theorem State.arrayReads_succ (s : State) (b a n : Nat) : s.arrayReads b a (n + 1) =
    .read a (s.arrayWord b a) :: s.arrayReads b (a + (s.bank b).bytes) n :=
  map_range_succ_words (fun x => BusEvent.read x (s.arrayWord b x)) ..

theorem State.saw_placed_note (s : State) (e : BusEvent) (es : List BusEvent) (p : Option Position)
    (r : Option Result) : ((s.note e).placed p r).saw es = (s.saw (e :: es)).placed p r := by
  simp [State.saw, State.note, State.placed]

section
variable {b : Nat}

theorem readWords_array : ∀ (n : Nat) {a : Nat} {s : State}, s.env.resetIn = none →
    a % (s.bank b).bytes = 0 → (s.bank b).device.mode = .readArray →
    (∀ k < n, (s.bank b).inArray (a + k * (s.bank b).bytes) (s.bank b).bytes = true) →
    ∃ p, readWords b a n s =
      .ok (s.arrayWords b a n) ((s.saw (s.arrayReads b a n)).placed p s.result)
  | 0, _, s, _, _, _, _ => ⟨s.position, by simp [readWords, State.arrayWords, State.arrayReads]⟩
  | n + 1, a, s, hr, ha, hm, hin => by
    have hfirst := busRead_array hr ha hm (by simpa using hin 0 n.succ_pos)
    obtain ⟨p, hrest⟩ := readWords_array n (a := a + (s.bank b).bytes)
      (s := (s.note (.read a (s.arrayWord b a))).placed s.advance.position s.result) hr
      ((Nat.add_mod_right ..).trans ha) hm fun k hk => by
        have hnext := hin (k + 1) (by omega)
        rwa [Nat.succ_mul, Nat.add_comm (k * _), ← Nat.add_assoc] at hnext
    refine ⟨p, ?_⟩
    rw [readWords, hfirst, Res.bind_ok, s.arrayWords_succ, s.arrayReads_succ]
    refine (congrArg (Res.bind · _) hrest).trans ?_
    rw [State.saw_placed_note]
    rfl

end

/-! ### The precondition (R100) -/

section
variable {w : Nat}

theorem firstNotErased_none : ∀ {olds ds : List Word} {a : Nat},
    (∀ k < ds.length, olds.getD k 0 &&& ds.getD k 0 = ds.getD k 0) →
    firstNotErased w a olds ds = none
  | [], _, _, _ => rfl
  | _ :: _, [], _, _ => rfl
  | old :: olds, d :: ds, a, h => by
    have hfirst := (programmable_iff old d).mpr (h 0 (by simp))
    rw [firstNotErased, if_neg (by simp [hfirst])]
    exact firstNotErased_none fun k hk => h (k + 1) (by simpa using hk)

theorem firstNotErased_some : ∀ {olds ds : List Word} {a j : Nat}, j < olds.length →
    j < ds.length → (∀ k < j, olds.getD k 0 &&& ds.getD k 0 = ds.getD k 0) →
    olds.getD j 0 &&& ds.getD j 0 ≠ ds.getD j 0 →
    firstNotErased w a olds ds = some (a + j * w)
  | [], _, _, _, hj, _, _, _ => absurd hj (Nat.not_lt_zero _)
  | _ :: _, [], _, _, _, hj, _, _ => absurd hj (Nat.not_lt_zero _)
  | old :: olds, d :: ds, a, 0, _, _, _, hno => by
    have hfirst := Bool.eq_false_iff.mpr (mt (programmable_iff old d).mp hno)
    rw [firstNotErased, if_pos hfirst, Nat.zero_mul, Nat.add_zero]
  | old :: olds, d :: ds, a, j + 1, ho, hd, h, hno => by
    have hfirst := (programmable_iff old d).mpr (h 0 j.succ_pos)
    rw [firstNotErased, if_neg (by simp [hfirst]),
      firstNotErased_some (Nat.lt_of_succ_lt_succ ho) (Nat.lt_of_succ_lt_succ hd)
        (fun k hk => h (k + 1) (by omega)) hno, Nat.succ_mul]
    congr 1
    omega

end

/-- The operands of a buffered program: `n` words of one sector of an Intel-style bank with a
buffer, in read-array mode. -/
structure State.WordsAt (s : State) (b a n i : Nat) : Prop where
  aligned : a % (s.bank b).bytes = 0
  mode : (s.bank b).device.mode = .readArray
  intel : (s.bank b).cmdset = .intelStyle
  buffer : (s.bank b).bufferSize ≠ 0
  sector : (s.bank b).sectorOf a = some i
  fits : bufferFits (s.bank b) a n i = true
  inArray : ∀ k < n, (s.bank b).inArray (a + k * (s.bank b).bytes) (s.bank b).bytes = true

theorem State.Known.wordsAt {s : State} {b a n i : Nat} (hs : s.Known b)
    (hm : (s.bank b).device.mode = .readArray) (hc : (s.bank b).cmdset = .intelStyle)
    (hbuf : 0 < (s.bank b).bufferSize) (ha : a % (s.bank b).bytes = 0)
    (hi : (s.bank b).sectorOf a = some i) (hfit : bufferFits (s.bank b) a n i = true) :
    s.WordsAt b a n i := by
  obtain ⟨hlt, h1, h2⟩ := Bank.sectorOf_some hi
  refine ⟨ha, hm, hc, hbuf.ne', hi, hfit, fun k hk => ?_⟩
  have hend : a + n * (s.bank b).bytes ≤ (s.bank b).sectorEnd i := by
    simp only [bufferFits, Bool.and_eq_true, decide_eq_true_eq] at hfit
    exact hfit.1.2
  have hword : (k + 1) * (s.bank b).bytes ≤ n * (s.bank b).bytes := Nat.mul_le_mul_right _ hk
  have hpos := (s.bank b).bytes_pos
  rw [Nat.succ_mul] at hword
  exact hs.wf.word_inArray hlt (by rw [Nat.add_mul_mod_self_right, ha]) (by omega) (by omega)

theorem State.WordsAt.enter {s : State} {b a n i : Nat} (h : s.WordsAt b a n i) (j : Instr) :
    (s.enter j).WordsAt b a n i :=
  ⟨h.aligned, h.mode, h.intel, h.buffer, h.sector, h.fits, h.inArray⟩

theorem getD_arrayWords (s : State) (b a : Nat) {n k : Nat} (hk : k < n) :
    (s.arrayWords b a n).getD k 0 = s.arrayWord b (a + k * (s.bank b).bytes) := by
  simp [State.arrayWords, List.getD_eq_getElem?_getD, hk]

theorem getD_map_toPort (p : PortWidth) (ds : List Word) (k : Nat) :
    (ds.map (toPort p)).getD k 0 = toPort p (ds.getD k 0) := by
  simp only [List.getD_eq_getElem?_getD, List.getElem?_map]
  cases ds[k]? with
  | none => simp [toPort]
  | some d => rfl

/-- What a buffered program does once it has read the words `olds` (R100). -/
def bufferAfterReads (b a i : Nat) (ds olds : List Word) (s : State) : Res Kind :=
  match firstNotErased (s.bank b).bytes a olds ds with
  | some bad => .ok (.notErased bad) s
  | none => (bufferSteps b a ds ((s.bank b).sectorStart i) s).bind fun r s =>
      .ok r (programEffect b a ds r s)

section
variable {s : State} {b a i : Nat} {ds olds : List Word}

theorem programBufferIntel_eq (h : s.WordsAt b a ds.length i) :
    programBufferIntel b a ds s = withRange a (ds.length * (s.bank b).bytes)
      (fun s => (readWords b a ds.length s).bind (bufferAfterReads b a i ds)) s := by
  rw [programBufferIntel, if_neg (by simp [h.buffer, h.intel])]
  simp only [h.sector, h.fits]
  rfl

theorem bufferAfterReads_of_some {bad : Nat}
    (h : firstNotErased (s.bank b).bytes a olds ds = some bad) :
    bufferAfterReads b a i ds olds s = .ok (.notErased bad) s := by
  rw [bufferAfterReads, h]

theorem bufferAfterReads_of_none (h : firstNotErased (s.bank b).bytes a olds ds = none) :
    bufferAfterReads b a i ds olds s =
      (bufferSteps b a ds ((s.bank b).sectorStart i) s).bind fun r s =>
        .ok r (programEffect b a ds r s) := by
  rw [bufferAfterReads, h]

/-- A buffered program with a word the array cannot take: the reads, and the failure. -/
theorem programBufferIntel_notErased {j : Nat} (h : s.WordsAt b a ds.length i)
    (hr : s.env.resetIn = none) (hj : j < ds.length)
    (hbefore : ∀ k < j, s.arrayWord b (a + k * (s.bank b).bytes) &&& ds.getD k 0 = ds.getD k 0)
    (hno : s.arrayWord b (a + j * (s.bank b).bytes) &&& ds.getD j 0 ≠ ds.getD j 0) :
    ∃ p, programBufferIntel b a ds s = .ok (.notErased (a + j * (s.bank b).bytes))
      ((s.saw (s.arrayReads b a ds.length)).placed p s.result) := by
  have hbad : firstNotErased (s.bank b).bytes a (s.arrayWords b a ds.length) ds =
      some (a + j * (s.bank b).bytes) := by
    refine firstNotErased_some (by simpa [State.arrayWords] using hj) hj (fun k hk => ?_) ?_
    · rw [getD_arrayWords s b a (by omega)]
      exact hbefore k hk
    · rwa [getD_arrayWords s b a hj]
  obtain ⟨p, hreads⟩ := readWords_array (b := b) ds.length
    (s := s.setRange (some (a, ds.length * (s.bank b).bytes))) hr h.aligned h.mode h.inArray
  have hstop := bufferAfterReads_of_some (i := i) (s := ((s.setRange (some (a, ds.length *
    (s.bank b).bytes))).saw (s.arrayReads b a ds.length)).placed p s.result) hbad
  rw [programBufferIntel_eq h, withRange, hreads, Res.bind_ok]
  exact ⟨_, congrArg (Res.bind · _) hstop⟩

end

/-- Settles O32: the row stops after its reads (`programBufferIntel_notErased`). -/
theorem programBufferNotErased : Obligations.ProgramBufferNotErased := by
  intro s b a i j ds hs hm hc hbuf ha hi hfit hj w old new hbefore hno
  have hnew (k : Nat) : (ds.map (toPort (s.bank b).portWidth)).getD k 0 = new k :=
    getD_map_toPort ..
  have hwords := (hs.wordsAt hm hc hbuf ha hi hfit).enter (.programBufferIntel b a ds)
  rw [← ds.length_map (toPort (s.bank b).portWidth)] at hwords hj
  obtain ⟨p, hrun⟩ := programBufferIntel_notErased hwords hs.ready.noReset hj
    (fun k hk => by rw [hnew]; exact hbefore k hk) (by rw [hnew]; exact hno)
  rw [List.length_map] at hrun
  exact exec_sequence_of_ok hs hc rfl rfl hrun

/-! ### The sequence (R90, R93) -/

theorem Bank.SameBuilt.bufferSize {x y : Bank} (h : x.SameBuilt y) : y.bufferSize = x.bufferSize :=
  (congrArg Bank.bufferSize h.1 :)

/-- Words that fit their port show on the bus as they are. -/
theorem dataEvents_eq (p : PortWidth) : ∀ (ds : List Word) (a : Nat),
    (∀ d ∈ ds, toPort p d = d) → dataEvents p a ds =
      writeEvents ((List.range ds.length).map fun k => (a + k * p.bytes, ds.getD k 0))
  | [], _, _ => rfl
  | d :: ds, a, h => by
    obtain ⟨hd, hds⟩ := List.forall_mem_cons.mp h
    rw [dataEvents, hd, dataEvents_eq p ds _ hds, List.length_cons, List.range_succ_eq_map]
    simp [writeEvents, Function.comp_def, Nat.succ_mul, Nat.add_assoc, Nat.add_comm p.bytes]

/-- The stage before the ready poll: write-to-buffer issued inside the masked window. -/
def Stage.bufferOpened (g : Stage) (s : State) (b base : Nat) : Stage :=
  g.masked.issued (writeEvents (s.commandWrites b [(base, .writeToBuffer)]))

/-- The stage before the completion poll: the count, the data and the confirm written, the interrupt
state restored. -/
def Stage.bufferFilled (g : Stage) (s : State) (b base a : Nat) (ds : List Word) : Stage :=
  (((g.wrote [.write base ((s.bank b).rep (BitVec.ofNat 8 (ds.length - 1)))]).wrote
    (dataEvents (s.bank b).portWidth a ds)).wrote
    [.write base (s.commandWord b .bufferConfirm)]).restored

section
variable (g : Stage) (s : State) (b base : Nat)

theorem Stage.bufferOpened_events : (g.bufferOpened s b base).events =
    g.events ++ [.irqOff, .write base (s.commandWord b .writeToBuffer)] :=
  List.append_assoc ..

theorem Stage.bufferFilled_events {a : Nat} {ds : List Word} {ws : List (Nat × Word)}
    (h : dataEvents (s.bank b).portWidth a ds = writeEvents ws) :
    (g.bufferFilled s b base a ds).events = g.events ++ writeEvents
      ((base, (s.bank b).rep (BitVec.ofNat 8 (ds.length - 1))) :: ws ++
        s.commandWrites b [(base, .bufferConfirm)]) ++ [.irqRestore] := by
  simp [Stage.bufferFilled, Stage.wrote, Stage.restored, h, writeEvents, State.commandWrites]

end

/-- What the sequence of a buffered program ends in, from the stage `g` after its reads. -/
def State.Buffers (s : State) (b base a : Nat) (ds : List Word) (g : Stage) (k : Kind)
    (g' : Stage) : Prop :=
  let budget := (s.bank b).bufferWriteTimeout
  let opened := g.bufferOpened s b base
  (s.DoneNext b (g.answers + 2) → k = .ok) ∧ ∃ t1 p1 r,
    pollOutcome (readyVerdict s.params (s.bank b)) base t1 budget 0 p1 = some r ∧
    (r = none ∧ k = .bufferWriteTimeout ∧ g' = (opened.polled s b base budget t1 p1).restored ∨
      (∃ v, r = some v) ∧ ∃ t2 p2 o,
        pollTraceOutcome s.params (s.bank b) base t2 budget p2 = some o ∧
        k = kindOfOutcome .bufferWriteTimeout o ∧
        g' = ((opened.sawReady base budget t1 p1).bufferFilled s b base a ds).polled s b base budget
          t2 p2)

/-- Both ends leave the sequencer idle, read-array mode and the interrupt enable from before. -/
theorem State.Buffers.settles {s : State} {b base a : Nat} {ds : List Word} {g g' : Stage}
    {k : Kind} (h : s.Buffers b base a ds g k g') :
    (k = .ok ∨ k = .bufferWriteTimeout ∨ ∃ sub, k = .hardwareError sub) ∧
      g'.seq.smState = .idle ∧ g'.mode = .readArray ∧ g'.ie = g.ie ∧ g'.memory = g.memory := by
  obtain ⟨-, _, _, _, -, ⟨-, rfl, rfl⟩ | ⟨-, _, _, _, -, rfl, rfl⟩⟩ := h
  · exact ⟨.inr (.inl rfl), rfl, rfl, rfl, rfl⟩
  · exact ⟨kindOfOutcome_cases .., rfl, rfl, rfl, rfl⟩

section
variable {s t : State} {b : Nat} {g : Stage}

theorem State.RunsTo.readWords (h : s.RunsTo b g t) (hg : g.memory = s.memory) {a n : Nat}
    (ha : a % (s.bank b).bytes = 0) (hm : g.mode = .readArray)
    (hin : ∀ k < n, (s.bank b).inArray (a + k * (s.bank b).bytes) (s.bank b).bytes = true) :
    (readWords b a n t).Ran s b fun ws g' => ws = s.arrayWords b a n ∧
      g' = { g with events := g.events ++ s.arrayReads b a n } := by
  simp only [← h.built.inArray, ← h.built.bytes] at hin
  obtain ⟨p, hrun⟩ := readWords_array n h.noReset (by rwa [h.built.bytes]) (h.mode.trans hm) hin
  obtain ⟨f, -⟩ := (readWords_leads n).of_eq hrun
  have hwords : t.arrayWords b a n = s.arrayWords b a n := by
    simp only [State.arrayWords, h.arrayWord_of_memory hg, h.built.bytes]
  have hreads : t.arrayReads b a n = s.arrayReads b a n := by
    simp only [State.arrayReads, h.arrayWord_of_memory hg, h.built.bytes]
  exact ⟨_, _, hrun, _, ⟨hwords, rfl⟩, h.written f (by rw [hreads]; rfl) h.seq h.mode rfl⟩

theorem State.RunsTo.bufferSteps (h : s.RunsTo b g t) (hc : (s.bank b).cmdset = .intelStyle)
    {a base : Nat} {ds : List Word} (hbase : (s.bank b).Accepts s.params base)
    (ha : ∀ k < ds.length, (s.bank b).Accepts s.params (a + k * (s.bank b).bytes)) :
    (bufferSteps b a ds base t).Ran s b (s.Buffers b base a ds g) := by
  have hcost := doneCost_of_intel hc
  unfold Machine.bufferSteps
  rw [h.built.bufferWriteTimeout]
  refine (h.irqSave.issue (a := base) (c := .writeToBuffer) (cs := []) (by simpa using hbase)
    fun _ => modeAfter_of_not_reset _ _ nofun nofun).bind fun _ g1 u hg1 hu => ?_
  subst hg1
  refine (hu.pollReady rfl hbase _ hc).bind fun ready g2 v hg2 hv => ?_
  obtain ⟨t1, p1, r, hrun1, rfl, hdone1, rfl⟩ := hg2
  cases r with
  | none =>
    exact hv.irqRestore.ok ⟨fun hd => absurd (hdone1 (hd.mono (Nat.le_succ _))) nofun, t1, p1, none,
      hrun1, .inl ⟨rfl, rfl, rfl⟩⟩
  | some verdict =>
    refine (hv.writeCount hbase _).bind fun _ g3 u hg3 hu => ?_
    subst hg3
    refine (hu.writeDataFrom ds rfl ha).bind fun _ g4 v hg4 hv => ?_
    subst hg4
    refine (hv.writeCommand hbase (c := .bufferConfirm)
      fun _ => modeAfter_of_not_reset _ _ nofun nofun).bind fun _ g5 w hg5 hw => ?_
    subst hg5
    refine (hw.irqRestore.poll rfl hbase _ _).mono fun k g6 hg6 => ?_
    obtain ⟨t2, p2, o, hrun2, hkind, hdone2, rfl⟩ := hg6
    refine ⟨fun hd => hdone2 ?_, t1, p1, _, hrun1, .inr ⟨⟨verdict, rfl⟩, t2, p2, o, hrun2, hkind,
      rfl⟩⟩
    rw [hcost]
    exact hd

theorem Bank.SameBuilt.bufferFits {x y : Bank} (h : x.SameBuilt y) (a n i : Nat) :
    bufferFits y a n i = bufferFits x a n i := by
  simp only [Machine.bufferFits, h.bytes, h.bufferSize, h.sectorEnd, h.baseAddress]

/-- The operands are the same at a stage in read-array mode. -/
theorem State.RunsTo.wordsAt {a n i : Nat} (h : s.RunsTo b g t) (hm : g.mode = .readArray)
    (hw : s.WordsAt b a n i) : t.WordsAt b a n i where
  aligned := by rw [h.built.bytes, hw.aligned]
  mode := h.mode.trans hm
  intel := h.built.cmdset.trans hw.intel
  buffer := by rw [h.built.bufferSize]; exact hw.buffer
  sector := by rw [h.built.sectorOf, hw.sector]
  fits := by rw [h.built.bufferFits, hw.fits]
  inArray k hk := by rw [h.built.inArray, h.built.bytes]; exact hw.inArray k hk

/-- The stage after the reads of a buffered program of `n` words. -/
def State.readsStage (s : State) (b a n : Nat) : Stage :=
  { s.stage b with events := s.arrayReads b a n }

/-- Words the array can take: the reads, the sequence, and its effect. -/
theorem State.RunsTo.programBufferIntel (h : s.RunsTo b (s.stage b) t)
    (hmem : Memory.wf s.memory = true) {a i : Nat} {ds : List Word}
    (hw : s.WordsAt b a ds.length i)
    (hbase : (s.bank b).Accepts s.params ((s.bank b).sectorStart i))
    (hport : ∀ d ∈ ds, toPort (s.bank b).portWidth d = d)
    (hold : ∀ j < ds.length, s.arrayWord b (a + j * (s.bank b).bytes) &&& ds.getD j 0 =
      ds.getD j 0) :
    (programBufferIntel b a ds t).Ran s b fun k g' => ∃ g₀ m,
      s.Buffers b ((s.bank b).sectorStart i) a ds (s.readsStage b a ds.length) k g₀ ∧
      g' = { g₀ with memory := m } ∧
      State.SameOutside a (ds.length * (s.bank b).bytes) s (s.setMemory m) ∧
      (k = .ok → ∀ j < ds.length, (s.setMemory m).arrayWord b (a + j * (s.bank b).bytes) =
        ds.getD j 0) := by
  have ha (k : Nat) (hk : k < ds.length) :
      (s.bank b).Accepts s.params (a + k * (s.bank b).bytes) :=
    Bank.accepts_inArray (by rw [Nat.add_mul_mod_self_right, hw.aligned]) (hw.inArray k hk)
  have hnone : firstNotErased (s.bank b).bytes a (s.arrayWords b a ds.length) ds = none :=
    firstNotErased_none fun k hk => by rw [getD_arrayWords s b a hk, hold k hk]
  rw [programBufferIntel_eq (h.wordsAt hw.mode hw)]
  refine h.withRange fun t ht => ?_
  refine (ht.readWords rfl hw.aligned hw.mode hw.inArray).bind fun olds g u hg hu => ?_
  obtain ⟨rfl, rfl⟩ := hg
  rw [bufferAfterReads_of_none (by rw [hu.built.bytes, hnone]), hu.built.sectorStart]
  refine (hu.bufferSteps hw.intel hbase ha).bind fun k g₀ v hk hv => ?_
  have hg₀ : g₀.memory = s.memory := by
    obtain ⟨-, -, -, -, hmemory⟩ := hk.settles
    exact hmemory
  obtain ⟨m, hv', hout, hin⟩ := hv.programEffect hg₀ hmem hport hold k
  exact hv'.ok ⟨g₀, m, hk, rfl, hout, hin⟩

end

/-- Settles O33: the row is the reads and the sequence (`State.RunsTo.bufferSteps`), and then the
effect on the array. -/
theorem programBufferOutcome : Obligations.ProgramBufferOutcome := by
  intro s b a i ds hs hm hc hbuf ha hi hfit w base budget old new reset opened hold
  have hnew (k : Nat) : (ds.map (toPort (s.bank b).portWidth)).getD k 0 = new k :=
    getD_map_toPort ..
  have hport : ∀ d ∈ ds.map (toPort (s.bank b).portWidth), toPort (s.bank b).portWidth d = d := by
    simpa using fun d _ => toPort_toPort _ d
  have hwords := (hs.wordsAt hm hc hbuf ha hi hfit).enter (.programBufferIntel b a ds)
  rw [← ds.length_map (toPort (s.bank b).portWidth)] at hwords
  have hrun := (hs.ready.runsTo (.programBufferIntel b a ds)).programBufferIntel hs.inv.memory
    hwords (hs.wf.accepts_sectorStart (Bank.sectorOf_some hi).1) hport
    fun j hj => by rw [hnew]; exact hold j (by simpa using hj)
  obtain ⟨k, g, u, ⟨g₀, m, hend, rfl, hout, hin⟩, hu, hrow⟩ := exec_sequence hs hc rfl rfl hrun
  obtain ⟨hkinds, hidle, hmode, hie, -⟩ := hend.settles
  obtain ⟨hdone, t1, p1, r, hrun1, hend⟩ := hend
  rw [List.length_map] at hout hin
  have hdata : dataEvents (s.bank b).portWidth a (ds.map (toPort (s.bank b).portWidth)) =
      writeEvents ((List.range ds.length).map fun k => (a + k * w, new k)) := by
    rw [dataEvents_eq _ _ _ hport, List.length_map]
    simp only [hnew]
    rfl
  have hseq := hu.seq
  have htrace := hu.events
  have hprev (es : List BusEvent) (n : Word) :
      pollPrevAfter n es = pollPrevOf (s.bank b).cmdset n es :=
    (pollPrevOf_of_not_amd (by simp [hc]) n es).symm
  refine ⟨_, k, t1, p1, r, hrow, rfl, hkinds, hdone, hrun1, ?ends, hu.settled rfl hidle hmode hie _,
    hu.regs, hu.sameOutside hout,
    fun hk j hj => (hu.arrayWord _).trans ((hin hk j hj).trans (hnew j))⟩
  obtain ⟨rfl, hk, rfl⟩ | ⟨⟨v, rfl⟩, t2, p2, o, hrun2, hk, rfl⟩ := hend
  · refine ⟨hk, ?_, ?_⟩
    · refine htrace.trans ?_
      simp only [Stage.restored_events, Stage.polled_events, Stage.bufferOpened_events, opened,
        List.append_assoc]
      rw [List.length_map]
      rfl
    · rw [hprev]
      exact hseq
  · refine ⟨t2, p2, o, hrun2, hk, ?_, ?_⟩
    · refine htrace.trans ?_
      simp only [Stage.polled_events, Stage.sawReady_events, Stage.bufferOpened_events, opened,
        Stage.bufferFilled_events _ (s.enter (.programBufferIntel b a ds)) _ _ hdata,
        List.append_assoc]
      rw [List.length_map]
      rfl
    · rw [hprev _ (pollPrevAfter _ _)]
      exact hseq

end Sys2Proof.Machine
end

section
/-! PROOFS. Protect (42_sequencer.md R102, R103; O34, O35). -/

namespace Sys2Proof.Machine

/-! ### The flag (10_state.md R20) -/

theorem Bank.setProtected_sectorProtected {bk : Bank} {i : Nat} (hi : i < bk.sectorCount) (v : Bool)
    (j : Nat) :
    (bk.setProtected i v).sectorProtected j = if j = i then v else bk.sectorProtected j := by
  split
  · next h => rw [h, Bank.setProtected_sectorProtected_self hi]
  · next h => exact Bank.setProtected_sectorProtected_other bk h v

section
variable {s t : State} {b : Nat}

theorem State.Frame.setProtected (h : State.Frame b s t) (i : Nat) (v : Bool) :
    State.Frame b s (t.setBank b ((t.bank b).setProtected i v)) :=
  { h with
    count := (List.length_set ..).trans h.count
    others := fun c hc => (State.setBank_bank_other t _ hc).trans (h.others c hc) }

theorem State.Settled.setProtected (h : State.Settled b s t) (hb : b < t.banks.length) (i : Nat)
    (v : Bool) :
    State.Settled b s (t.setBank b ((t.bank b).setProtected i v)) where
  frame := h.frame.setProtected i v
  sequencer := h.sequencer
  device := by rw [State.setBank_bank_self t _ hb, Bank.setProtected_device, h.device]

end

/-! ### AMD-style (R103) -/

/-- Settles O35: the row writes the flag and accesses nothing. -/
theorem protectAmdSetsFlagOnly : Obligations.ProtectAmdSetsFlagOnly := by
  intro s b i lock hs hc hi
  have hbank := State.setBank_bank_self s ((s.bank b).setProtected i lock) hs.ready.bank
  have hframe : State.Frame b s (s.leave (some (.status .ok))) :=
    ⟨rfl, rfl, rfl, rfl, rfl, fun _ _ => rfl, rfl, hs.ready.noReset, Nat.le_refl _⟩
  refine ⟨_, exec_sequence_of_ok (p := _) (x := s.result) hs hc rfl
    (onSector_of_lt (s := s.enter _) hi) (t := s.setBank b ((s.bank b).setProtected i lock))
    rfl, rfl, rfl, rfl, rfl, rfl, hframe.setProtected i lock, ?_, ?_, fun j _ => ?_⟩
  · exact (congrArg Bank.device hbank).trans (Bank.setProtected_device ..)
  · rw [State.leave_bank, hbank]
    exact (s.bank b).setProtected_sameBuilt i lock
  · exact (congrArg (Bank.sectorProtected · j) hbank).trans
      (Bank.setProtected_sectorProtected hi lock j)

/-! ### The lock bits (10_state.md R28; log 10) -/

section
variable {s t : State} {b i : Nat} {g : Stage}

/-- The lock register opened holds one bit a sector. -/
theorem State.RunsTo.openLocks (h : s.RunsTo b g t) : ∃ l,
    s.RunsTo b { g with locks := l } (t.openLocks b) ∧ l.length = (s.bank b).sectorCount := by
  unfold State.openLocks
  split
  · next hlen =>
    refine ⟨g.locks, h, ?_⟩
    rw [← h.locks, hlen, h.built.sectorCount]
  · exact ⟨_, (h.setLocks _).drawn, by simp [freeLocks, h.built.sectorCount]⟩

theorem State.RunsTo.protectLocks (h : s.RunsTo b g t) (hi : i < (s.bank b).sectorCount)
    (lock : Bool) (k : Kind) : ∃ l,
    s.RunsTo b { g with locks := l } (protectLocks b i lock k t) ∧
      (k = .ok → l[i]? = some lock) := by
  unfold Machine.protectLocks
  split
  · next hlock =>
    obtain ⟨l, hu, hlen⟩ := h.openLocks
    rw [hlock]
    simp only
    split
    · exact ⟨_, hu.setLocks _, fun _ => by simp [hu.locks, hlen, hi]⟩
    · next hk => exact ⟨_, (hu.setLocks _).drawn, fun h => absurd h hk⟩
  · next hlock =>
    split
    · exact ⟨_, h.setLocks _, fun _ => by simp [h.built.sectorCount, hi, hlock]⟩
    · next hk => exact ⟨_, (h.setLocks _).drawn, fun h => absurd h hk⟩

end

/-! ### Intel-style (R102) -/

/-- The command writes of Protect (30_encoding.md R53). -/
def lockWrites (a : Nat) (lock : Bool) : List (Nat × Command) :=
  [(a, .clearStatus), (a, .lockSetup), (a, if lock then .lockSet else .lockClear)]

/-- The stage after the three writes of Protect, its poll, and what these make of the lock bits. -/
def State.protectStage (s : State) (b a : Nat) (lock : Bool) (t0 : Nat) (es : List BusEvent)
    (locks : List Bool) : Stage :=
  { ((s.stage b).issued (writeEvents (s.commandWrites b (lockWrites a lock)))).polled s b a
      (s.bank b).eraseTimeout t0 es with locks := locks }

/-- The three writes and the poll; the flag is written on their end. -/
theorem State.RunsTo.protectIntel {s t : State} {b i : Nat} (h : s.RunsTo b (s.stage b) t)
    (hw : Bank.Wf s.params (s.bank b)) (hc : (s.bank b).cmdset = .intelStyle)
    (hi : i < (s.bank b).sectorCount) (lock : Bool) :
    let a := (s.bank b).sectorStart i
    ∃ k u t0 es o l, protectIntel b i lock t = .ok k (protectFlag b i lock k u) ∧
      s.RunsTo b (s.protectStage b a lock t0 es l) u ∧
      pollTraceOutcome s.params (s.bank b) a t0 (s.bank b).eraseTimeout es = some o ∧
      k = kindOfOutcome .protectTimeout o ∧ (s.DoneNext b 1 → k = .ok) ∧
      (k = .ok → l[i]? = some lock) := by
  intro a
  have ha := hw.accepts_sectorStart hi
  obtain ⟨_, v, hissue, _, rfl, hv⟩ := h.issue (a := a) (c := .clearStatus)
    (cs := [(a, .lockSetup), (a, if lock then .lockSet else .lockClear)]) (by simpa using ha)
    fun d => by rw [hc]; cases lock <;> rfl
  obtain ⟨k, w, hpoll, _, ⟨t0, es, o, hrun, hkind, hdone, rfl⟩, hw⟩ :=
    hv.poll rfl ha (s.bank b).eraseTimeout .protectTimeout
  obtain ⟨l, hu, hl⟩ := hw.protectLocks hi lock k
  refine ⟨k, _, t0, es, o, l, ?_, hu, hrun, hkind, fun hd => hdone ?_, hl⟩
  · simp only [Machine.protectIntel, h.built.sectorStart, h.built.eraseTimeout]
    rw [hissue, Res.bind_ok, hpoll, Res.bind_ok]
  · simpa [doneCost_of_intel hc] using hd

/-- Settles O34: the row is the three writes and the poll (`State.RunsTo.protectIntel`), and then
the flag. -/
theorem protectIntelOutcome : Obligations.ProtectIntelOutcome := by
  intro s b i lock hs hc hi a budget
  obtain ⟨k, u, t0, es, o, l, hbody, hu, hrun, hkind, hdone, hl⟩ :=
    (hs.ready.runsTo (.protectIntel b i lock)).protectIntel hs.wf hc hi lock
  obtain ⟨hwrites, hat⟩ := pollTraceOutcome_reads hrun
  have hrow := exec_sequence_of_ok (t := protectFlag b i lock k u)
    (body := onSector b i fun s => asStatus (protectIntel b i lock s))
    (p := (protectFlag b i lock k u).position) (x := (protectFlag b i lock k u).result) hs hc rfl
    (onSector_of_lt (s := s.enter _) hi) hbody
  have hsettled := hu.settled rfl rfl rfl rfl (some (.status k))
  have htrace : u.log.trace = s.log.trace ++ writeEvents (s.commandWrites b (lockWrites a lock)) ++
      .timer t0 :: es ++ writeEvents (s.resetWrites b a) := by
    rw [List.append_assoc, List.append_assoc]
    exact hu.events
  have hseq : u.seq = polledSeq a budget t0 (pollPrevAfter s.seq.pollPrev es) s.seq.savedIrq := by
    rw [← pollPrevOf_of_not_amd (cs := (s.bank b).cmdset) (by simp [hc])]
    exact hu.seq
  have hlocks : k = .ok → (u.bank b).device.lockBits[i]? = some lock := fun hk => hu.locks ▸ hl hk
  refine ⟨_, k, t0, es, o, hrow, rfl, hkind ▸ kindOfOutcome_cases .., hdone, ?_⟩
  by_cases hk : k = .ok
  · have hbank := State.setBank_bank_self u ((u.bank b).setProtected i lock) hu.hasBank
    rw [protectFlag, if_pos hk]
    refine ⟨htrace, hrun, hkind, hwrites, hat, hseq, hsettled.setProtected hu.hasBank i lock, ?_,
      hu.array, fun _ => ?_, fun j _ => ?_⟩
    · rw [State.leave_bank, hbank]
      exact hu.built.trans ((u.bank b).setProtected_sameBuilt i lock)
    · rw [State.leave_bank, hbank, Bank.setProtected_device]
      exact hlocks hk
    · rw [State.leave_bank, hbank, Bank.setProtected_sectorProtected
        (hu.built.sectorCount.symm ▸ hi), hu.regs.sectorProtected]
      simp [hk]
  · rw [protectFlag, if_neg hk]
    refine ⟨htrace, hrun, hkind, hwrites, hat, hseq, hsettled, hu.built, hu.array, hlocks,
      fun j _ => ?_⟩
    rw [if_neg (by simp [hk])]
    exact hu.regs.sectorProtected j

end Sys2Proof.Machine
end

section
/-! PROOFS. The sequences of resets and of read-ID entry (42_sequencer.md R87, 40_identification.md
R70, R71; O24). -/

namespace Sys2Proof.Machine

/-! ### Command words, exactly -/

section
variable {s : State} {b : Nat}

theorem State.setDevice_self (hb : b < s.banks.length) : s.setDevice b (s.bank b).device = s := by
  have hbank : s.bank b = s.banks[b] := by simp [State.bank, hb]
  rw [State.setDevice, State.setBank, hbank, List.set_getElem_self]

theorem State.setDevice_setDevice (hb : b < s.banks.length) (d d' : Device) :
    (s.setDevice b d).setDevice b d' = s.setDevice b d' := by
  simp only [State.setDevice, State.setBank_bank_self s _ hb]
  simp [State.setBank, List.set_set]

/-- Command words at addresses the bank accepts: the devices moved, the writes on the bus. -/
theorem writeCommands_eq : ∀ (cs : List (Nat × Command)) {s : State}, s.env.resetIn = none →
    b < s.banks.length → (∀ ac ∈ cs, (s.bank b).Accepts s.params ac.1) →
    ∃ p, writeCommands b cs s = .ok ()
      (((s.setDevice b (devicesAfter (s.bank b).cmdset (s.bank b).device cs)).saw
        (writeEvents (s.commandWrites b cs))).placed p s.result)
  | [], s, _, hb, _ => ⟨s.position, by
      rw [writeCommands, devicesAfter, List.foldl_nil, State.setDevice_self hb]
      simp [State.commandWrites, writeEvents, State.saw, State.placed]⟩
  | (a, c) :: cs, s, hr, hb, ha => by
    obtain ⟨hfirst, hrest⟩ := List.forall_mem_cons.mp ha
    let u := (s.advance.setDevice b (deviceAfter (s.bank b).cmdset (s.bank b).device (some c))).note
      (.write a (s.commandWord b c))
    have hbank : u.bank b = { s.bank b with
        device := deviceAfter (s.bank b).cmdset (s.bank b).device (some c) } :=
      State.setDevice_bank_self s.advance _ hb
    obtain ⟨p, hrun⟩ := writeCommands_eq cs (s := u) hr ((List.length_set ..).symm ▸ hb)
      (by rw [hbank]; exact hrest)
    refine ⟨p, ?_⟩
    rw [writeCommands, writeCommand, busWrite_eq _ _ hr hfirst, Res.bind_ok]
    refine hrun.trans (congrArg (Res.ok ()) ?_)
    have hdevice (d : Device) : u.setDevice b d = (s.advance.setDevice b d).note _ :=
      congrArg (State.note · _) (State.setDevice_setDevice (s := s.advance) hb _ d)
    have hwrites : u.commandWrites b cs = s.commandWrites b cs := by
      simp only [State.commandWrites, State.commandWord, Bank.rep, hbank]
      rfl
    rw [hdevice, hwrites, hbank]
    simp only [State.saw, State.note, List.append_assoc]
    rfl

/-- As `writeCommands_eq`, where the writes leave the devices in mode `m`. -/
theorem writeCommands_ran {cs : List (Nat × Command)} {m : DeviceMode} {l : Bool}
    (hr : s.env.resetIn = none) (hb : b < s.banks.length)
    (ha : ∀ ac ∈ cs, (s.bank b).Accepts s.params ac.1)
    (hd : devicesAfter (s.bank b).cmdset (s.bank b).device cs =
      { (s.bank b).device with mode := m, afterResetAmd := l }) :
    ∃ p, writeCommands b cs s =
      .ok () ((s.ran b m l (writeEvents (s.commandWrites b cs))).placed p s.result) := by
  rw [State.ran, ← hd]
  exact writeCommands_eq cs hr hb ha

end

/-! ### The sequences -/

theorem devicesAfter_resets (cs : CmdSet) (d : Device) (a : Nat) :
    devicesAfter cs d ((resetWords cs).map fun c => (a, c)) =
      { d with mode := .readArray, afterResetAmd := decide (cs = .amdStyle) } := by
  cases cs <;> rfl

/-- Both resets, whatever the command set (log 12). -/
theorem devicesAfter_identReset (cs : CmdSet) (d : Device) (a : Nat) :
    devicesAfter cs d [(a, .resetAmd), (a, .resetIntel)] =
      { d with mode := .readArray, afterResetAmd := false } := by
  cases cs <;> rfl

theorem devicesAfter_readId (cs : CmdSet) (d : Device) (p : Params) (bk : Bank) :
    devicesAfter cs d (amdPrefix p bk .readId) =
      { d with mode := .command, afterResetAmd := false } := by
  cases cs <;> rfl

/-- Settles O24: each row is its list of command words (`writeCommands_eq`). -/
theorem resetAndReadIdSequencesRun : Obligations.ResetAndReadIdSequencesRun := by
  intro s b hs
  refine ⟨fun a ha => ?reset, fun hinv => ⟨?ident, ?readId⟩⟩
  case reset =>
    obtain ⟨p, hrun⟩ := writeCommands_ran (s := s.enter (.bankReset b a)) hs.noReset hs.bank
      (by simpa using fun _ _ => ha) (devicesAfter_resets _ _ a)
    exact exec_of_body hs rfl (congrArg (fun r => asNothing (r.bind fun _ s =>
      .ok () (s.setSm .idle))) hrun)
  case ident =>
    obtain ⟨p, hrun⟩ := writeCommands_ran (s := s.enter (.identReset b)) hs.noReset hs.bank
      (by simpa using Bank.accepts_base (hinv.bank hs.bank).baseAligned)
      (devicesAfter_identReset _ _ (s.bank b).baseAddress)
    exact exec_of_body hs rfl (congrArg asNothing hrun)
  case readId =>
    obtain ⟨p, hrun⟩ := writeCommands_ran (s := s.enter (.readIdEnter b)) hs.noReset hs.bank
      ((hinv.bank hs.bank).accepts_amdPrefix .readId) (devicesAfter_readId ..)
    exact exec_of_body hs rfl (congrArg asNothing hrun)

end Sys2Proof.Machine
end

section
/-! PROOFS. Host operations that return at once (43_facade.md R106, R107, R109, R111 to R113; O45 to
O48): the body of the call answers in the state it started in. -/

namespace Sys2Proof.Machine

section
variable {s : State} {b : Nat}

/-- A call whose body answers without a step: only the result is new. -/
theorem exec_at_once {j : Instr} {body : State → Res (Option Result)} (hs : s.Ready b)
    (he : exec j s = call j (onBank b body) s) {r : Option Result}
    (h : body (s.enter j) = .ok r (s.enter j)) : exec j s = .next (s.leave r) :=
  exec_of_body (t := s) (x := s.result) hs he h

/-! ### What the bodies answer, branch by branch -/

section
variable (hu : (s.bank b).vendorId = .unknown)
include hu

theorem flashErase_of_unknown (x y : Nat) :
    flashErase b x y s = .ok (some (.erase .unknownDevice 0 0)) s := if_pos hu

theorem writeBuff_of_unknown (src : List Byte) (x : Nat) :
    writeBuff b src x src.length s = .ok (some (.status .unknownDevice)) s := by
  rw [writeBuff, if_neg (by simp), if_pos hu]

theorem flashProtect_of_unknown (f : ProtectFlag) (x y : Nat) :
    flashProtect f x y b s = .ok (some (.status .unknownDevice)) s := if_pos hu

end

section
variable (hk : (s.bank b).vendorId ≠ .unknown)
include hk

theorem flashErase_of_badRange {x y : Nat} (h : ¬ (x ≤ y ∧ y < (s.bank b).sectorCount)) :
    flashErase b x y s = .ok (some (.erase .invalidSectorRange 0 0)) s := by
  rw [flashErase, if_neg hk, if_pos h]

theorem flashErase_of_range {x y : Nat} (hxy : x ≤ y) (hy : y < (s.bank b).sectorCount) :
    flashErase b x y s = (eraseSectors b x (y + 1 - x) 0 0 s).bind fun r s =>
      .ok (some (.erase r.1 r.2.1 r.2.2)) s := by
  rw [flashErase, if_neg hk, if_neg (not_not.mpr ⟨hxy, hy⟩)]

theorem writeBuff_of_nil (x : Nat) : writeBuff b [] x 0 s = .ok (some (.status .ok)) s := by
  rw [writeBuff, if_neg (by simp), if_neg hk, if_pos rfl]

theorem writeBuff_of_outside {src : List Byte} {x : Nat} (hsrc : src ≠ [])
    (h : x < (s.bank b).baseAddress ∨
      (s.bank b).baseAddress + (s.bank b).size < x + src.length) :
    writeBuff b src x src.length s = .ok (some (.status .invalidSectorRange)) s := by
  rw [writeBuff, if_neg (by simp), if_neg hk, if_neg (by simpa using hsrc), if_pos h]

theorem writeBuff_of_inside {src : List Byte} {x : Nat} (hsrc : src ≠ [])
    (hlo : (s.bank b).baseAddress ≤ x)
    (hhi : x + src.length ≤ (s.bank b).baseAddress + (s.bank b).size) :
    writeBuff b src x src.length s = asStatus (writeSteps b src x s) := by
  rw [writeBuff, if_neg (by simp), if_neg hk, if_neg (by simpa using hsrc), if_neg (by omega)]

theorem flashProtect_of_badRange (f : ProtectFlag) {x y : Nat} (h : y < x) :
    flashProtect f x y b s = .ok (some (.status .invalidSectorRange)) s := by
  rw [flashProtect, if_neg hk, if_pos h]

theorem flashProtect_of_range (f : ProtectFlag) {x y : Nat} (h : x ≤ y) :
    flashProtect f x y b s =
      asStatus (protectSectors b x y (decide (f = .set)) 0 (s.bank b).sectorCount s) := by
  rw [flashProtect, if_neg hk, if_neg (by omega)]

end

/-- Sectors that are all protected are skipped without an access (R107). -/
theorem eraseSectors_of_protected : ∀ (n i erased skipped : Nat),
    (∀ j, i ≤ j → j < i + n → (s.bank b).sectorProtected j = true) →
    eraseSectors b i n erased skipped s = .ok (.ok, erased, skipped + n) s
  | 0, _, _, _, _ => rfl
  | n + 1, i, erased, skipped, h => by
    rw [eraseSectors, if_pos (h i (Nat.le_refl i) (by omega)),
      eraseSectors_of_protected n (i + 1) erased (skipped + 1) fun j h1 h2 =>
        h j (by omega) (by omega), Nat.add_right_comm, Nat.add_assoc]

end

/-! ### The obligations -/

/-- Settles O45: the row reads the register; a bank at launch has no sectors. -/
theorem flashGetSizeReturnsSize : Obligations.FlashGetSizeReturnsSize := by
  refine ⟨fun s b hs => ⟨exec_at_once hs rfl rfl, fun he hu => ?unknown⟩, fun p b => ?launch⟩
  case unknown =>
    obtain ⟨-, hsize, -⟩ := he hu
    exact hsize
  case launch =>
    simp only [State.bank, State.atReset, List.getElem?_map]
    cases p.bankBase[b]? <;> rfl

/-- Settles O46: the record is read off the registers. -/
theorem flashPrintInfoReportsRecord : Obligations.FlashPrintInfoReportsRecord :=
  fun _ _ hs => exec_at_once hs rfl rfl

/-- Settles O47: the vendor is tested before anything else. -/
theorem unknownDeviceTouchesNoHardware : Obligations.UnknownDeviceTouchesNoHardware := by
  intro s b x y src f hs hu hempty
  obtain ⟨-, hsize, -⟩ := hempty hu
  exact ⟨exec_at_once hs rfl (flashErase_of_unknown (s := s.enter _) hu x y),
    exec_at_once hs rfl (writeBuff_of_unknown (s := s.enter _) hu src x),
    exec_at_once hs rfl (flashProtect_of_unknown (s := s.enter _) hu f x y),
    hsize ▸ exec_at_once hs rfl rfl⟩

/-- Settles O48: each range is tested before the first access, and protected sectors are skipped
(`eraseSectors_of_protected`). -/
theorem rangesThatTouchNoHardware : Obligations.RangesThatTouchNoHardware := by
  intro s b x y src f hs hk
  refine ⟨fun h => exec_at_once hs rfl (flashErase_of_badRange (s := s.enter _) hk h),
    fun hxy hy hall => ?skipped,
    fun hsrc h => exec_at_once hs rfl (writeBuff_of_outside (s := s.enter _) hk hsrc h),
    exec_at_once hs rfl (writeBuff_of_nil (s := s.enter _) hk x),
    fun h => exec_at_once hs rfl (flashProtect_of_badRange (s := s.enter _) hk f h)⟩
  refine exec_at_once hs rfl ((flashErase_of_range (s := s.enter _) hk hxy hy).trans ?_)
  rw [eraseSectors_of_protected (s := s.enter _) _ _ 0 0 fun j h1 h2 => hall j h1 (by omega),
    Nat.zero_add]
  rfl

end Sys2Proof.Machine
end

section
/-! PROOFS. Sequences strung together inside a host operation: where the operation stands between
two of them (`State.Between`), how far a run of them has come (`State.Passed`), and the same run as
rows (`State.RowsTo`), one after another, each a call of its own. -/

namespace Sys2Proof.Machine

/-! ### Between two sequences -/

/-- An operation on the known bank `b` stands between two sequences: no reset is due, the sequencer
is idle, the devices in read-array mode (42_sequencer.md R87, R88). -/
structure State.Between (s : State) (b : Nat) : Prop where
  noReset : s.env.resetIn = none
  hasBank : b < s.banks.length
  params : paramsWf s.params = true
  wf : Bank.Wf s.params (s.bank b)
  known : (s.bank b).vendorId ≠ .unknown
  memory : Memory.wf s.memory = true
  mode : (s.bank b).device.mode = .readArray
  idle : s.seq.smState = .idle

/-- From `s`, pieces of an operation on bank `b` that show as `es` and take at most `n` answers have
come to `t`, between two sequences again; of the bank's registers only flags may differ. -/
structure State.Passed (s : State) (b : Nat) (es : List BusEvent) (n : Nat) (t : State) : Prop
    extends BuiltFrame b s t where
  mode : (t.bank b).device.mode = .readArray
  idle : t.seq.smState = .idle
  ie : t.env.ie = s.env.ie
  events : t.log.trace = s.log.trace ++ es
  answers : ∀ k, s.DoneNext b (n + k) → t.DoneNext b k

section
variable {s t u : State} {b n m : Nat} {es fs : List BusEvent}

theorem State.Known.between (hs : s.Known b) (hm : (s.bank b).device.mode = .readArray)
    (hidle : s.seq.smState = .idle) (j : Instr) : (s.enter j).Between b :=
  ⟨hs.ready.noReset, hs.ready.bank, hs.ready.params, hs.wf, hs.known, hs.inv.memory, hm, hidle⟩

theorem State.Between.placed (h : s.Between b) (p : Option Position) (r : Option Result) :
    (s.placed p r).Between b := { h with }

theorem State.Between.saw (h : s.Between b) (es : List BusEvent) : (s.saw es).Between b :=
  { h with }

/-- A call can start where the last one has returned. -/
theorem State.Between.ready (h : s.Between b) (r : Option Result) : (s.placed none r).Ready b :=
  ⟨rfl, h.noReset, h.params, h.hasBank⟩

/-- A sequence can begin here. -/
theorem State.Between.runsTo (h : s.Between b) : s.RunsTo b (s.stage b) s where
  toRegsFrame := (RegsFrame.opClosed b).refl _
  noReset := h.noReset
  hasBank := h.hasBank
  events := (List.append_nil _).symm
  seq := rfl
  ie := rfl
  array := rfl
  mode := rfl
  locks := rfl
  answers n h := by rwa [State.stage, Nat.zero_add] at h

theorem State.Passed.refl (h : s.Between b) : s.Passed b [] 0 s where
  toBuiltFrame := (BuiltFrame.flagClosed b).refl s
  mode := h.mode
  idle := h.idle
  ie := rfl
  events := (List.append_nil _).symm
  answers k hk := Nat.zero_add k ▸ hk

theorem State.Passed.trans (h : s.Passed b es n t) (k : t.Passed b fs m u) :
    s.Passed b (es ++ fs) (n + m) u where
  toBuiltFrame := (BuiltFrame.flagClosed b).trans h.toBuiltFrame k.toBuiltFrame
  mode := k.mode
  idle := k.idle
  ie := k.ie.trans h.ie
  events := by rw [k.events, h.events, List.append_assoc]
  answers j hj := k.answers j (h.answers _ (by rwa [Nat.add_assoc] at hj))

theorem State.Passed.mono (h : s.Passed b es n t) (hnm : n ≤ m) : s.Passed b es m t :=
  { h with answers := fun k hk => h.answers k (hk.mono (by omega)) }

theorem State.Passed.between (h : s.Passed b es n t) (hs : s.Between b) : t.Between b where
  noReset := h.resets hs.noReset
  hasBank := h.toOpFrame.lt hs.hasBank
  params := h.params ▸ hs.params
  wf := h.params ▸ h.built.wf hs.wf
  known := h.built.vendorId ▸ hs.known
  memory := h.toOpFrame.memory hs.memory
  mode := h.mode
  idle := h.idle

/-- A sequence that has come to a stage with the sequencer idle, the devices in read-array mode and
the interrupt enable as before has passed. -/
theorem State.RunsTo.passed {g : Stage} (h : s.RunsTo b g t) (hidle : g.seq.smState = .idle)
    (hmode : g.mode = .readArray) (hie : g.ie = s.env.ie) : s.Passed b g.events g.answers t where
  toBuiltFrame := h.toRegsFrame.builtFrame
  mode := h.mode.trans hmode
  idle := (congrArg Sequencer.smState h.seq).trans hidle
  ie := h.ie.trans hie
  events := h.events
  answers := h.answers

/-- What a call that has come this far leaves when it returns. -/
theorem State.Passed.settled {j : Instr} (h : (s.enter j).Passed b es n t)
    (hr : s.env.resetIn = none) (r : Option Result) : State.Settled b s (t.leave r) where
  frame :=
    { params := h.params, initDone := h.initDone, calls := h.calls, position := rfl
      count := h.count, others := h.others, ie := h.ie, noReset := h.resets hr, timer := h.timer }
  sequencer := h.idle
  device := h.mode

end

/-! ### Rows one after another -/

/-- The rows, each called where the one before it returned, return the status `k` in the state `t`,
the position and the result aside (43_facade.md R109, R111). -/
def State.RowsTo (s : State) (rows : List Instr) (k : Kind) (t : State) : Prop :=
  ∀ x, runRows rows (s.placed none x) = .next (t.leave (some (.status k)))

section
variable {s t u : State} {b : Nat} {j : Instr} {rows : List Instr} {k : Kind}

/-- The row of a piece returns the kind the piece runs to inside another operation. -/
theorem exec_of_piece {f : State → Res Kind} {body : State → Res (Option Result)}
    (hs : s.Between b) (hf : Blind f) (he : ∀ s, exec j s = call j (onBank b body) s)
    (hbody : ∀ u : State, u.banks = s.banks → body u = asStatus (f u)) (h : f s = .ok k t)
    (x : Option Result) : exec j (s.placed none x) = .next (t.leave (some (.status k))) := by
  have halike := hf s ((s.placed none x).enter j).position x hs.noReset
  rw [h] at halike
  generalize hrun : f (s.placed ((s.placed none x).enter j).position x) = r at halike
  obtain ⟨_, _, p, y, -⟩ := halike
  exact exec_of_body (hs.ready x) (he _)
    ((hbody ((s.placed none x).enter j) rfl).trans (congrArg asStatus hrun))

theorem State.RowsTo.nil (s : State) : s.RowsTo [] .ok s := fun _ => rfl

/-- A row that returns `Ok`, and the rows after it. -/
theorem State.RowsTo.cons (h : ∀ x, exec j (s.placed none x) = .next (u.leave (some (.status .ok))))
    (hrest : u.RowsTo rows k t) : s.RowsTo (j :: rows) k t := fun x => by
  rw [runRows, h x]
  exact hrest (some (.status .ok))

/-- A row that fails ends them. -/
theorem State.RowsTo.stop (h : ∀ x, exec j (s.placed none x) = .next (t.leave (some (.status k))))
    (hk : k ≠ .ok) : s.RowsTo (j :: rows) k t := fun x => by
  rw [runRows, h x]
  exact if_neg (by simpa using hk)

/-- The rows of a host operation, from the state of its call. -/
theorem State.RowsTo.of_call {i : Instr} (h : (s.enter i).RowsTo rows k t)
    (hs : s.position = none) :
    runRows rows s = .next (t.leave (some (.status k))) := by
  have hself : s = (s.enter i).placed none s.result := by
    rw [← s.placed_self, hs]
    rfl
  rw [hself]
  exact h _

end

end Sys2Proof.Machine
end

section
/-! PROOFS. ProtectSector (43_facade.md R110; O36): one Protect, and after an unlock the re-locks of
the other protected sectors, each a Protect whose flag is already set. -/

namespace Sys2Proof.Machine

/-- Protects of bank `b` from `s` on ended in the kind `k` (42_sequencer.md R102); they show as `es`
and take at most `n` answers. -/
structure State.Protects (s : State) (b : Nat) (k : Kind) (es : List BusEvent) (n : Nat)
    (t : State) :
    Prop extends s.Passed b es n t where
  kinds : k = .ok ∨ k = .protectTimeout ∨ ∃ sub, k = .hardwareError sub
  done : s.DoneNext b n → k = .ok
  array : t.memory = s.memory

section
variable {s t u : State} {b n m : Nat} {es fs : List BusEvent} {k : Kind}

theorem State.Protects.refl (h : s.Between b) : s.Protects b .ok [] 0 s :=
  { State.Passed.refl h with kinds := .inl rfl, done := fun _ => rfl, array := rfl }

theorem State.Protects.trans (h : s.Protects b .ok es n t) (g : t.Protects b k fs m u) :
    s.Protects b k (es ++ fs) (n + m) u :=
  { h.toPassed.trans g.toPassed with
    kinds := g.kinds
    done := fun hd => g.done (h.answers m hd)
    array := g.array.trans h.array }

theorem State.Protects.mono (h : s.Protects b k es n t) (hnm : n ≤ m) : s.Protects b k es m t :=
  { h.toPassed.mono hnm with
    kinds := h.kinds, done := fun hd => h.done (hd.mono hnm), array := h.array }

/-- A flag written between two sequences. -/
theorem State.Passed.setFlag (h : s.Passed b es n t) (hb : b < t.banks.length) (i : Nat)
    (v : Bool) :
    s.Passed b es n (t.setBank b ((t.bank b).setProtected i v)) := by
  have hbank := State.setBank_bank_self t ((t.bank b).setProtected i v) hb
  have hflag := (BuiltFrame.flagClosed b).flag i v hb
  exact
    { (BuiltFrame.flagClosed b).trans h.toBuiltFrame hflag with
      mode := by rw [hbank, Bank.setProtected_device, h.mode]
      idle := h.idle
      ie := h.ie
      events := h.events
      answers := fun j hj => (h.answers j hj).congr rfl rfl hflag.built.cmdset
        hflag.built.portWidth hflag.built.chipWidth }

@[simp] theorem writesOf_writeEvents : ∀ ws : List (Nat × Word), writesOf (writeEvents ws) = ws
  | [] => rfl
  | w :: ws => congrArg (w :: ·) (writesOf_writeEvents ws)

/-- The writes of a Protect are the same between the sequences of one operation. -/
theorem BuiltFrame.protectWrites (h : BuiltFrame b s t) (j : Nat) (lock : Bool) :
    t.protectWrites b j lock = s.protectWrites b j lock := by
  simp only [State.protectWrites, State.resetWrites, State.commandWrites, State.commandWord,
    Bank.rep, h.built.sectorStart, h.built.cmdset, h.built.portWidth, h.built.chipWidth, h.params]

end

/-! ### One Protect -/

section
variable {u : State} {b i : Nat}

/-- The flag as a Protect that ended in `k` leaves it: written on `Done` only. -/
theorem State.Passed.protectFlag {s t : State} {n : Nat} {es : List BusEvent}
    (h : s.Passed b es n t) (hb : b < t.banks.length) (hi : i < (t.bank b).sectorCount)
    (lock : Bool) (k : Kind) :
    s.Passed b es n (protectFlag b i lock k t) ∧ (protectFlag b i lock k t).memory = t.memory ∧
      ∀ j, ((protectFlag b i lock k t).bank b).sectorProtected j =
        if k = .ok ∧ j = i then lock else (t.bank b).sectorProtected j := by
  unfold Machine.protectFlag
  split
  · next hk =>
    refine ⟨h.setFlag hb i lock, rfl, fun j => ?_⟩
    rw [State.setBank_bank_self t _ hb, Bank.setProtected_sectorProtected hi]
    simp [hk]
  · next hk => exact ⟨h, rfl, fun j => by simp [hk]⟩

/-- Protect of an Intel-style bank (R102): its writes, its kind, and the flag on `Done`. -/
theorem protectIntel_protects (hu : u.Between b) (hc : (u.bank b).cmdset = .intelStyle)
    (hi : i < (u.bank b).sectorCount) (lock : Bool) :
    ∃ k es t, protectIntel b i lock u = .ok k t ∧ u.Protects b k es 1 t ∧
      writesOf es = u.protectWrites b i lock ∧
      ∀ j, (t.bank b).sectorProtected j =
        if k = .ok ∧ j = i then lock else (u.bank b).sectorProtected j := by
  obtain ⟨k, v, t0, es, o, l, hrun, hv, hout, hkind, hdone, -⟩ :=
    hu.runsTo.protectIntel hu.wf hc hi lock
  have hpassed := (hv.passed rfl rfl rfl).mono (m := 1)
    (by simp [State.protectStage, doneCost_of_intel hc])
  obtain ⟨hflagged, hmemory, hflags⟩ := hpassed.protectFlag (i := i) hv.hasBank
    (hv.built.sectorCount.symm ▸ hi) lock k
  obtain ⟨hwrites, -⟩ := pollTraceOutcome_reads hout
  refine ⟨k, _, _, hrun, { hflagged with
    kinds := hkind ▸ kindOfOutcome_cases ..
    done := hdone
    array := hmemory.trans hv.array }, ?_, fun j => ?_⟩
  · rw [State.protectStage, Stage.polled_events]
    simp [Stage.issued, Stage.wrote, State.stage, hwrites, State.protectWrites, lockWrites]
  · rw [hflags, hv.regs.sectorProtected]

/-- What a Protect that is `Done` leaves in the lock register (70_reset_and_hazards.md R133): an
unlock clears it, a lock sets the sector's bit in a register on record. -/
theorem protectIntel_lockBits {lock : Bool} {v : State} (hb : b < u.banks.length)
    (h : protectIntel b i lock u = .ok .ok v)
    (hlen : lock = true → (u.bank b).device.lockBits.length = (u.bank b).sectorCount) :
    (v.bank b).device.lockBits =
      if lock then (u.bank b).device.lockBits.set i true
      else List.replicate (u.bank b).sectorCount false := by
  obtain ⟨_, w, hissue, h⟩ := Res.bind_eq_ok h
  obtain ⟨r, x, hpoll, h⟩ := Res.bind_eq_ok h
  obtain ⟨f, -⟩ := (issue_leads _ _ _ hb).of_eq hissue
  obtain ⟨g, -⟩ := (poll_leads _ _ _ (f.lt hb)).of_eq hpoll
  have hx := f.trans g
  obtain ⟨rfl, rfl⟩ : r = .ok ∧ protectFlag b i lock r (protectLocks b i lock r x) = v := by
    simpa using h
  have hflag (y : State) (hy : b < y.banks.length) :
      ((protectFlag b i lock .ok y).bank b).device = (y.bank b).device := by
    rw [protectFlag, if_pos rfl, State.setBank_bank_self y _ hy, Bank.setProtected_device]
  have hlocks (l : List Bool) : ((x.setLocks b l).bank b).device.lockBits = l :=
    congrArg (fun y : Bank => y.device.lockBits) (State.setDevice_bank_self x _ (hx.lt hb))
  have hset (l : List Bool) : b < (x.setLocks b l).banks.length := by simpa using hx.lt hb
  cases lock with
  | false =>
    rw [protectLocks, if_neg (by simp), if_pos rfl, hflag _ (hset _), hlocks]
    simp [Bank.sectorCount, hx.sectors]
  | true =>
    have hopen : x.openLocks b = x :=
      if_pos (by rw [hx.lockBits, hlen rfl, Bank.sectorCount, Bank.sectorCount, hx.sectors])
    rw [protectLocks, if_pos rfl, hopen, if_pos rfl, hflag _ (hset _), hlocks, hx.lockBits]
    rfl

end

/-! ### The re-locks -/

section
variable {b : Nat}

/-- Re-locks of protected sectors (R110): a Protect each up to the first failure, `n` of them; no
flag changes. -/
theorem relock_protects : ∀ (js : List Nat) {u : State}, u.Between b →
    (u.bank b).cmdset = .intelStyle →
    (∀ j ∈ js, j < (u.bank b).sectorCount ∧ (u.bank b).sectorProtected j = true) →
    ∃ k es n t, relock b js u = .ok k t ∧ u.Protects b k es js.length t ∧ n ≤ js.length ∧
      writesOf es = (js.take n).flatMap (fun j => u.protectWrites b j true) ∧
      (∀ j, (t.bank b).sectorProtected j = (u.bank b).sectorProtected j) ∧
      if k = .ok then n = js.length else 0 < n
  | [], u, hu, _, _ => ⟨.ok, [], 0, u, rfl, .refl hu, Nat.le_refl 0, rfl, fun _ => rfl, rfl⟩
  | i :: js, u, hu, hc, hjs => by
    obtain ⟨hi, hset⟩ := hjs i List.mem_cons_self
    obtain ⟨k, es, v, hrun, hv, hwrites, hflag⟩ := protectIntel_protects hu hc hi true
    have hflags (j : Nat) : (v.bank b).sectorProtected j = (u.bank b).sectorProtected j := by
      rw [hflag]
      split
      · next h => rw [h.2, hset]
      · rfl
    simp only [relock, hrun, Res.bind_ok]
    by_cases hk : k = .ok
    · subst hk
      obtain ⟨k, fs, n, t, hrest, ht, hn, hwrites', hflags', hend⟩ := relock_protects js
        (hv.between hu) (hv.built.cmdset.trans hc) fun j hj => by
          rw [hv.built.sectorCount, hflags]
          exact hjs j (List.mem_cons_of_mem i hj)
      refine ⟨k, es ++ fs, n + 1, t, ?_, (hv.trans ht).mono (by simp; omega), by simpa using hn, ?_,
        fun j => (hflags' j).trans (hflags j), by
          revert hend
          split <;> simp⟩
      · simpa using hrest
      · simp only [hv.toBuiltFrame.protectWrites] at hwrites'
        simp [hwrites, hwrites']
    · exact ⟨k, es, 1, v, if_pos hk, hv.mono (by simp), by simp, by simpa using hwrites, hflags,
        by simp [hk]⟩

/-- Re-locks that are all `Done` set the bits of their sectors in a register on record. -/
theorem relock_lockBits : ∀ (js : List Nat) {u t : State}, u.Between b →
    (u.bank b).cmdset = .intelStyle → (∀ j ∈ js, j < (u.bank b).sectorCount) →
    (u.bank b).device.lockBits.length = (u.bank b).sectorCount → relock b js u = .ok .ok t →
    (t.bank b).device.lockBits = js.foldl (fun l j => l.set j true) (u.bank b).device.lockBits
  | [], u, t, _, _, _, _, h => by
    cases h
    rfl
  | i :: js, u, t, hu, hc, hjs, hlen, h => by
    obtain ⟨k, es, v, hrun, hv, -⟩ := protectIntel_protects hu hc (hjs i List.mem_cons_self) true
    simp only [relock, hrun, Res.bind_ok] at h
    by_cases hk : k = .ok
    · subst hk
      have hbits := protectIntel_lockBits hu.hasBank hrun fun _ => hlen
      rw [if_pos rfl] at hbits
      rw [if_neg (by simp)] at h
      rw [relock_lockBits js (hv.between hu) (hv.built.cmdset.trans hc)
        (fun j hj => hv.built.sectorCount ▸ hjs j (List.mem_cons_of_mem i hj))
        (by rw [hbits, List.length_set, hlen, hv.built.sectorCount]) h, hbits, List.foldl_cons]
    · rw [if_pos hk] at h
      cases h
      exact absurd rfl hk

end

theorem getElem?_foldl_set (m : Nat) : ∀ (js : List Nat) (l : List Bool), m < l.length →
    (js.foldl (fun l j => l.set j true) l)[m]? = if m ∈ js then some true else l[m]?
  | [], _, _ => by simp
  | j :: js, l, hm => by
    rw [List.foldl_cons, getElem?_foldl_set m js _ (by simpa using hm), List.getElem?_set]
    by_cases hj : j = m
    · simp [hj, hm]
    · simp [hj, Ne.symm hj]

theorem length_foldl_set : ∀ (js : List Nat) (l : List Bool),
    (js.foldl (fun l j => l.set j true) l).length = l.length
  | [], _ => rfl
  | j :: js, l => (length_foldl_set js (l.set j true)).trans (List.length_set ..)

/-! ### ProtectSector -/

theorem mem_othersProtected {bk : Bank} {i j : Nat} :
    j ∈ othersProtected bk i ↔ j < bk.sectorCount ∧ j ≠ i ∧ bk.sectorProtected j = true := by
  simp [othersProtected]

theorem length_othersProtected_lt {bk : Bank} {i : Nat} (hi : i < bk.sectorCount) :
    (othersProtected bk i).length < bk.sectorCount := by
  have h := List.length_filter_lt_length_iff_exists (l := List.range bk.sectorCount)
    (p := fun j => j != i && bk.sectorProtected j)
  rw [List.length_range] at h
  exact h.mpr ⟨i, by simpa using hi, by simp⟩

theorem Bank.getElem?_flags {bk : Bank} {j : Nat} (hj : j < bk.sectorCount) :
    (bk.sectors.map Sector.isProtected)[j]? = some (bk.sectorProtected j) := by
  have hj' : j < bk.sectors.length := hj
  simp [Bank.sectorProtected, hj']

/-- A cleared lock register in which the other protected sectors' bits have been set again is that
of the flags, sector `i` unprotected (70_reset_and_hazards.md R133). -/
theorem foldl_set_othersProtected {x y : Bank} {i : Nat} (hcount : y.sectorCount = x.sectorCount)
    (hflags : ∀ j, y.sectorProtected j = if j = i then false else x.sectorProtected j) :
    (othersProtected x i).foldl (fun l j => l.set j true) (List.replicate x.sectorCount false) =
      y.sectors.map Sector.isProtected := by
  have hlen : ((othersProtected x i).foldl (fun l j => l.set j true)
      (List.replicate x.sectorCount false)).length = x.sectorCount := by
    rw [length_foldl_set, List.length_replicate]
  refine List.ext_getElem? fun m => ?_
  by_cases hm : m < x.sectorCount
  · rw [getElem?_foldl_set m _ _ (by simpa using hm), Bank.getElem?_flags (hcount ▸ hm), hflags]
    have hclear : (List.replicate x.sectorCount false)[m]? = some false := by simp [hm]
    rw [hclear]
    by_cases hi : m = i
    · simp [mem_othersProtected, hi]
    · cases hp : x.sectorProtected m <;> simp [mem_othersProtected, hm, hi, hp]
  · have hlen' : (y.sectors.map Sector.isProtected).length = x.sectorCount :=
      (List.length_map ..).trans hcount
    rw [List.getElem?_eq_none (by omega), List.getElem?_eq_none (by omega)]

/-- ProtectSector of sector `i` from `s` on ended in the kind `k`, `n` re-locks tried (R110). -/
structure State.ProtectsSector (s : State) (b i : Nat) (lock : Bool) (k : Kind) (es : List BusEvent)
    (n : Nat) (t : State) : Prop extends s.Protects b k es (s.bank b).sectorCount t where
  relocks : n ≤ (othersProtected (s.bank b) i).length
  flags : ∀ j, (t.bank b).sectorProtected j =
    if j = i ∧ (k = .ok ∨ 0 < n) then lock else (s.bank b).sectorProtected j
  amd : (s.bank b).cmdset = .amdStyle → k = .ok ∧ es = [] ∧ n = 0
  intel : (s.bank b).cmdset = .intelStyle → writesOf es = s.protectWrites b i lock ++
    ((othersProtected (s.bank b) i).take n).flatMap (fun j => s.protectWrites b j true)
  noRelock : lock = true → n = 0
  unlock : lock = false → k = .ok → (s.bank b).cmdset = .intelStyle →
    n = (othersProtected (s.bank b) i).length ∧
    (t.bank b).device.lockBits = (t.bank b).sectors.map Sector.isProtected

section
variable {u : State} {b i : Nat} (hu : u.Between b) (hi : i < (u.bank b).sectorCount)
include hu hi

theorem protectSector_amd (hc : (u.bank b).cmdset = .amdStyle) (lock : Bool) :
    ∃ t, protectSector b i lock u = .ok .ok t ∧ u.ProtectsSector b i lock .ok [] 0 t := by
  have hpassed := ((State.Protects.refl hu).toPassed.setFlag hu.hasBank i lock).mono
    (Nat.zero_le (u.bank b).sectorCount)
  refine ⟨u.setBank b ((u.bank b).setProtected i lock), by simp [protectSector, protect, hc,
    protectAmd], { hpassed with
      kinds := .inl rfl, done := fun _ => rfl, array := rfl, relocks := Nat.zero_le _
      flags := fun j => ?_, amd := fun _ => ⟨rfl, rfl, rfl⟩, intel := by simp [hc]
      noRelock := fun _ => rfl, unlock := by simp [hc] }⟩
  rw [State.setBank_bank_self u _ hu.hasBank, Bank.setProtected_sectorProtected hi]
  simp

/-- A lock is one Protect. -/
theorem protectSector_lock (hc : (u.bank b).cmdset = .intelStyle) :
    ∃ k es t, protectSector b i true u = .ok k t ∧ u.ProtectsSector b i true k es 0 t := by
  obtain ⟨k, es, t, hrun, ht, hwrites, hflags⟩ := protectIntel_protects hu hc hi true
  exact ⟨k, es, t, by simpa [protectSector, protect, hc] using hrun, { ht.mono (by omega) with
    relocks := Nat.zero_le _
    flags := fun j => by rw [hflags]; simp [and_comm]
    amd := by simp [hc]
    intel := fun _ => by simpa using hwrites
    noRelock := fun _ => rfl
    unlock := by simp }⟩

/-- An unlock is one Protect, and after `Done` the re-locks. -/
theorem protectSector_unlock (hc : (u.bank b).cmdset = .intelStyle) :
    ∃ k es n t, protectSector b i false u = .ok k t ∧ u.ProtectsSector b i false k es n t := by
  have hothers := length_othersProtected_lt hi
  obtain ⟨k, es, v, hrun, hv, hwrites, hflags⟩ := protectIntel_protects hu hc hi false
  rw [protectSector, if_pos ⟨hc, rfl⟩, hrun, Res.bind_ok]
  by_cases hk : k = .ok
  · subst hk
    have hcv := hv.built.cmdset.trans hc
    have hcount := hv.built.sectorCount
    have hkept {j : Nat} (hj : j ≠ i) :
        (v.bank b).sectorProtected j = (u.bank b).sectorProtected j := by simp [hflags, hj]
    have hmem (j : Nat) (hj : j ∈ othersProtected (u.bank b) i) :
        j < (v.bank b).sectorCount ∧ (v.bank b).sectorProtected j = true := by
      obtain ⟨hlt, hne, hset⟩ := mem_othersProtected.mp hj
      exact ⟨hcount ▸ hlt, (hkept hne).trans hset⟩
    obtain ⟨k, fs, n, t, hrest, ht, hn, hwrites', hflags', hend⟩ :=
      relock_protects _ (hv.between hu) hcv hmem
    have hsector (j : Nat) : (t.bank b).sectorProtected j =
        if j = i then false else (u.bank b).sectorProtected j := by
      rw [hflags', hflags]
      simp
    refine ⟨k, es ++ fs, n, t, by simpa using hrest, { (hv.trans ht).mono (by omega) with
      relocks := hn
      flags := fun j => ?_
      amd := by simp [hc]
      intel := fun _ => ?_
      noRelock := by simp
      unlock := fun _ hk _ => ?_ }⟩
    · have htried : k = .ok ∨ 0 < n := by
        by_cases hk : k = .ok
        · exact .inl hk
        · exact .inr (by simpa [hk] using hend)
      rw [hsector]
      simp [htried]
    · simp only [hv.toBuiltFrame.protectWrites] at hwrites'
      simp [hwrites, hwrites']
    · subst hk
      have hcleared := protectIntel_lockBits hu.hasBank hrun (by simp)
      rw [if_neg (by simp)] at hcleared
      have hbits := relock_lockBits _ (hv.between hu) hcv (fun j hj => (hmem j hj).1)
        (by rw [hcleared, List.length_replicate, hcount]) hrest
      rw [hcleared] at hbits
      exact ⟨by simpa using hend,
        hbits.trans (foldl_set_othersProtected (ht.built.sectorCount.trans hcount) hsector)⟩
  · exact ⟨k, es, 0, v, if_pos hk, { hv.mono (by omega) with
      relocks := Nat.zero_le _
      flags := fun j => by rw [hflags]; simp [hk]
      amd := by simp [hc]
      intel := fun _ => by simpa using hwrites
      noRelock := by simp
      unlock := fun _ h => absurd h hk }⟩

theorem protectSector_protects (lock : Bool) :
    ∃ k es n t, protectSector b i lock u = .ok k t ∧ u.ProtectsSector b i lock k es n t := by
  cases hc : (u.bank b).cmdset with
  | none => exact absurd hc (hu.wf.variant hu.known)
  | intelStyle =>
    cases lock with
    | true =>
      obtain ⟨k, es, t, h⟩ := protectSector_lock hu hi hc
      exact ⟨k, es, 0, t, h⟩
    | false => exact protectSector_unlock hu hi hc
  | amdStyle =>
    obtain ⟨t, h⟩ := protectSector_amd hu hi hc lock
    exact ⟨.ok, [], 0, t, h⟩

/-- The row of ProtectSector, called where an operation stands between two sequences. -/
theorem exec_protectSector {lock : Bool} {k : Kind} {t : State}
    (h : protectSector b i lock u = .ok k t) (x : Option Result) :
    exec (.protectSector b i lock) (u.placed none x) = .next (t.leave (some (.status k))) :=
  exec_of_piece hu (protectSector_blind b i lock) (fun _ => rfl) (fun v hv => by
    have hbank := State.bank_eq_of_banks hv b
    rw [onKnown_of_known (by rw [hbank]; exact hu.known), onSector_of_lt (by rwa [hbank])]) h x

end

/-- Settles O36: the row is ProtectSector from the state of its call (`protectSector_protects`). -/
theorem protectSectorOutcome : Obligations.ProtectSectorOutcome := by
  intro s b i lock hs hm hidle hi others
  have hbetween := hs.between hm hidle (.protectSector b i lock)
  obtain ⟨k, es, n, t, hrun, ht⟩ := protectSector_protects hbetween hi lock
  have hrow := exec_protectSector hbetween hi hrun s.result
  rw [← hs.ready.idle] at hrow
  refine ⟨_, k, es, n, hrow, rfl, ht.kinds, fun n hn hd => ht.done (hd.mono hn), ht.events,
    ht.settled hs.ready.noReset _, ht.built, ht.array, ht.relocks, fun j _ => ht.flags j, ht.amd,
    fun hc => ⟨ht.intel hc, ht.noRelock, fun hl hk => ht.unlock hl hk hc⟩⟩

end Sys2Proof.Machine
end

section
/-! PROOFS. flash_protect (43_facade.md R111; O52): the sectors in order, each ProtectSector on the
flags the sectors before it left. -/

namespace Sys2Proof.Machine

/-- The sectors re-locked by ProtectSector of sector `j` in a flash_protect of `[x, y]`: those then
flagged protected. Bank `bk` is the bank at the start; an unlock has cleared the flags of the
sectors before `j` that meet the range. -/
def relocksAt (bk : Bank) (x y : Nat) (lock : Bool) (j : Nat) : List Nat :=
  if lock then [] else (List.range bk.sectorCount).filter fun i =>
    i != j && bk.sectorProtected i && !decide (i < j ∧ bk.sectorStart i ≤ y ∧ x < bk.sectorEnd i)

/-- The writes of a Protect of sector `j` and of the re-locks `is` after it. -/
def State.lockRunWrites (s : State) (b : Nat) (lock : Bool) (j : Nat) (is : List Nat) :
    List (Nat × Word) :=
  s.protectWrites b j lock ++ List.flatMap (fun i => s.protectWrites b i true) is

/-- The sectors from `i` upward, `n` of them, that meet the range. -/
def metSectors (bk : Bank) (x y i n : Nat) : List Nat :=
  (List.range' i n).filter fun j => sectorMeets bk j x y

theorem metSectors_of_meets {bk : Bank} {x y i : Nat} (h : sectorMeets bk i x y = true) (n : Nat) :
    metSectors bk x y i (n + 1) = i :: metSectors bk x y (i + 1) n :=
  List.filter_cons_of_pos h

theorem metSectors_of_not {bk : Bank} {x y i : Nat} (h : ¬ sectorMeets bk i x y = true) (n : Nat) :
    metSectors bk x y i (n + 1) = metSectors bk x y (i + 1) n :=
  List.filter_cons_of_neg h

/-- In `u` the sectors before `i` that meet the range have the flag asked for, every other flag is
that of `s`. -/
def State.FlaggedTo (s : State) (b x y : Nat) (lock : Bool) (i : Nat) (u : State) : Prop :=
  ∀ j, (u.bank b).sectorProtected j =
    if j < i ∧ sectorMeets (s.bank b) j x y = true then lock else (s.bank b).sectorProtected j

/-- What the sectors from `i` upward, `n` of them, of a flash_protect begun in `s` come to: at
sector `m` the run has failed with `r` re-locks tried, or it has passed the last one. -/
structure State.ProtectsFrom (s : State) (b x y : Nat) (lock : Bool) (i n : Nat) (k : Kind)
    (es : List BusEvent) (m r : Nat) (t : State) : Prop where
  from_ : i ≤ m
  all : k = .ok → m = i + n
  failed : k ≠ .ok → m < i + n ∧ sectorMeets (s.bank b) m x y = true ∧
    r ≤ (relocksAt (s.bank b) x y lock m).length ∧
    (t.bank b).sectorProtected m = if 0 < r then false else (s.bank b).sectorProtected m
  writes : (s.bank b).cmdset = .intelStyle → writesOf es =
    ((metSectors (s.bank b) x y i n).filter fun j => decide (j < m)).flatMap
        (fun j => s.lockRunWrites b lock j (relocksAt (s.bank b) x y lock j)) ++
      if k = .ok then [] else
        s.lockRunWrites b lock m ((relocksAt (s.bank b) x y lock m).take r)
  before : ∀ j < m, sectorMeets (s.bank b) j x y = true → (t.bank b).sectorProtected j = lock
  others : ∀ j, j ≠ m → (m < j ∨ ¬ sectorMeets (s.bank b) j x y = true) →
    (t.bank b).sectorProtected j = (s.bank b).sectorProtected j
  amd : (s.bank b).cmdset = .amdStyle → k = .ok ∧ es = []

theorem Bank.SameBuilt.sectorMeets {bk bk' : Bank} (h : bk.SameBuilt bk') (j x y : Nat) :
    sectorMeets bk' j x y = sectorMeets bk j x y := by
  simp only [Machine.sectorMeets, h.sectorStart, h.sectorEnd]

section
variable {s u v t : State} {b x y i n : Nat} {lock : Bool} {k : Kind} {es fs : List BusEvent}
  {m r : Nat}

theorem State.ProtectsFrom.nil (h : s.FlaggedTo b x y lock i u) :
    s.ProtectsFrom b x y lock i 0 .ok [] i 0 u where
  from_ := Nat.le_refl i
  all _ := rfl
  failed h := absurd rfl h
  writes _ := rfl
  before j hj hmeets := by rw [h j, if_pos ⟨hj, hmeets⟩]
  others j hne hj := by
    rw [h j, if_neg]
    rintro ⟨hlt, hmeets⟩
    exact hj.elim (by omega) fun hno => hno hmeets
  amd _ := ⟨rfl, rfl⟩

/-- A sector that does not meet the range is passed over. -/
theorem State.ProtectsFrom.skip (hno : ¬ sectorMeets (s.bank b) i x y = true)
    (h : s.ProtectsFrom b x y lock (i + 1) n k es m r t) :
    s.ProtectsFrom b x y lock i (n + 1) k es m r t :=
  { h with
    from_ := Nat.le_of_succ_le h.from_
    all := fun hk => by rw [h.all hk]; omega
    failed := fun hk => by
      obtain ⟨hm, hrest⟩ := h.failed hk
      exact ⟨by omega, hrest⟩
    writes := fun hc => by rw [h.writes hc, metSectors_of_not hno] }

theorem State.FlaggedTo.skip (h : s.FlaggedTo b x y lock i u)
    (hno : ¬ sectorMeets (s.bank b) i x y = true) : s.FlaggedTo b x y lock (i + 1) u := fun j => by
  rw [h j]
  by_cases hj : j = i
  · subst hj
    simp [hno]
  · simp [show j < i + 1 ↔ j < i by omega]

/-- The sectors ProtectSector re-locks are those of the flags at the start, while no sector from `i`
on has been reached. -/
theorem State.FlaggedTo.relocksAt (h : s.FlaggedTo b x y false i u)
    (hcount : (u.bank b).sectorCount = (s.bank b).sectorCount) :
    othersProtected (u.bank b) i = relocksAt (s.bank b) x y false i := by
  rw [othersProtected, Machine.relocksAt, if_neg (by simp), hcount]
  refine List.filter_congr fun j _ => ?_
  rw [h j]
  by_cases hj : j < i ∧ sectorMeets (s.bank b) j x y = true
  · have hj' := hj
    simp only [sectorMeets, decide_eq_true_eq] at hj'
    simp [hj, hj']
  · have hj' := hj
    simp only [sectorMeets, decide_eq_true_eq] at hj'
    simp only [if_neg hj, hj', decide_false, Bool.not_false, Bool.and_true]

theorem State.FlaggedTo.next (h : s.FlaggedTo b x y lock i u)
    (hmeets : sectorMeets (s.bank b) i x y = true)
    (hv : u.ProtectsSector b i lock .ok es r v) : s.FlaggedTo b x y lock (i + 1) v := fun j => by
  rw [hv.flags]
  by_cases hj : j = i
  · subst hj
    simp [hmeets]
  · rw [if_neg (by simp [hj]), h j]
    simp [show j < i + 1 ↔ j < i by omega]

/-- The writes of one ProtectSector, in terms of the state at the start. -/
theorem State.ProtectsSector.writes (hs : BuiltFrame b s u) (h : s.FlaggedTo b x y lock i u)
    (hv : u.ProtectsSector b i lock k es r v) (hc : (s.bank b).cmdset = .intelStyle) :
    writesOf es = s.lockRunWrites b lock i ((relocksAt (s.bank b) x y lock i).take r) ∧
      r ≤ (relocksAt (s.bank b) x y lock i).length ∧
      (k = .ok → r = (relocksAt (s.bank b) x y lock i).length) := by
  have hcu := hs.built.cmdset.trans hc
  have hwrites := hv.intel hcu
  simp only [hs.protectWrites] at hwrites
  cases lock with
  | true => simpa [State.lockRunWrites, relocksAt, hv.noRelock] using hwrites
  | false =>
    have hothers := h.relocksAt hs.built.sectorCount
    refine ⟨hothers ▸ hwrites, hothers ▸ hv.relocks, fun hk => ?_⟩
    rw [← hothers]
    exact (hv.unlock rfl hk hcu).1

/-- A sector whose ProtectSector is `Done`, and the sectors after it. -/
theorem State.ProtectsFrom.cons (hs : BuiltFrame b s u) (hflags : s.FlaggedTo b x y lock i u)
    (hmeets : sectorMeets (s.bank b) i x y = true) {r' : Nat}
    (hv : u.ProtectsSector b i lock .ok es r' v)
    (h : s.ProtectsFrom b x y lock (i + 1) n k fs m r t) :
    s.ProtectsFrom b x y lock i (n + 1) k (es ++ fs) m r t :=
  { h with
    from_ := Nat.le_of_succ_le h.from_
    all := fun hk => by rw [h.all hk]; omega
    failed := fun hk => by
      obtain ⟨hm, hrest⟩ := h.failed hk
      exact ⟨by omega, hrest⟩
    writes := fun hc => by
      obtain ⟨hwrites, -, hall⟩ := hv.writes hs hflags hc
      rw [hall rfl, List.take_length] at hwrites
      have him : i < m := h.from_
      rw [writesOf_append, hwrites, h.writes hc, metSectors_of_meets hmeets, List.filter_cons_of_pos
        (by simpa using him), List.flatMap_cons, List.append_assoc]
    amd := fun hc => by
      obtain ⟨hk, hfs⟩ := h.amd hc
      obtain ⟨-, hes, -⟩ := hv.amd (hs.built.cmdset.trans hc)
      exact ⟨hk, by rw [hes, hfs]; rfl⟩ }

/-- A sector whose ProtectSector fails ends the run. -/
theorem State.ProtectsFrom.stop (hu : u.Between b) (hs : BuiltFrame b s u)
    (hflags : s.FlaggedTo b x y lock i u)
    (hmeets : sectorMeets (s.bank b) i x y = true) (hk : k ≠ .ok)
    (hv : u.ProtectsSector b i lock k es r v) :
    s.ProtectsFrom b x y lock i (n + 1) k es i r v where
  from_ := Nat.le_refl i
  all h := absurd h hk
  failed _ := by
    have hintel : (s.bank b).cmdset = .intelStyle := by
      have hsome := hu.wf.variant hu.known
      rw [hs.built.cmdset] at hsome
      cases hc : (s.bank b).cmdset with
      | none => exact absurd hc hsome
      | intelStyle => rfl
      | amdStyle => exact absurd (hv.amd (hs.built.cmdset.trans hc)).1 hk
    obtain ⟨-, hle, -⟩ := hv.writes hs hflags hintel
    refine ⟨by omega, hmeets, hle, ?_⟩
    rw [hv.flags, hflags]
    by_cases hr : 0 < r
    · cases lock with
      | true => exact absurd (hv.noRelock rfl) (by omega)
      | false => simp only [hr, or_true, and_true, if_pos]
    · simp [hr, hk]
  writes hc := by
    obtain ⟨hwrites, -⟩ := hv.writes hs hflags hc
    have hnone : (metSectors (s.bank b) x y i (n + 1)).filter (fun j => decide (j < i)) = [] := by
      simp only [metSectors, List.filter_eq_nil_iff, List.mem_filter, List.mem_range',
        decide_eq_true_eq]
      rintro j ⟨⟨c, -, rfl⟩, -⟩
      omega
    rw [hnone, if_neg hk, hwrites]
    rfl
  before j hj hm := by rw [hv.flags, if_neg (by omega), hflags, if_pos ⟨hj, hm⟩]
  others j hne hj := by
    rw [hv.flags, if_neg (by simp [hne]), hflags, if_neg]
    rintro ⟨hlt, hm⟩
    exact hj.elim (by omega) fun hno => hno hm
  amd hc := absurd (hv.amd (hs.built.cmdset.trans hc)).1 hk

end

/-- The rows of flash_protect over the sectors from `i` upward, `n` of them. -/
def protectRows (bk : Bank) (b x y : Nat) (lock : Bool) (i n : Nat) : List Instr :=
  (metSectors bk x y i n).map fun j => .protectSector b j lock

/-- The sectors from `i` upward: ProtectSector of each that meets the range, as the operation runs
them and as rows. -/
theorem protectSectors_protects {s : State} {b x y : Nat} {lock : Bool} : ∀ (n : Nat) {i : Nat}
    {u : State}, u.Between b → BuiltFrame b s u → s.FlaggedTo b x y lock i u →
    i + n = (s.bank b).sectorCount →
    ∃ k es m r t, protectSectors b x y lock i n u = .ok k t ∧
      u.Protects b k es (n * (s.bank b).sectorCount) t ∧
      s.ProtectsFrom b x y lock i n k es m r t ∧
      u.RowsTo (protectRows (s.bank b) b x y lock i n) k t
  | 0, i, u, hu, _, hflags, _ =>
    ⟨.ok, [], i, 0, u, rfl, (State.Protects.refl hu).mono (Nat.zero_le _), .nil hflags, .nil u⟩
  | n + 1, i, u, hu, hs, hflags, hn => by
    have hrest {v : State} (hv : v.Between b) (hsv : BuiltFrame b s v)
        (hf : s.FlaggedTo b x y lock (i + 1) v) := protectSectors_protects n hv hsv hf (by omega)
    rw [protectSectors, hs.built.sectorMeets]
    split
    · next hmeets =>
      have hrows : protectRows (s.bank b) b x y lock i (n + 1) =
          .protectSector b i lock :: protectRows (s.bank b) b x y lock (i + 1) n := by
        rw [protectRows, metSectors_of_meets hmeets]
        rfl
      have hi : i < (u.bank b).sectorCount := by
        rw [hs.built.sectorCount]
        omega
      obtain ⟨k, es, r, v, hrun, hv⟩ := protectSector_protects hu hi lock
      have hcost : u.Protects b k es (s.bank b).sectorCount v :=
        hs.built.sectorCount ▸ hv.toProtects
      have hrow := exec_protectSector hu hi hrun
      rw [hrun, Res.bind_ok, hrows]
      by_cases hk : k = .ok
      · subst hk
        obtain ⟨k, fs, m, r', t, hrun', ht, hfrom, hto⟩ := hrest (hv.between hu)
          ((BuiltFrame.flagClosed b).trans hs hv.toBuiltFrame) (hflags.next hmeets hv)
        exact ⟨k, es ++ fs, m, r', t, by simpa using hrun', (hcost.trans ht).mono (by
          rw [Nat.succ_mul, Nat.add_comm]), .cons hs hflags hmeets hv hfrom, .cons hrow hto⟩
      · exact ⟨k, es, i, r, v, if_pos hk, hcost.mono (by
          rw [Nat.succ_mul]
          exact Nat.le_add_left ..), .stop hu hs hflags hmeets hk hv, .stop hrow hk⟩
    · next hno =>
      obtain ⟨k, es, m, r, t, hrun, ht, hfrom, hto⟩ := hrest hu hs (hflags.skip hno)
      refine ⟨k, es, m, r, t, hrun, ht.mono (Nat.mul_le_mul_right _ (Nat.le_succ n)),
        .skip hno hfrom, ?_⟩
      rw [protectRows, metSectors_of_not hno]
      exact hto

/-- Sectors none of which meets the range are passed over. -/
theorem protectSectors_of_none {s : State} {b x y : Nat} (lock : Bool) : ∀ (n i : Nat),
    (∀ j, i ≤ j → j < i + n → ¬ sectorMeets (s.bank b) j x y = true) →
    protectSectors b x y lock i n s = .ok .ok s
  | 0, _, _ => rfl
  | n + 1, i, h => by
    rw [protectSectors, if_neg (h i (Nat.le_refl i) (by omega))]
    exact protectSectors_of_none lock n (i + 1) fun j h1 h2 => h j (by omega) (by omega)

/-- Settles O52: from the first sector on no flag has changed (`protectSectors_protects`). -/
theorem flashProtectOutcome : Obligations.FlashProtectOutcome := by
  intro s b x y f hs hidle hm hxy lock flagged meets sectors met relocks writes
  have hbetween := hs.between hm hidle (.flashProtect f x y b)
  have hbody := flashProtect_of_range (s := s.enter (.flashProtect f x y b)) hs.known f hxy
  refine ⟨fun hnone => ?none, ?runs⟩
  case none =>
    refine exec_at_once hs.ready rfl (hbody.trans (congrArg asStatus
      (protectSectors_of_none _ _ 0 fun j _ hj h => ?_)))
    exact hnone j (by simpa using hj) (of_decide_eq_true h)
  case runs =>
    obtain ⟨k, es, m, r, t, hrun, ht, hfrom, hto⟩ := protectSectors_protects
      (s := s.enter (.flashProtect f x y b)) (x := x) (y := y) (lock := lock) _ hbetween
      ((BuiltFrame.flagClosed b).refl _) (i := 0) (fun j => by simp) (Nat.zero_add _)
    have hrow := exec_of_body (t := t) (p := t.position) (x := t.result) hs.ready
      (j := .flashProtect f x y b) rfl (hbody.trans (congrArg asStatus hrun))
    have hmet : met = metSectors (s.bank b) x y 0 (s.bank b).sectorCount := by
      rw [metSectors, ← List.range_eq_range']
      rfl
    have hmeet (j : Nat) : sectorMeets (s.bank b) j x y = true ↔ meets j := decide_eq_true_iff
    have hrows := hto.of_call hs.ready.idle
    refine ⟨?_, t.leave (some (.status k)), k, m, r, es, hrow, rfl, ht.kinds,
      fun n hn hd => ht.done (hd.mono hn), ht.settled hs.ready.noReset _, ht.built, ht.array,
      ht.events, hfrom.amd, fun hk => (hfrom.all hk).trans (Nat.zero_add _), fun hk => ?_,
      fun hc => ?_, fun j hj hmeets => hfrom.before j hj ((hmeet j).mpr hmeets),
      fun j _ hne hj => hfrom.others j hne (hj.imp_right (mt (hmeet j).mp))⟩
    · rw [hrow, hmet, ← hrows]
      rfl
    · obtain ⟨hlt, hmeets, hr, hflag⟩ := hfrom.failed hk
      exact ⟨by simpa using hlt, (hmeet m).mp hmeets, hr, hflag⟩
    · rw [hmet]
      exact hfrom.writes hc

end Sys2Proof.Machine
end

section
/-! PROOFS. flash_erase (43_facade.md R107; O49): the sectors in order, the protected ones skipped,
the others erased up to the first failure. -/

namespace Sys2Proof.Machine

/-! ### One Erase -/

/-- An access at `c` is an AMD-style unlock cycle (30_encoding.md R54). -/
def Bank.UnlockCycle (p : Params) (bk : Bank) (c : Nat) : Prop :=
  bk.cmdset = .amdStyle ∧ (c = bk.baseAddr p.amdUnlockOff1 ∨ c = bk.baseAddr p.amdUnlockOff2)

/-- Erase of sector `i` from `s` on ended in the kind `k`; `p` and `bk` are the parameters and the
bank at the start of the operation. -/
structure State.Erases (s : State) (b i : Nat) (p : Params) (bk : Bank) (k : Kind)
    (es : List BusEvent) (t : State) : Prop extends s.Passed b es 2 t where
  regs : (s.bank b).SameRegs (t.bank b)
  kinds : k = .ok ∨ k = .eraseTimeout ∨ ∃ sub, k = .hardwareError sub
  done : s.DoneNext b 2 → k = .ok
  accesses : ∀ c ∈ accessesOf es, bk.UnlockCycle p c ∨ c = bk.sectorStart i
  outside : ∀ c, c < bk.sectorStart i ∨ bk.sectorEnd i ≤ c →
    Memory.read t.memory c = Memory.read s.memory c
  erased : k = .ok → ∀ c, bk.sectorStart i ≤ c → c < bk.sectorEnd i →
    Memory.read t.memory c = 0xFF

theorem State.Erases.congr {s t : State} {b i : Nat} {p : Params} {bk bk' : Bank} {k : Kind}
    {es : List BusEvent} (h : s.Erases b i p bk' k es t) (hs : bk.SameBuilt bk') :
    s.Erases b i p bk k es t :=
  { h with
    accesses := by
      simpa only [Bank.UnlockCycle, hs.cmdset, hs.baseAddr, hs.sectorStart] using h.accesses
    outside := by simpa only [hs.sectorStart, hs.sectorEnd] using h.outside
    erased := by simpa only [hs.sectorStart, hs.sectorEnd] using h.erased }

section
variable {u : State} {b i : Nat} (hu : u.Between b) (hi : i < (u.bank b).sectorCount)
include hu hi

/-- An Erase whose steps end with the sequencer idle, at most two answers taken. -/
theorem erasing_erases {steps : State → Res Kind} {P : Kind → Stage → Prop}
    (hsteps : ∀ t, u.RunsTo b (u.stage b) t → (steps t).Ran u b P)
    (hP : ∀ k g, P k g → (k = .ok ∨ k = .eraseTimeout ∨ ∃ sub, k = .hardwareError sub) ∧
      (u.DoneNext b 2 → k = .ok) ∧ g.memory = u.memory ∧ g.seq.smState = .idle ∧
      g.mode = .readArray ∧ g.ie = u.env.ie ∧ g.answers ≤ 2 ∧
      ∀ c ∈ accessesOf g.events,
        (u.bank b).UnlockCycle u.params c ∨ c = (u.bank b).sectorStart i) :
    ∃ k es t, erasing b i steps u = .ok k t ∧ u.Erases b i u.params (u.bank b) k es t := by
  obtain ⟨k, t, hrun, _, ⟨g, m, hk, rfl, hout, hin⟩, ht⟩ := hu.runsTo.erasing hu.memory i hsteps
    fun k g hk => (hP k g hk).2.2.1
  obtain ⟨hkinds, hdone, -, hidle, hmode, hie, hanswers, haccesses⟩ := hP k g hk
  obtain ⟨-, hlen, -⟩ := hu.wf.extent hi
  exact ⟨k, _, t, hrun, { (ht.passed hidle hmode hie).mono hanswers with
    regs := ht.regs
    kinds := hkinds
    done := hdone
    accesses := haccesses
    outside := fun c hc => ht.sameOutside hout c (by omega)
    erased := fun hk c h1 h2 => (ht.read c).trans (hin hk c h1 h2) }⟩

theorem eraseAmd_erases (hc : (u.bank b).cmdset = .amdStyle) :
    ∃ k es t, eraseAmd b i u = .ok k t ∧ u.Erases b i u.params (u.bank b) k es t := by
  refine erasing_erases hu hi (fun t ht => ht.eraseAmdSteps hu.wf hi hc) ?_
  rintro k _ ⟨t0, es, o, hout, rfl, hdone, rfl⟩
  obtain ⟨-, hreads⟩ := pollTraceOutcome_reads hout
  refine ⟨kindOfOutcome_cases .., hdone, rfl, rfl, rfl, rfl, by simp [hc, doneCost],
    fun c hcs => ?_⟩
  replace hcs : c ∈ accessesOf ([] ++ writeEvents (u.commandWrites b _) ++
    (.timer t0 :: es ++ writeEvents (u.resetWrites b _))) := hcs
  simp only [List.nil_append, accessesOf_append, accessesOf_timer, accessesOf_writeEvents,
    List.mem_append] at hcs
  rcases hcs with hcs | hcs | hcs
  · simp only [amdEraseWrites, amdPrefix, State.commandWrites, List.map_append, List.map_cons,
      List.map_nil, List.mem_append, List.mem_cons, List.not_mem_nil, or_false] at hcs
    exact (by tauto : (c = _ ∨ c = _) ∨ c = _).imp_left (⟨hc, ·⟩)
  · exact .inr (hreads c hcs)
  · exact .inr (by simpa [State.resetWrites, State.commandWrites, hc, resetWords] using hcs)

theorem eraseIntel_erases (hc : (u.bank b).cmdset = .intelStyle) :
    ∃ k es t, eraseIntel b i u = .ok k t ∧ u.Erases b i u.params (u.bank b) k es t := by
  refine erasing_erases hu hi (fun t ht => ht.eraseIntelSteps hu.wf hi hc) ?_
  rintro k g ⟨hdone, t1, p1, o1, l, hrun1, hend⟩
  have hcost := doneCost_of_intel hc
  have hgate := State.gateStage_accesses (l := l) hrun1
  split at hend
  · obtain ⟨t2, p2, o2, hrun2, rfl, rfl⟩ := hend
    exact ⟨kindOfOutcome_cases .., hdone, rfl, rfl, rfl, rfl, by simp [State.gateStage, hcost],
      fun c h => .inr (Stage.polled_accesses (Stage.issued_accesses hgate
        (blockEraseWrites_at _ _)) hrun2 c h)⟩
  · obtain ⟨rfl, rfl⟩ := hend
    exact ⟨kindOfOutcome_cases .., hdone, rfl, rfl, rfl, rfl, by simp [State.gateStage, hcost],
      fun c h => .inr (hgate c h)⟩

/-- Erase of the bank's variant. -/
theorem erase_erases :
    ∃ k es t, erase b i u = .ok k t ∧ u.Erases b i u.params (u.bank b) k es t := by
  unfold erase
  split
  · next hc => exact eraseIntel_erases hu hi hc
  · next hc => exact eraseAmd_erases hu hi hc
  · next hc => exact absurd hc (hu.wf.variant hu.known)

end

/-! ### The sectors of a range -/

/-- The sectors from `i` upward, `n` of them, from `s` on: `erased + skipped` were taken, and either
that is all of them or the next one failed. `p` and `bk` are the parameters and the bank at the
start. -/
structure State.ErasesFrom (s : State) (b i n : Nat) (p : Params) (bk : Bank) (k : Kind)
    (es : List BusEvent) (erased skipped : Nat) (t : State) : Prop
    extends s.Passed b es (2 * n) t where
  regs : (s.bank b).SameRegs (t.bank b)
  kinds : k = .ok ∨ k = .eraseTimeout ∨ ∃ sub, k = .hardwareError sub
  done : s.DoneNext b (2 * n) → k = .ok
  skips : skipped =
    ((List.range (erased + skipped)).filter fun j => bk.sectorProtected (i + j)).length
  all : k = .ok → erased + skipped = n
  failed : k ≠ .ok → erased + skipped < n ∧ bk.sectorProtected (i + (erased + skipped)) = false
  accesses : ∀ c ∈ accessesOf es, bk.UnlockCycle p c ∨ ∃ j, i ≤ j ∧ j < i + n ∧
    j ≤ i + (erased + skipped) ∧ bk.sectorProtected j = false ∧ c = bk.sectorStart j
  outside : ∀ c, (∀ j, i ≤ j → j < i + n → j ≤ i + (erased + skipped) →
      bk.sectorProtected j = false → c < bk.sectorStart j ∨ bk.sectorEnd j ≤ c) →
    Memory.read t.memory c = Memory.read s.memory c
  ones : ∀ j, i ≤ j → j < i + (erased + skipped) → bk.sectorProtected j = false →
    ∀ c, bk.sectorStart j ≤ c → c < bk.sectorEnd j → Memory.read t.memory c = 0xFF

/-- The first of a run of sectors counted apart. -/
theorem length_filter_range_succ (f : Nat → Bool) (i n : Nat) :
    ((List.range (n + 1)).filter fun j => f (i + j)).length =
      (if f i = true then 1 else 0) + ((List.range n).filter fun j => f (i + 1 + j)).length := by
  have hshift : ((fun j => f (i + j)) ∘ Nat.succ) = fun j => f (i + 1 + j) :=
    funext fun j => congrArg f (by simp only [Nat.succ_eq_add_one]; omega)
  rw [List.range_succ_eq_map, List.filter_cons, List.filter_map, hshift, Nat.add_zero]
  split <;> simp [Nat.add_comm]

section
variable {s v t : State} {b i n : Nat} {p : Params} {bk : Bank} {k : Kind} {es fs : List BusEvent}
  {erased skipped : Nat}

theorem State.ErasesFrom.nil (h : s.Between b) : s.ErasesFrom b i 0 p bk .ok [] 0 0 s :=
  { State.Passed.refl h with
    regs := .refl _, kinds := .inl rfl, done := fun _ => rfl, skips := rfl, all := fun _ => rfl
    failed := fun h => absurd rfl h, accesses := by simp, outside := fun _ _ => rfl
    ones := fun j h1 h2 => by omega }

/-- A protected sector is skipped. -/
theorem State.ErasesFrom.skip (hp : bk.sectorProtected i = true)
    (h : s.ErasesFrom b (i + 1) n p bk k es erased skipped t) :
    s.ErasesFrom b i (n + 1) p bk k es erased (skipped + 1) t :=
  { h.toPassed.mono (by omega : 2 * n ≤ 2 * (n + 1)) with
    regs := h.regs
    kinds := h.kinds
    done := fun hd => h.done (hd.mono (by omega))
    skips := by rw [← Nat.add_assoc, length_filter_range_succ, ← h.skips, if_pos hp, Nat.add_comm]
    all := fun hk => by have := h.all hk; omega
    failed := fun hk => by
      obtain ⟨hlt, hopen⟩ := h.failed hk
      exact ⟨by omega, by
        rwa [show i + (erased + (skipped + 1)) = i + 1 + (erased + skipped) by omega]⟩
    accesses := fun c hc => (h.accesses c hc).imp_right fun ⟨j, h1, h2, h3, hj⟩ =>
      ⟨j, by omega, by omega, by omega, hj⟩
    outside := fun c hc => h.outside c fun j h1 h2 h3 => hc j (by omega) (by omega) (by omega)
    ones := fun j h1 h2 hj => h.ones j (by
      have : j ≠ i := by
        rintro rfl
        simp [hp] at hj
      omega) (by omega) hj }

/-- A sector erased, and the sectors after it. -/
theorem State.ErasesFrom.cons (hw : Bank.Wf p bk) (hn : i + n < bk.sectorCount)
    (hp : bk.sectorProtected i = false) (hv : s.Erases b i p bk .ok es v)
    (h : v.ErasesFrom b (i + 1) n p bk k fs erased skipped t) :
    s.ErasesFrom b i (n + 1) p bk k (es ++ fs) (erased + 1) skipped t :=
  { (hv.toPassed.trans h.toPassed).mono (by omega : 2 + 2 * n ≤ 2 * (n + 1)) with
    regs := hv.regs.trans h.regs
    kinds := h.kinds
    done := fun hd => h.done (hv.answers _ (hd.mono (by omega)))
    skips := by
      have hc := h.skips
      rw [show erased + 1 + skipped = erased + skipped + 1 by omega, length_filter_range_succ,
        if_neg (by simp [hp]), Nat.zero_add]
      exact hc
    all := fun hk => by have := h.all hk; omega
    failed := fun hk => by
      obtain ⟨hlt, hopen⟩ := h.failed hk
      exact ⟨by omega, by
        rwa [show i + (erased + 1 + skipped) = i + 1 + (erased + skipped) by omega]⟩
    accesses := fun c hc => by
      rw [accessesOf_append, List.mem_append] at hc
      rcases hc with hc | hc
      · exact (hv.accesses c hc).imp_right fun hc => ⟨i, le_rfl, by omega, by omega, hp, hc⟩
      · exact (h.accesses c hc).imp_right fun ⟨j, h1, h2, h3, hj⟩ =>
          ⟨j, by omega, by omega, by omega, hj⟩
    outside := fun c hc => (h.outside c fun j h1 h2 h3 => hc j (by omega) (by omega)
      (by omega)).trans (hv.outside c (hc i le_rfl (by omega) (by omega) hp))
    ones := fun j h1 h2 hj c hc1 hc2 => by
      by_cases hji : j = i
      · subst hji
        rw [h.outside c fun l hl1 hl2 _ _ => .inl (lt_of_lt_of_le hc2
          (hw.sectorStart_le hl1 (by omega)))]
        exact hv.erased rfl c hc1 hc2
      · exact h.ones j (by omega) (by omega) hj c hc1 hc2 }

/-- A sector whose Erase fails ends the run. -/
theorem State.ErasesFrom.stop (hp : bk.sectorProtected i = false) (hk : k ≠ .ok)
    (hv : s.Erases b i p bk k es v) : s.ErasesFrom b i (n + 1) p bk k es 0 0 v :=
  { hv.toPassed.mono (by omega : 2 ≤ 2 * (n + 1)) with
    regs := hv.regs
    kinds := hv.kinds
    done := fun hd => hv.done (hd.mono (by omega))
    skips := rfl
    all := fun h => absurd h hk
    failed := fun _ => ⟨by omega, hp⟩
    accesses := fun c hc => (hv.accesses c hc).imp_right fun hc =>
      ⟨i, le_rfl, by omega, by omega, hp, hc⟩
    outside := fun c hc => hv.outside c (hc i le_rfl (by omega) (by omega) hp)
    ones := fun j h1 h2 => by omega }

end

theorem eraseSectors_erases {b : Nat} {p : Params} {bk : Bank} (hw : Bank.Wf p bk) :
    ∀ (n : Nat) {i e₀ s₀ : Nat} {u : State}, u.Between b → u.params = p →
    bk.SameRegs (u.bank b) → i + n ≤ bk.sectorCount →
    ∃ k es erased skipped t,
      eraseSectors b i n e₀ s₀ u = .ok (k, e₀ + erased, s₀ + skipped) t ∧
      u.ErasesFrom b i n p bk k es erased skipped t
  | 0, i, e₀, s₀, u, hu, _, _, _ => ⟨.ok, [], 0, 0, u, rfl, .nil hu⟩
  | n + 1, i, e₀, s₀, u, hu, hparams, hs, hn => by
    rw [eraseSectors, hs.sectorProtected]
    split
    · next hp =>
      obtain ⟨k, es, e, c, t, hrun, ht⟩ := eraseSectors_erases hw n (e₀ := e₀) (s₀ := s₀ + 1) hu
        hparams hs (by omega : i + 1 + n ≤ bk.sectorCount)
      exact ⟨k, es, e, c + 1, t, by rw [hrun]; congr 3; omega, .skip hp ht⟩
    · next hp =>
      have hopen : bk.sectorProtected i = false := by simpa using hp
      obtain ⟨k, es, v, hrun, hv⟩ := erase_erases hu (i := i) (by
        rw [hs.sameBuilt.sectorCount]
        omega)
      rw [hrun, Res.bind_ok]
      replace hv := hparams ▸ hv.congr hs.sameBuilt
      by_cases hk : k = .ok
      · subst hk
        obtain ⟨k, fs, e, c, t, hrest, ht⟩ := eraseSectors_erases hw n (e₀ := e₀ + 1) (s₀ := s₀)
          (hv.between hu) (hv.params.trans hparams) (hs.trans hv.regs)
          (by omega : i + 1 + n ≤ bk.sectorCount)
        refine ⟨k, es ++ fs, e + 1, c, t, ?_, .cons hw (by omega) hopen hv ht⟩
        rw [if_neg (by simp), hrest]
        congr 3
        omega
      · exact ⟨k, es, 0, 0, v, if_pos hk, .stop hopen hk hv⟩

/-- Settles O49: the operation is its sectors from the first on (`eraseSectors_erases`). -/
theorem flashEraseOutcome : Obligations.FlashEraseOutcome := by
  intro s b x y hs hidle hm hxy hy open_ o1 o2
  have hbetween := hs.between hm hidle (.flashErase b x y)
  obtain ⟨k, es, erased, skipped, t, hrun, ht⟩ := eraseSectors_erases (e₀ := 0) (s₀ := 0) hs.wf
    (y + 1 - x) (i := x) hbetween rfl (.refl _) (by
      have : y < (s.bank b).sectorCount := hy
      omega)
  have hbody := (flashErase_of_range (s := s.enter (.flashErase b x y)) hs.known hxy hy).trans
    (congrArg (fun r : Res (Kind × Nat × Nat) => r.bind fun r s =>
      .ok (some (Result.erase r.1 r.2.1 r.2.2)) s) hrun)
  simp only [Nat.zero_add] at hbody
  refine ⟨_, k, erased, skipped, es,
    exec_of_body (t := t) (p := t.position) (x := t.result) hs.ready rfl hbody, rfl, ht.kinds,
    fun n hn hd => ht.done (hd.mono hn), ht.skips, fun hk => by have := ht.all hk; omega,
    fun hk => ?_, ht.settled hs.ready.noReset _, ht.regs.sectors, ht.events,
    fun c hc => (ht.accesses c hc).imp_right ?_,
    fun c hc => ht.outside c fun j h1 h2 => hc j h1 (by omega), ht.ones⟩
  · obtain ⟨hlt, hopen⟩ := ht.failed hk
    exact ⟨by omega, hopen⟩
  · rintro ⟨j, h1, h2, h3, hj⟩
    exact ⟨j, h1, by omega, h3, hj⟩

end Sys2Proof.Machine
end

section
/-! PROOFS. One word programmed, and WriteMerged (42_sequencer.md R97, 43_facade.md R108; O50), told
in bytes: what the array holds, and that the program rests on it alone. -/

namespace Sys2Proof.Machine

/-! ### Words of bytes (20_memory.md R35) -/

section
variable {o : ByteOrder} {p : PortWidth} {as bs : List Byte}

theorem toPort_wordOf (h : bs.length = p.bytes) : toPort p (wordOf o bs) = wordOf o bs := by
  obtain ⟨hword, hbytes, -⟩ := wordsAndBytesInverse o p
  rw [← hword, hbytes bs h]

theorem wordOf_injective (ha : as.length = p.bytes) (hb : bs.length = p.bytes)
    (h : wordOf o as = wordOf o bs) : as = bs := by
  obtain ⟨-, hbytes, -⟩ := wordsAndBytesInverse o p
  rw [← hbytes as ha, h, hbytes bs hb]

theorem leWord_and_eq_right (h : ∀ j, as.getD j 0 &&& bs.getD j 0 = bs.getD j 0) :
    leWord as &&& leWord bs = leWord bs := by
  refine BitVec.eq_of_getLsbD_eq fun i hi => ?_
  rw [BitVec.getLsbD_and, getLsbD_leWord _ hi, getLsbD_leWord _ hi, ← BitVec.getLsbD_and, h]

/-- A word takes another one (42_sequencer.md R97) when each of its bytes does. -/
theorem wordOf_and_eq_right (hlen : as.length = bs.length)
    (h : ∀ j < bs.length, as.getD j 0 &&& bs.getD j 0 = bs.getD j 0) :
    wordOf o as &&& wordOf o bs = wordOf o bs := by
  have hall : ∀ j, as.getD j 0 &&& bs.getD j 0 = bs.getD j 0 := fun j => by
    by_cases hj : j < bs.length
    · exact h j hj
    · simp [List.getElem?_eq_none (not_lt.mp hj)]
  cases o with
  | little => exact leWord_and_eq_right hall
  | big =>
    refine leWord_and_eq_right fun j => ?_
    by_cases hj : j < bs.length
    · have hback : bs.length - 1 - j < bs.length := by omega
      simpa [List.getElem?_reverse, hj, hlen, hback] using hall (bs.length - 1 - j)
    · simp [not_lt.mp hj]

end

theorem Memory.length_readBytes (m : Memory) (a n : Nat) :
    (Memory.readBytes m a n).length = n := by simp [Memory.readBytes_eq_map]

theorem Memory.getD_readBytes (m : Memory) (a : Nat) {n j : Nat} (hj : j < n) :
    (Memory.readBytes m a n).getD j 0 = Memory.read m (a + j) := by
  simp [Memory.readBytes_eq_map, hj]

theorem State.arrayWord_eq_wordOf_iff {s : State} {b a : Nat} {bs : List Byte}
    (h : bs.length = (s.bank b).bytes) : s.arrayWord b a = wordOf s.params.hostByteOrder bs ↔
      Memory.readBytes s.memory a (s.bank b).bytes = bs :=
  ⟨wordOf_injective (Memory.length_readBytes ..) h, congrArg _⟩

/-! ### The program of one word -/

/-- Every byte of the array from `a` on takes that of `bs` (42_sequencer.md R97). -/
def State.Takes (s : State) (a : Nat) (bs : List Byte) : Prop :=
  ∀ j < bs.length, Memory.read s.memory (a + j) &&& bs.getD j 0 = bs.getD j 0

/-- The word of such bytes can be programmed. -/
theorem State.Takes.arrayWord {s : State} {b a : Nat} {bs : List Byte} (h : s.Takes a bs)
    (hlen : bs.length = (s.bank b).bytes) :
    s.arrayWord b a &&& wordOf s.params.hostByteOrder bs = wordOf s.params.hostByteOrder bs := by
  refine wordOf_and_eq_right (by rw [Memory.length_readBytes, hlen]) fun j hj => ?_
  rw [Memory.getD_readBytes _ _ (hlen ▸ hj)]
  exact h j hj

/-- The program of the word of `bs` at `a` from `s` on ended in the kind `k`. -/
structure State.ProgramsWord (s : State) (b a : Nat) (bs : List Byte) (k : Kind)
    (es : List BusEvent) (t : State) : Prop
    extends s.Passed b (.read a (s.arrayWord b a) :: es) 2 t where
  regs : (s.bank b).SameRegs (t.bank b)
  kinds : k = .ok ∨ k = .notErased a ∨ k = .programTimeout ∨ ∃ sub, k = .hardwareError sub
  done : s.DoneNext b 2 → s.Takes a bs → k = .ok
  outside : State.SameOutside a bs.length s t
  refused : k = .notErased a → t.memory = s.memory ∧ es = []
  written : k = .ok → Memory.readBytes t.memory a bs.length = bs

theorem State.Between.wordAt {s : State} {b a i : Nat} (hs : s.Between b)
    (ha : a % (s.bank b).bytes = 0) (hi : (s.bank b).sectorOf a = some i) : s.WordAt b a i := by
  obtain ⟨hlt, h1, h2⟩ := Bank.sectorOf_some hi
  exact ⟨ha, hs.mode, hi, hs.wf.word_inArray hlt ha h1 h2⟩

section
variable {u : State} {b a i : Nat} {bs : List Byte} (hu : u.Between b)
  (ha : a % (u.bank b).bytes = 0) (hi : (u.bank b).sectorOf a = some i)
  (hlen : bs.length = (u.bank b).bytes)
include hu ha hi hlen

/-- A single-word program whose steps, once the array takes the word, are those of R97. -/
theorem programWord_programsWord_of_steps {steps : Nat → State → Res Kind}
    {cs : List (Nat × Command)} {pollAt : Nat} {d : Word}
    (hd : d = wordOf u.params.hostByteOrder bs)
    (heq : programWord b a d u = programming b a d steps u)
    (hsteps : u.arrayWord b a &&& d = d →
      (programming b a d steps u).Ran u b (u.Programs b a d cs pollAt)) :
    ∃ k es t, programWord b a d u = .ok k t ∧ u.ProgramsWord b a bs k es t := by
  by_cases htakes : u.arrayWord b a &&& d = d
  · obtain ⟨k, t, hrun, _, ⟨t0, es, o, m, -, hkind, hdone, rfl, hout, hin⟩, ht⟩ := hsteps htakes
    have hcost : doneCost (u.bank b).cmdset ≤ 2 := by
      unfold doneCost
      split <;> omega
    have hk : k = .ok ∨ k = .programTimeout ∨ ∃ sub, k = .hardwareError sub :=
      hkind ▸ kindOfOutcome_cases ..
    refine ⟨k, _, t, heq.trans hrun, {
      (ht.passed rfl rfl rfl).mono ((Nat.zero_add _).trans_le hcost) with
      regs := ht.regs
      kinds := by tauto
      done := fun hd _ => hdone (hd.mono hcost)
      outside := hlen ▸ ht.sameOutside hout
      refused := fun h => by
        subst h
        simp at hk
      written := fun hk => ?_ }⟩
    have hword := (ht.arrayWord a).trans (hin hk)
    rw [hd, ← ht.params] at hword
    rw [hlen, ← ht.built.bytes]
    exact (State.arrayWord_eq_wordOf_iff (hlen.trans ht.built.bytes.symm)).mp hword
  · obtain ⟨p, hrun⟩ := programming_notErased (hu.wordAt ha hi) hu.noReset htakes steps
    replace hrun := heq.trans hrun
    have hframe : RegsFrame b u _ :=
      (hrun ▸ programWord_stays (RegsFrame.opClosed b) hu.hasBank a d).1
    refine ⟨_, [], _, hrun, { hframe.builtFrame with
      mode := hu.mode
      idle := hu.idle
      ie := rfl
      events := rfl
      answers := fun n hn => (State.Passed.refl hu).answers n (hn.mono (by omega))
      regs := .refl _
      kinds := .inr (.inl rfl)
      done := fun _ hbytes => absurd ?_ htakes
      outside := fun _ _ => rfl
      refused := fun _ => ⟨rfl, rfl⟩
      written := by simp }⟩
    rw [hd]
    exact hbytes.arrayWord hlen

/-- A single-word program of the bank's variant. -/
theorem programWord_programsWord :
    ∃ k es t, programWord b a (wordOf u.params.hostByteOrder bs) u = .ok k t ∧
      u.ProgramsWord b a bs k es t := by
  have hword := hu.wordAt ha hi
  have hport := toPort_wordOf (o := u.params.hostByteOrder) (p := (u.bank b).portWidth) hlen
  have hbase := hu.wf.accepts_sectorStart (Bank.sectorOf_some hi).1
  cases hc : (u.bank b).cmdset with
  | intelStyle =>
    exact programWord_programsWord_of_steps hu ha hi hlen rfl (by rw [programWord, hc]; rfl)
      fun htakes => hu.runsTo.programs hu.memory hword hport htakes (x := (u.bank b).sectorStart i)
        (c := .clearStatus) (cs := [((u.bank b).sectorStart i, .program)])
        (fun t ht => by rw [ht.built.sectorStart]) hbase (by simpa using hbase)
        fun _ => by rw [hc]; rfl
  | amdStyle =>
    exact programWord_programsWord_of_steps hu ha hi hlen rfl (by rw [programWord, hc]; rfl)
      fun htakes => hu.runsTo.programs hu.memory hword hport htakes
        (fun t ht => by rw [ht.params, ht.built.amdPrefix]; rfl)
        (Bank.accepts_inArray ha hword.inArray) (hu.wf.accepts_amdPrefix .amdProgram)
        fun _ => by rw [hc]; rfl
  | none => exact absurd hc (hu.wf.variant hu.known)

end

/-! ### WriteMerged (R108) -/

section
variable {old bytes : List Byte} {off : Nat}

theorem length_overlay (h : off + bytes.length ≤ old.length) :
    (overlay old off bytes).length = old.length := by
  simp only [overlay, List.length_append, List.length_take, List.length_drop]
  omega

theorem getD_overlay (h : off + bytes.length ≤ old.length) (j : Nat) :
    (overlay old off bytes).getD j 0 =
      if off ≤ j ∧ j < off + bytes.length then bytes.getD (j - off) 0 else old.getD j 0 := by
  have hoff : (old.take off).length = off := by
    rw [List.length_take]
    omega
  simp only [overlay, List.append_assoc, List.getD_eq_getElem?_getD]
  by_cases h1 : j < off
  · rw [List.getElem?_append_left (by omega), if_neg (by omega), List.getElem?_take_of_lt h1]
  · rw [List.getElem?_append_right (by omega), hoff]
    by_cases h2 : j < off + bytes.length
    · rw [List.getElem?_append_left (by omega), if_pos (by omega)]
    · rw [List.getElem?_append_right (by omega), if_neg (by omega), List.getElem?_drop]
      congr 3
      omega

end

/-- The bytes of the word at `a` with `bytes` laid over them from position `off` (R108). -/
def State.merged (s : State) (b a off : Nat) (bytes : List Byte) : List Byte :=
  overlay (Memory.readBytes s.memory a (s.bank b).bytes) off bytes

section
variable {u : State} {b a off i : Nat} {bytes : List Byte}

section
variable (hoff : off + bytes.length ≤ (u.bank b).bytes)
include hoff

theorem State.length_merged : (u.merged b a off bytes).length = (u.bank b).bytes := by
  rw [State.merged, length_overlay (by rwa [Memory.length_readBytes]), Memory.length_readBytes]

theorem State.getD_merged {j : Nat} (hj : j < (u.bank b).bytes) :
    (u.merged b a off bytes).getD j 0 =
      if off ≤ j ∧ j < off + bytes.length then bytes.getD (j - off) 0
      else Memory.read u.memory (a + j) := by
  rw [State.merged, getD_overlay (by rwa [Memory.length_readBytes]), Memory.getD_readBytes _ _ hj]

theorem State.merged_eq_map : u.merged b a off bytes = (List.range (u.bank b).bytes).map fun j =>
    if off ≤ j ∧ j < off + bytes.length then bytes.getD (j - off) 0
    else Memory.read u.memory (a + j) := by
  refine List.ext_getElem (by rw [State.length_merged hoff]; simp) fun j h1 h2 => ?_
  rw [← List.getD_eq_getElem _ 0 h1, State.getD_merged hoff (by simpa using h2)]
  simp

/-- The merged word can be programmed where the new bytes can. -/
theorem State.takes_merged : u.Takes a (u.merged b a off bytes) ↔ u.Takes (a + off) bytes := by
  unfold State.Takes
  rw [State.length_merged hoff]
  refine ⟨fun h j hj => ?_, fun h j hj => ?_⟩
  · have hbyte := h (off + j) (by omega)
    rwa [State.getD_merged hoff (by omega), if_pos (by omega), Nat.add_sub_cancel_left,
      ← Nat.add_assoc] at hbyte
  · rw [State.getD_merged hoff hj]
    split
    · next hin =>
      have hbyte := h (j - off) (by omega)
      rwa [show a + off + (j - off) = a + j by omega] at hbyte
    · exact BitVec.and_self

end

variable (hu : u.Between b) (ha : a % (u.bank b).bytes = 0)
  (hi : (u.bank b).sectorOf a = some i) (hne : bytes ≠ [])
  (hoff : off + bytes.length ≤ (u.bank b).bytes)
include hu ha hi hne hoff

/-- WriteMerged is one read, and the program of the merged word from the state the read leaves. -/
theorem writeMerged_eq : ∃ p : Option Position,
    let v := (u.saw [.read a (u.arrayWord b a)]).placed p u.result
    u.Passed b [.read a (u.arrayWord b a)] 0 v ∧ writeMerged b a off bytes u =
      programWord b a (wordOf u.params.hostByteOrder (u.merged b a off bytes)) v := by
  have hread := busRead_array hu.noReset ha hu.mode (hu.wordAt ha hi).inArray
  have hframe : RegsFrame b u _ :=
    (hread ▸ busRead_stays (RegsFrame.opClosed b).toBusClosed a).1
  obtain ⟨-, hbytes, -⟩ := wordsAndBytesInverse u.params.hostByteOrder (u.bank b).portWidth
  have hold : bytesOf u.params.hostByteOrder (u.bank b).bytes (u.arrayWord b a) =
    Memory.readBytes u.memory a (u.bank b).bytes := hbytes _ (Memory.length_readBytes ..)
  refine ⟨_, { hframe.builtFrame with
    mode := hu.mode, idle := hu.idle, ie := rfl, events := rfl
    answers := (State.Passed.refl hu).answers }, ?_⟩
  rw [writeMerged, if_neg (by simp [hne, hoff]), hread, Res.bind_ok, State.merged, ← hold]
  rfl

end

/-! ### Rows -/

section
variable {u t : State} {b a : Nat} {k : Kind} (hu : u.Between b)
include hu

theorem State.Between.variant :
    (u.bank b).cmdset = .intelStyle ∨ (u.bank b).cmdset = .amdStyle := by
  have hsome := hu.wf.variant hu.known
  cases hc : (u.bank b).cmdset with
  | intelStyle => exact .inl rfl
  | amdStyle => exact .inr rfl
  | none => exact absurd hc hsome

/-- The row of a single-word program, called where an operation stands between two sequences. -/
theorem exec_programRow {d : Word} (hd : toPort (u.bank b).portWidth d = d)
    (h : programWord b a d u = .ok k t) (x : Option Result) :
    exec (programRow (u.bank b) b a d) (u.placed none x) =
      .next (t.leave (some (.status k))) := by
  have hbank (v : State) (hv : v.banks = u.banks) := State.bank_eq_of_banks hv b
  rcases hu.variant with hc | hc
  · rw [programRow, if_neg (by simp [hc])]
    refine exec_of_piece hu (programWord_blind b a d) (fun _ => rfl) (fun v hv => ?_) h x
    rw [onKnown_of_known (by rw [hbank v hv]; exact hu.known),
      onVariant_of (by rw [hbank v hv]; exact .inr hc), programWord, hbank v hv, hc, hd]
  · rw [programRow, if_pos hc]
    refine exec_of_piece hu (programWord_blind b a d) (fun _ => rfl) (fun v hv => ?_) h x
    rw [onKnown_of_known (by rw [hbank v hv]; exact hu.known),
      onVariant_of (by rw [hbank v hv]; exact .inr hc), programWord, hbank v hv, hc, hd]

/-- The row of WriteMerged, called where an operation stands between two sequences. -/
theorem exec_writeMerged {off : Nat} {bytes : List Byte}
    (h : writeMerged b a off bytes u = .ok k t) (x : Option Result) :
    exec (.writeMerged b a off bytes) (u.placed none x) = .next (t.leave (some (.status k))) :=
  exec_of_piece hu (writeMerged_blind b a off bytes) (fun _ => rfl) (fun v hv => by
    rw [onKnown_of_known (by rw [State.bank_eq_of_banks hv]; exact hu.known)]) h x

end

/-- Settles O50: the row is a read, and the program of the merged word (`writeMerged_eq`,
`programWord_programsWord`). -/
theorem writeMergedOutcome : Obligations.WriteMergedOutcome := by
  intro s b a off i bytes hs hm hidle ha hi hne hoff old merged
  have hu := hs.between hm hidle (.writeMerged b a off bytes)
  obtain ⟨p, hread, heq⟩ := writeMerged_eq hu ha hi hne hoff
  have hv := hread.between hu
  have hlen : (s.merged b a off bytes).length = (s.bank b).bytes := State.length_merged hoff
  obtain ⟨k, es, t, hrun, ht⟩ := programWord_programsWord hv ha hi hlen
  have hall := hread.trans ht.toPassed
  have hrow := exec_writeMerged hu (heq.trans hrun) s.result
  have hword := exec_programRow hv (toPort_wordOf hlen) hrun s.result
  have hmerged : s.merged b a off bytes = merged := State.merged_eq_map hoff
  rw [← hs.ready.idle] at hrow hword
  refine ⟨hrow.trans (hmerged ▸ hword.symm), _, k, es, hrow, rfl, ?trace, ht.kinds,
    fun hd hbytes => ht.done hd ((State.takes_merged (u := s) hoff).mpr hbytes),
    hall.settled hs.ready.noReset _, ht.regs, hlen ▸ ht.outside, ht.refused, fun hk j hj => ?_⟩
  case trace =>
    rw [List.append_assoc]
    exact hall.events
  · rw [← State.getD_merged (u := s) hoff hj, ← ht.written hk,
      Memory.getD_readBytes _ _ (hlen.symm ▸ hj)]
    rfl

end Sys2Proof.Machine
end

section
/-! PROOFS. The pieces of write_buff (43_facade.md R109): a merged word, a word, a buffer of words,
each told as bytes written from an address on. -/

namespace Sys2Proof.Machine

/-! ### The words that cover a range -/

/-- The start of the word that holds the byte at `x`. -/
def Bank.wordStart (bk : Bank) (x : Nat) : Nat := x / bk.bytes * bk.bytes

/-- The end of the words that cover the bytes below `x`. -/
def Bank.wordStop (bk : Bank) (x : Nat) : Nat := (x + bk.bytes - 1) / bk.bytes * bk.bytes

section
variable {bk : Bank} {x y : Nat}

theorem Bank.wordStart_le_self : bk.wordStart x ≤ x := Nat.div_mul_le_self ..

theorem Bank.wordStart_le (h : x ≤ y) : bk.wordStart x ≤ bk.wordStart y :=
  Nat.mul_le_mul_right _ (Nat.div_le_div_right h)

theorem Bank.wordStop_le (h : x ≤ y) : bk.wordStop x ≤ bk.wordStop y :=
  Nat.mul_le_mul_right _ (Nat.div_le_div_right (by omega))

theorem Bank.le_wordStop : x ≤ bk.wordStop x := by
  have hpos := bk.bytes_pos
  have hlt := Nat.lt_div_mul_add (a := x + bk.bytes - 1) hpos
  unfold Bank.wordStop
  omega

/-- The word at an aligned address covers every part of it. -/
theorem Bank.word_covers {a off n : Nat} (ha : a % bk.bytes = 0) (hn : 0 < n)
    (hoff : off + n ≤ bk.bytes) :
    bk.wordStart (a + off) ≤ a ∧ a + bk.bytes ≤ bk.wordStop (a + off + n) := by
  obtain ⟨q, rfl⟩ := Nat.dvd_of_mod_eq_zero ha
  have hpos := bk.bytes_pos
  refine ⟨?_, ?_⟩
  · rw [Bank.wordStart, Nat.mul_add_div hpos, Nat.div_eq_of_lt (by omega), Nat.add_zero,
      Nat.mul_comm]
  · rw [Bank.wordStop, show bk.bytes * q + off + n + bk.bytes - 1 =
      bk.bytes * (q + 1) + (off + n - 1) by rw [Nat.mul_succ]; omega, Nat.mul_add_div hpos,
      Nat.div_eq_of_lt (by omega), Nat.add_zero, Nat.mul_comm, Nat.succ_mul]

end

/-! ### Bytes written -/

theorem Memory.readBytes_append (m : Memory) (a x y : Nat) :
    Memory.readBytes m a (x + y) = Memory.readBytes m a x ++ Memory.readBytes m (a + x) y := by
  simp only [Memory.readBytes_eq_map, List.range_add, List.map_append, List.map_map,
    Function.comp_def, Nat.add_assoc]

/-- A piece of `write_buff` that writes `bs` from `p` on, from `s` on, ended in the kind `k`. -/
structure State.WritesBytes (s : State) (b p : Nat) (bs : List Byte) (k : Kind)
    (es : List BusEvent) (t : State) : Prop extends s.Passed b es (2 * bs.length) t where
  regs : (s.bank b).SameRegs (t.bank b)
  kinds : k = .ok ∨ (∃ a, k = .notErased a) ∨ k = .programTimeout ∨ k = .bufferWriteTimeout ∨
    ∃ sub, k = .hardwareError sub
  done : s.DoneNext b (2 * bs.length) → s.Takes p bs → k = .ok
  covered : ∀ x, x < (s.bank b).wordStart p ∨ (s.bank b).wordStop (p + bs.length) ≤ x →
    Memory.read t.memory x = Memory.read s.memory x
  outside : k = .ok → State.SameOutside p bs.length s t
  written : k = .ok → Memory.readBytes t.memory p bs.length = bs

section
variable {s v t : State} {b p a off : Nat} {bs cs : List Byte} {k : Kind} {es fs : List BusEvent}

theorem State.WritesBytes.nil (hs : s.Between b) (p : Nat) : s.WritesBytes b p [] .ok [] s :=
  { State.Passed.refl hs with
    regs := .refl _, kinds := .inl rfl, done := fun _ _ => rfl, covered := fun _ _ => rfl
    outside := fun _ _ _ => rfl, written := fun _ => rfl }

/-- Bytes written, and the bytes after them. -/
theorem State.WritesBytes.append (hv : s.WritesBytes b p bs .ok es v)
    (ht : v.WritesBytes b (p + bs.length) cs k fs t) :
    s.WritesBytes b p (bs ++ cs) k (es ++ fs) t := by
  have hlen : (bs ++ cs).length = bs.length + cs.length := List.length_append
  have hafter {x : Nat} (hx : x < p ∨ p + bs.length ≤ x) := hv.outside rfl x hx
  have hbytes : (v.bank b).bytes = (s.bank b).bytes := hv.built.bytes
  refine { (hv.toPassed.trans ht.toPassed).mono (by omega) with
    regs := hv.regs.trans ht.regs
    kinds := ht.kinds
    done := fun hd htakes => ht.done (hv.answers _ (hd.mono (by omega))) fun j hj => ?_
    covered := fun x hx => (ht.covered x ?_).trans (hv.covered x ?_)
    outside := fun hk x hx => (ht.outside hk x (by omega)).trans (hafter (by omega))
    written := fun hk => ?_ }
  · have hbyte := htakes (bs.length + j) (by omega)
    rw [hafter (.inr (by omega))]
    simpa [List.getD_eq_getElem?_getD, List.getElem?_append_right, Nat.add_assoc] using hbyte
  · rw [hlen, ← Nat.add_assoc] at hx
    simp only [Bank.wordStart, Bank.wordStop, hbytes] at hx ⊢
    exact hx.imp_left fun h => lt_of_lt_of_le h (Bank.wordStart_le (Nat.le_add_right ..))
  · rw [hlen] at hx
    exact hx.imp_right fun h => (Bank.wordStop_le (by omega)).trans h
  · rw [hlen, Memory.readBytes_append, ht.written hk, ← hv.written rfl]
    congr 1
    · rw [Memory.length_readBytes]
      exact Memory.readBytes_congr fun x _ h2 => ht.outside hk x (.inl h2)

/-- Bytes whose writing fails end the rest too. -/
theorem State.WritesBytes.stop (hk : k ≠ .ok) (h : s.WritesBytes b p bs k es t) (cs : List Byte) :
    s.WritesBytes b p (bs ++ cs) k es t := by
  have hlen : (bs ++ cs).length = bs.length + cs.length := List.length_append
  exact { h.toPassed.mono (by omega) with
    regs := h.regs
    kinds := h.kinds
    done := fun hd htakes => h.done (hd.mono (by omega)) fun j hj => by
      simpa [List.getD_eq_getElem?_getD, List.getElem?_append_left, hj] using
        htakes j (by omega)
    covered := fun x hx => h.covered x (hx.imp_right fun h =>
      (Bank.wordStop_le (by omega)).trans h)
    outside := fun h => absurd h hk
    written := fun h => absurd h hk }

/-- A word programmed, as bytes written. -/
theorem State.ProgramsWord.writesBytes (ha : p % (s.bank b).bytes = 0)
    (hlen : bs.length = (s.bank b).bytes) (h : s.ProgramsWord b p bs k es t) :
    s.WritesBytes b p bs k (.read p (s.arrayWord b p) :: es) t := by
  have hpos := (s.bank b).bytes_pos
  obtain ⟨hstart, hstop⟩ := Bank.word_covers (off := 0) ha (hlen ▸ hpos) (by omega)
  exact { h.toPassed.mono (by omega) with
    regs := h.regs
    kinds := by
      have := h.kinds
      tauto
    done := fun hd => h.done (hd.mono (by omega))
    covered := fun x hx => h.outside x (by
      rw [Nat.add_zero] at hstart hstop
      omega)
    outside := fun _ => h.outside
    written := h.written }

end

/-! ### A merged word -/

section
variable {u : State} {b a off i : Nat} {bytes : List Byte} (hu : u.Between b)
  (ha : a % (u.bank b).bytes = 0) (hi : (u.bank b).sectorOf a = some i) (hne : bytes ≠ [])
  (hoff : off + bytes.length ≤ (u.bank b).bytes)
include hu ha hi hne hoff

theorem writeMerged_writesBytes : ∃ k es t, writeMerged b a off bytes u = .ok k t ∧
    u.WritesBytes b (a + off) bytes k es t := by
  obtain ⟨p, hread, heq⟩ := writeMerged_eq hu ha hi hne hoff
  have hlen : (u.merged b a off bytes).length = (u.bank b).bytes := State.length_merged hoff
  obtain ⟨k, es, t, hrun, ht⟩ := programWord_programsWord (hread.between hu) ha hi hlen
  have hpos := List.length_pos_iff.mpr hne
  obtain ⟨hstart, hstop⟩ := Bank.word_covers ha hpos hoff
  have hout : State.SameOutside a (u.bank b).bytes u t := hlen ▸ ht.outside
  have hin (hk : k = .ok) {j : Nat} (hj : j < (u.bank b).bytes) :
      Memory.read t.memory (a + j) = (u.merged b a off bytes).getD j 0 := by
    rw [← ht.written hk, Memory.getD_readBytes _ _ (hlen.symm ▸ hj)]
  refine ⟨k, _, t, heq.trans hrun, { (hread.trans ht.toPassed).mono (by omega) with
    regs := ht.regs
    kinds := by
      have := ht.kinds
      tauto
    done := fun hd hbytes => ht.done (hd.mono (by omega))
      ((State.takes_merged (u := u) hoff).mpr hbytes)
    covered := fun x hx => hout x (by omega)
    outside := fun hk x hx => ?_
    written := fun hk => ?_ }⟩
  · by_cases hword : a ≤ x ∧ x < a + (u.bank b).bytes
    · obtain ⟨j, rfl⟩ := Nat.exists_eq_add_of_le hword.1
      rw [hin hk (by omega), State.getD_merged hoff (by omega), if_neg (by omega)]
    · exact hout x (by omega)
  · refine List.ext_getElem (Memory.length_readBytes ..) fun j h1 h2 => ?_
    rw [← List.getD_eq_getElem _ 0 h1, Memory.getD_readBytes _ _ h2, Nat.add_assoc,
      hin hk (by omega), State.getD_merged hoff (by omega), if_pos (by omega),
      Nat.add_sub_cancel_left, List.getD_eq_getElem _ 0 h2]

end

/-! ### A buffer of words -/

/-- The words of `bs`, `n` of them, each taken out where it stands. -/
def wordsAt (o : ByteOrder) (w n : Nat) (bs : List Byte) : List Word :=
  (List.range n).map fun j => wordOf o ((bs.drop (j * w)).take w)

section
variable {o : ByteOrder} {w n : Nat} {bs : List Byte}

theorem length_wordsAt : (wordsAt o w n bs).length = n := by simp [wordsAt]

theorem getD_wordsAt {j : Nat} (hj : j < n) :
    (wordsAt o w n bs).getD j 0 = wordOf o ((bs.drop (j * w)).take w) := by
  simp [wordsAt, List.getD_eq_getElem?_getD, hj]

theorem wordsOf_eq_wordsAt : ∀ (n : Nat) (bs : List Byte), wordsOf o w n bs = wordsAt o w n bs
  | 0, _ => rfl
  | n + 1, bs => by
    rw [wordsOf, wordsOf_eq_wordsAt n, wordsAt, wordsAt, List.range_succ_eq_map]
    simp [Function.comp_def, Nat.succ_mul, Nat.add_comm w]

/-- A word inside the bytes taken is the same word of all the bytes. -/
theorem wordsAt_take : wordsAt o w n (bs.take (n * w)) = wordsAt o w n bs := by
  refine List.map_congr_left fun j hj => ?_
  have hword : (j + 1) * w ≤ n * w := Nat.mul_le_mul_right _ (List.mem_range.mp hj)
  rw [Nat.succ_mul] at hword
  rw [List.drop_take, List.take_take, Nat.min_eq_left (by omega)]

theorem length_word (hlen : bs.length = n * w) {j : Nat} (hj : j < n) :
    ((bs.drop (j * w)).take w).length = w := by
  have hword : (j + 1) * w ≤ n * w := Nat.mul_le_mul_right _ hj
  rw [Nat.succ_mul] at hword
  rw [List.length_take, List.length_drop]
  omega

/-- The array takes each word of bytes that it takes. -/
theorem State.Takes.word {s : State} {a : Nat} (h : s.Takes a bs) (hlen : bs.length = n * w)
    {j : Nat} (hj : j < n) : s.Takes (a + j * w) ((bs.drop (j * w)).take w) := fun k hk => by
  have hword : (j + 1) * w ≤ n * w := Nat.mul_le_mul_right _ hj
  rw [Nat.succ_mul] at hword
  rw [length_word hlen hj] at hk
  have hbyte := h (j * w + k) (by omega)
  simpa [List.getD_eq_getElem?_getD, List.getElem?_take_of_lt hk, Nat.add_assoc] using hbyte

/-- Bytes are read where each of their words is. -/
theorem Memory.readBytes_of_words {m : Memory} {a : Nat} (hlen : bs.length = n * w)
    (h : ∀ j < n, Memory.readBytes m (a + j * w) w = (bs.drop (j * w)).take w) :
    Memory.readBytes m a bs.length = bs := by
  refine List.ext_getElem (Memory.length_readBytes ..) fun x h1 h2 => ?_
  have hw : 0 < w := Nat.pos_of_ne_zero (by rintro rfl; omega)
  have hj : x / w < n := Nat.div_lt_of_lt_mul (by rwa [Nat.mul_comm, ← hlen])
  have hk : x % w < w := Nat.mod_lt _ hw
  have hx : x / w * w + x % w = x := Nat.div_add_mod' x w
  have hbyte := congrArg (·.getD (x % w) 0) (h (x / w) hj)
  simp only [Memory.getD_readBytes _ _ hk, Nat.add_assoc, hx] at hbyte
  rw [← List.getD_eq_getElem _ 0 h1, Memory.getD_readBytes _ _ h2, hbyte]
  simp [List.getElem?_take_of_lt hk, hx, h2]

end

/-- Either all of the first `n` have a property, or there is a first that has not. -/
theorem forall_or_exists_first_not (P : Nat → Prop) (n : Nat) :
    (∀ j < n, P j) ∨ ∃ j < n, (∀ l < j, P l) ∧ ¬ P j := by
  classical
  by_cases h : ∃ j, j < n ∧ ¬ P j
  · obtain ⟨hlt, hno⟩ := Nat.find_spec h
    exact .inr ⟨_, hlt, fun l hl => not_not.mp fun hl' =>
      Nat.find_min h hl ⟨hl.trans hlt, hl'⟩, hno⟩
  · exact .inl (by simpa using h)

/-- A buffered program takes at most two answers (30_encoding.md R56). -/
theorem State.Buffers.answers_le {s : State} {b base a : Nat} {ds : List Word} {g g' : Stage}
    {k : Kind} (hc : (s.bank b).cmdset = .intelStyle) (h : s.Buffers b base a ds g k g') :
    g'.answers ≤ g.answers + 2 := by
  have hcost := doneCost_of_intel hc
  obtain ⟨-, _, _, _, -, ⟨-, -, rfl⟩ | ⟨-, _, _, _, -, -, rfl⟩⟩ := h
  · exact Nat.add_le_add_left (hcost.le.trans (by omega)) _
  · exact (Nat.add_le_add_left hcost.le _).trans (by rfl)

section
variable {u : State} {b a n i : Nat} {bs : List Byte} (hu : u.Between b)
include hu

theorem State.Between.wordsAt (hc : (u.bank b).cmdset = .intelStyle)
    (hbuf : (u.bank b).bufferSize ≠ 0) (ha : a % (u.bank b).bytes = 0)
    (hi : (u.bank b).sectorOf a = some i) (hfit : bufferFits (u.bank b) a n i = true) :
    u.WordsAt b a n i := by
  obtain ⟨hlt, h1, h2⟩ := Bank.sectorOf_some hi
  simp only [bufferFits, Bool.and_eq_true, decide_eq_true_eq] at hfit
  obtain ⟨⟨⟨_, _⟩, hend⟩, _⟩ := id hfit
  refine ⟨ha, hu.mode, hc, hbuf, hi, by simpa [bufferFits] using hfit, fun k hk => ?_⟩
  have hword : (k + 1) * (u.bank b).bytes ≤ n * (u.bank b).bytes := Nat.mul_le_mul_right _ hk
  have hpos := (u.bank b).bytes_pos
  rw [Nat.succ_mul] at hword
  exact hu.wf.word_inArray hlt (by rw [Nat.add_mul_mod_self_right, ha]) (by omega) (by omega)

theorem programBufferIntel_writesBytes (hw : u.WordsAt b a n i)
    (hlen : bs.length = n * (u.bank b).bytes) (hn : 0 < n) :
    ∃ k es t,
      programBufferIntel b a (wordsAt u.params.hostByteOrder (u.bank b).bytes n bs) u = .ok k t ∧
      u.WritesBytes b a bs k es t := by
  have hpos := (u.bank b).bytes_pos
  have hbytes : 0 < bs.length := hlen ▸ Nat.mul_pos hn hpos
  have hcover (x : Nat)
      (hx : x < (u.bank b).wordStart a ∨ (u.bank b).wordStop (a + bs.length) ≤ x) :
      x < a ∨ a + bs.length ≤ x :=
    hx.imp (lt_of_lt_of_le · Bank.wordStart_le_self) Bank.le_wordStop.trans
  generalize hds : wordsAt u.params.hostByteOrder (u.bank b).bytes n bs = ds
  obtain rfl : ds.length = n := hds ▸ length_wordsAt
  have hword {j : Nat} (hj : j < ds.length) : ds.getD j 0 = wordOf u.params.hostByteOrder
      ((bs.drop (j * (u.bank b).bytes)).take (u.bank b).bytes) := by
    rw [← getD_wordsAt hj, hds]
  have hbase := hu.wf.accepts_sectorStart (Bank.sectorOf_some hw.sector).1
  rcases forall_or_exists_first_not (fun j => u.arrayWord b (a + j * (u.bank b).bytes) &&&
    ds.getD j 0 = ds.getD j 0) ds.length with hold | ⟨j, hj, hbefore, hno⟩
  · have hport : ∀ d ∈ ds, toPort (u.bank b).portWidth d = d := fun d hd => by
      obtain ⟨j, hj, rfl⟩ := List.mem_iff_getElem.mp hd
      rw [← List.getD_eq_getElem _ 0 hj, hword hj, toPort_wordOf (length_word hlen hj)]
    obtain ⟨k, t, hrun, _, ⟨g, m, hg, rfl, hout, hin⟩, ht⟩ :=
      hu.runsTo.programBufferIntel hu.memory hw hbase hport hold
    obtain ⟨hkinds, hidle, hmode, hie, -⟩ := hg.settles
    obtain ⟨hdone, -⟩ := id hg
    have hanswers : g.answers ≤ 2 := (hg.answers_le hw.intel).trans (by rfl)
    rw [← hlen] at hout
    refine ⟨k, _, t, hrun, {
      (ht.passed hidle hmode hie).mono (hanswers.trans (by omega : 2 ≤ 2 * bs.length)) with
      regs := ht.regs
      kinds := by tauto
      done := fun hd _ => hdone (hd.mono (by simp [State.readsStage, State.stage]; omega))
      covered := fun x hx => ht.sameOutside hout x (hcover x hx)
      outside := fun _ => ht.sameOutside hout
      written := fun hk => Memory.readBytes_of_words hlen fun j hj => ?_ }⟩
    have hnew := (ht.arrayWord _).trans (hin hk j hj)
    rw [hword hj, ← ht.params] at hnew
    rw [← ht.built.bytes] at hnew ⊢
    exact (State.arrayWord_eq_wordOf_iff (by rw [ht.built.bytes, length_word hlen hj])).mp hnew
  · obtain ⟨p, hrun⟩ := programBufferIntel_notErased hw hu.noReset hj hbefore hno
    have hframe : RegsFrame b u _ :=
      (hrun ▸ programBufferIntel_stays (RegsFrame.opClosed b) hu.hasBank a ds).1
    refine ⟨_, _, _, hrun, { hframe.builtFrame with
      mode := hu.mode
      idle := hu.idle
      ie := rfl
      events := rfl
      answers := fun n hn => (State.Passed.refl hu).answers n (hn.mono (by omega))
      regs := .refl _
      kinds := .inr (.inl ⟨_, rfl⟩)
      done := fun _ htakes => absurd ?_ hno
      covered := fun _ _ => rfl
      outside := by simp
      written := by simp }⟩
    rw [hword hj]
    exact (htakes.word hlen hj).arrayWord (length_word hlen hj)

end

end Sys2Proof.Machine
end

section
/-! PROOFS. write_buff (43_facade.md R109; O51): head, buffered programs, words and tail, as the
operation runs them and as rows of their own. -/

namespace Sys2Proof.Machine

/-! ### The rows, one at a time -/

section
variable {o : ByteOrder} {bk : Bank} {b p fuel : Nat} {bs : List Byte}

theorem bodyRows_buffer (h : bk.bufferSize ≠ 0 ∧ bk.bufferSize ≤ bs.length) :
    bodyRows o bk b (fuel + 1) p bs =
      .programBufferIntel b p (wordsAt o bk.bytes (chunkBytes bk p / bk.bytes) bs) ::
        bodyRows o bk b fuel (p + chunkBytes bk p) (bs.drop (chunkBytes bk p)) := if_pos h

theorem bodyRows_word (h : ¬ (bk.bufferSize ≠ 0 ∧ bk.bufferSize ≤ bs.length))
    (hw : bk.bytes ≤ bs.length) : bodyRows o bk b (fuel + 1) p bs =
      programRow bk b p (wordOf o (bs.take bk.bytes)) ::
        bodyRows o bk b fuel (p + bk.bytes) (bs.drop bk.bytes) :=
  (if_neg h).trans (if_pos hw)

theorem bodyRows_tail (h : ¬ (bk.bufferSize ≠ 0 ∧ bk.bufferSize ≤ bs.length))
    (hw : ¬ bk.bytes ≤ bs.length) (hne : bs ≠ []) :
    bodyRows o bk b (fuel + 1) p bs = [.writeMerged b p 0 bs] :=
  (if_neg h).trans ((if_neg hw).trans (if_neg hne))

theorem bodyRows_nil : ∀ fuel, bodyRows o bk b fuel p [] = []
  | 0 => rfl
  | fuel + 1 => (if_neg (by simp)).trans
      ((if_neg (by simpa using bk.bytes_pos.ne')).trans (if_pos rfl))

end

/-- The row of a buffered program, called where an operation stands between two sequences. -/
theorem exec_programBufferIntel {u t : State} {b a n : Nat} {k : Kind} {bs : List Byte}
    (hu : u.Between b) (hc : (u.bank b).cmdset = .intelStyle)
    (hlen : bs.length = n * (u.bank b).bytes)
    (h : programBufferIntel b a (wordsAt u.params.hostByteOrder (u.bank b).bytes n bs) u = .ok k t)
    (x : Option Result) : exec (.programBufferIntel b a
      (wordsAt u.params.hostByteOrder (u.bank b).bytes n bs)) (u.placed none x) =
        .next (t.leave (some (.status k))) := by
  refine exec_of_piece hu (programBufferIntel_blind b a _) (fun _ => rfl) (fun v hv => ?_) h x
  have hbank := State.bank_eq_of_banks hv b
  have hport : (wordsAt u.params.hostByteOrder (u.bank b).bytes n bs).map
      (toPort (u.bank b).portWidth) = wordsAt u.params.hostByteOrder (u.bank b).bytes n bs := by
    rw [wordsAt, List.map_map]
    exact List.map_congr_left fun j hj => toPort_wordOf (length_word hlen (List.mem_range.mp hj))
  rw [onKnown_of_known (by rw [hbank]; exact hu.known),
    onVariant_of (by rw [hbank]; exact .inr hc), hbank, hport]

/-! ### The chunks of the buffered body (R109, step 2a) -/

/-- A chunk is whole words that one buffered program takes. -/
theorem Bank.Wf.chunkBytes_fits {p : Params} {bk : Bank} {a i : Nat} (w : Bank.Wf p bk)
    (hk : bk.vendorId ≠ .unknown) (hbuf : bk.bufferSize ≠ 0) (ha : a % bk.bytes = 0)
    (hi : bk.sectorOf a = some i) :
    ∃ n, 0 < n ∧ chunkBytes bk a = n * bk.bytes ∧ n * bk.bytes ≤ bk.bufferSize ∧
      bufferFits bk a n i = true := by
  obtain ⟨hlt, hlow, hhigh⟩ := Bank.sectorOf_some hi
  obtain ⟨hbase, -, -⟩ := w.extent hlt
  obtain ⟨hwhole, -, -⟩ := w.buffer hk
  have hpos := bk.bytes_pos
  have hwindow : (a - bk.baseAddress) % bk.bufferSize < bk.bufferSize :=
    Nat.mod_lt _ (Nat.pos_of_ne_zero hbuf)
  have hchunk : chunkBytes bk a = min (bk.bufferSize - (a - bk.baseAddress) % bk.bufferSize)
      (bk.sectorEnd i - a) := by rw [chunkBytes, hi]
  have hdvd : bk.bytes ∣ chunkBytes bk a := by
    have hda : bk.bytes ∣ a := Nat.dvd_of_mod_eq_zero ha
    have hdbuf : bk.bytes ∣ bk.bufferSize := Nat.dvd_of_mod_eq_zero hwhole
    have hdbase : bk.bytes ∣ bk.baseAddress :=
      Nat.dvd_of_mod_eq_zero (bk.aligned_of_four w.baseAligned)
    have hdend : bk.bytes ∣ bk.sectorEnd i :=
      Nat.dvd_of_mod_eq_zero (bk.aligned_of_four (w.sectorStart_aligned (i + 1)))
    rw [hchunk]
    rcases min_choice (bk.bufferSize - (a - bk.baseAddress) % bk.bufferSize) (bk.sectorEnd i - a)
      with h | h <;> rw [h]
    · exact Nat.dvd_sub hdbuf ((Nat.dvd_mod_iff hdbuf).mpr (Nat.dvd_sub hda hdbase))
    · exact Nat.dvd_sub hdend hda
  obtain ⟨n, hn⟩ := hdvd
  rw [Nat.mul_comm] at hn
  have hn0 : 0 < n := Nat.pos_of_ne_zero fun h => by
    rw [h] at hn
    omega
  refine ⟨n, hn0, hn, by omega, ?_⟩
  simp only [bufferFits, Bool.and_eq_true, decide_eq_true_eq]
  omega

theorem Bank.SameBuilt.chunkBytes {x y : Bank} (h : x.SameBuilt y) (a : Nat) :
    chunkBytes y a = chunkBytes x a := by
  simp only [Machine.chunkBytes, h.bufferSize, h.baseAddress, h.sectorOf, h.sectorEnd]

theorem Bank.SameBuilt.programRow {x y : Bank} (h : x.SameBuilt y) (b a : Nat) (d : Word) :
    programRow y b a d = programRow x b a d := by
  simp only [Machine.programRow, h.cmdset]

/-! ### Where the body stands -/

/-- An operation on bank `b`, `bk` at its start, stands before the `n` bytes from `p` on. -/
structure State.Writing (s : State) (o : ByteOrder) (bk : Bank) (b p n : Nat) : Prop
    extends s.Between b where
  order : s.params.hostByteOrder = o
  regs : bk.SameRegs (s.bank b)
  aligned : 0 < n → p % bk.bytes = 0
  low : bk.baseAddress ≤ p
  high : p + n ≤ bk.baseAddress + bk.size

/-- The bytes from `p` on have been written with the result `k`, by the operation as by its rows. -/
structure State.Ends (s : State) (o : ByteOrder) (bk : Bank) (b p : Nat) (bs : List Byte) (k : Kind)
    (t : State) : Prop where
  bytes : ∃ es, s.WritesBytes b p bs k es t
  rows : ∀ fuel, bs.length ≤ fuel → s.RowsTo (bodyRows o bk b fuel p bs) k t

/-- Part of the bytes from `p` on has been written with the result `k`; on `Ok` those of `rest` are
still to write, from `q` on. -/
structure State.Comes (s : State) (o : ByteOrder) (bk : Bank) (b p : Nat) (bs : List Byte)
    (k : Kind) (q : Nat) (rest : List Byte) (v : State) : Prop where
  failed : k ≠ .ok → s.Ends o bk b p bs k v
  still : k = .ok → v.Writing o bk b q rest.length
  ends : k = .ok → ∀ {k' : Kind} {t : State}, v.Ends o bk b q rest k' t → s.Ends o bk b p bs k' t

section
variable {s v t : State} {o : ByteOrder} {bk : Bank} {b p q r n : Nat} {bs cs ds : List Byte}
  {k : Kind}

theorem State.Writing.sectorOf (h : s.Writing o bk b p n) (hn : 0 < n) :
    ∃ i, (s.bank b).sectorOf p = some i := by
  have hlow := h.low
  have hhigh := h.high
  refine (h.wf.sectorOf_isSome_iff p).mp ?_
  rw [h.regs.sameBuilt.baseAddress, h.regs.sameBuilt.size]
  omega

/-- Where an operation stands after the first bytes. -/
theorem State.Writing.next {es : List BusEvent} (h : s.Writing o bk b p (bs ++ cs).length)
    (hv : s.WritesBytes b p bs k es v) (hw : 0 < cs.length → bs.length % bk.bytes = 0) :
    v.Writing o bk b (p + bs.length) cs.length where
  toBetween := hv.between h.toBetween
  order := hv.params ▸ h.order
  regs := h.regs.trans hv.regs
  aligned hn := by
    rw [Nat.add_mod, h.aligned (by simp; omega), hw hn]
    rfl
  low := h.low.trans (Nat.le_add_right ..)
  high := by
    have hhigh := h.high
    rw [List.length_append] at hhigh
    omega

theorem State.Ends.nil (h : s.Between b) : s.Ends o bk b p [] .ok s :=
  ⟨⟨[], .nil h p⟩, fun fuel _ => by rw [bodyRows_nil]; exact .nil s⟩

theorem State.Comes.refl (h : s.Writing o bk b p bs.length) :
    s.Comes o bk b p bs .ok p bs s := ⟨fun h => absurd rfl h, fun _ => h, fun _ _ _ h => h⟩

theorem State.Comes.trans (h : s.Comes o bk b p bs .ok q cs v)
    (h' : v.Comes o bk b q cs k r ds t) : s.Comes o bk b p bs k r ds t :=
  ⟨fun hk => h.ends rfl (h'.failed hk), h'.still, fun hk _ _ ht => h.ends rfl (h'.ends hk ht)⟩

/-- Where a part has failed, no bytes are still to write. -/
theorem State.Comes.of_failed (h : s.Comes o bk b p bs k q cs v) (hk : k ≠ .ok) :
    s.Comes o bk b p bs k r ds v :=
  ⟨h.failed, fun h => absurd h hk, fun h => absurd h hk⟩

/-- One row that writes the first bytes. -/
theorem State.Comes.piece {j : Instr} {es : List BusEvent}
    (hs : s.Writing o bk b p (bs ++ cs).length) (hne : bs ≠ [])
    (hw : bs.length % bk.bytes = 0) (hv : s.WritesBytes b p bs k es v)
    (hexec : ∀ x, exec j (s.placed none x) = .next (v.leave (some (.status k))))
    (hrows : ∀ fuel, bodyRows o bk b (fuel + 1) p (bs ++ cs) =
      j :: bodyRows o bk b fuel (p + bs.length) cs) :
    s.Comes o bk b p (bs ++ cs) k (p + bs.length) cs v := by
  have hpos := List.length_pos_iff.mpr hne
  have hfuel {fuel : Nat} (h : (bs ++ cs).length ≤ fuel) :
      ∃ f, fuel = f + 1 ∧ cs.length ≤ f := by
    rw [List.length_append] at h
    exact ⟨fuel - 1, by omega, by omega⟩
  refine ⟨fun hk => ⟨⟨es, hv.stop hk cs⟩, fun fuel hf => ?_⟩, fun _ => hs.next hv fun _ => hw,
    fun hk k' t ht => ?_⟩
  · obtain ⟨f, rfl, -⟩ := hfuel hf
    rw [hrows]
    exact .stop hexec hk
  · subst hk
    obtain ⟨⟨fs, hbytes⟩, hrest⟩ := ht
    refine ⟨⟨es ++ fs, hv.append hbytes⟩, fun fuel hf => ?_⟩
    obtain ⟨f, rfl, hf'⟩ := hfuel hf
    rw [hrows]
    exact .cons hexec (hrest f hf')

end

/-! ### The body and the tail -/

section
variable {s : State} {o : ByteOrder} {bk : Bank} {b p fuel : Nat} {bs : List Byte}

/-- One chunk of the buffered body (step 2a). -/
theorem programBufferIntel_comes (hs : s.Writing o bk b p bs.length)
    (h : bk.bufferSize ≠ 0 ∧ bk.bufferSize ≤ bs.length) :
    let nb := chunkBytes bk p
    ∃ k v, programBufferIntel b p (wordsOf o bk.bytes (nb / bk.bytes) (bs.take nb)) s = .ok k v ∧
      0 < nb ∧ s.Comes o bk b p bs k (p + nb) (bs.drop nb) v := by
  intro nb
  have hsame := hs.regs.sameBuilt
  have hbytes := hsame.bytes
  have hbuf : (s.bank b).bufferSize ≠ 0 := hsame.bufferSize ▸ h.1
  have hintel : (s.bank b).cmdset = .intelStyle := hs.variant.resolve_right fun hc => by
    obtain ⟨-, -, hamd⟩ := hs.wf.buffer hs.known
    exact hbuf (hamd hc)
  have halign : p % (s.bank b).bytes = 0 := hbytes ▸ hs.aligned (by omega)
  obtain ⟨i, hi⟩ := hs.sectorOf (by omega)
  obtain ⟨n, hn, hnb, hle, hfit⟩ := hs.wf.chunkBytes_fits hs.known hbuf halign hi
  have hpos := Nat.mul_pos hn (s.bank b).bytes_pos
  replace hnb : nb = n * (s.bank b).bytes := (hsame.chunkBytes p).symm.trans hnb
  rw [hsame.bufferSize] at hle
  obtain ⟨pre, rest, rfl, hlen⟩ : ∃ pre rest, bs = pre ++ rest ∧ pre.length = nb :=
    ⟨bs.take nb, bs.drop nb, (List.take_append_drop ..).symm, List.length_take_of_le (by omega)⟩
  have hcount : nb / bk.bytes = n := by
    rw [← hbytes, hnb, Nat.mul_div_cancel _ (s.bank b).bytes_pos]
  obtain ⟨k, es, v, hrun, hv⟩ := programBufferIntel_writesBytes hs.toBetween
    (hs.wordsAt hintel hbuf halign hi hfit) (hlen.trans hnb) hn
  have hexec := exec_programBufferIntel hs.toBetween hintel (hlen.trans hnb) hrun
  rw [hs.order, hbytes] at hrun hexec
  have htake : (pre ++ rest).take nb = pre := List.take_left' hlen
  have hdrop : (pre ++ rest).drop nb = rest := List.drop_left' hlen
  have hwords : wordsAt o bk.bytes n (pre ++ rest) = wordsAt o bk.bytes n pre := by
    rw [← wordsAt_take, ← hbytes, ← hnb, htake]
  rw [wordsOf_eq_wordsAt, hcount, htake, hdrop, ← hlen]
  refine ⟨k, v, hrun, by omega, .piece hs (List.length_pos_iff.mp (by omega))
    (by rw [hlen, hnb, hbytes, Nat.mul_mod_left]) hv hexec fun fuel => ?_⟩
  rw [bodyRows_buffer h, hcount, hwords, hlen, hdrop]

/-- Step 2a. -/
theorem writeBuffered_comes : ∀ (fuel : Nat) {p : Nat} {bs : List Byte} {s : State},
    s.Writing o bk b p bs.length → bs.length ≤ fuel →
    ∃ r v, writeBuffered b fuel p bs s = .ok r v ∧
      s.Comes o bk b p bs r.kind r.at_ r.rest v ∧
      (r.kind = .ok → ¬ (bk.bufferSize ≠ 0 ∧ bk.bufferSize ≤ r.rest.length))
  | 0, p, bs, s, hs, hf => ⟨_, s, rfl, .refl hs, fun _ => by
      show ¬ (_ ∧ _ ≤ bs.length)
      omega⟩
  | fuel + 1, p, bs, s, hs, hf => by
    have hsame := hs.regs.sameBuilt
    rw [writeBuffered]
    simp only [hsame.bufferSize, hsame.chunkBytes, hsame.bytes, hs.order]
    split
    · next hend => exact ⟨_, s, rfl, .refl hs, fun _ => by
        show ¬ (_ ∧ _ ≤ bs.length)
        omega⟩
    · next hmore =>
      obtain ⟨k, v, hrun, hpos, hcomes⟩ := programBufferIntel_comes hs (by omega)
      rw [hrun, Res.bind_ok]
      by_cases hk : k = .ok
      · subst hk
        obtain ⟨r, t, hrest, ht, hend⟩ := writeBuffered_comes fuel (hcomes.still rfl)
          (by rw [List.length_drop]; omega)
        exact ⟨r, t, hrest, hcomes.trans ht, hend⟩
      · exact ⟨_, v, if_pos hk, hcomes.of_failed hk, fun h => absurd h hk⟩

/-- One word of the body (step 2b). -/
theorem programWord_comes (hs : s.Writing o bk b p bs.length)
    (h : ¬ (bk.bufferSize ≠ 0 ∧ bk.bufferSize ≤ bs.length)) (hlen : bk.bytes ≤ bs.length) :
    ∃ k v, programWord b p (wordOf o (bs.take bk.bytes)) s = .ok k v ∧
      s.Comes o bk b p bs k (p + bk.bytes) (bs.drop bk.bytes) v := by
  have hbytes := hs.regs.sameBuilt.bytes
  have hpos := bk.bytes_pos
  have halign : p % (s.bank b).bytes = 0 := hbytes ▸ hs.aligned (by omega)
  obtain ⟨i, hi⟩ := hs.sectorOf (by omega)
  obtain ⟨pre, rest, rfl, hpre⟩ : ∃ pre rest, bs = pre ++ rest ∧ pre.length = bk.bytes :=
    ⟨_, _, (List.take_append_drop bk.bytes bs).symm, List.length_take_of_le hlen⟩
  have hword := hpre.trans hbytes.symm
  obtain ⟨k, es, v, hrun, hv⟩ := programWord_programsWord hs.toBetween halign hi hword
  have hexec := exec_programRow hs.toBetween (toPort_wordOf hword) hrun
  rw [hs.order] at hrun hexec
  rw [hs.regs.sameBuilt.programRow] at hexec
  rw [List.take_left' hpre, List.drop_left' hpre, ← hpre]
  refine ⟨k, v, hrun, .piece hs (List.length_pos_iff.mp (by omega)) (by rw [hpre, Nat.mod_self])
    (hv.writesBytes halign hword) hexec fun fuel => ?_⟩
  rw [bodyRows_word h hlen, List.take_left' hpre, List.drop_left' hpre, hpre]

/-- Step 2b. -/
theorem writeBody_comes : ∀ (fuel : Nat) {p : Nat} {bs : List Byte} {s : State},
    s.Writing o bk b p bs.length → ¬ (bk.bufferSize ≠ 0 ∧ bk.bufferSize ≤ bs.length) →
    bs.length ≤ fuel →
    ∃ r v, writeBody b fuel p bs s = .ok r v ∧
      s.Comes o bk b p bs r.kind r.at_ r.rest v ∧
      (r.kind = .ok → ¬ (bk.bufferSize ≠ 0 ∧ bk.bufferSize ≤ r.rest.length) ∧
        r.rest.length < bk.bytes)
  | 0, p, bs, s, hs, hno, hf => ⟨_, s, rfl, .refl hs, fun _ =>
      ⟨hno, hf.trans_lt bk.bytes_pos⟩⟩
  | fuel + 1, p, bs, s, hs, hno, hf => by
    rw [writeBody]
    simp only [hs.regs.sameBuilt.bytes, hs.order]
    split
    · next hend => exact ⟨_, s, rfl, .refl hs, fun _ => ⟨hno, hend⟩⟩
    · next hmore =>
      have hpos := bk.bytes_pos
      obtain ⟨k, v, hrun, hcomes⟩ := programWord_comes hs hno (by omega)
      rw [hrun, Res.bind_ok]
      by_cases hk : k = .ok
      · subst hk
        obtain ⟨r, t, hrest, ht, hend⟩ := writeBody_comes fuel (hcomes.still rfl)
          (by rw [List.length_drop]; omega) (by rw [List.length_drop]; omega)
        exact ⟨r, t, hrest, hcomes.trans ht, hend⟩
      · exact ⟨_, v, if_pos hk, hcomes.of_failed hk, fun h => absurd h hk⟩

/-- Step 3. -/
theorem writeTail_ends (hs : s.Writing o bk b p bs.length)
    (h : ¬ (bk.bufferSize ≠ 0 ∧ bk.bufferSize ≤ bs.length)) (hlen : bs.length < bk.bytes) :
    ∃ k v, writeTail b p bs s = .ok k v ∧ s.Ends o bk b p bs k v := by
  unfold writeTail
  split
  · next hnil => exact ⟨.ok, s, rfl, hnil ▸ .nil hs.toBetween⟩
  · next hne =>
    have hbytes := hs.regs.sameBuilt.bytes
    have hpos := List.length_pos_iff.mpr hne
    obtain ⟨i, hi⟩ := hs.sectorOf hpos
    obtain ⟨k, es, v, hrun, hv⟩ := writeMerged_writesBytes hs.toBetween
      (hbytes ▸ hs.aligned hpos) hi hne (off := 0) (by omega)
    refine ⟨k, v, hrun, ⟨es, hv⟩, fun fuel hf => ?_⟩
    obtain ⟨f, rfl⟩ : ∃ f, fuel = f + 1 := ⟨fuel - 1, by omega⟩
    have hexec := exec_writeMerged hs.toBetween hrun
    rw [bodyRows_tail h (by omega) hne]
    by_cases hk : k = .ok
    · subst hk
      exact .cons hexec (.nil v)
    · exact .stop hexec hk

/-- Steps 2a, 2b and 3, as `writeSteps` runs them after the head. -/
def writeRest (b p : Nat) (bs : List Byte) (s : State) : Res Kind :=
  (writeBuffered b bs.length p bs s).bind fun u s =>
  if u.kind ≠ .ok then .ok u.kind s
  else
    (writeBody b u.rest.length u.at_ u.rest s).bind fun v s =>
    if v.kind ≠ .ok then .ok v.kind s
    else writeTail b v.at_ v.rest s

theorem writeSteps_eq (b : Nat) (src : List Byte) (dest : Nat) (s : State) :
    writeSteps b src dest s = (writeHead b dest src s).bind fun h s =>
      if h.kind ≠ .ok then .ok h.kind s else writeRest b h.at_ h.rest s := rfl

theorem writeRest_ends (hs : s.Writing o bk b p bs.length) :
    ∃ k t, writeRest b p bs s = .ok k t ∧ s.Ends o bk b p bs k t := by
  obtain ⟨r, u, hbuffered, hr, hrend⟩ := writeBuffered_comes _ hs le_rfl
  rw [writeRest, hbuffered, Res.bind_ok]
  by_cases hrk : r.kind = .ok
  · rw [if_neg (by simpa using hrk)]
    rw [hrk] at hr
    obtain ⟨q, v, hbody, hq, hqend⟩ := writeBody_comes _ (hr.still rfl) (hrend hrk) le_rfl
    rw [hbody, Res.bind_ok]
    by_cases hqk : q.kind = .ok
    · rw [if_neg (by simpa using hqk)]
      obtain ⟨hno, hlen⟩ := hqend hqk
      obtain ⟨k, t, htail, ht⟩ := writeTail_ends (hq.still hqk) hno hlen
      exact ⟨k, t, htail, hr.ends rfl (hq.ends hqk ht)⟩
    · exact ⟨_, v, if_pos hqk, hr.ends rfl (hq.failed hqk)⟩
  · exact ⟨_, u, if_pos hrk, hr.failed hrk⟩

/-! ### The head -/

/-- The word of a byte of the bank is in a sector. -/
theorem State.Between.sectorOf_word (hs : s.Between b) (hlow : (s.bank b).baseAddress ≤ p)
    (hhigh : p < (s.bank b).baseAddress + (s.bank b).size) :
    ∃ i, (s.bank b).sectorOf (p - p % (s.bank b).bytes) = some i := by
  refine (hs.wf.sectorOf_isSome_iff _).mp ⟨?_, by omega⟩
  have hbase := Nat.div_add_mod (s.bank b).baseAddress (s.bank b).bytes
  rw [(s.bank b).aligned_of_four hs.wf.baseAligned] at hbase
  have hp := Nat.div_add_mod p (s.bank b).bytes
  have hle := Nat.mul_le_mul_left (s.bank b).bytes
    (Nat.div_le_div_right (c := (s.bank b).bytes) hlow)
  omega

/-- The steps of `write_buff`, and its rows. -/
theorem writeSteps_writesBytes (hs : s.Between b) (hne : bs ≠ [])
    (hlow : (s.bank b).baseAddress ≤ p)
    (hhigh : p + bs.length ≤ (s.bank b).baseAddress + (s.bank b).size) :
    ∃ k es t, writeSteps b bs p s = .ok k t ∧ s.WritesBytes b p bs k es t ∧
      s.RowsTo (writeRows s.params.hostByteOrder (s.bank b) b p bs) k t := by
  have hpos := List.length_pos_iff.mpr hne
  have hmod := Nat.mod_lt p (s.bank b).bytes_pos
  rw [writeSteps_eq, writeHead, writeRows]
  by_cases hoff : p % (s.bank b).bytes = 0
  · simp only [hoff, if_true, Res.bind_ok]
    obtain ⟨k, t, hrun, ⟨es, hbytes⟩, hrows⟩ := writeRest_ends (s := s) (bs := bs)
      ⟨hs, rfl, .refl _, fun _ => hoff, hlow, hhigh⟩
    exact ⟨k, es, t, hrun, hbytes, hrows _ le_rfl⟩
  · simp only [hoff, if_false]
    generalize hn : min ((s.bank b).bytes - p % (s.bank b).bytes) bs.length = n
    obtain ⟨pre, rest, rfl, hpre⟩ : ∃ pre rest, bs = pre ++ rest ∧ pre.length = n :=
      ⟨_, _, (List.take_append_drop n bs).symm, List.length_take_of_le (by omega)⟩
    rw [List.length_append] at hpos hhigh hn
    obtain ⟨i, hi⟩ := hs.sectorOf_word hlow (by omega)
    obtain ⟨k, es, v, hrun, hv⟩ := writeMerged_writesBytes hs (off := p % (s.bank b).bytes)
      (by rw [← Nat.div_add_mod p (s.bank b).bytes]; simp) hi
      (List.length_pos_iff.mp (by omega : 0 < pre.length)) (by omega)
    rw [Nat.sub_add_cancel (Nat.mod_le ..)] at hv
    have hexec := exec_writeMerged hs hrun
    rw [List.take_left' hpre, List.drop_left' hpre, hrun, Res.bind_ok, ← hpre]
    by_cases hk : k = .ok
    · subst hk
      have hw : v.Writing s.params.hostByteOrder (s.bank b) b (p + pre.length) rest.length :=
        { hv.between hs with
          order := congrArg _ hv.params
          regs := hv.regs
          aligned := fun hrest => by
            have hp := Nat.div_add_mod p (s.bank b).bytes
            rw [show p + pre.length = (s.bank b).bytes * (p / (s.bank b).bytes + 1) by
              rw [Nat.mul_succ]; omega, Nat.mul_mod_right]
          low := by omega
          high := by omega }
      obtain ⟨k, t, hrest, ⟨fs, hbytes⟩, hrows⟩ := writeRest_ends hw
      exact ⟨k, _, t, hrest, hv.append hbytes, .cons hexec (hrows _ (by simp))⟩
    · exact ⟨k, es, v, if_pos hk, hv.stop hk rest, .stop hexec hk⟩

end

/-- Settles O51: the steps of the operation and its rows write the same bytes
(`writeSteps_writesBytes`). -/
theorem writeBuffRoundTrip : Obligations.WriteBuffRoundTrip := by
  intro s b dest src hs hidle hm hne hlow hhigh w lo hi
  have hu := hs.between hm hidle (.writeBuff b src dest src.length)
  obtain ⟨k, es, t, hrun, ht, hrows⟩ := writeSteps_writesBytes hu hne hlow hhigh
  have hbody := (writeBuff_of_inside (s := s.enter (.writeBuff b src dest src.length)) hs.known
    hne hlow hhigh).trans (congrArg asStatus hrun)
  have hexec := exec_of_body (t := t) (p := t.position) (x := t.result) hs.ready rfl hbody
  refine ⟨hexec.trans (hrows.of_call hs.ready.idle).symm, _, k, hexec, rfl, ht.kinds,
    fun n hn hd htakes => ht.done (hd.mono hn) htakes, ht.settled hs.ready.noReset _, ht.regs,
    fun x hx => ht.covered x ?_, fun hk => ⟨ht.written hk, ht.outside hk⟩⟩
  show x < lo ∨ hi ≤ x
  omega

end Sys2Proof.Machine
end

section
/-! PROOFS. flash_init (43_facade.md R105; O44): Identify and ProbeProtection bank by bank, as the
operation runs them and as rows of their own. -/

namespace Sys2Proof.Machine

/-! ### Passes of a later state -/

section
variable {s v : State} {b k : Nat}

/-- A pass depends on the parameters and the answers to come only. -/
theorem State.pass_shift (hp : v.params = s.params) (ha : ∀ n, v.answerAt n = s.answerAt (k + n))
    (bk : Bank) (n : Nat) : v.pass bk n = s.pass bk (k + n) := by
  simp only [State.pass, State.wordAt, hp, ha, Nat.add_assoc]

theorem State.Detects.shift {bk : Bank} (h : v.Detects b bk) (hp : v.params = s.params)
    (ha : ∀ n, v.answerAt n = s.answerAt (k + n)) (hb : v.bank b = s.bank b) :
    s.Detects b bk := by
  obtain ⟨pc, hpc, o, n, hfound⟩ := h
  exact ⟨pc, hp ▸ hpc, o, k + n, by rw [← hb, ← State.pass_shift hp ha, hfound]⟩

theorem State.mem_passes_pair {bk : Bank} {ps : Pass} :
    ∀ {pcs : List (PortWidth × ChipWidth)} {n : Nat}, ps ∈ s.passes bk pcs n →
      ∃ pc ∈ pcs, ∃ o k, ps = s.pass (Bank.atWidths pc.1 pc.2 o bk) k
  | [], _, h => by cases h
  | pc :: rest, n, h => by
    rw [s.passes_cons bk pc rest n ps] at h
    rcases List.mem_append.mp h with h | h
    · exact ⟨pc, List.mem_cons_self, State.mem_pairPasses h⟩
    · split at h
      · cases h
      · obtain ⟨qc, hqc, hpass⟩ := State.mem_passes_pair h
        exact ⟨qc, List.mem_cons_of_mem _ hqc, hpass⟩

end

/-! ### One bank -/

/-- What `flash_init` makes of bank `b` of `s`: `bk'`. -/
structure State.InitsBank (s : State) (b : Nat) (bk' : Bank) : Prop where
  mode : (s.bank b).vendorId = .unknown ∨ (s.bank b).sectors ≠ [] ∨
    (s.bank b).device.mode = .readArray → bk'.device.mode = .readArray
  built : (s.bank b).vendorId ≠ .unknown → (s.bank b).SameBuilt bk'
  found : (s.bank b).vendorId = .unknown → bk'.vendorId ≠ .unknown →
    ∃ bk, s.Detects b bk ∧ bk.SameBuilt bk'

/-- From `s`, a part of `flash_init` on bank `b` has come to `t`. -/
structure State.InitsTo (s : State) (b : Nat) (t : State) : Prop extends State.Frame b s t where
  inv : t.Inv
  memory : t.memory = s.memory
  idle : s.seq.smState = .idle → t.seq.smState = .idle
  answers : ∃ k, ∀ n, t.answerAt n = s.answerAt (k + n)
  bank : s.InitsBank b (t.bank b)

section
variable {s t u : State} {b : Nat}

/-- A bank found is probed. -/
theorem State.InitsTo.trans (h : s.InitsTo b t) (hk : (t.bank b).vendorId ≠ .unknown)
    (h' : t.InitsTo b u) : s.InitsTo b u where
  params := h'.params.trans h.params
  initDone := h'.initDone.trans h.initDone
  calls := h'.calls.trans h.calls
  position := h'.position
  count := h'.count.trans h.count
  others c hc := (h'.others c hc).trans (h.others c hc)
  ie := h'.ie.trans h.ie
  noReset := h'.noReset
  timer := h.timer.trans h'.timer
  inv := h'.inv
  memory := h'.memory.trans h.memory
  idle hidle := h'.idle (h.idle hidle)
  answers := by
    obtain ⟨k, hk⟩ := h.answers
    obtain ⟨k', hk'⟩ := h'.answers
    exact ⟨k + k', fun n => by rw [hk', hk, Nat.add_assoc]⟩
  bank :=
    { mode := fun hm => h'.bank.mode (.inr (.inr (h.bank.mode hm)))
      built := fun hs => (h.bank.built hs).trans (h'.bank.built hk)
      found := fun hs _ => by
        obtain ⟨bk, hbk, hsame⟩ := h.bank.found hs hk
        exact ⟨bk, hbk, hsame.trans (h'.bank.built hk)⟩ }

variable (hs : s.Ready b) (hi : s.Inv) (hd : s.initDone = false)
include hs hi hd

theorem identify_inits (hu : (s.bank b).vendorId = .unknown) :
    (∃ t, exec (.identify b) s = .next t ∧ s.InitsTo b t) ∨
      (∃ bk, s.Detects b bk ∧ ¬ s.RangeOk b (bk.baseAddress + bk.size)) ∧
        exec (.identify b) s = .refused .illFormedConfig := by
  obtain ⟨-, last, hlast, hend⟩ := identifyOutcome s b hs hi hd hu
  obtain ⟨pc, hpc, o, k, hpass⟩ := State.mem_passes_pair (List.mem_of_getLast? hlast)
  cases hfound : last.found with
  | some bk =>
    rw [hfound] at hend
    have hdetects : s.Detects b bk := ⟨pc, hpc, o, k, hpass ▸ hfound⟩
    obtain ⟨-, -, -, hok, hno⟩ := hend
    by_cases hrange : s.RangeOk b (bk.baseAddress + bk.size)
    · obtain ⟨t, hrow, ⟨-, hframe, hmem, hseq, -, -, hdevice, hanswers⟩, hregs, -⟩ := hok hrange
      exact .inl ⟨t, hrow, { hframe with
        inv := exec_inv hi hrow
        memory := hmem
        idle := fun h => hseq ▸ h
        answers := ⟨_, hanswers⟩
        bank := ⟨fun _ => by rw [hdevice], fun h => absurd hu h,
          fun _ _ => ⟨bk, hdetects, hregs.sameBuilt⟩⟩ }⟩
    · exact .inr ⟨⟨bk, hdetects, hrange⟩, hno hrange⟩
  | none =>
    rw [hfound] at hend
    obtain ⟨t, hrow, ⟨-, hframe, hmem, hseq, -, -, hdevice, hanswers⟩, hregs, -⟩ := hend
    have hvendor : (t.bank b).vendorId = .unknown := by
      rw [hregs.sameBuilt.vendorId, hpass, s.pass_bank]
      exact hu
    exact .inl ⟨t, hrow, { hframe with
      inv := exec_inv hi hrow
      memory := hmem
      idle := fun h => hseq ▸ h
      answers := ⟨_, hanswers⟩
      bank := ⟨fun _ => by rw [hdevice], fun h => absurd hu h, fun _ h => absurd hvendor h⟩ }⟩

theorem probeProtection_inits (hk : (s.bank b).vendorId ≠ .unknown)
    (ho : s.params.protectOffset < 32) :
    ∃ t, exec (.probeProtection b) s = .next t ∧ s.InitsTo b t := by
  obtain ⟨-, hnone, haccepts, -, -⟩ := probeProtectionOutcome s b hs hi hd
  by_cases hn : (s.bank b).sectorCount = 0
  · have hrow := hnone hk hn
    have hsectors : (s.bank b).sectors = [] := List.length_eq_zero_iff.mp hn
    refine ⟨_, hrow, {
      params := rfl, initDone := rfl, calls := rfl, position := rfl, count := rfl
      others := fun _ _ => rfl, ie := rfl, noReset := hs.noReset, timer := le_rfl
      inv := exec_inv hi hrow
      memory := rfl
      idle := id
      answers := ⟨0, fun n => by rw [Nat.zero_add]; rfl⟩
      bank := ⟨fun h => ?_, fun _ => .refl _, fun h => absurd h hk⟩ }⟩
    rcases h with h | h | h
    · exact absurd h hk
    · exact absurd hsectors h
    · exact h
  · obtain ⟨bk', u, hbody, hsame, -, hmode, hu⟩ :=
      (hs.reaches hi (.probeProtection b)).probeProtection hn (haccepts ho)
    have hrow : exec (.probeProtection b) s = .next ((u.setSm .idle).leave none) :=
      exec_known_of_ok hs hd hk rfl (congrArg asNothing hbody)
    exact ⟨_, hrow, { hu.frame none with
      inv := exec_inv hi hrow
      memory := hu.memory
      idle := fun _ => rfl
      answers := ⟨_, hu.answers⟩
      bank := ⟨fun _ => hu.bank ▸ hmode, fun _ => hu.bank ▸ hsame, fun h => absurd h hk⟩ }⟩

end

/-! ### A row, and the same piece inside the operation -/

/-- The piece ends inside `flash_init` as its row does by itself. -/
def Matches (f : State → Res Unit) (s : State) : Host.Outcome State Fault Refusal → Prop
  | .next t => ∀ p x, ∃ p' x', f (s.placed p x) = .ok () (t.placed p' x')
  | .fault e => ∀ p x, f (s.placed p x) = .fault e
  | .refused e => ∀ p x, f (s.placed p x) = .refused e

section
variable {r : Res Unit}

theorem asNothing_eq_ok {a : Option Result} {u : State} (h : asNothing r = .ok a u) :
    a = none ∧ r = .ok () u := by
  cases r <;> cases h
  exact ⟨rfl, rfl⟩

theorem asNothing_eq_fault {e : Fault} (h : asNothing r = .fault e) : r = .fault e := by
  cases r <;> cases h
  rfl

theorem asNothing_eq_refused {e : Refusal} (h : asNothing r = .refused e) : r = .refused e := by
  cases r <;> cases h
  rfl

end

theorem matches_of_row {f : State → Res Unit} {s : State} {b : Nat} {j : Instr}
    {body : State → Res (Option Result)} (hf : Blind f) (hs : s.Ready b)
    (he : exec j s = call j (onBank b body) s)
    (hbody : body (s.enter j) = asNothing (f (s.enter j))) : Matches f s (exec j s) := by
  have hblind : Blind fun s => asNothing (f s) := fun s p x h =>
    (hf s p x h).bind fun _ t p x h => .ok none t p x h
  have hrow : exec j s = call j (fun s => asNothing (f s)) s := by
    rw [he]
    simp only [call, onBank_of_lt (s := s.enter j) hs.bank, hbody]
  have hrun := hblind.run (i := j) hs.idle hs.params hs.noReset
  rw [← hrow] at hrun
  revert hrun
  cases exec j s with
  | next t =>
    intro hrun p x
    rcases hrun p x with ⟨_, u, hok, hnext⟩ | ⟨_, _, hnext⟩ | ⟨_, _, hnext⟩ <;> cases hnext
    exact ⟨u.position, u.result, (asNothing_eq_ok hok).2⟩
  | fault e =>
    intro hrun p x
    rcases hrun p x with ⟨_, _, _, hfault⟩ | ⟨_, hbody, hfault⟩ | ⟨_, _, hfault⟩ <;> cases hfault
    exact asNothing_eq_fault hbody
  | refused e =>
    intro hrun p x
    rcases hrun p x with ⟨_, _, _, hno⟩ | ⟨_, _, hno⟩ | ⟨_, hbody, hno⟩ <;> cases hno
    exact asNothing_eq_refused hbody

/-! ### One bank, as the operation runs it -/

theorem State.InitsTo.ready {s t : State} {b c : Nat} (h : s.InitsTo b t) (hs : s.Ready c) :
    t.Ready c :=
  ⟨h.position, h.noReset, h.params ▸ hs.params, h.count ▸ hs.bank⟩

/-- A bank of `flash_init`: what its rows come to and the operation with them, or the refusal of a
range the devices' answers identify. -/
theorem initBank_inits {s : State} {b : Nat} (hs : s.Ready b) (hi : s.Inv)
    (hd : s.initDone = false) (ho : s.params.protectOffset < 32) :
    (∃ t, s.InitsTo b t ∧ Matches (initBank b) s (.next t) ∧
      ∀ n, initRows b (n + 1) s = initRows (b + 1) n t) ∨
    ((s.bank b).vendorId = .unknown ∧
      ∃ bk, s.Detects b bk ∧ ¬ s.RangeOk b (bk.baseAddress + bk.size)) ∧
      Matches (initBank b) s (.refused .illFormedConfig) ∧
      ∀ n, initRows b (n + 1) s = .refused .illFormedConfig := by
  have hprobe {v : State} (hv : v.Ready b) (hvi : v.Inv) (hvd : v.initDone = false)
      (hk : (v.bank b).vendorId ≠ .unknown) (hvo : v.params.protectOffset < 32) :
      ∃ t, exec (.probeProtection b) v = .next t ∧ v.InitsTo b t ∧
        Matches (probeProtection b) v (.next t) := by
    obtain ⟨t, hrow, ht⟩ := probeProtection_inits hv hvi hvd hk hvo
    refine ⟨t, hrow, ht, hrow ▸ matches_of_row (probeProtection_blind b) hv rfl ?_⟩
    exact (beforeInit_of (s := v.enter _) hvd).trans (onKnown_of_known (s := v.enter _) hk)
  by_cases hu : (s.bank b).vendorId = .unknown
  · have hident : Matches (identify b) s (exec (.identify b) s) :=
      matches_of_row (identify_blind b) hs rfl
        ((beforeInit_of (s := s.enter _) hd).trans (if_pos hu))
    rcases identify_inits hs hi hd hu with ⟨t, hrow, ht⟩ | ⟨hbad, hrow⟩ <;> rw [hrow] at hident
    · by_cases hk : (t.bank b).vendorId = .unknown
      · refine .inl ⟨t, ht, fun p x => ?_, fun n => by simp [initRows, hu, hrow, hk]⟩
        obtain ⟨p', x', h⟩ := hident p x
        exact ⟨p', x', by simp [initBank, hu, h, hk]⟩
      · obtain ⟨u, hrow', hu', hmatch⟩ := hprobe (ht.ready hs) ht.inv (ht.initDone.trans hd) hk
          (ht.params ▸ ho)
        refine .inl ⟨u, ht.trans hk hu', fun p x => ?_,
          fun n => by simp [initRows, hu, hrow, hk, hrow']⟩
        obtain ⟨p', x', h⟩ := hident p x
        obtain ⟨p'', x'', h'⟩ := hmatch p' x'
        exact ⟨p'', x'', by simp [initBank, hu, h, hk, h']⟩
    · exact .inr ⟨⟨hu, hbad⟩, fun p x => by simp [initBank, hu, hident p x],
        fun n => by simp [initRows, hu, hrow]⟩
  · obtain ⟨t, hrow, ht, hmatch⟩ := hprobe hs hi hd hu ho
    refine .inl ⟨t, ht, fun p x => ?_, fun n => by simp [initRows, hu, hrow]⟩
    obtain ⟨p', x', h⟩ := hmatch p x
    exact ⟨p', x', by simp [initBank, hu, h]⟩

/-! ### The banks in order -/

/-- A `flash_init` begun in `s` stands in `v` before bank `b`. -/
structure State.InitsUpTo (s : State) (b : Nat) (v : State) : Prop where
  position : v.position = none
  noReset : v.env.resetIn = none
  params : v.params = s.params
  initDone : v.initDone = s.initDone
  calls : v.calls = s.calls
  memory : v.memory = s.memory
  ie : v.env.ie = s.env.ie
  count : v.banks.length = s.banks.length
  idle : s.seq.smState = .idle → v.seq.smState = .idle
  inv : v.Inv
  answers : ∃ k, ∀ n, v.answerAt n = s.answerAt (k + n)
  todo : ∀ c, b ≤ c → v.bank c = s.bank c
  done : ∀ c < b, s.InitsBank c (v.bank c)

section
variable {s v t : State} {b c : Nat}

theorem State.InitsUpTo.refl (hi : s.Inv) (hr : s.env.resetIn = none) : s.InitsUpTo 0 s where
  position := hi.idle
  noReset := hr
  params := rfl
  initDone := rfl
  calls := rfl
  memory := rfl
  ie := rfl
  count := rfl
  idle := id
  inv := hi
  answers := ⟨0, fun n => by rw [Nat.zero_add]⟩
  todo _ _ := rfl
  done c hc := absurd hc (Nat.not_lt_zero c)

theorem State.InitsUpTo.detects (h : s.InitsUpTo b v) {bk : Bank} (hd : v.Detects b bk) :
    s.Detects b bk := by
  obtain ⟨k, hk⟩ := h.answers
  exact hd.shift h.params hk (h.todo b le_rfl)

theorem State.InitsUpTo.next (h : s.InitsUpTo b v) (ht : v.InitsTo b t) :
    s.InitsUpTo (b + 1) t where
  position := ht.position
  noReset := ht.noReset
  params := ht.params.trans h.params
  initDone := ht.initDone.trans h.initDone
  calls := ht.calls.trans h.calls
  memory := ht.memory.trans h.memory
  ie := ht.ie.trans h.ie
  count := ht.count.trans h.count
  idle hidle := ht.idle (h.idle hidle)
  inv := ht.inv
  answers := by
    obtain ⟨k, hk⟩ := h.answers
    obtain ⟨k', hk'⟩ := ht.answers
    exact ⟨k + k', fun n => by rw [hk', hk, Nat.add_assoc]⟩
  todo c hc := (ht.others c (by omega)).trans (h.todo c (by omega))
  done c hc := by
    by_cases hcb : c = b
    · subst hcb
      obtain ⟨hmode, hbuilt, hfound⟩ := ht.bank
      rw [h.todo c le_rfl] at hmode hbuilt hfound
      refine ⟨hmode, hbuilt, fun hu hk => ?_⟩
      obtain ⟨bk, hbk, hsame⟩ := hfound hu hk
      exact ⟨bk, h.detects hbk, hsame⟩
    · rw [ht.others c hcb]
      exact h.done c (by omega)

/-- A bank known by then was so before, or is one that answers of the devices identify. -/
theorem State.InitsUpTo.known (h : s.InitsUpTo b v) (hk : (v.bank c).vendorId ≠ .unknown) :
    ∃ ck, ((s.bank c).vendorId ≠ .unknown ∧ ck = s.bank c ∨
      (s.bank c).vendorId = .unknown ∧ s.Detects c ck) ∧ ck.SameBuilt (v.bank c) := by
  by_cases hc : c < b
  · obtain ⟨-, hbuilt, hfound⟩ := h.done c hc
    by_cases hu : (s.bank c).vendorId = .unknown
    · obtain ⟨ck, hck, hsame⟩ := hfound hu hk
      exact ⟨ck, .inr ⟨hu, hck⟩, hsame⟩
    · exact ⟨_, .inl ⟨hu, rfl⟩, hbuilt hu⟩
  · rw [h.todo c (by omega)] at hk ⊢
    exact ⟨_, .inl ⟨hk, rfl⟩, .refl _⟩

theorem State.Detects.baseAddress {bk : Bank} (h : s.Detects b bk) :
    bk.baseAddress = (s.bank b).baseAddress := by
  obtain ⟨_, _, _, _, hfound⟩ := h
  rcases State.pass_found hfound with ⟨_, _, _, _, rfl⟩ | ⟨_, _, _, -, rfl⟩ <;> rfl

/-- A range apart from all that the other banks may have is one the configuration allows
(00_scope.md R9). -/
theorem State.InitsUpTo.rangeOk (h : s.InitsUpTo b v) {bk : Bank} (hd : v.Detects b bk)
    (hlimit : bk.baseAddress + bk.size < 2 ^ 32)
    (hapart : ∀ c < s.banks.length, c ≠ b → ∀ ck,
      ((s.bank c).vendorId ≠ .unknown ∧ ck = s.bank c ∨
        (s.bank c).vendorId = .unknown ∧ s.Detects c ck) → rangesDisjoint bk ck = true) :
    v.RangeOk b (bk.baseAddress + bk.size) := by
  refine ⟨hlimit, fun c hc hcb => ?_⟩
  by_cases hu : (v.bank c).vendorId = .unknown
  · obtain ⟨-, hsize, -⟩ := h.inv.empty _ (State.bank_mem v hc) hu
    exact .inr (.inl hsize)
  · obtain ⟨ck, hck, hsame⟩ := h.known hu
    have hdisjoint := hapart c (h.count ▸ hc) hcb ck hck
    rw [rangesDisjoint, decide_eq_true_eq] at hdisjoint
    rw [hsame.size, hsame.baseAddress, ← hd.baseAddress]
    omega

/-- The banks of `flash_init` in order: what their rows come to and the operation with them, or the
refusal of a range at bank `c`. -/
theorem initBanks_inits (hi : s.Inv) (hd : s.initDone = false)
    (ho : s.params.protectOffset < 32) : ∀ (n : Nat) {b : Nat} {v : State}, s.InitsUpTo b v →
    b + n ≤ s.banks.length →
    (∃ t, s.InitsUpTo (b + n) t ∧ Matches (initBanks b n) v (.next t) ∧
      initRows b n v = .next t) ∨
    (∃ c < s.banks.length, ∃ w, s.InitsUpTo c w ∧ (w.bank c).vendorId = .unknown ∧
      ∃ bk, w.Detects c bk ∧ ¬ w.RangeOk c (bk.baseAddress + bk.size)) ∧
      Matches (initBanks b n) v (.refused .illFormedConfig) ∧
      initRows b n v = .refused .illFormedConfig
  | 0, b, v, h, _ => .inl ⟨v, h, fun p x => ⟨p, x, rfl⟩, rfl⟩
  | n + 1, b, v, h, hn => by
    have hready : v.Ready b :=
      ⟨h.position, h.noReset, h.params ▸ hi.params, by rw [h.count]; omega⟩
    rcases initBank_inits hready h.inv (h.initDone.trans hd) (h.params ▸ ho) with
      ⟨t, ht, hbank, hrows⟩ | ⟨⟨hu, hbad⟩, hbank, hrows⟩
    · rw [hrows]
      rcases initBanks_inits hi hd ho n (h.next ht) (by omega) with
        ⟨u, hu, hbanks, hrest⟩ | ⟨hbad, hbanks, hrest⟩
      · refine .inl ⟨u, by rwa [Nat.add_right_comm] at hu, fun p x => ?_, hrest⟩
        obtain ⟨p', x', hp⟩ := hbank p x
        obtain ⟨p'', x'', hp'⟩ := hbanks p' x'
        exact ⟨p'', x'', by rw [initBanks, hp, Res.bind_ok, hp']⟩
      · refine .inr ⟨hbad, fun p x => ?_, hrest⟩
        obtain ⟨p', x', hp⟩ := hbank p x
        rw [initBanks, hp, Res.bind_ok, hbanks p' x']
    · exact .inr ⟨⟨b, by omega, v, h, hu, hbad⟩, fun p x => by
        rw [initBanks, hbank p x]
        rfl, hrows n⟩

/-- `flash_init` returns where its banks have come to, `init_done` and the total set. -/
theorem exec_flashInit (hi : s.Inv) (hd : s.initDone = false)
    {o : Host.Outcome State Fault Refusal}
    (h : Matches (initBanks 0 s.banks.length) s o) : exec .flashInit s =
      mapNext (fun t => t.setInitDone.leave (some (.total (t.banks.map Bank.size).sum))) o := by
  have hbody : flashInit (s.enter .flashInit) =
      (initBanks 0 s.banks.length (s.enter .flashInit)).bind fun _ s =>
        .ok (some (.total (totalSize s.banks))) s.setInitDone := if_neg (by simp [hd])
  have hcall : exec .flashInit s = call .flashInit flashInit s := rfl
  rw [hcall, call, if_neg (by simp [hi.idle]), if_neg (by simp [hi.params]), hbody,
    State.enter_eq]
  cases o with
  | next t =>
    obtain ⟨p, x, hp⟩ := h (some { op := .flashInit, step := 0, range := none }) s.result
    rw [hp]
    rfl
  | fault e =>
    rw [h]
    rfl
  | refused e =>
    rw [h]
    rfl

end

/-- Settles O44: the operation is its rows (`exec_flashInit`), which come to the end of the banks or
to a range the configuration does not allow (`initBanks_inits`). -/
theorem flashInitOutcome : Obligations.FlashInitOutcome := by
  intro s hi hr hd hidle ho ran mayBe
  rcases initBanks_inits hi hd ho s.banks.length (.refl hi hr) (Nat.zero_add _).le with
    ⟨t, ht, hbanks, hrows⟩ | ⟨⟨b, hb, v, hv, hu, bk, hdetects, hno⟩, hbanks, hrows⟩
  · have hrow := exec_flashInit hi hd hbanks
    have hran : ran := by
      refine ⟨_, hrow, rfl, rfl, ht.memory, ht.params, ht.calls, ht.ie, ht.count, rfl,
        ht.idle hidle, ht.inv.empty, fun b hb => ?_⟩
      obtain ⟨hmode, hbuilt, hfound⟩ := ht.done b (by omega)
      exact ⟨hmode, hbuilt, hfound⟩
    exact ⟨hrow.trans (by rw [hrows]), fun _ => hran, .inl hran⟩
  · have hrow := exec_flashInit hi hd hbanks
    refine ⟨hrow.trans (by rw [hrows]), fun hall => absurd ?_ hno, .inr hrow⟩
    obtain ⟨hlimit, hapart⟩ := hall b hb bk (hv.todo b le_rfl ▸ hu) (hv.detects hdetects)
    exact hv.rangeOk hdetects hlimit hapart

end Sys2Proof.Machine
end

section
/-! PROOFS. Calls refused before their body runs, the public status codes, and the timer's laws
(60_exceptions.md R116, R123, R125; O9, O15, O59). -/

namespace Sys2Proof.Machine

/-! ### Calls refused outright -/

/-- Every row is one call. -/
theorem exec_eq_call (i : Instr) : ∃ body, ∀ s, exec i s = call i body s := by
  cases i <;> exact ⟨_, fun _ => rfl⟩

/-- A row that names a bank is one call on that bank. -/
theorem exec_eq_call_onBank {i : Instr} {b : Nat} (h : bankOf i = some b) :
    ∃ body, ∀ s, exec i s = call i (onBank b body) s := by
  cases i with
  | flashInit => cases h
  | _ =>
    obtain rfl := Option.some.inj h
    exact ⟨_, fun _ => rfl⟩

section
variable {i : Instr} {body : State → Res (Option Result)} {s : State}

theorem call_of_running (h : s.position ≠ none) : call i body s = .refused .busy := if_pos h

theorem call_of_illFormed (hpos : s.position = none) (hp : paramsWf s.params = false) :
    call i body s = .refused .illFormedConfig :=
  (if_neg (not_not_intro hpos)).trans (if_pos hp)

/-- A call that starts and whose body is refused. -/
theorem call_of_refused (hpos : s.position = none) (hp : paramsWf s.params = true) {e : Refusal}
    (h : body (s.enter i) = .refused e) : call i body s = .refused e := by
  simp [call, hpos, hp, h]

end

theorem onBank_of_not_lt {α : Type} {b : Nat} {body : State → Res α} {s : State}
    (h : s.banks.length ≤ b) : onBank b body s = .refused .noSuchBank := if_neg (Nat.not_lt.mpr h)

/-- A buffered program on a known Intel-style bank without a buffer (42_sequencer.md R101). -/
theorem programBuffer_body_of_noBuffer {b a : Nat} {ds : List Word} {s : State}
    (hb : b < s.banks.length) (hk : (s.bank b).vendorId ≠ .unknown)
    (hv : (s.bank b).cmdset = .intelStyle) (hn : (s.bank b).bufferSize = 0) :
    onBank b (onKnown b (onVariant b .intelStyle fun s =>
      asStatus (programBufferIntel b a (ds.map (toPort (s.bank b).portWidth)) s))) s =
      .refused .noBuffer := by
  rw [onBank_of_lt hb, onKnown_of_known hk, onVariant_of (.inr hv)]
  simp [programBufferIntel, hn, asStatus]

/-- `paramsWf` from its conditions, each written out (00_scope.md R9, 20_memory.md R30; log 29). -/
theorem paramsWf_of_ok {p : Params} (h : ParamsOk p) : paramsWf p = true := by
  simp only [paramsWf, Bool.and_eq_true, List.all_eq_true, decide_eq_true_eq, bne_iff_ne]
  exact ⟨⟨⟨⟨⟨⟨⟨⟨h.someBank, fun a ha => ⟨⟨h.baseAligned a ha, h.baseRoom a ha⟩, h.offsets a ha⟩⟩,
    h.capacity⟩, h.erase⟩, h.write⟩, h.bufferWrite⟩, h.legacy⟩, h.codes⟩, h.bufferWords⟩

/-- Settles O9: a call tests the position, then the parameters, then the bank, before its body runs;
`flash_init`, `write_buff` and the buffered program refuse at the start of theirs. -/
theorem callsRefusedOutright : Obligations.CallsRefusedOutright := by
  refine ⟨fun i s => ⟨fun hpos => ?_, fun hpos hp => ?_, fun hpos hp => ⟨?_, ?_, ?_, ?_⟩⟩, ?_⟩
  · obtain ⟨body, h⟩ := exec_eq_call i
    exact (h s).trans (call_of_running hpos)
  · obtain ⟨body, h⟩ := exec_eq_call i
    exact (h s).trans (call_of_illFormed hpos hp)
  · intro b hi hb
    obtain ⟨body, h⟩ := exec_eq_call_onBank hi
    exact (h s).trans (call_of_refused hpos hp (onBank_of_not_lt hb))
  · exact fun hd => call_of_refused hpos hp (if_pos hd)
  · exact fun b hb d n src hn => call_of_refused hpos hp
      ((onBank_of_lt (s := s.enter _) hb).trans (if_pos hn))
  · exact fun b hb a ds hk hv hn =>
      call_of_refused hpos hp (programBuffer_body_of_noBuffer (s := s.enter _) hb hk hv hn)
  · exact fun p hbase hbases hcap he hw hbw hwords hleg hcodes => paramsWf_of_ok
      { someBank := List.length_pos_iff.mpr hbase
        baseAligned := fun a ha => (hbases a ha).1
        baseRoom := fun a ha => (hbases a ha).2.1
        offsets := fun a ha => (hbases a ha).2.2
        capacity := hcap, erase := he, write := hw, bufferWrite := hbw
        legacy := fun e he => legacyEntryWf_iff.mpr (hleg e he)
        codes := hcodes, bufferWords := hwords }

/-! ### The public status codes -/

/-- Settles O59: the table of 60_exceptions.md R116, row by row. -/
theorem publicStatusCodes : Obligations.PublicStatusCodes :=
  ⟨rfl, rfl, rfl, rfl, rfl, fun _ => rfl, rfl, rfl, fun _ => rfl⟩

/-! ### The timer's laws -/

theorem tickTimer_timer_le (s : State) : s.env.timer ≤ (tickTimer s).env.timer :=
  (Nat.le_add_right _ _).trans (tickTimer_spec s).1

/-- After `k` reads the timer has moved on by at least `k`, but for one millisecond for each advance
the environment had ready (log 8). -/
theorem tickTimer_iterate_timer (k : Nat) : ∀ s : State,
    s.env.timer + k ≤ (tickTimer^[k] s).env.timer + s.env.timerInput.length := by
  induction k with
  | zero => exact fun s => Nat.le_add_right _ _
  | succ k ih =>
    intro s
    obtain ⟨htimer, hinput⟩ := tickTimer_spec s
    have hrest := ih (tickTimer s)
    rw [hinput, List.length_tail] at hrest
    rw [Function.iterate_succ_apply]
    cases hs : s.env.timerInput with
    | nil =>
      simp only [hs, List.isEmpty_nil, if_true, List.length_nil] at htimer hrest ⊢
      omega
    | cons d ds =>
      simp only [hs, List.length_cons] at htimer hrest ⊢
      omega

/-- Settles O15: each read moves the timer on, by at least a millisecond once the advances held
ready are used up. -/
theorem timerIsMonotoneAndFair : Obligations.TimerIsMonotoneAndFair := by
  refine fun s => ⟨fun k => ?_, fun v => ⟨v + 1 + s.env.timerInput.length, ?_⟩⟩
  · rw [Function.iterate_succ_apply']
    exact tickTimer_timer_le _
  · have := tickTimer_iterate_timer (v + 1 + s.env.timerInput.length) s
    omega

end Sys2Proof.Machine
end

section
/-! PROOFS. Two runs of an operation on bank `b`, side by side, from states that differ in another
bank `c` only. One pass over the operations shows two things at once: the runs end alike and differ in
bank `c` only, as before, and the interrupt enable is what it was at the start (`Parallel`,
`exec_agree`). -/

namespace Sys2Proof.Machine

/-! ### Twin states -/

/-- `s'` is `s` with `y` in place of `x` as bank `c`, which is not `b`. No system reset is due, and
`p` holds of the interrupt enable and of its saved copy. -/
structure State.Twin (b c : Nat) (x y : Bank) (p : Bool → Bool → Prop) (s s' : State) : Prop where
  ne : c ≠ b
  swapped : s' = s.setBank c y
  other : s.bank c = x
  noReset : s.env.resetIn = none
  irq : p s.env.ie s.seq.savedIrq

/-- The host's interrupt enable is `v`. -/
def EnableIs (v : Bool) : Bool → Bool → Prop := fun ie _ => ie = v

/-- Inside a masked window the interrupt enable it restores is `v` (42_sequencer.md R93). -/
def SavedIs (v : Bool) : Bool → Bool → Prop := fun _ saved => saved = v

/-- The detected ranges of two banks are the same (00_scope.md R9). -/
structure Bank.SameRange (x y : Bank) : Prop where
  base : y.baseAddress = x.baseAddress
  size : y.size = x.size

namespace State.Twin

section
variable {b c : Nat} {x y : Bank} {p : Bool → Bool → Prop} {s s' : State}
  (h : State.Twin b c x y p s s')
include h

theorem bank : s'.bank b = s.bank b := by
  rw [h.swapped]
  exact State.setBank_bank_other s y h.ne.symm

theorem params : s'.params = s.params := by rw [h.swapped]; rfl
theorem env : s'.env = s.env := by rw [h.swapped]; rfl
theorem seq : s'.seq = s.seq := by rw [h.swapped]; rfl
theorem memory : s'.memory = s.memory := by rw [h.swapped]; rfl
theorem position : s'.position = s.position := by rw [h.swapped]; rfl
theorem initDone : s'.initDone = s.initDone := by rw [h.swapped]; rfl
theorem count : s'.banks.length = s.banks.length := by rw [h.swapped]; simp

theorem commandWord (k : Command) : s'.commandWord b k = s.commandWord b k := by
  simp only [State.commandWord, h.params, h.bank]

/-- The same states, seen from another bank. -/
theorem onBank {d : Nat} (hd : c ≠ d) : State.Twin d c x y p s s' := { h with ne := hd }

/-- An update on both sides that has no part in the banks, the reset input or the interrupts. -/
theorem step (f : State → State) (hswap : f (s.setBank c y) = (f s).setBank c y := by rfl)
    (hbank : (f s).bank c = s.bank c := by rfl)
    (hreset : (f s).env.resetIn = s.env.resetIn := by rfl)
    (hie : (f s).env.ie = s.env.ie := by rfl)
    (hsaved : (f s).seq.savedIrq = s.seq.savedIrq := by rfl) :
    State.Twin b c x y p (f s) (f s') where
  ne := h.ne
  swapped := by rw [h.swapped, hswap]
  other := hbank.trans h.other
  noReset := hreset.trans h.noReset
  irq := by rw [hie, hsaved]; exact h.irq

/-- Bank `b` replaced on both sides. -/
theorem setBank (k : Bank) : State.Twin b c x y p (s.setBank b k) (s'.setBank b k) :=
  h.step (·.setBank b k)
    (congrArg (fun l => { s with banks := l }) (List.set_comm y k h.ne))
    (State.setBank_bank_other s k h.ne)

theorem setDevice (d : Device) : State.Twin b c x y p (s.setDevice b d) (s'.setDevice b d) := by
  simp only [State.setDevice, h.bank]
  exact h.setBank _

theorem setLocks (l : List Bool) : State.Twin b c x y p (s.setLocks b l) (s'.setLocks b l) := by
  simp only [State.setLocks, h.bank]
  exact h.setDevice _

theorem drawn : State.Twin b c x y p s.drawn s'.drawn := h.step State.drawn

theorem drawLocks : State.Twin b c x y p (s.drawLocks b) (s'.drawLocks b) := by
  simp only [State.drawLocks, h.bank, h.env]
  exact (h.setLocks _).drawn

theorem drawLock (i : Nat) : State.Twin b c x y p (s.drawLock b i) (s'.drawLock b i) := by
  simp only [State.drawLock, h.bank, h.env]
  exact (h.setLocks _).drawn

theorem drawLocksBut (i : Nat) (v : Bool) :
    State.Twin b c x y p (s.drawLocksBut b i v) (s'.drawLocksBut b i v) := by
  simp only [State.drawLocksBut, h.bank, h.env]
  exact (h.setLocks _).drawn

theorem openLocks : State.Twin b c x y p (s.openLocks b) (s'.openLocks b) := by
  simp only [State.openLocks, h.bank]
  split
  · exact h
  · exact h.drawLocks

theorem drawMemory (a n : Nat) : State.Twin b c x y p (s.drawMemory a n) (s'.drawMemory a n) :=
  h.step fun t => t.drawMemory a n

/-- Another bank's detected range is all that a geometry is compared with (00_scope.md R9). -/
theorem fitsBeside (hxy : x.SameRange y) (k : Bank) : s'.fitsBeside b k = s.fitsBeside b k := by
  have hone : ∀ d < s.banks.length, rangesDisjoint k (s'.bank d) = rangesDisjoint k (s.bank d) := by
    intro d hd
    rw [h.swapped]
    by_cases hdc : d = c
    · subst hdc
      rw [State.setBank_bank_self s y hd, h.other]
      exact rangesDisjoint_congr rfl rfl hxy.base hxy.size
    · rw [State.setBank_bank_other s y hdc]
  rw [Bool.eq_iff_iff]
  simp only [State.fitsBeside, h.count, List.all_eq_true, List.mem_range]
  refine forall₂_congr fun d hd => ?_
  rw [hone d hd]

end

/-- Opening the masked window saves the interrupt enable. -/
theorem irqSave {b c : Nat} {x y : Bank} {v : Bool} {s s' : State}
    (h : State.Twin b c x y (EnableIs v) s s') :
    State.Twin b c x y (SavedIs v) (irqSave s) (irqSave s') :=
  ⟨h.ne, by rw [h.swapped]; rfl, h.other, h.noReset, h.irq⟩

/-- Closing it restores the interrupt enable saved. -/
theorem irqRestore {b c : Nat} {x y : Bank} {v : Bool} {s s' : State}
    (h : State.Twin b c x y (SavedIs v) s s') :
    State.Twin b c x y (EnableIs v) (irqRestore s) (irqRestore s') :=
  ⟨h.ne, by rw [h.swapped]; rfl, h.other, h.noReset, h.irq⟩

end State.Twin

theorem State.setBank_self (s : State) (c : Nat) : s.setBank c (s.bank c) = s := by
  by_cases hc : c < s.banks.length
  · simp [State.setBank, State.bank_eq_getElem s hc]
  · simp [State.setBank, List.set_eq_of_length_le (Nat.not_lt.mp hc)]

/-- Every state is its own twin. -/
theorem State.Twin.refl {b c : Nat} {s : State} {p : Bool → Bool → Prop} (hne : c ≠ b)
    (hr : s.env.resetIn = none) (hp : p s.env.ie s.seq.savedIrq) :
    State.Twin b c (s.bank c) (s.bank c) p s s :=
  ⟨hne, (s.setBank_self c).symm, rfl, hr, hp⟩

/-- Twins with the same bank `c` are the same state. -/
theorem State.Twin.eq_self {b c : Nat} {x : Bank} {p : Bool → Bool → Prop} {s s' : State}
    (h : State.Twin b c x x p s s') : s' = s := by
  rw [h.swapped, ← h.other, s.setBank_self]

/-! ### Pieces that end alike -/

/-- Two pieces end in the same value, in states that `R` relates, or in the same fault or
refusal. -/
inductive Res.Agree {α : Type} (R : State → State → Prop) : Res α → Res α → Prop
  | ok (a : α) {t t' : State} (h : R t t') : Res.Agree R (.ok a t) (.ok a t')
  | fault (f : Fault) : Res.Agree R (.fault f) (.fault f)
  | refused (e : Refusal) : Res.Agree R (.refused e) (.refused e)

/-- A piece that, run from states that `R` relates, ends alike. -/
def Parallel {α : Type} (R : State → State → Prop) (f : State → Res α) : Prop :=
  ∀ ⦃s s' : State⦄, R s s' → Res.Agree R (f s) (f s')

section
variable {α β : Type} {R S : State → State → Prop}

theorem Res.Agree.bind {r r' : Res α} {k k' : α → State → Res β} (h : Res.Agree R r r')
    (hk : ∀ a t t', R t t' → Res.Agree S (k a t) (k' a t')) :
    Res.Agree S (r.bind k) (r'.bind k') := by
  cases h with
  | ok a h => exact hk a _ _ h
  | fault f => exact .fault f
  | refused e => exact .refused e

theorem Res.Agree.ite {P : Prop} [Decidable P] {r r' q q' : Res α} (hr : P → Res.Agree R r r')
    (hq : ¬ P → Res.Agree R q q') : Res.Agree R (if P then r else q) (if P then r' else q') := by
  split
  · exact hr ‹_›
  · exact hq ‹_›

theorem Parallel.bind {f : State → Res α} {k : α → State → Res β} (hf : Parallel R f)
    (hk : ∀ a, Parallel R (k a)) : Parallel R fun s => (f s).bind k :=
  fun _ _ h => (hf h).bind fun a _ _ h => hk a h

/-- A piece, and then a value. -/
theorem Parallel.andReturn {f : State → Res α} (hf : Parallel R f) (g : α → β) :
    Parallel R fun s => (f s).bind fun a t => .ok (g a) t := hf.bind fun _ _ _ h => .ok _ h

end

/-! ### Bus accesses and the timer -/

section
variable {b c : Nat} {x y : Bank} {p : Bool → Bool → Prop} {s s' : State}

theorem microStep_parallel : Parallel (State.Twin b c x y p) microStep := fun s s' h => by
  rw [microStep_completes h.noReset, microStep_completes (h.env ▸ h.noReset)]
  exact .ok () (h.step State.advance)

theorem drawWord_twin (w : PortWidth) (h : State.Twin b c x y p s s') :
    (drawWord w s').1 = (drawWord w s).1 ∧
      State.Twin b c x y p (drawWord w s).2 (drawWord w s').2 := by
  unfold drawWord
  rw [h.env]
  split
  · exact ⟨rfl, h.step (·.setEnv _)⟩
  · exact ⟨rfl, h.drawn⟩

theorem answer_twin (a : Nat) (h : State.Twin b c x y p s s') :
    (answer b a s').1 = (answer b a s).1 ∧
      State.Twin b c x y p (answer b a s).2 (answer b a s').2 := by
  simp only [answer, h.bank, h.params, h.memory]
  split
  · exact ⟨rfl, h⟩
  · exact drawWord_twin _ h

theorem tickTimer_twin (h : State.Twin b c x y p s s') :
    State.Twin b c x y p (tickTimer s) (tickTimer s') := by
  unfold tickTimer
  rw [h.env]
  split <;> exact h.step (·.setEnv _)

theorem readTimer_parallel : Parallel (State.Twin b c x y p) readTimer := fun _ _ h =>
  (microStep_parallel h).bind fun _ t t' h => by
    have ht := tickTimer_twin h
    rw [ht.env]
    exact .ok _ (ht.step (·.note _))

theorem busRead_parallel (a : Nat) : Parallel (State.Twin b c x y p) (busRead b a) :=
  fun s s' h => by
  simp only [busRead, h.bank, h.params]
  refine .ite (fun _ => .fault _) fun _ => .ite (fun _ => .refused _) fun _ => ?_
  refine (microStep_parallel h).bind fun _ t t' h => ?_
  obtain ⟨hw, ht⟩ := answer_twin a h
  rw [hw]
  exact .ok _ (ht.step (·.note _))


theorem busWrite_parallel (a : Nat) (w : Word) (k : Option Command) :
    Parallel (State.Twin b c x y p) (busWrite b a w k) := fun s s' h => by
  simp only [busWrite, h.bank, h.params]
  refine .ite (fun _ => .fault _) fun _ => .ite (fun _ => .refused _) fun _ => ?_
  refine (microStep_parallel h).bind fun _ t t' h => ?_
  simp only [h.bank]
  exact .ok _ ((h.setDevice _).step (·.note _))

theorem writeCommand_parallel (a : Nat) (k : Command) :
    Parallel (State.Twin b c x y p) (writeCommand b a k) := fun _ _ h => by
  simp only [writeCommand, h.commandWord]
  exact busWrite_parallel a _ _ h

theorem writeCount_parallel (a : Nat) (n : Byte) :
    Parallel (State.Twin b c x y p) (writeCount b a n) := fun _ _ h => by
  simp only [writeCount, h.bank]
  exact busWrite_parallel a _ _ h

theorem writeData_parallel (a : Nat) (d : Word) :
    Parallel (State.Twin b c x y p) (writeData b a d) := fun _ _ h => by
  simp only [writeData, h.bank]
  exact busWrite_parallel a _ _ h

theorem writeCommands_parallel : ∀ ks : List (Nat × Command),
    Parallel (State.Twin b c x y p) (writeCommands b ks)
  | [] => fun _ _ h => .ok () h
  | (a, k) :: ks => (writeCommand_parallel a k).bind fun _ => writeCommands_parallel ks

theorem issue_parallel : ∀ ks : List (Nat × Command),
    Parallel (State.Twin b c x y p) (issue b ks)
  | [] => fun _ _ h => .ok () h
  | (a, k) :: ks => (writeCommand_parallel a k).bind fun _ _ _ h =>
      writeCommands_parallel ks (h.step (·.setSm .commandIssued))

theorem writeDataFrom_parallel : ∀ (ds : List Word) (a : Nat),
    Parallel (State.Twin b c x y p) (writeDataFrom b a ds)
  | [], _ => fun _ _ h => .ok () h
  | d :: ds, a => (writeData_parallel a d).bind fun _ _ _ h => by
      simp only [h.bank]
      exact writeDataFrom_parallel ds _ h

theorem readWords_parallel : ∀ n a : Nat, Parallel (State.Twin b c x y p) (readWords b a n)
  | 0, _ => fun _ _ h => .ok [] h
  | n + 1, a => (busRead_parallel a).bind fun _ _ _ h => by
      simp only [h.bank]
      exact (readWords_parallel n _ h).bind fun _ _ _ h => .ok _ h

theorem bankReset_parallel (a : Nat) : Parallel (State.Twin b c x y p) (bankReset b a) :=
  fun _ _ h => by
  simp only [bankReset, h.bank]
  exact (writeCommands_parallel _ h).bind fun _ _ _ h => .ok () (h.step (·.setSm .idle))

/-! ### Polls -/

theorem pollEnter_parallel (a budget : Nat) :
    Parallel (State.Twin b c x y p) (pollEnter b a budget) := fun s s' h => by
  have h0 := (h.step (·.setSm .polling)).step (·.setPoll a budget)
  refine (readTimer_parallel h0).bind fun n t t' h => ?_
  have h1 := h.step (·.setPollStart n)
  simp only [h1.bank, h1.seq]
  refine .ite (fun _ => ?_) fun _ => .ok () h1
  exact (busRead_parallel _ h1).bind fun w _ _ h => .ok () (h.step (·.setPollPrev w))

theorem pollLoop_parallel (test : Word → Word → Verdict) :
    ∀ fuel : Nat, Parallel (State.Twin b c x y p) (pollLoop test b fuel)
  | 0 => fun _ _ _ => .refused _
  | fuel + 1 => fun s s' h => by
    simp only [pollLoop, h.seq]
    refine (busRead_parallel _ h).bind fun w t t' h => ?_
    simp only [h.seq]
    split
    · refine (readTimer_parallel h).bind fun n u u' h => ?_
      simp only [h.seq]
      exact .ite (fun _ => .ok _ h)
        fun _ => pollLoop_parallel test fuel (h.step (·.setPollPrev w))
    · exact .ok _ h

theorem pollExit_parallel (a : Nat) (z : SmState) (k : Kind) :
    Parallel (State.Twin b c x y p) (pollExit b a z k) := fun _ _ h =>
  (bankReset_parallel a (h.step (·.setSm z))).bind fun _ _ _ h => .ok k h

theorem poll_parallel (a budget : Nat) (k : Kind) :
    Parallel (State.Twin b c x y p) (poll b a budget k) := fun s s' h => by
  refine (pollEnter_parallel a budget h).bind fun _ t t' h => ?_
  simp only [pollFuel, h.params, h.bank, h.env, h.seq]
  refine (pollLoop_parallel _ _ h).bind fun e u u' h => ?_
  split <;> exact pollExit_parallel a _ _ h

theorem pollReady_parallel (a budget : Nat) :
    Parallel (State.Twin b c x y p) (pollReady b a budget) := fun s s' h => by
  have h0 := (h.step (·.setSm .polling)).step (·.setPoll a budget)
  refine (readTimer_parallel h0).bind fun n t t' h => ?_
  have h1 := h.step (·.setPollStart n)
  simp only [pollFuel, h1.params, h1.bank, h1.env, h1.seq]
  refine (pollLoop_parallel _ _ h1).bind fun e u u' h => ?_
  split
  · exact .ok true (h.step (·.setSm .commandIssued))
  · exact (pollExit_parallel a _ _ h).bind fun _ _ _ h => .ok false h

/-! ### Changes of the array, of the lock bits and of the flags -/

theorem withRange_parallel {α : Type} {a n : Nat} {body : State → Res α}
    (hbody : Parallel (State.Twin b c x y p) body) :
    Parallel (State.Twin b c x y p) (withRange a n body) := fun _ _ h =>
  (hbody (h.step (·.setRange (some (a, n))))).bind fun _ _ _ h => .ok _ (h.step (·.setRange none))

theorem eraseEffect_twin (a n : Nat) (k : Kind) (h : State.Twin b c x y p s s') :
    State.Twin b c x y p (eraseEffect a n k s) (eraseEffect a n k s') := by
  unfold eraseEffect
  split
  · exact h.step fun t => t.setMemory (Memory.eraseRange t.memory a n)
  · exact h.drawMemory a n

theorem programEffect_twin (a : Nat) (ds : List Word) (k : Kind)
    (h : State.Twin b c x y p s s') :
    State.Twin b c x y p (programEffect b a ds k s) (programEffect b a ds k s') := by
  simp only [programEffect, h.bank, h.params, h.memory]
  split
  · exact h.step (·.setMemory _)
  · exact h.drawMemory a _

theorem gateLocks_twin (i : Nat) (k : Kind) (h : State.Twin b c x y p s s') :
    State.Twin b c x y p (gateLocks b i k s) (gateLocks b i k s') := by
  unfold gateLocks
  split
  · exact h.drawLocksBut i false
  · exact h.drawLocks

theorem protectLocks_twin (i : Nat) (lock : Bool) (k : Kind) (h : State.Twin b c x y p s s') :
    State.Twin b c x y p (protectLocks b i lock k s) (protectLocks b i lock k s') := by
  have ho := h.openLocks
  simp only [protectLocks, h.bank, ho.bank]
  split
  · split
    · exact ho.setLocks _
    · exact ho.drawLock i
  · split
    · exact h.setLocks _
    · exact h.drawLocks

theorem protectFlag_twin (i : Nat) (lock : Bool) (k : Kind) (h : State.Twin b c x y p s s') :
    State.Twin b c x y p (protectFlag b i lock k s) (protectFlag b i lock k s') := by
  simp only [protectFlag, h.bank]
  split
  · exact h.setBank _
  · exact h

/-! ### Erase and protect -/

theorem eraseIntelSteps_parallel (i : Nat) :
    Parallel (State.Twin b c x y p) (eraseIntelSteps b i) := fun s s' h => by
  simp only [eraseIntelSteps, h.bank]
  refine (issue_parallel _ h).bind fun _ t t' h => ?_
  refine (poll_parallel _ _ _ h).bind fun k u u' h => ?_
  have hg := gateLocks_twin i k h
  exact .ite (fun _ => .ok k hg) fun _ =>
    (issue_parallel _ hg).bind fun _ _ _ h => poll_parallel _ _ _ h

theorem eraseAmdSteps_parallel (i : Nat) :
    Parallel (State.Twin b c x y p) (eraseAmdSteps b i) := fun s s' h => by
  simp only [eraseAmdSteps, h.bank, h.params]
  refine (issue_parallel _ h).bind fun _ t t' h => ?_
  rw [h.bank]
  exact poll_parallel _ _ _ h

theorem erasing_parallel (i : Nat) {steps : State → Res Kind}
    (hs : Parallel (State.Twin b c x y p) steps) :
    Parallel (State.Twin b c x y p) (erasing b i steps) := fun s s' h => by
  simp only [erasing, h.bank]
  exact withRange_parallel (hs.bind fun k _ _ h => .ok k (eraseEffect_twin _ _ k h)) h

theorem eraseIntel_parallel (i : Nat) : Parallel (State.Twin b c x y p) (eraseIntel b i) :=
  erasing_parallel i (eraseIntelSteps_parallel i)

theorem eraseAmd_parallel (i : Nat) : Parallel (State.Twin b c x y p) (eraseAmd b i) :=
  erasing_parallel i (eraseAmdSteps_parallel i)

theorem erase_parallel (i : Nat) : Parallel (State.Twin b c x y p) (erase b i) := fun s s' h => by
  simp only [erase, h.bank]
  split
  · exact eraseIntel_parallel i h
  · exact eraseAmd_parallel i h
  · exact .refused _

theorem protectIntel_parallel (i : Nat) (lock : Bool) :
    Parallel (State.Twin b c x y p) (protectIntel b i lock) := fun s s' h => by
  simp only [protectIntel, h.bank]
  refine (issue_parallel _ h).bind fun _ t t' h => ?_
  refine (poll_parallel _ _ _ h).bind fun k u u' h => ?_
  exact .ok k (protectFlag_twin i lock k (protectLocks_twin i lock k h))

theorem protectAmd_parallel (i : Nat) (lock : Bool) :
    Parallel (State.Twin b c x y p) (protectAmd b i lock) := fun s s' h => by
  simp only [protectAmd, h.bank]
  exact .ok _ (h.setBank _)

theorem protect_parallel (i : Nat) (lock : Bool) :
    Parallel (State.Twin b c x y p) (protect b i lock) := fun s s' h => by
  simp only [protect, h.bank]
  split
  · exact protectIntel_parallel i lock h
  · exact protectAmd_parallel i lock h
  · exact .refused _

theorem relock_parallel : ∀ js : List Nat, Parallel (State.Twin b c x y p) (relock b js)
  | [] => fun _ _ h => .ok _ h
  | j :: js => (protectIntel_parallel j true).bind fun k _ _ h =>
      .ite (fun _ => .ok k h) fun _ => relock_parallel js h

theorem protectSector_parallel (i : Nat) (lock : Bool) :
    Parallel (State.Twin b c x y p) (protectSector b i lock) := fun s s' h => by
  simp only [protectSector, h.bank]
  refine .ite (fun _ => ?_) fun _ => protect_parallel i lock h
  exact (protectIntel_parallel i false h).bind fun k _ _ h =>
    .ite (fun _ => .ok k h) fun _ => relock_parallel _ h

theorem protectSectors_parallel (start stop : Nat) (lock : Bool) :
    ∀ n i : Nat, Parallel (State.Twin b c x y p) (protectSectors b start stop lock i n)
  | 0, _ => fun _ _ h => .ok _ h
  | n + 1, i => fun s s' h => by
    simp only [protectSectors, h.bank]
    refine .ite (fun _ => ?_) fun _ => protectSectors_parallel start stop lock n (i + 1) h
    exact (protectSector_parallel i lock h).bind fun k _ _ h =>
      .ite (fun _ => .ok k h) fun _ => protectSectors_parallel start stop lock n (i + 1) h

theorem eraseSectors_parallel : ∀ n i erased skipped : Nat,
    Parallel (State.Twin b c x y p) (eraseSectors b i n erased skipped)
  | 0, _, _, _ => fun _ _ h => .ok _ h
  | n + 1, i, erased, skipped => fun s s' h => by
    simp only [eraseSectors, h.bank]
    refine .ite (fun _ => eraseSectors_parallel n (i + 1) erased (skipped + 1) h) fun _ => ?_
    exact (erase_parallel i h).bind fun k _ _ h =>
      .ite (fun _ => .ok _ h) fun _ => eraseSectors_parallel n (i + 1) (erased + 1) skipped h

end

/-! ### Programs, with their masked windows (42_sequencer.md R93) -/

section
variable {b c : Nat} {x y : Bank} {v : Bool} {s s' : State}

theorem programSteps_parallel (a : Nat) (d : Word) (ks : List (Nat × Command)) (at_ : Nat) :
    Parallel (State.Twin b c x y (EnableIs v)) (programSteps b a d ks at_) := fun s s' h => by
  refine (issue_parallel ks h.irqSave).bind fun _ t t' h => ?_
  refine (writeData_parallel a d h).bind fun _ u u' h => ?_
  simp only [h.bank]
  exact poll_parallel _ _ _ h.irqRestore

theorem programming_parallel (a : Nat) (d : Word) {steps : Nat → State → Res Kind}
    (hs : ∀ i, Parallel (State.Twin b c x y (EnableIs v)) (steps i)) :
    Parallel (State.Twin b c x y (EnableIs v)) (programming b a d steps) := fun s s' h => by
  simp only [programming, h.bank]
  split
  · exact .refused _
  · refine withRange_parallel ((busRead_parallel a).bind fun old t t' h => ?_) h
    exact .ite (fun _ => .ok _ h) fun _ =>
      (hs _ h).bind fun k _ _ h => .ok k (programEffect_twin a [d] k h)

theorem programWordIntel_parallel (a : Nat) (d : Word) :
    Parallel (State.Twin b c x y (EnableIs v)) (programWordIntel b a d) :=
  programming_parallel a d fun i s s' h => by
    simp only [h.bank]
    exact programSteps_parallel a d _ _ h

theorem programWordAmd_parallel (a : Nat) (d : Word) :
    Parallel (State.Twin b c x y (EnableIs v)) (programWordAmd b a d) :=
  programming_parallel a d fun i s s' h => by
    simp only [h.bank, h.params]
    exact programSteps_parallel a d _ _ h

theorem programWord_parallel (a : Nat) (d : Word) :
    Parallel (State.Twin b c x y (EnableIs v)) (programWord b a d) := fun s s' h => by
  simp only [programWord, h.bank]
  split
  · exact programWordIntel_parallel a d h
  · exact programWordAmd_parallel a d h
  · exact .refused _

theorem bufferSteps_parallel (a : Nat) (ds : List Word) (base : Nat) :
    Parallel (State.Twin b c x y (EnableIs v)) (bufferSteps b a ds base) := fun s s' h => by
  simp only [bufferSteps, h.bank]
  refine (issue_parallel _ h.irqSave).bind fun _ t t' h => ?_
  refine (pollReady_parallel base _ h).bind fun isReady t t' h => ?_
  refine .ite (fun _ => .ok _ h.irqRestore) fun _ => ?_
  refine (writeCount_parallel base _ h).bind fun _ t t' h => ?_
  refine (writeDataFrom_parallel ds a h).bind fun _ t t' h => ?_
  refine (writeCommand_parallel base _ h).bind fun _ t t' h => ?_
  exact poll_parallel _ _ _ h.irqRestore

theorem programBufferIntel_parallel (a : Nat) (ds : List Word) :
    Parallel (State.Twin b c x y (EnableIs v)) (programBufferIntel b a ds) := fun s s' h => by
  simp only [programBufferIntel, h.bank]
  refine .ite (fun _ => .refused _) fun _ => ?_
  split
  · exact .refused _
  · refine .ite (fun _ => .refused _) fun _ =>
      withRange_parallel ((readWords_parallel _ a).bind fun olds t t' h => ?_) h
    simp only [h.bank]
    split
    · exact .ok _ h
    · exact (bufferSteps_parallel a ds _ h).bind fun k _ _ h => .ok k (programEffect_twin a ds k h)

theorem writeMerged_parallel (a off : Nat) (bs : List Byte) :
    Parallel (State.Twin b c x y (EnableIs v)) (writeMerged b a off bs) := fun s s' h => by
  simp only [writeMerged, h.bank]
  refine .ite (fun _ => .refused _) fun _ => ?_
  refine (busRead_parallel a h).bind fun cur t t' h => ?_
  simp only [h.bank, h.params]
  exact programWord_parallel a _ h

theorem writeHead_parallel (a : Nat) (bs : List Byte) :
    Parallel (State.Twin b c x y (EnableIs v)) (writeHead b a bs) := fun s s' h => by
  simp only [writeHead, h.bank]
  exact .ite (fun _ => .ok _ h) fun _ =>
    (writeMerged_parallel _ _ _ h).bind fun _ _ _ h => .ok _ h

theorem writeBuffered_parallel : ∀ (fuel a : Nat) (bs : List Byte),
    Parallel (State.Twin b c x y (EnableIs v)) (writeBuffered b fuel a bs)
  | 0, _, _ => fun _ _ h => .ok _ h
  | fuel + 1, a, bs => fun s s' h => by
    simp only [writeBuffered, h.bank, h.params]
    refine .ite (fun _ => .ok _ h) fun _ => ?_
    exact (programBufferIntel_parallel a _ h).bind fun k _ _ h =>
      .ite (fun _ => .ok _ h) fun _ => writeBuffered_parallel fuel _ _ h

theorem writeBody_parallel : ∀ (fuel a : Nat) (bs : List Byte),
    Parallel (State.Twin b c x y (EnableIs v)) (writeBody b fuel a bs)
  | 0, _, _ => fun _ _ h => .ok _ h
  | fuel + 1, a, bs => fun s s' h => by
    simp only [writeBody, h.bank, h.params]
    refine .ite (fun _ => .ok _ h) fun _ => ?_
    exact (programWord_parallel a _ h).bind fun k _ _ h =>
      .ite (fun _ => .ok _ h) fun _ => writeBody_parallel fuel _ _ h

theorem writeTail_parallel (a : Nat) (bs : List Byte) :
    Parallel (State.Twin b c x y (EnableIs v)) (writeTail b a bs) := fun _ _ h =>
  .ite (fun _ => .ok _ h) fun _ => writeMerged_parallel a 0 bs h

theorem writeSteps_parallel (src : List Byte) (dest : Nat) :
    Parallel (State.Twin b c x y (EnableIs v)) (writeSteps b src dest) :=
  (writeHead_parallel dest src).bind fun _ _ _ h => .ite (fun _ => .ok _ h) fun _ =>
    (writeBuffered_parallel _ _ _ h).bind fun _ _ _ h => .ite (fun _ => .ok _ h) fun _ =>
      (writeBody_parallel _ _ _ h).bind fun _ _ _ h => .ite (fun _ => .ok _ h) fun _ =>
        writeTail_parallel _ _ h

end

end Sys2Proof.Machine
end

section
/-! PROOFS. The rest of the pass over the operations: identification, geometry and the rows. From it
follow that banks are independent and that the interrupt enable is restored (60_exceptions.md R118,
R123, R125; O13, O14). -/

namespace Sys2Proof.Machine

/-! ### Identification, geometry and the probe -/

section
variable {b c : Nat} {x y : Bank} {p : Bool → Bool → Prop} {s s' : State}

theorem identReset_parallel : Parallel (State.Twin b c x y p) (identReset b) := fun _ _ h => by
  simp only [identReset, h.bank]
  exact writeCommands_parallel _ h

theorem readIdEnter_parallel : Parallel (State.Twin b c x y p) (readIdEnter b) := fun _ _ h => by
  simp only [readIdEnter, h.bank, h.params]
  exact writeCommands_parallel _ h

theorem queryByte_parallel (off : Nat) : Parallel (State.Twin b c x y p) (queryByte b off) :=
  fun _ _ h => by
  simp only [queryByte, h.bank]
  refine (busRead_parallel _ h).bind fun _ _ _ h => ?_
  rw [h.bank]
  exact .ok _ h

theorem idValue_parallel (off : Nat) : Parallel (State.Twin b c x y p) (idValue b off) :=
  fun _ _ h => by
  simp only [idValue, h.bank]
  refine (busRead_parallel _ h).bind fun _ _ _ h => ?_
  rw [h.bank]
  exact .ok _ h

theorem cfiU16_parallel (off : Nat) : Parallel (State.Twin b c x y p) (cfiU16 b off) :=
  (queryByte_parallel off).bind fun _ => (queryByte_parallel (off + 1)).andReturn _

theorem readIds_parallel : Parallel (State.Twin b c x y p) (readIds b) :=
  (idValue_parallel 0).bind fun _ => (idValue_parallel 1).andReturn _

theorem readRegions_parallel : ∀ n off : Nat,
    Parallel (State.Twin b c x y p) (readRegions b off n)
  | 0, _ => fun _ _ h => .ok _ h
  | n + 1, off => (cfiU16_parallel off).bind fun _ => (cfiU16_parallel (off + 2)).bind fun _ =>
      (readRegions_parallel n (off + 4)).andReturn _

theorem readCfiFields_parallel : Parallel (State.Twin b c x y p) (readCfiFields b) :=
  fun _ _ h => by
  simp only [readCfiFields, h.params]
  exact (queryByte_parallel _ h).bind fun _ => (queryByte_parallel _).bind fun _ =>
    (queryByte_parallel _).bind fun _ => (queryByte_parallel _).bind fun _ =>
    (queryByte_parallel _).bind fun _ => (queryByte_parallel _).bind fun _ =>
    (cfiU16_parallel _).bind fun _ => (queryByte_parallel _).bind fun _ =>
    (readRegions_parallel _ _).andReturn _

theorem probeSectors_parallel : ∀ n i : Nat,
    Parallel (State.Twin b c x y p) (probeSectors b i n)
  | 0, _ => fun _ _ h => .ok () h
  | n + 1, i => fun s s' h => by
    simp only [probeSectors, h.bank, h.params]
    refine (busRead_parallel _ h).bind fun w t t' h => ?_
    simp only [h.bank, h.params]
    exact probeSectors_parallel n (i + 1) (h.setBank _)

theorem probeLocks_twin (h : State.Twin b c x y p s s') :
    State.Twin b c x y p (probeLocks b s) (probeLocks b s') := by
  simp only [probeLocks, h.bank]
  split
  · exact h.setLocks _
  · exact h

theorem probeProtection_parallel : Parallel (State.Twin b c x y p) (probeProtection b) :=
  fun s s' h => by
  simp only [probeProtection, h.bank]
  refine .ite (fun _ => .ok () h) fun _ => ?_
  refine (readIdEnter_parallel h).bind fun _ t t' h => ?_
  rw [h.bank]
  refine (probeSectors_parallel _ _ h).bind fun _ u u' h => ?_
  rw [h.bank]
  exact bankReset_parallel _ (probeLocks_twin h)

/-! What decodes a geometry compares its range with bank `c`'s. -/

variable (hxy : x.SameRange y)
include hxy

theorem storeTable_parallel (tab : Table) (finish : Bank → Bank) :
    Parallel (State.Twin b c x y p) (storeTable b tab finish) := fun s s' h => by
  simp only [storeTable, h.bank, h.fitsBeside hxy]
  exact .ite (fun _ => .ok () (h.setBank _)) fun _ => .refused _

theorem decodeCfi_parallel : Parallel (State.Twin b c x y p) (decodeCfi b) :=
  readCfiFields_parallel.bind fun _ _ _ h => by
    simp only [h.bank, h.params]
    exact storeTable_parallel hxy _ _ h

theorem decodeLegacy_parallel (e : LegacyEntry) :
    Parallel (State.Twin b c x y p) (decodeLegacy b e) := fun s s' h => by
  simp only [decodeLegacy, h.bank, h.params]
  exact storeTable_parallel hxy _ _ h

theorem identCfi_parallel : Parallel (State.Twin b c x y p) (identCfi b) := fun s s' h => by
  simp only [identCfi, h.params]
  refine (cfiU16_parallel _ h).bind fun pid t t' h => ?_
  simp only [h.bank, h.params]
  refine .ite (fun _ => .ok false h) fun _ => ?_
  refine (decodeCfi_parallel hxy (h.setBank _)).bind fun _ t t' h => ?_
  refine (identReset_parallel h).bind fun _ t t' h => ?_
  refine (readIdEnter_parallel h).bind fun _ t t' h => ?_
  refine (readIds_parallel h).bind fun ids t t' h => ?_
  refine (identReset_parallel h).bind fun _ t t' h => ?_
  simp only [h.bank, h.params]
  exact .ok true (h.setBank _)

theorem identLegacy_parallel (e : LegacyEntry) (m d : ChipId) :
    Parallel (State.Twin b c x y p) (identLegacy b e m d) := fun s s' h => by
  simp only [identLegacy, h.bank, h.params]
  exact decodeLegacy_parallel hxy e (h.setBank _)

theorem cfiHalf_parallel : Parallel (State.Twin b c x y p) (cfiHalf b) :=
  identReset_parallel.bind fun _ s s' h => by
    simp only [h.bank, h.params]
    refine (writeCommand_parallel _ _ h).bind fun _ t t' h => ?_
    simp only [h.params]
    refine (queryByte_parallel _ h).bind fun q0 t t' h => ?_
    simp only [h.params]
    refine (queryByte_parallel _ h).bind fun q1 t t' h => ?_
    simp only [h.params]
    refine (queryByte_parallel _ h).bind fun q2 t t' h => ?_
    exact .ite (fun _ => identCfi_parallel hxy h) fun _ => .ok false h

theorem legacyHalf_parallel : Parallel (State.Twin b c x y p) (legacyHalf b) :=
  identReset_parallel.bind fun _ => readIdEnter_parallel.bind fun _ =>
    readIds_parallel.bind fun ids s s' h => by
      simp only [h.params]
      split
      · exact (identLegacy_parallel hxy _ _ _ h).bind fun _ _ _ h =>
          (identReset_parallel h).bind fun _ _ _ h => .ok _ h
      · exact .ok _ h

theorem identPass_parallel : Parallel (State.Twin b c x y p) (identPass b) :=
  (cfiHalf_parallel hxy).bind fun _ _ _ h =>
    .ite (fun _ => .ok _ h) fun _ => legacyHalf_parallel hxy h

theorem tryPair_parallel (w : PortWidth) (k : ChipWidth) :
    Parallel (State.Twin b c x y p) (tryPair b w k) := fun s s' h => by
  simp only [tryPair, h.bank]
  refine (identPass_parallel hxy (h.setBank _)).bind fun e t t' h => ?_
  cases e with
  | accepted => exact .ok true h
  | next => exact .ok false h
  | flip =>
    simp only [h.bank]
    exact (identPass_parallel hxy (h.setBank _)).bind fun e _ _ h => .ok _ h

theorem tryPairs_parallel : ∀ pcs : List (PortWidth × ChipWidth),
    Parallel (State.Twin b c x y p) (tryPairs b pcs)
  | [] => fun _ _ h => .ok false h
  | (w, k) :: pcs => (tryPair_parallel hxy w k).bind fun _ _ _ h =>
      .ite (fun _ => .ok true h) fun _ => tryPairs_parallel pcs h

theorem identify_parallel : Parallel (State.Twin b c x y p) (identify b) := fun s s' h => by
  simp only [identify, h.params]
  refine (tryPairs_parallel hxy _ h).bind fun found t t' h => ?_
  refine .ite (fun _ => .ok () h) fun _ => ?_
  refine (identReset_parallel h).bind fun _ u u' h => ?_
  rw [h.bank]
  exact .ok () (h.setBank _)

theorem initBank_parallel : Parallel (State.Twin b c x y p) (initBank b) := fun s s' h => by
  simp only [initBank, h.bank]
  refine Res.Agree.bind (.ite (fun _ => identify_parallel hxy h) fun _ => .ok () h)
    fun _ t t' h => ?_
  rw [h.bank]
  exact .ite (fun _ => .ok () h) fun _ => probeProtection_parallel h

end

/-! ### Rows -/

section
variable {b c : Nat} {x y : Bank} {p : Bool → Bool → Prop}

theorem asStatus_parallel {f : State → Res Kind} (hf : Parallel (State.Twin b c x y p) f) :
    Parallel (State.Twin b c x y p) fun s => asStatus (f s) := hf.andReturn _

theorem asNothing_parallel {f : State → Res Unit} (hf : Parallel (State.Twin b c x y p) f) :
    Parallel (State.Twin b c x y p) fun s => asNothing (f s) := hf.andReturn _

theorem onKnown_parallel {f : State → Res (Option Result)}
    (hf : Parallel (State.Twin b c x y p) f) : Parallel (State.Twin b c x y p) (onKnown b f) :=
  fun _ _ h => by
  simp only [onKnown, h.bank]
  exact .ite (fun _ => .ok _ h) fun _ => hf h

section
variable {α : Type} {f : State → Res α} (hf : Parallel (State.Twin b c x y p) f)
include hf

theorem onBank_parallel : Parallel (State.Twin b c x y p) (onBank b f) := fun _ _ h => by
  simp only [onBank, h.count]
  exact .ite (fun _ => hf h) fun _ => .refused _

theorem onVariant_parallel (k : CmdSet) : Parallel (State.Twin b c x y p) (onVariant b k f) :=
  fun _ _ h => by
  simp only [onVariant, h.bank]
  exact .ite (fun _ => hf h) fun _ => .refused _

theorem onSector_parallel (i : Nat) : Parallel (State.Twin b c x y p) (onSector b i f) :=
  fun _ _ h => by
  simp only [onSector, h.bank]
  exact .ite (fun _ => hf h) fun _ => .refused _

theorem beforeInit_parallel : Parallel (State.Twin b c x y p) (beforeInit f) := fun _ _ h => by
  simp only [beforeInit, h.initDone]
  exact .ite (fun _ => .refused _) fun _ => hf h

theorem onUnknown_parallel : Parallel (State.Twin b c x y p) (onUnknown b f) := fun _ _ h => by
  simp only [onUnknown, h.bank]
  exact .ite (fun _ => hf h) fun _ => .refused _

end

theorem commandRow_parallel (a : Nat) (k : Command) :
    Parallel (State.Twin b c x y p) (commandRow b a k) :=
  (writeCommand_parallel a k).bind fun _ _ _ h => .ok _ (h.step (·.setSm .commandIssued))

/-- A command word at a command offset that the parameters give. -/
theorem commandRow_at_parallel (off : Params → Nat) (k : Command) :
    Parallel (State.Twin b c x y p) fun s =>
      commandRow b ((s.bank b).baseAddr (off s.params)) k s := fun s s' h => by
  simp only [h.bank, h.params]
  exact commandRow_parallel _ k h

/-- A command word of identification at a command offset that the parameters give. -/
theorem identRow_at_parallel (off : Params → Nat) (k : Command) :
    Parallel (State.Twin b c x y p) fun s => identRow b (off s.params) k s := fun s s' h => by
  simp only [identRow, h.bank, h.params]
  exact asNothing_parallel (writeCommand_parallel _ k) h

/-- An unlock word (30_encoding.md R54, 40_identification.md R71). -/
theorem unlockRow_parallel (off : Params → Nat) (k : Command) :
    Parallel (State.Twin b c x y p) fun s =>
      if (s.bank b).cmdset = .amdStyle then commandRow b ((s.bank b).baseAddr (off s.params)) k s
      else identRow b (off s.params) k s := fun s s' h => by
  have hc := commandRow_at_parallel off k h
  have hi := identRow_at_parallel off k h
  simp only [h.bank, h.params] at hc hi ⊢
  exact .ite (fun _ => hc) fun _ => hi

theorem resetRow_parallel (a : Nat) (k : Command) :
    Parallel (State.Twin b c x y p) (resetRow b a k) :=
  (writeCommand_parallel a k).bind fun _ _ _ h => by
    simp only [h.bank]
    refine .ok _ ?_
    split
    · exact h.step (·.setSm .idle)
    · exact h

theorem statusRow_parallel (a : Nat) (test : Word → Word → Verdict) :
    Parallel (State.Twin b c x y p) (statusRow b a test) :=
  (busRead_parallel a).bind fun w t _ h => by
    simp only [h.seq]
    refine .ok _ ?_
    have hsm := h.step (·.setSm (smOfVerdict (test t.seq.pollPrev w)))
    split
    · exact hsm.step (·.setPollPrev w)
    · exact hsm

end

section
variable {b c : Nat} {x y : Bank} {v : Bool}

theorem flashErase_parallel {p : Bool → Bool → Prop} (first last : Nat) :
    Parallel (State.Twin b c x y p) (flashErase b first last) := fun s s' h => by
  simp only [flashErase, h.bank]
  exact .ite (fun _ => .ok _ h) fun _ => .ite (fun _ => .ok _ h) fun _ =>
    (eraseSectors_parallel _ _ _ _ h).bind fun _ _ _ h => .ok _ h

theorem flashProtect_parallel {p : Bool → Bool → Prop} (flag : ProtectFlag) (start stop : Nat) :
    Parallel (State.Twin b c x y p) (flashProtect flag start stop b) := fun s s' h => by
  simp only [flashProtect, h.bank]
  exact .ite (fun _ => .ok _ h) fun _ => .ite (fun _ => .ok _ h) fun _ =>
    asStatus_parallel (protectSectors_parallel _ _ _ _ _) h

theorem writeBuff_parallel (src : List Byte) (dest len : Nat) :
    Parallel (State.Twin b c x y (EnableIs v)) (writeBuff b src dest len) := fun s s' h => by
  simp only [writeBuff, h.bank]
  exact .ite (fun _ => .refused _) fun _ => .ite (fun _ => .ok _ h) fun _ =>
    .ite (fun _ => .ok _ h) fun _ => .ite (fun _ => .ok _ h) fun _ =>
    asStatus_parallel (writeSteps_parallel _ _) h

/-- `flash_init`'s banks, all of them below `c` (43_facade.md R105). -/
theorem initBanks_parallel {d : Nat} {p : Bool → Bool → Prop} (hxy : x.SameRange y) :
    ∀ n b : Nat, b + n ≤ c → Parallel (State.Twin d c x y p) (initBanks b n)
  | 0, _, _ => fun _ _ h => .ok () h
  | n + 1, b, hn => fun s s' h => by
    refine (initBank_parallel hxy (h.onBank (d := b) (by omega))).bind fun _ t t' ht => ?_
    exact initBanks_parallel hxy n (b + 1) (by omega) (ht.onBank h.ne)

end

/-! ### Rows that end alike -/

/-- Two rows end in states that `R` relates, or in the same fault or refusal. -/
inductive RowsAgree (R : State → State → Prop) :
    Host.Outcome State Fault Refusal → Host.Outcome State Fault Refusal → Prop
  | next {t t' : State} (h : R t t') : RowsAgree R (.next t) (.next t')
  | fault (f : Fault) : RowsAgree R (.fault f) (.fault f)
  | refused (e : Refusal) : RowsAgree R (.refused e) (.refused e)

section
variable {b c : Nat} {x y : Bank} {p : Bool → Bool → Prop} {s s' : State}

theorem call_agree {i : Instr} {body : State → Res (Option Result)}
    (h : State.Twin b c x y p s s')
    (hbody : Res.Agree (State.Twin b c x y p) (body (s.enter i)) (body (s'.enter i))) :
    RowsAgree (State.Twin b c x y p) (call i body s) (call i body s') := by
  unfold call
  rw [h.position, h.params]
  generalize body (s.enter i) = r, body (s'.enter i) = r' at hbody
  split
  · exact .refused _
  · split
    · exact .refused _
    · cases hbody with
      | ok r h => exact .next (h.step (·.leave r))
      | fault f => exact .fault f
      | refused e => exact .refused e

/-- A row on bank `b` that runs to its result: its body does. -/
theorem call_onBank_agree {i : Instr} {body : State → Res (Option Result)}
    (h : State.Twin b c x y p s s') (hbody : Parallel (State.Twin b c x y p) body) :
    RowsAgree (State.Twin b c x y p) (call i (onBank b body) s) (call i (onBank b body) s') :=
  call_agree h (onBank_parallel hbody (h.step (·.enter i)))

/-- Swapping bank `c` on both sides of a row. -/
theorem RowsAgree.eq_mapNext {o o' : Host.Outcome State Fault Refusal}
    (h : RowsAgree (State.Twin b c x y p) o o') : o' = mapNext (fun t => t.setBank c y) o := by
  cases h with
  | next h => exact congrArg _ h.swapped
  | fault f => rfl
  | refused e => rfl

theorem RowsAgree.irq {o' : Host.Outcome State Fault Refusal} {t : State}
    (h : RowsAgree (State.Twin b c x y p) (.next t) o') : p t.env.ie t.seq.savedIrq := by
  cases h with
  | next h => exact h.irq

end

/-- Every row that names a bank is blind to another one, the detected range aside where it decodes a
geometry, and leaves the interrupt enable as it found it. -/
theorem exec_agree {i : Instr} {b c : Nat} {x y : Bank} {v : Bool} {s s' : State}
    (hi : bankOf i = some b) (hxy : isDecodeRow i = true → x.SameRange y)
    (h : State.Twin b c x y (EnableIs v) s s') :
    RowsAgree (State.Twin b c x y (EnableIs v)) (exec i s) (exec i s') := by
  cases i
  case flashInit => cases hi
  all_goals
    obtain rfl := Option.some.inj hi
    refine call_onBank_agree h ?_
  case flashGetSize | flashPrintInfo =>
    exact fun _ _ h => by
      rw [h.bank]
      exact .ok _ h
  case flashErase first last => exact flashErase_parallel first last
  case writeBuff src dest len => exact writeBuff_parallel src dest len
  case flashProtect flag start stop _ => exact flashProtect_parallel flag start stop
  case readId => exact identRow_at_parallel _ _
  case cfiQuery => exact identRow_at_parallel (·.cfi.query) _
  case resetIntel | resetAmd => exact resetRow_parallel _ _
  case clearStatus | blockErase | eraseConfirm | resume | program | writeToBuffer | bufferConfirm |
      lockSetup | lockSet | lockClear | sectorErase =>
    exact onVariant_parallel (commandRow_parallel _ _) _
  case unlock1 | unlock2 => exact unlockRow_parallel _ _
  case eraseSetup | amdProgram => exact onVariant_parallel (commandRow_at_parallel _ _) _
  case count a n =>
    exact onVariant_parallel ((writeCount_parallel a n).bind fun _ _ _ h =>
      .ok _ (h.step (·.setSm .commandIssued))) _
  case data a d =>
    exact (writeData_parallel a d).bind fun _ _ _ h => .ok _ (h.step (·.setSm .commandIssued))
  case statusIntel a | statusAmd a =>
    refine onVariant_parallel (fun _ _ h => ?_) _
    simp only [h.bank, h.params]
    exact statusRow_parallel a _ h
  case bankReset a => exact (bankReset_parallel a).andReturn _
  case identReset => exact asNothing_parallel identReset_parallel
  case readIdEnter => exact asNothing_parallel readIdEnter_parallel
  case identify =>
    exact beforeInit_parallel (onUnknown_parallel (asNothing_parallel
      (identify_parallel (hxy rfl))))
  case identCfi =>
    exact beforeInit_parallel (onUnknown_parallel ((identCfi_parallel (hxy rfl)).andReturn _))
  case identLegacy m d =>
    refine beforeInit_parallel (onUnknown_parallel fun _ _ h => ?_)
    simp only [h.params]
    split
    · exact (identLegacy_parallel (hxy rfl) _ m d h).bind fun _ _ _ h => .ok _ h
    · exact .ok _ h
  case decodeCfi =>
    exact beforeInit_parallel (onKnown_parallel (asNothing_parallel (decodeCfi_parallel (hxy rfl))))
  case decodeLegacy =>
    refine beforeInit_parallel (onKnown_parallel fun _ _ h => ?_)
    simp only [h.params, h.bank]
    split
    · exact (decodeLegacy_parallel (hxy rfl) _ h).bind fun _ _ _ h => .ok _ h
    · exact .ok _ h
  case probeProtection =>
    exact beforeInit_parallel (onKnown_parallel (asNothing_parallel probeProtection_parallel))
  case poll a budget k => exact asStatus_parallel (poll_parallel a budget _)
  case pollReady a budget =>
    exact onVariant_parallel ((pollReady_parallel a budget).andReturn _) _
  case eraseIntel j =>
    exact onKnown_parallel (onVariant_parallel
      (onSector_parallel (asStatus_parallel (eraseIntel_parallel j)) j) _)
  case eraseAmd j =>
    exact onKnown_parallel (onVariant_parallel
      (onSector_parallel (asStatus_parallel (eraseAmd_parallel j)) j) _)
  case programWordIntel a d =>
    refine onKnown_parallel (onVariant_parallel (fun _ _ h => ?_) _)
    rw [h.bank]
    exact asStatus_parallel (programWordIntel_parallel a _) h
  case programWordAmd a d =>
    refine onKnown_parallel (onVariant_parallel (fun _ _ h => ?_) _)
    rw [h.bank]
    exact asStatus_parallel (programWordAmd_parallel a _) h
  case programBufferIntel a ds =>
    refine onKnown_parallel (onVariant_parallel (fun _ _ h => ?_) _)
    rw [h.bank]
    exact asStatus_parallel (programBufferIntel_parallel a _) h
  case protectIntel j lock =>
    exact onKnown_parallel (onVariant_parallel
      (onSector_parallel (asStatus_parallel (protectIntel_parallel j lock)) j) _)
  case protectAmd j lock =>
    exact onKnown_parallel (onVariant_parallel
      (onSector_parallel (asStatus_parallel (protectAmd_parallel j lock)) j) _)
  case writeMerged a off bs =>
    exact onKnown_parallel (asStatus_parallel (writeMerged_parallel a off bs))
  case protectSector j lock =>
    exact onKnown_parallel (onSector_parallel (asStatus_parallel (protectSector_parallel j lock)) j)

/-- `flash_init` beside a bank that is not there: it leaves the interrupt enable as it found it. -/
theorem flashInit_agree {s : State} (hr : s.env.resetIn = none) :
    RowsAgree (State.Twin (s.banks.length + 1) s.banks.length (s.bank s.banks.length)
      (s.bank s.banks.length) (EnableIs s.env.ie)) (exec .flashInit s) (exec .flashInit s) := by
  have h := State.Twin.refl (b := s.banks.length + 1) (c := s.banks.length)
    (p := EnableIs s.env.ie) (by omega) hr rfl
  refine call_agree h (.ite (fun _ => .refused _) fun _ => ?_)
  refine (initBanks_parallel ⟨rfl, rfl⟩ s.banks.length 0 (by omega)
    (h.step (·.enter .flashInit))).bind fun _ t t' ht => ?_
  obtain rfl : t' = t := ht.eq_self
  exact .ok _ (ht.step State.setInitDone)

/-- A row that runs to its result leaves the host's interrupt enable as it found it (42_sequencer.md
R93, 60_exceptions.md R118): seen beside any other bank, put in its own place. -/
theorem exec_ie {i : Instr} {s t : State} (hr : s.env.resetIn = none) (h : exec i s = .next t) :
    t.env.ie = s.env.ie := by
  cases hi : bankOf i with
  | none =>
    cases i with
    | flashInit =>
      have hagree := flashInit_agree hr
      rw [h] at hagree
      exact hagree.irq
    | _ => cases hi
  | some b =>
    have hagree := exec_agree hi (fun _ => ⟨rfl, rfl⟩)
      (State.Twin.refl (c := b + 1) (p := EnableIs s.env.ie) (Nat.succ_ne_self b) hr rfl)
    rw [h] at hagree
    exact hagree.irq

/-- Settles O13: the two runs are twins from start to end. -/
theorem banksAreIndependent : Obligations.BanksAreIndependent := by
  intro i s b c bk hi hne hr hrange
  have h : State.Twin b c (s.bank c) bk (EnableIs s.env.ie) s (s.setBank c bk) :=
    ⟨hne, rfl, rfl, hr, rfl⟩
  exact (exec_agree hi (fun hd => ⟨(hrange hd).1, (hrange hd).2⟩) h).eq_mapNext

/-- Settles O14: every row keeps the timer and the trace (`exec_keeps`), as the reset that cuts one
does; one that is not cut restores the interrupt enable. -/
theorem timeTraceAndInterruptEnable : Obligations.TimeTraceAndInterruptEnable := by
  intro i s t h
  have hie := fun hr => exec_ie hr h
  rcases exec_keeps h with ⟨-, hk⟩ | ⟨-, u, hf, rfl⟩
  · exact ⟨hk.timer, hk.trace, hie⟩
  · exact ⟨hf.timer, hf.trace, hie⟩

end Sys2Proof.Machine
end

section
/-! PROOFS. What bus accesses leave whether or not a system reset is due: the array, `sm_state`, every
other bank, and the reset if one is due (`Quiet`). Identification is bus accesses and writes of the
bank's own registers, so it is quiet too, and leaves its bank in read-array mode. -/

namespace Sys2Proof.Machine

/-! ### Updates that change no byte -/

/-- The array, the range on record (70_reset_and_hazards.md R129), whether a system reset is due and
the number of banks are as before. -/
structure Silent (s t : State) : Prop where
  memory : t.memory = s.memory
  range : t.position.bind Position.range = s.position.bind Position.range
  due : t.env.resetIn = none ↔ s.env.resetIn = none
  count : t.banks.length = s.banks.length

theorem Silent.refl (s : State) : Silent s s := ⟨rfl, rfl, .rfl, rfl⟩

theorem Silent.framed : Framed Silent where
  refl := .refl
  trans h k := ⟨k.memory.trans h.memory, k.range.trans h.range, k.due.trans h.due,
    k.count.trans h.count⟩
  resets h := h.due.mpr

/-- Nothing but registers of bank `b` has changed, as far as `sm_state` and the system reset go. -/
structure Calm (b : Nat) (s t : State) : Prop where
  due : t.env.resetIn = none ↔ s.env.resetIn = none
  count : t.banks.length = s.banks.length
  others : ∀ c, c ≠ b → t.bank c = s.bank c
  smState : t.seq.smState = s.seq.smState
  smTrace : t.log.smTrace = s.log.smTrace

theorem Calm.refl (b : Nat) (s : State) : Calm b s s := ⟨.rfl, rfl, fun _ _ => rfl, rfl, rfl⟩

theorem Calm.trans {b : Nat} {s t u : State} (h : Calm b s t) (k : Calm b t u) : Calm b s u :=
  ⟨k.due.trans h.due, k.count.trans h.count, fun c hc => (k.others c hc).trans (h.others c hc),
    k.smState.trans h.smState, k.smTrace.trans h.smTrace⟩

/-- As `Calm`, with the array and the range on record as they were. -/
structure Quiet (b : Nat) (s t : State) : Prop extends Calm b s t where
  memory : t.memory = s.memory
  range : t.position.bind Position.range = s.position.bind Position.range

theorem Quiet.silent {b : Nat} {s t : State} (h : Quiet b s t) : Silent s t :=
  ⟨h.memory, h.range, h.due, h.count⟩

theorem Quiet.framed (b : Nat) : Framed (Quiet b) where
  refl s := ⟨.refl b s, rfl, rfl⟩
  trans h k := ⟨h.toCalm.trans k.toCalm, k.memory.trans h.memory, k.range.trans h.range⟩
  resets h := h.due.mpr

theorem Quiet.lt {b : Nat} {s t : State} (h : Quiet b s t) (hb : b < s.banks.length) :
    b < t.banks.length := by
  rwa [h.count]

theorem Quiet.setBank (b : Nat) (s : State) (bk : Bank) : Quiet b s (s.setBank b bk) :=
  ⟨⟨.rfl, List.length_set, fun _ hc => State.setBank_bank_other s bk hc, rfl, rfl⟩, rfl, rfl⟩

theorem Quiet.note (b : Nat) (s : State) (e : BusEvent) : Quiet b s (s.note e) :=
  ⟨⟨.rfl, rfl, fun _ _ => rfl, rfl, rfl⟩, rfl, rfl⟩

theorem Quiet.setEnv (b : Nat) {s : State} {e : Env}
    (h : e.resetIn = none ↔ s.env.resetIn = none) : Quiet b s (s.setEnv e) :=
  ⟨⟨h, rfl, fun _ _ => rfl, rfl, rfl⟩, rfl, rfl⟩

theorem Quiet.advance (b : Nat) (s : State) : Quiet b s s.advance :=
  ⟨⟨.rfl, rfl, fun _ _ => rfl, rfl, rfl⟩, rfl, by
    cases h : s.position <;> simp [State.advance, h]⟩

/-- What two accounts of one piece say together; the frame is that of the first. -/
theorem Res.Leads.and {α : Type} {F G : State → State → Prop} {s : State} {P Q : α → State → Prop}
    {r : Res α} (h : r.Leads F s P) (k : r.Leads G s Q) :
    r.Leads F s fun a t => P a t ∧ G s t ∧ Q a t := by
  cases r with
  | ok a t => exact ⟨h.1, h.2, k⟩
  | reset t => exact h
  | fault | refused => trivial

theorem Res.Stays.silent {α : Type} {b : Nat} {s : State} {r : Res α} (h : r.Stays (Quiet b) s) :
    r.Stays Silent s := h.weaken fun _ hf => hf.silent

/-! ### Bus accesses and the timer -/

section
variable (b : Nat) (s : State)

/-- A micro-step leaves a reset due if one is due, or is the one the reset falls before. -/
theorem microStep_quiet : (microStep s).Stays (Quiet b) s := by
  unfold microStep
  split
  · next h => exact ⟨by simp [h], s, (Quiet.framed b).refl s, rfl⟩
  · next n h =>
    exact .ok_of ((Quiet.framed b).trans (Quiet.setEnv b (by simp [h])) (Quiet.advance b _))
  · exact .ok_of (Quiet.advance b s)

theorem drawWord_quiet (p : PortWidth) : Quiet b s (drawWord p s).2 := by
  unfold drawWord
  split
  · exact Quiet.setEnv b .rfl
  · exact Quiet.setEnv b (e := { s.env with draws := s.env.draws + 1 }) .rfl

theorem answer_quiet (a : Nat) : Quiet b s (answer b a s).2 := by
  simp only [answer]
  split
  · exact (Quiet.framed b).refl s
  · exact drawWord_quiet b s _

theorem busRead_quiet (a : Nat) : (busRead b a s).Stays (Quiet b) s :=
  .ite (fun _ => trivial) fun _ => .ite (fun _ => trivial) fun _ =>
    (microStep_quiet b s).bind (Quiet.framed b) fun _ t _ =>
      .ok_of ((Quiet.framed b).trans (answer_quiet b t a) (Quiet.note b _ _))

theorem busWrite_quiet (a : Nat) (v : Word) (c : Option Command) :
    (busWrite b a v c s).Stays (Quiet b) s :=
  .ite (fun _ => trivial) fun _ => .ite (fun _ => trivial) fun _ =>
    (microStep_quiet b s).bind (Quiet.framed b) fun _ t _ =>
      .ok_of ((Quiet.framed b).trans (Quiet.setBank b t _) (Quiet.note b _ _))

theorem tickTimer_quiet : Quiet b s (tickTimer s) := by
  unfold tickTimer
  split <;> exact Quiet.setEnv b .rfl

theorem readTimer_quiet : (readTimer s).Stays (Quiet b) s :=
  (microStep_quiet b s).bind (Quiet.framed b) fun _ t _ =>
    .ok_of ((Quiet.framed b).trans (tickTimer_quiet b t) (Quiet.note b _ _))

theorem writeCommand_quiet (a : Nat) (c : Command) : (writeCommand b a c s).Stays (Quiet b) s :=
  busWrite_quiet b s a _ _

theorem writeCount_quiet (a : Nat) (n : Byte) : (writeCount b a n s).Stays (Quiet b) s :=
  busWrite_quiet b s a _ _

theorem writeData_quiet (a : Nat) (d : Word) : (writeData b a d s).Stays (Quiet b) s :=
  busWrite_quiet b s a _ _

end

theorem writeCommands_quiet (b : Nat) : ∀ (cs : List (Nat × Command)) (s : State),
    (writeCommands b cs s).Stays (Quiet b) s
  | [], _ => .ok (Quiet.framed b) ()
  | (a, c) :: cs, s => (writeCommand_quiet b s a c).bind (Quiet.framed b) fun _ t _ =>
      writeCommands_quiet b cs t

theorem writeDataFrom_quiet (b : Nat) : ∀ (ds : List Word) (a : Nat) (s : State),
    (writeDataFrom b a ds s).Stays (Quiet b) s
  | [], _, _ => .ok (Quiet.framed b) ()
  | d :: ds, a, s => (writeData_quiet b s a d).bind (Quiet.framed b) fun _ t _ =>
      writeDataFrom_quiet b ds _ t

theorem readWords_quiet (b : Nat) : ∀ (n a : Nat) (s : State),
    (readWords b a n s).Stays (Quiet b) s
  | 0, _, _ => .ok (Quiet.framed b) _
  | n + 1, a, s => (busRead_quiet b s a).bind (Quiet.framed b) fun _ t _ =>
      (readWords_quiet b n _ t).andReturn (Quiet.framed b)

theorem probeSectors_quiet (b : Nat) : ∀ (n i : Nat) (s : State),
    (probeSectors b i n s).Stays (Quiet b) s
  | 0, _, _ => .ok (Quiet.framed b) ()
  | n + 1, i, s => (busRead_quiet b s _).bind (Quiet.framed b) fun _ t _ =>
      .after (Quiet.framed b) (Quiet.setBank b t _) (probeSectors_quiet b n (i + 1) _)

/-! ### The readers and the decoders -/

section
variable (b : Nat) (s : State)

theorem readIdEnter_quiet : (readIdEnter b s).Stays (Quiet b) s := writeCommands_quiet b _ s

theorem queryByte_quiet (off : Nat) : (queryByte b off s).Stays (Quiet b) s :=
  (busRead_quiet b s _).andReturn (Quiet.framed b)

theorem idValue_quiet (off : Nat) : (idValue b off s).Stays (Quiet b) s :=
  (busRead_quiet b s _).andReturn (Quiet.framed b)

theorem cfiU16_quiet (off : Nat) : (cfiU16 b off s).Stays (Quiet b) s :=
  (queryByte_quiet b s off).bind (Quiet.framed b) fun _ t _ =>
    (queryByte_quiet b t (off + 1)).andReturn (Quiet.framed b)

theorem readIds_quiet : (readIds b s).Stays (Quiet b) s :=
  (idValue_quiet b s 0).bind (Quiet.framed b) fun _ t _ =>
    (idValue_quiet b t 1).andReturn (Quiet.framed b)

theorem storeTable_quiet (tab : Table) (finish : Bank → Bank) :
    (storeTable b tab finish s).Stays (Quiet b) s :=
  .ite (fun _ => .ok_of (Quiet.setBank b s _)) fun _ => .stop_refused _

theorem decodeLegacy_quiet (e : LegacyEntry) : (decodeLegacy b e s).Stays (Quiet b) s :=
  storeTable_quiet b s _ _

theorem identLegacy_quiet (e : LegacyEntry) (m d : ChipId) :
    (identLegacy b e m d s).Stays (Quiet b) s :=
  .after (Quiet.framed b) (Quiet.setBank b s _) (decodeLegacy_quiet b _ e)

end

theorem readRegions_quiet (b : Nat) : ∀ (n off : Nat) (s : State),
    (readRegions b off n s).Stays (Quiet b) s
  | 0, _, _ => .ok (Quiet.framed b) _
  | n + 1, off, s =>
    (cfiU16_quiet b s off).bind (Quiet.framed b) fun _ t _ =>
    (cfiU16_quiet b t (off + 2)).bind (Quiet.framed b) fun _ u _ =>
    (readRegions_quiet b n (off + 4) u).andReturn (Quiet.framed b)

theorem readCfiFields_quiet (b : Nat) (s : State) : (readCfiFields b s).Stays (Quiet b) s :=
  (queryByte_quiet b s _).bind (Quiet.framed b) fun _ s _ =>
  (queryByte_quiet b s _).bind (Quiet.framed b) fun _ s _ =>
  (queryByte_quiet b s _).bind (Quiet.framed b) fun _ s _ =>
  (queryByte_quiet b s _).bind (Quiet.framed b) fun _ s _ =>
  (queryByte_quiet b s _).bind (Quiet.framed b) fun _ s _ =>
  (queryByte_quiet b s _).bind (Quiet.framed b) fun _ s _ =>
  (cfiU16_quiet b s _).bind (Quiet.framed b) fun _ s _ =>
  (queryByte_quiet b s _).bind (Quiet.framed b) fun _ s _ =>
  (readRegions_quiet b _ _ s).andReturn (Quiet.framed b)

theorem decodeCfi_quiet (b : Nat) (s : State) : (decodeCfi b s).Stays (Quiet b) s :=
  (readCfiFields_quiet b s).bind (Quiet.framed b) fun _ t _ => storeTable_quiet b t _ _

/-! ### Identification -/

/-- The devices of bank `b` answer with the array (20_memory.md R42, R43). -/
def State.Reading (s : State) (b : Nat) : Prop := (s.bank b).device.mode = .readArray

/-- A write of the registers that keeps the devices. -/
theorem State.Reading.setBank {s : State} {b : Nat} (h : s.Reading b) (hb : b < s.banks.length)
    {bk : Bank} (hd : bk.device = (s.bank b).device) : (s.setBank b bk).Reading b := by
  rw [State.Reading, State.setBank_bank_self s bk hb, hd]
  exact h

section
variable {α β : Type} {b : Nat} {s : State} {r : Res α} {k : α → State → Res β}
  {P : α → State → Prop} {Q : β → State → Prop} (hb : b < s.banks.length)
include hb

/-- A quiet piece on a bank that exists, and then one that rests on what it came to. -/
theorem Res.Leads.quietly (h : r.Leads (Quiet b) s P)
    (hk : ∀ a t, b < t.banks.length → P a t → (k a t).Leads (Quiet b) t Q) :
    (r.bind k).Leads (Quiet b) s Q :=
  h.bind (Quiet.framed b) fun a t ht hp => hk a t (ht.lt hb) hp

theorem Res.Stays.quietly (h : r.Stays (Quiet b) s)
    (hk : ∀ a t, b < t.banks.length → (k a t).Leads (Quiet b) t Q) :
    (r.bind k).Leads (Quiet b) s Q :=
  Res.Leads.quietly hb h fun a t hb _ => hk a t hb

end

section
variable {b : Nat} {s : State} (hb : b < s.banks.length)
include hb

/-- The two reset words end in read-array mode (40_identification.md R70). -/
theorem identReset_quiet : (identReset b s).Leads (Quiet b) s fun _ t => t.Reading b := by
  refine (Res.Leads.and (writeCommands_quiet b _ s) (writeCommands_leads _ hb)).mono ?_
  rintro - t - ⟨-, -, -, hdevice, -⟩
  rw [State.Reading, hdevice]
  simp [devicesAfter, deviceAfter, modeAfter]

theorem identCfi_quiet : (identCfi b s).Leads (Quiet b) s fun found t =>
    found = true → t.Reading b := by
  have hQ := Quiet.framed b
  refine (cfiU16_quiet b s _).quietly hb fun pid t hb => ?_
  simp only
  generalize cmdsetOfPrimary t.params.cfi pid = cs
  split
  · exact .ok hQ nofun
  have hset := Quiet.setBank b t { t.bank b with cmdset := cs }
  refine .after hQ hset ((decodeCfi_quiet b _).quietly (hset.lt hb) fun _ t hb => ?_)
  refine (identReset_quiet hb).quietly hb fun _ t hb _ => ?_
  refine (readIdEnter_quiet b t).quietly hb fun _ t hb => ?_
  refine (readIds_quiet b t).quietly hb fun ids t hb => ?_
  refine (identReset_quiet hb).quietly hb fun _ t hb hmode => ?_
  exact .ok_of (Quiet.setBank b t _) fun _ => hmode.setBank hb rfl

/-- The CFI half of a pass (40_identification.md R72, R73). -/
theorem cfiHalf_quiet : (cfiHalf b s).Leads (Quiet b) s fun found t =>
    found = true → t.Reading b := by
  refine (identReset_quiet hb).quietly hb fun _ t hb _ => ?_
  refine (writeCommand_quiet b t _ _).quietly hb fun _ t hb => ?_
  refine (queryByte_quiet b t _).quietly hb fun q0 t hb => ?_
  refine (queryByte_quiet b t _).quietly hb fun q1 t hb => ?_
  refine (queryByte_quiet b t _).quietly hb fun q2 t hb => ?_
  split
  · exact identCfi_quiet hb
  · exact .ok (Quiet.framed b) nofun

/-- The read-ID half of a pass (40_identification.md R72, R75). -/
theorem legacyHalf_quiet : (legacyHalf b s).Leads (Quiet b) s fun e t =>
    e = .accepted → t.Reading b := by
  refine (identReset_quiet hb).quietly hb fun _ t hb _ => ?_
  refine (readIdEnter_quiet b t).quietly hb fun _ t hb => ?_
  refine (readIds_quiet b t).quietly hb fun ids t hb => ?_
  split
  · refine (identLegacy_quiet b t _ _ _).quietly hb fun _ t hb => ?_
    exact (identReset_quiet hb).quietly hb fun _ t _ hmode => .ok (Quiet.framed b) fun _ => hmode
  · refine .ok (Quiet.framed b) ?_
    split <;> nofun

theorem identPass_quiet : (identPass b s).Leads (Quiet b) s fun e t =>
    e = .accepted → t.Reading b := by
  refine (cfiHalf_quiet hb).quietly hb fun found t hb hmode => ?_
  split
  · next hfound => exact .ok (Quiet.framed b) fun _ => hmode hfound
  · exact legacyHalf_quiet hb

theorem tryPair_quiet (p : PortWidth) (c : ChipWidth) : (tryPair b p c s).Leads (Quiet b) s
    fun found t => found = true → t.Reading b := by
  have hQ := Quiet.framed b
  have pass : ∀ (o : LaneOrder) {t : State}, b < t.banks.length →
      (identPass b (t.setBank b (Bank.atWidths p c o (t.bank b)))).Leads (Quiet b) t
        fun e u => e = .accepted → u.Reading b := fun o t hb =>
    .after hQ (Quiet.setBank b t _) (identPass_quiet ((Quiet.setBank b t _).lt hb))
  refine (pass .le hb).quietly hb fun e t hb hmode => ?_
  cases e with
  | accepted => exact .ok hQ fun _ => hmode rfl
  | next => exact .ok hQ nofun
  | flip =>
    exact (pass .be hb).quietly hb fun e t _ hmode =>
      .ok hQ fun he => hmode (of_decide_eq_true he)

end

theorem tryPairs_quiet {b : Nat} : ∀ (pcs : List (PortWidth × ChipWidth)) {s : State},
    b < s.banks.length →
    (tryPairs b pcs s).Leads (Quiet b) s fun found t => found = true → t.Reading b
  | [], _, _ => .ok (Quiet.framed b) nofun
  | (p, c) :: pcs, _, hb => by
    refine (tryPair_quiet hb p c).quietly hb fun found t hb hmode => ?_
    split
    · next hfound => exact .ok (Quiet.framed b) fun _ => hmode hfound
    · exact tryPairs_quiet pcs hb

/-- Identify ends with a reset to read-array, whether it has found a device or not
(40_identification.md R72). -/
theorem identify_quiet {b : Nat} {s : State} (hb : b < s.banks.length) :
    (identify b s).Leads (Quiet b) s fun _ t => t.Reading b := by
  refine (tryPairs_quiet _ hb).quietly hb fun found t hb hmode => ?_
  split
  · next hfound => exact .ok (Quiet.framed b) (hmode hfound)
  · exact (identReset_quiet hb).quietly hb fun _ t hb hmode =>
      .ok_of (Quiet.setBank b t _) (hmode.setBank hb rfl)

/-! ### A system reset between operations -/

/-- Settles O5: the launch state has the values by definition, and a reset that is due between
operations is the whole step. -/
theorem launchAndResetValues : Obligations.LaunchAndResetValues := by
  refine ⟨fun p => ⟨rfl, rfl, rfl, (List.map_map ..).trans (List.map_id _), fun bk hbk => ?_⟩,
    fun s hr hpos => ?_⟩
  · obtain ⟨a, -, rfl⟩ := State.mem_atReset_banks hbk
    exact ⟨rfl, rfl, rfl, rfl, rfl, rfl, rfl, rfl, rfl, rfl, rfl, rfl, rfl, rfl, rfl, rfl⟩
  · have hstep : step s = .next s.systemReset := by
      rw [step_of_reset hr, State.resetNow, if_pos hpos]
    exact ⟨s.systemReset, hstep, rfl, rfl, rfl, rfl, rfl, rfl, rfl, rfl, rfl⟩

end Sys2Proof.Machine
end

section
/-! PROOFS. Host operations return to rest by legal transitions of `sm_state` (70_reset_and_hazards.md
R132, 10_state.md R23, R24; O16). A piece of an operation that may leave `sm_state` mid-sequence
`Walks`; a whole sequence started at rest `Settles`. -/

namespace Sys2Proof.Machine

/-! ### Runs of `sm_state` (10_state.md R24) -/

/-- The values lead from `x` to `y`, each by a legal transition from the one before it. -/
def LegalRun : SmState → List SmState → SmState → Prop
  | x, [], y => x = y
  | x, z :: ms, y => legalStep x z = true ∧ LegalRun z ms y

theorem LegalRun.legalPath : ∀ {ms : List SmState} {x y : SmState}, LegalRun x ms y →
    legalPath x ms = true
  | [], _, _, _ => rfl
  | _ :: _, _, _, ⟨hstep, hrun⟩ => Bool.and_eq_true_iff.mpr ⟨hstep, hrun.legalPath⟩

theorem LegalRun.append : ∀ {ms ns : List SmState} {x y z : SmState}, LegalRun x ms y →
    LegalRun y ns z → LegalRun x (ms ++ ns) z
  | [], _, _, _, _, rfl, k => k
  | _ :: _, _, _, _, _, ⟨hstep, hrun⟩, k => ⟨hstep, hrun.append k⟩

/-- From `s` to `t`, `sm_state` has taken legal transitions only, and the log shows them. -/
def SmRun (s t : State) : Prop :=
  ∃ ms, t.log.smTrace = s.log.smTrace ++ ms ∧ LegalRun s.seq.smState ms t.seq.smState

theorem SmRun.refl (s : State) : SmRun s s := ⟨[], (List.append_nil _).symm, rfl⟩

theorem SmRun.trans {s t u : State} (h : SmRun s t) (k : SmRun t u) : SmRun s u := by
  obtain ⟨ms, htrace, hrun⟩ := h
  obtain ⟨ns, htrace', hrun'⟩ := k
  exact ⟨ms ++ ns, by rw [htrace', htrace, List.append_assoc], hrun.append hrun'⟩

theorem Calm.smRun {b : Nat} {s t : State} (h : Calm b s t) : SmRun s t :=
  ⟨[], h.smTrace.trans (List.append_nil _).symm, h.smState.symm⟩

/-! ### Pieces that walk -/

/-- What an operation on bank `b` leaves: the other banks. -/
structure OneBank (b : Nat) (s t : State) : Prop where
  resets : s.env.resetIn = none → t.env.resetIn = none
  count : t.banks.length = s.banks.length
  others : ∀ c, c ≠ b → t.bank c = s.bank c

theorem OneBank.framed (b : Nat) : Framed (OneBank b) where
  refl _ := ⟨id, rfl, fun _ _ => rfl⟩
  trans h k := ⟨fun hr => k.resets (h.resets hr), k.count.trans h.count,
    fun c hc => (k.others c hc).trans (h.others c hc)⟩
  resets h := h.resets

theorem Calm.oneBank {b : Nat} {s t : State} (h : Calm b s t) : OneBank b s t :=
  ⟨h.due.mpr, h.count, h.others⟩

theorem BusFrame.oneBank {b : Nat} {s t : State} (h : BusFrame b s t) : OneBank b s t :=
  ⟨h.resets, h.count, h.others⟩

/-- The piece takes `sm_state` along a legal run, to where `P` holds. -/
def Res.Walks {α : Type} (F : State → State → Prop) (s : State) (P : α → State → Prop)
    (r : Res α) : Prop :=
  r.Leads F s fun a t => SmRun s t ∧ P a t

section
variable {α β : Type} {F : State → State → Prop} {s t : State} {P : α → State → Prop}
  {Q : β → State → Prop} {r : Res α} {k : α → State → Res β}

theorem Res.Walks.ok (hF : Framed F) {a : α} (h : P a s) : (Res.ok a s).Walks F s P :=
  Res.Leads.ok hF ⟨.refl s, h⟩

theorem Res.Walks.bind (hF : Framed F) (h : r.Walks F s P)
    (hk : ∀ a t, F s t → P a t → (k a t).Walks F t Q) : (r.bind k).Walks F s Q :=
  Res.Leads.bind hF h fun a t hf ⟨hrun, hp⟩ =>
    (hk a t hf hp).mono fun _ _ _ ⟨hrun', hq⟩ => ⟨hrun.trans hrun', hq⟩

theorem Res.Walks.after (hF : Framed F) (hf : F s t) (hrun : SmRun s t) (h : r.Walks F t P) :
    r.Walks F s P :=
  Res.Leads.after hF hf (h.mono fun _ _ _ ⟨hrun', hp⟩ => ⟨hrun.trans hrun', hp⟩)

end

/-- Bank `b` is there, and `sm_state` is `x`. -/
structure State.InPhase (s : State) (b : Nat) (x : SmState) : Prop where
  hasBank : b < s.banks.length
  phase : s.seq.smState = x

/-- Between two sequences on bank `b`: the sequencer is idle, and the bank's devices answer with the
array. -/
structure State.Resting (s : State) (b : Nat) : Prop extends s.InPhase b .idle where
  reading : s.Reading b

theorem Calm.inPhase {b : Nat} {x : SmState} {s t : State} (h : Calm b s t) (hs : s.InPhase b x) :
    t.InPhase b x :=
  ⟨by rw [h.count]; exact hs.hasBank, h.smState.trans hs.phase⟩

/-- A piece run from rest ends at rest. -/
def Res.Settles {α : Type} (b : Nat) (s : State) (r : Res α) : Prop :=
  r.Walks (OneBank b) s fun _ t => t.Resting b

section
variable {α β : Type} {b : Nat} {s t : State} {r : Res α} {k : α → State → Res β}

theorem Res.Settles.ok {a : α} (h : s.Resting b) : (Res.ok a s).Settles b s :=
  Res.Walks.ok (OneBank.framed b) h

theorem Res.Settles.stop_refused (e : Refusal) : (Res.refused e : Res α).Settles b s := trivial

theorem Res.Settles.bind (h : r.Settles b s) (hk : ∀ a t, t.Resting b → (k a t).Settles b t) :
    (r.bind k).Settles b s :=
  Res.Walks.bind (OneBank.framed b) h fun a t _ ht => hk a t ht

theorem Res.Settles.andReturn {g : α → State → β} (h : r.Settles b s) :
    (r.bind fun a t => .ok (g a t) t).Settles b s := h.bind fun _ _ ht => .ok ht

theorem Res.Settles.ite {c : Prop} [Decidable c] {x y : Res α} (hx : c → x.Settles b s)
    (hy : ¬ c → y.Settles b s) : (if c then x else y).Settles b s := by
  split
  · exact hx ‹_›
  · exact hy ‹_›

/-- A piece that leads into the middle of a sequence, and the rest of it. -/
theorem Res.Walks.settles {P : α → State → Prop} (h : r.Walks (OneBank b) s P)
    (hk : ∀ a t, P a t → (k a t).Settles b t) : (r.bind k).Settles b s :=
  Res.Walks.bind (OneBank.framed b) h fun a t _ ht => hk a t ht

theorem Res.Settles.after_calm (hf : Calm b s t) (h : r.Settles b t) : r.Settles b s :=
  Res.Walks.after (OneBank.framed b) hf.oneBank hf.smRun h

/-- A quiet piece leaves `sm_state` where it was. -/
theorem Res.Stays.walks {x : SmState} (h : r.Stays (Quiet b) s) (hs : s.InPhase b x) :
    r.Walks (OneBank b) s fun _ t => t.InPhase b x :=
  Res.Leads.weaken (h.mono fun _ _ hf _ => ⟨hf.smRun, hf.inPhase hs⟩) fun _ hf => hf.oneBank

theorem Res.Leads.settles_of_quiet (h : r.Leads (Quiet b) s fun _ t => t.Reading b)
    (hs : s.InPhase b .idle) : r.Settles b s :=
  Res.Leads.weaken (h.mono fun _ _ hf hmode => ⟨hf.smRun, hf.inPhase hs, hmode⟩)
    fun _ hf => hf.oneBank

theorem BusFrame.inPhase {x y : SmState} (hf : BusFrame b s t) (hs : s.InPhase b x)
    (h : t.seq.smState = y) : t.InPhase b y := ⟨hf.lt hs.hasBank, h⟩

end

/-! ### Updates that keep a bank at rest -/

/-- An update that moves neither `sm_state` nor the devices' mode. -/
structure Tame (b : Nat) (s t : State) : Prop extends Calm b s t where
  reading : s.Reading b → t.Reading b

theorem Tame.resting {b : Nat} {s t : State} (h : Tame b s t) (hs : s.Resting b) : t.Resting b :=
  ⟨h.inPhase hs.toInPhase, h.reading hs.reading⟩

theorem Tame.refl (b : Nat) (s : State) : Tame b s s := ⟨.refl b s, id⟩

theorem Tame.trans {b : Nat} {s t u : State} (h : Tame b s t) (k : Tame b t u) : Tame b s u :=
  ⟨h.toCalm.trans k.toCalm, fun hs => k.reading (h.reading hs)⟩

theorem Res.Settles.after {α : Type} {b : Nat} {s t : State} {r : Res α} (hf : Tame b s t)
    (h : r.Settles b t) : r.Settles b s := .after_calm hf.toCalm h

theorem Res.Settles.ok_of {α : Type} {b : Nat} {s t : State} {a : α} (hf : Tame b s t)
    (hs : s.Resting b) : (Res.ok a t).Settles b s := .after hf (.ok (hf.resting hs))

/-- A sequence, and then such an update. -/
theorem Res.Settles.andUpdate {α β : Type} {b : Nat} {s : State} {r : Res α} {g : α → β}
    {u : α → State → State} (h : r.Settles b s)
    (hu : ∀ a t, b < t.banks.length → Tame b t (u a t)) :
    (r.bind fun a t => .ok (g a) (u a t)).Settles b s :=
  h.bind fun a t ht => .ok_of (hu a t ht.hasBank) ht

section
variable (b : Nat) (s : State)

theorem Tame.setRange (x : Option (Nat × Nat)) : Tame b s (s.setRange x) :=
  ⟨⟨.rfl, rfl, fun _ _ => rfl, rfl, rfl⟩, id⟩

theorem Tame.setMemory (m : Memory) : Tame b s (s.setMemory m) :=
  ⟨⟨.rfl, rfl, fun _ _ => rfl, rfl, rfl⟩, id⟩

theorem Tame.drawn : Tame b s s.drawn := ⟨⟨.rfl, rfl, fun _ _ => rfl, rfl, rfl⟩, id⟩

theorem Tame.irqSave : Tame b s (irqSave s) := ⟨⟨.rfl, rfl, fun _ _ => rfl, rfl, rfl⟩, id⟩

theorem Tame.irqRestore : Tame b s (irqRestore s) := ⟨⟨.rfl, rfl, fun _ _ => rfl, rfl, rfl⟩, id⟩

theorem drawMemory_tame (a n : Nat) : Tame b s (s.drawMemory a n) :=
  (Tame.setMemory b s _).trans (Tame.drawn b _)

theorem eraseEffect_tame (a n : Nat) (k : Kind) : Tame b s (eraseEffect a n k s) := by
  unfold eraseEffect
  split
  · exact Tame.setMemory b s _
  · exact drawMemory_tame b s a n

theorem programEffect_tame (a : Nat) (ds : List Word) (k : Kind) :
    Tame b s (programEffect b a ds k s) := by
  unfold programEffect
  split
  · exact Tame.setMemory b s _
  · exact drawMemory_tame b s _ _

end

section
variable {b : Nat} {s : State} (hb : b < s.banks.length)
include hb

theorem Tame.setLocks (l : List Bool) : Tame b s (s.setLocks b l) :=
  ⟨(Quiet.setBank b s _).toCalm, fun h => by
    rw [State.Reading, State.setLocks, State.setDevice_bank_self s _ hb]
    exact h⟩

theorem Tame.setProtected (i : Nat) (v : Bool) :
    Tame b s (s.setBank b ((s.bank b).setProtected i v)) :=
  ⟨(Quiet.setBank b s _).toCalm, fun h => h.setBank hb (by
    unfold Bank.setProtected
    split <;> rfl)⟩

theorem setLocks_drawn_tame (l : List Bool) : Tame b s (s.setLocks b l).drawn :=
  (Tame.setLocks hb l).trans (Tame.drawn b _)

theorem gateLocks_tame (i : Nat) (k : Kind) : Tame b s (gateLocks b i k s) := by
  unfold gateLocks
  split <;> exact setLocks_drawn_tame hb _

theorem openLocks_tame : Tame b s (s.openLocks b) := by
  unfold State.openLocks
  split
  · exact Tame.refl b s
  · exact setLocks_drawn_tame hb _

theorem protectLocks_tame (i : Nat) (lock : Bool) (k : Kind) :
    Tame b s (protectLocks b i lock k s) := by
  have ho := openLocks_tame hb
  have hb' : b < (s.openLocks b).banks.length := by rwa [ho.count]
  unfold protectLocks
  split
  · simp only
    split
    · exact ho.trans (Tame.setLocks hb' _)
    · exact ho.trans (setLocks_drawn_tame hb' _)
  · split
    · exact Tame.setLocks hb _
    · exact setLocks_drawn_tame hb _

theorem protectFlag_tame (i : Nat) (lock : Bool) (k : Kind) :
    Tame b s (protectFlag b i lock k s) := by
  unfold protectFlag
  split
  · exact Tame.setProtected hb i lock
  · exact Tame.refl b s

theorem probeLocks_tame : Tame b s (probeLocks b s) := by
  unfold probeLocks
  split
  · exact Tame.setLocks hb _
  · exact Tame.refl b s

end

/-! ### The pieces of a sequence (42_sequencer.md R87 to R90) -/

section
variable {b : Nat} {s : State}

/-- The words that open a sequence: `Idle → CommandIssued`. -/
theorem issue_walks (hs : s.InPhase b .idle) : ∀ {cs : List (Nat × Command)}, cs ≠ [] →
    (issue b cs s).Walks (OneBank b) s fun _ t => t.InPhase b .commandIssued
  | [], h => absurd rfl h
  | (a, c) :: cs, _ => by
    refine Res.Leads.weaken ((issue_leads a c cs hs.hasBank).mono ?_) fun _ hf => hf.oneBank
    rintro - t hf ⟨hseq, hlog, -⟩
    refine ⟨⟨[.commandIssued], by rw [hlog], ?_⟩, hf.inPhase hs (by rw [hseq])⟩
    rw [hs.phase, hseq]
    exact ⟨rfl, rfl⟩

/-- A poll: `CommandIssued → Polling`, one of the three ends, `Idle`. -/
theorem poll_settles (hs : s.InPhase b .commandIssued) (a budget : Nat) (k : Kind) :
    (poll b a budget k s).Settles b s := by
  refine Res.Leads.weaken ((poll_leads a budget k hs.hasBank).mono ?_) fun _ hf => hf.oneBank
  rintro - t hf ⟨-, hidle, hmode, ⟨x, hx, hx', htrace⟩, -⟩
  refine ⟨⟨_, htrace, ?_⟩, hf.inPhase hs hidle, hmode⟩
  rw [hs.phase, hidle]
  exact ⟨rfl, hx, hx', rfl⟩

/-- The ready poll: back to `CommandIssued`, or as a poll that timed out. -/
theorem pollReady_walks (hs : s.InPhase b .commandIssued) (a budget : Nat) :
    (pollReady b a budget s).Walks (OneBank b) s fun isReady t =>
      if isReady = true then t.InPhase b .commandIssued else t.Resting b := by
  refine Res.Leads.weaken ((pollReady_leads a budget hs.hasBank).mono ?_) fun _ hf => hf.oneBank
  intro isReady t hf h
  cases isReady with
  | true =>
    obtain ⟨hphase, -, htrace, -⟩ := h
    refine ⟨⟨_, htrace, ?_⟩, hf.inPhase hs hphase⟩
    rw [hs.phase, hphase]
    exact ⟨rfl, rfl, rfl⟩
  | false =>
    obtain ⟨hidle, hmode, htrace, -⟩ := h
    refine ⟨⟨_, htrace, ?_⟩, hf.inPhase hs hidle, hmode⟩
    rw [hs.phase, hidle]
    exact ⟨rfl, rfl, rfl, rfl⟩

/-- A reset to read-array outside a sequence writes `Idle` over `Idle`. -/
theorem bankReset_settles (hs : s.InPhase b .idle) (a : Nat) : (bankReset b a s).Settles b s := by
  refine Res.Leads.weaken ((bankReset_leads a hs.hasBank).mono ?_) fun _ hf => hf.oneBank
  rintro - t hf ⟨-, hseq, hmode, hlog, -⟩
  refine ⟨⟨[.idle], by rw [hlog], ?_⟩, hf.inPhase hs (by rw [hseq]), hmode⟩
  rw [hs.phase, hseq]
  exact ⟨rfl, rfl⟩

/-- A read between two sequences leaves the bank as it was. -/
theorem busRead_settles (hs : s.Resting b) (a : Nat) : (busRead b a s).Settles b s := by
  refine Res.Leads.settles_of_quiet (Res.Leads.mono
    (Res.Leads.and (busRead_quiet b s a) (busRead_leads b a s)) ?_) hs.toInPhase
  rintro - t - ⟨-, -, -, -, -, hbanks, -⟩
  rw [State.Reading, State.bank_eq_of_banks hbanks]
  exact hs.reading

theorem readWords_settles (hs : s.Resting b) (n a : Nat) : (readWords b a n s).Settles b s := by
  refine Res.Leads.settles_of_quiet (Res.Leads.mono
    (Res.Leads.and (readWords_quiet b n a s) (readWords_leads n)) ?_) hs.toInPhase
  rintro - t - ⟨-, -, -, -, hbanks, -⟩
  rw [State.Reading, State.bank_eq_of_banks hbanks]
  exact hs.reading

theorem withRange_settles {α : Type} {a n : Nat} {body : State → Res α} (hs : s.Resting b)
    (hbody : ∀ t, t.Resting b → (body t).Settles b t) : (withRange a n body s).Settles b s :=
  .after (Tame.setRange b s _) ((hbody _ ((Tame.setRange b s _).resting hs)).bind
    fun _ t ht => .ok_of (Tame.setRange b t none) ht)

/-! ### Sequences (42_sequencer.md R94 to R103) -/

theorem eraseIntelSteps_settles (hs : s.Resting b) (i : Nat) :
    (eraseIntelSteps b i s).Settles b s := by
  refine (issue_walks hs.toInPhase (List.cons_ne_nil _ _)).settles fun _ t ht => ?_
  refine (poll_settles ht _ _ _).bind fun k u hu => ?_
  have hg := gateLocks_tame hu.hasBank i k
  have hu' := hg.resting hu
  refine .after hg (.ite (fun _ => .ok hu') fun _ => ?_)
  exact (issue_walks hu'.toInPhase (List.cons_ne_nil _ _)).settles fun _ v hv =>
    poll_settles hv _ _ _

theorem eraseAmdSteps_settles (hs : s.Resting b) (i : Nat) : (eraseAmdSteps b i s).Settles b s :=
  (issue_walks hs.toInPhase (List.cons_ne_nil _ _)).settles fun _ _ ht => poll_settles ht _ _ _

theorem erasing_settles (hs : s.Resting b) {i : Nat} {steps : State → Res Kind}
    (hsteps : ∀ t, t.Resting b → (steps t).Settles b t) : (erasing b i steps s).Settles b s := by
  unfold erasing
  exact withRange_settles hs fun t ht => (hsteps t ht).andUpdate fun k u _ => eraseEffect_tame b u _ _ k

theorem erase_settles (hs : s.Resting b) (i : Nat) : (erase b i s).Settles b s := by
  unfold erase
  split
  · exact erasing_settles hs fun _ ht => eraseIntelSteps_settles ht i
  · exact erasing_settles hs fun _ ht => eraseAmdSteps_settles ht i
  · exact .stop_refused _

theorem programSteps_settles (hs : s.Resting b) (a : Nat) (d : Word) {cs : List (Nat × Command)}
    (hcs : cs ≠ []) (at_ : Nat) : (programSteps b a d cs at_ s).Settles b s := by
  have hi := Tame.irqSave b s
  refine .after hi ((issue_walks (hi.resting hs).toInPhase hcs).settles fun _ t ht => ?_)
  refine ((writeData_quiet b t a d).walks ht).settles fun _ u hu => ?_
  have hr := Tame.irqRestore b u
  exact .after hr (poll_settles (hr.inPhase hu) _ _ _)

theorem programming_settles (hs : s.Resting b) {a : Nat} {d : Word} {steps : Nat → State → Res Kind}
    (hsteps : ∀ i t, t.Resting b → (steps i t).Settles b t) :
    (programming b a d steps s).Settles b s := by
  unfold programming
  split
  · exact .stop_refused _
  · refine withRange_settles hs fun t ht => (busRead_settles ht a).bind fun old u hu => ?_
    refine .ite (fun _ => .ok hu) fun _ => ?_
    exact (hsteps _ u hu).andUpdate fun k v _ => programEffect_tame b v a [d] k

theorem programWord_settles (hs : s.Resting b) (a : Nat) (d : Word) :
    (programWord b a d s).Settles b s := by
  unfold programWord
  split
  · exact programming_settles hs fun _ _ ht =>
      programSteps_settles ht a d (List.cons_ne_nil _ _) _
  · exact programming_settles hs fun _ _ ht =>
      programSteps_settles ht a d (List.cons_ne_nil _ _) _
  · exact .stop_refused _

theorem bufferSteps_settles (hs : s.Resting b) (a : Nat) (ds : List Word) (base : Nat) :
    (bufferSteps b a ds base s).Settles b s := by
  have hi := Tame.irqSave b s
  refine .after hi ((issue_walks (hi.resting hs).toInPhase (List.cons_ne_nil _ _)).settles
    fun _ t ht => ?_)
  refine (pollReady_walks ht _ _).settles fun isReady u hu => ?_
  cases isReady with
  | false => exact .ok_of (Tame.irqRestore b u) hu
  | true =>
    refine ((writeCount_quiet b u _ _).walks hu).settles fun _ v hv => ?_
    refine ((writeDataFrom_quiet b ds a v).walks hv).settles fun _ v hv => ?_
    refine ((writeCommand_quiet b v _ _).walks hv).settles fun _ v hv => ?_
    have hr := Tame.irqRestore b v
    exact .after hr (poll_settles (hr.inPhase hv) _ _ _)

theorem programBufferIntel_settles (hs : s.Resting b) (a : Nat) (ds : List Word) :
    (programBufferIntel b a ds s).Settles b s := by
  refine .ite (fun _ => .stop_refused _) fun _ => ?_
  split
  · exact .stop_refused _
  · refine .ite (fun _ => .stop_refused _) fun _ => withRange_settles hs fun t ht => ?_
    refine (readWords_settles ht _ _).bind fun olds u hu => ?_
    split
    · exact .ok hu
    · exact (bufferSteps_settles hu _ _ _).andUpdate fun k v _ => programEffect_tame b v a ds k

theorem protectIntel_settles (hs : s.Resting b) (i : Nat) (lock : Bool) :
    (protectIntel b i lock s).Settles b s := by
  refine (issue_walks hs.toInPhase (List.cons_ne_nil _ _)).settles fun _ t ht => ?_
  refine (poll_settles ht _ _ _).andUpdate fun k u hb => ?_
  have hl := protectLocks_tame hb i lock k
  exact hl.trans (protectFlag_tame (by rwa [hl.count]) i lock k)

theorem protect_settles (hs : s.Resting b) (i : Nat) (lock : Bool) :
    (protect b i lock s).Settles b s := by
  unfold protect
  split
  · exact protectIntel_settles hs i lock
  · exact .ok_of (Tame.setProtected hs.hasBank i lock) hs
  · exact .stop_refused _

/-! ### The probe and Identify -/

theorem probeProtection_settles (hs : s.Resting b) : (probeProtection b s).Settles b s := by
  refine .ite (fun _ => .ok hs) fun _ => ?_
  refine ((readIdEnter_quiet b s).walks hs.toInPhase).settles fun _ t ht => ?_
  refine ((probeSectors_quiet b _ 0 t).walks ht).settles fun _ u hu => ?_
  have hl := probeLocks_tame hu.hasBank
  exact .after hl (bankReset_settles (hl.inPhase hu) _)

/-- One bank of `flash_init` (43_facade.md R105). -/
theorem initBank_settles (hs : s.Resting b) : (initBank b s).Settles b s := by
  refine Res.Settles.bind (.ite (fun _ => ?_) fun _ => .ok hs) fun _ t ht =>
    .ite (fun _ => .ok ht) fun _ => probeProtection_settles ht
  exact (identify_quiet hs.hasBank).settles_of_quiet hs.toInPhase

end

/-! ### Host operations on one bank (43_facade.md R107 to R111) -/

theorem eraseSectors_settles {b : Nat} : ∀ (n i erased skipped : Nat) {s : State}, s.Resting b →
    (eraseSectors b i n erased skipped s).Settles b s
  | 0, _, _, _, _, hs => .ok hs
  | n + 1, i, _, _, _, hs =>
    .ite (fun _ => eraseSectors_settles n (i + 1) _ _ hs) fun _ =>
      (erase_settles hs i).bind fun _ _ ht =>
        .ite (fun _ => .ok ht) fun _ => eraseSectors_settles n (i + 1) _ _ ht

theorem writeBuffered_settles {b : Nat} : ∀ (fuel p : Nat) (bs : List Byte) {s : State},
    s.Resting b → (writeBuffered b fuel p bs s).Settles b s
  | 0, _, _, _, hs => .ok hs
  | fuel + 1, _, _, _, hs =>
    .ite (fun _ => .ok hs) fun _ =>
      (programBufferIntel_settles hs _ _).bind fun _ _ ht =>
        .ite (fun _ => .ok ht) fun _ => writeBuffered_settles fuel _ _ ht

theorem writeBody_settles {b : Nat} : ∀ (fuel p : Nat) (bs : List Byte) {s : State},
    s.Resting b → (writeBody b fuel p bs s).Settles b s
  | 0, _, _, _, hs => .ok hs
  | fuel + 1, _, _, _, hs =>
    .ite (fun _ => .ok hs) fun _ =>
      (programWord_settles hs _ _).bind fun _ _ ht =>
        .ite (fun _ => .ok ht) fun _ => writeBody_settles fuel _ _ ht

theorem relock_settles {b : Nat} : ∀ (js : List Nat) {s : State}, s.Resting b →
    (relock b js s).Settles b s
  | [], _, hs => .ok hs
  | j :: js, _, hs => (protectIntel_settles hs j true).bind fun _ _ ht =>
      .ite (fun _ => .ok ht) fun _ => relock_settles js ht

section
variable {b : Nat} {s : State} (hs : s.Resting b)
include hs

theorem writeMerged_settles (a off : Nat) (bs : List Byte) :
    (writeMerged b a off bs s).Settles b s :=
  .ite (fun _ => .stop_refused _) fun _ =>
    (busRead_settles hs a).bind fun _ _ ht => programWord_settles ht _ _

theorem writeHead_settles (p : Nat) (bs : List Byte) : (writeHead b p bs s).Settles b s :=
  .ite (fun _ => .ok hs) fun _ => (writeMerged_settles hs _ _ _).andReturn

theorem writeSteps_settles (src : List Byte) (dest : Nat) :
    (writeSteps b src dest s).Settles b s :=
  (writeHead_settles hs dest src).bind fun _ _ ht => .ite (fun _ => .ok ht) fun _ =>
  (writeBuffered_settles _ _ _ ht).bind fun _ _ ht => .ite (fun _ => .ok ht) fun _ =>
  (writeBody_settles _ _ _ ht).bind fun _ _ ht => .ite (fun _ => .ok ht) fun _ =>
  .ite (fun _ => .ok ht) fun _ => writeMerged_settles ht _ _ _

theorem writeBuff_settles (src : List Byte) (dest len : Nat) :
    (writeBuff b src dest len s).Settles b s :=
  .ite (fun _ => .stop_refused _) fun _ => .ite (fun _ => .ok hs) fun _ =>
  .ite (fun _ => .ok hs) fun _ => .ite (fun _ => .ok hs) fun _ =>
  (writeSteps_settles hs src dest).andReturn

theorem flashErase_settles (first last : Nat) : (flashErase b first last s).Settles b s :=
  .ite (fun _ => .ok hs) fun _ => .ite (fun _ => .ok hs) fun _ =>
  (eraseSectors_settles _ _ _ _ hs).andReturn

theorem protectSector_settles (i : Nat) (lock : Bool) : (protectSector b i lock s).Settles b s :=
  .ite (fun _ => (protectIntel_settles hs i false).bind fun _ _ ht =>
    .ite (fun _ => .ok ht) fun _ => relock_settles _ ht) fun _ => protect_settles hs i lock

end

theorem protectSectors_settles {b : Nat} (start stop : Nat) (lock : Bool) :
    ∀ (n i : Nat) {s : State}, s.Resting b →
      (protectSectors b start stop lock i n s).Settles b s
  | 0, _, _, hs => .ok hs
  | n + 1, i, _, hs => .ite
      (fun _ => (protectSector_settles hs i lock).bind fun _ _ ht =>
        .ite (fun _ => .ok ht) fun _ => protectSectors_settles start stop lock n (i + 1) ht)
      fun _ => protectSectors_settles start stop lock n (i + 1) hs

theorem flashProtect_settles {b : Nat} {s : State} (hs : s.Resting b) (flag : ProtectFlag)
    (start stop : Nat) : (flashProtect flag start stop b s).Settles b s :=
  .ite (fun _ => .ok hs) fun _ => .ite (fun _ => .ok hs) fun _ =>
  (protectSectors_settles _ _ _ _ _ hs).andReturn

/-! ### The whole machine at rest -/

/-- The sequencer is idle and every bank's devices answer with the array: at rest, or about to be. -/
structure State.AtEase (s : State) : Prop where
  idle : s.seq.smState = .idle
  reading : ∀ c < s.banks.length, s.Reading c

theorem State.AtRest.atEase {s : State} (h : s.AtRest) : s.AtEase :=
  ⟨h.sequencer, fun _ hc => h.devices _ (s.bank_mem hc)⟩

theorem State.AtEase.leave {s : State} (h : s.AtEase) (r : Option Result) : (s.leave r).AtRest where
  position := rfl
  sequencer := h.idle
  devices bk hbk := by
    obtain ⟨c, hc, rfl⟩ := List.mem_iff_getElem.mp hbk
    rw [← (s.leave r).bank_eq_getElem hc]
    exact h.reading c hc

/-- What every operation leaves, whatever banks it works on. -/
structure AnyBank (s t : State) : Prop where
  resets : s.env.resetIn = none → t.env.resetIn = none
  count : t.banks.length = s.banks.length

theorem AnyBank.framed : Framed AnyBank where
  refl _ := ⟨id, rfl⟩
  trans h k := ⟨fun hr => k.resets (h.resets hr), k.count.trans h.count⟩
  resets h := h.resets

/-- A piece run with the whole machine at ease leaves it so. -/
def Res.Eases {α : Type} (s : State) (r : Res α) : Prop := r.Walks AnyBank s fun _ t => t.AtEase

section
variable {α : Type} {b : Nat} {s : State} {r : Res α}

/-- A piece on one bank leaves the others at ease. -/
theorem Res.Settles.eases (h : r.Settles b s) (hs : s.AtEase) : r.Eases s := by
  refine Res.Leads.weaken (h.mono ?_) fun _ hf => ⟨hf.resets, hf.count⟩
  rintro - t hf ⟨hrun, ht⟩
  refine ⟨hrun, ht.phase, fun c hc => ?_⟩
  by_cases hcb : c = b
  · subst hcb
    exact ht.reading
  · rw [State.Reading, hf.others c hcb]
    exact hs.reading c (hf.count ▸ hc)

theorem onBank_eases {body : State → Res α} (hs : s.AtEase)
    (h : s.Resting b → (body s).Settles b s) : (onBank b body s).Eases s := by
  unfold onBank
  split
  · next hb => exact (h ⟨⟨hb, hs.idle⟩, hs.reading b hb⟩).eases hs
  · trivial

end

theorem initBanks_eases : ∀ (n b : Nat) {s : State}, b + n ≤ s.banks.length → s.AtEase →
    (initBanks b n s).Eases s
  | 0, _, _, _, hs => Res.Walks.ok AnyBank.framed hs
  | n + 1, b, s, hn, hs => by
    have hb : b < s.banks.length := by omega
    refine Res.Walks.bind AnyBank.framed
      ((initBank_settles ⟨⟨hb, hs.idle⟩, hs.reading b hb⟩).eases hs) fun _ t hf ht => ?_
    exact initBanks_eases n (b + 1) (by rw [hf.count]; omega) ht

theorem flashInit_eases {s : State} (hs : s.AtEase) : (flashInit s).Eases s := by
  unfold flashInit
  split
  · trivial
  refine Res.Walks.bind AnyBank.framed (initBanks_eases _ 0 (Nat.zero_add _).le hs)
    fun _ t _ ht => ?_
  exact ⟨⟨id, rfl⟩, ⟨[], (List.append_nil _).symm, rfl⟩, ht.idle, ht.reading⟩

/-- A call whose body leaves the machine at ease returns at rest; so does one that a system reset
cuts short (70_reset_and_hazards.md R129). -/
theorem call_returns_to_rest {i : Instr} {body : State → Res (Option Result)} {s t : State}
    (hs : s.AtRest) (hbody : ∀ u : State, u.AtEase → (body u).Eases u)
    (h : call i body s = .next t) : t.AtRest ∧ (s.env.resetIn = none →
      ∃ ms, t.log.smTrace = s.log.smTrace ++ ms ∧ legalPath .idle ms = true) := by
  have hease : (s.enter i).AtEase := ⟨hs.atEase.idle, hs.atEase.reading⟩
  rcases call_leads (hbody _ hease) h with ⟨r, u, -, ⟨⟨ms, htrace, hrun⟩, hu⟩, rfl⟩ | ⟨hr, u, -, rfl⟩
  · refine ⟨hu.leave r, fun _ => ⟨ms, htrace, ?_⟩⟩
    rw [← hease.idle]
    exact hrun.legalPath
  · exact ⟨u.interruptedReset_atRest, fun hn => absurd hn hr⟩

/-- Settles O16: every sequence of a host operation takes `sm_state` from `Idle` to `Idle` by legal
transitions and ends with a reset to read-array (`Res.Settles`); a reset that cuts one leaves the
machine at rest. -/
theorem hostOperationsReturnToRest : Obligations.HostOperationsReturnToRest := by
  intro i s t hi hs h
  cases i with
  | flashInit => exact call_returns_to_rest hs (fun _ hu => flashInit_eases hu) h
  | flashGetSize b | flashPrintInfo b =>
    exact call_returns_to_rest hs (fun _ hu => onBank_eases hu fun hr => .ok hr) h
  | flashErase b first last =>
    exact call_returns_to_rest hs
      (fun _ hu => onBank_eases hu fun hr => flashErase_settles hr first last) h
  | writeBuff b src dest len =>
    exact call_returns_to_rest hs
      (fun _ hu => onBank_eases hu fun hr => writeBuff_settles hr src dest len) h
  | flashProtect flag start stop b =>
    exact call_returns_to_rest hs
      (fun _ hu => onBank_eases hu fun hr => flashProtect_settles hr flag start stop) h
  | _ => cases hi

end Sys2Proof.Machine
end

section
/-! PROOFS. Operations that neither erase nor program (70_reset_and_hazards.md R129; O8): wherever a
system reset cuts one, no byte of the array has changed and no range is on record (`Silent`). -/

namespace Sys2Proof.Machine

/-! ### Commands and polls -/

section
variable (b : Nat) (s : State)

theorem issue_silent : ∀ cs : List (Nat × Command), (issue b cs s).Stays Silent s
  | [] => .ok Silent.framed ()
  | (a, c) :: cs => (writeCommand_quiet b s a c).silent.bind Silent.framed fun _ t _ =>
      .after Silent.framed (t := t.setSm .commandIssued) ⟨rfl, rfl, .rfl, rfl⟩
        (writeCommands_quiet b cs _).silent

theorem bankReset_silent (a : Nat) : (bankReset b a s).Stays Silent s :=
  (writeCommands_quiet b _ s).silent.bind Silent.framed fun _ _ _ => .ok_of ⟨rfl, rfl, .rfl, rfl⟩

theorem pollEnter_silent (a budget : Nat) : (pollEnter b a budget s).Stays Silent s := by
  refine .after Silent.framed (t := (s.setSm .polling).setPoll a budget) ⟨rfl, rfl, .rfl, rfl⟩ ?_
  refine (readTimer_quiet b _).silent.bind Silent.framed fun n t _ => ?_
  refine .after Silent.framed (t := t.setPollStart n) ⟨rfl, rfl, .rfl, rfl⟩ (.ite (fun _ => ?_)
    fun _ => .ok Silent.framed ())
  exact (busRead_quiet b _ _).silent.bind Silent.framed fun _ _ _ => .ok_of ⟨rfl, rfl, .rfl, rfl⟩

theorem pollExit_silent (a : Nat) (x : SmState) (k : Kind) : (pollExit b a x k s).Stays Silent s :=
  .after Silent.framed (t := s.setSm x) ⟨rfl, rfl, .rfl, rfl⟩
    ((bankReset_silent b _ a).andReturn Silent.framed)

end

theorem pollLoop_silent (test : Word → Word → Verdict) (b : Nat) : ∀ (fuel : Nat) (s : State),
    (pollLoop test b fuel s).Stays Silent s
  | 0, _ => .stop_refused _
  | fuel + 1, s => by
    refine (busRead_quiet b s _).silent.bind Silent.framed fun w t _ => ?_
    split
    · refine (readTimer_quiet b t).silent.bind Silent.framed fun n u _ => ?_
      exact .ite (fun _ => .ok Silent.framed _) fun _ =>
        .after Silent.framed (t := u.setPollPrev w) ⟨rfl, rfl, .rfl, rfl⟩
          (pollLoop_silent test b fuel _)
    · exact .ok Silent.framed _

section
variable (b : Nat) (s : State)

theorem poll_silent (a budget : Nat) (k : Kind) : (poll b a budget k s).Stays Silent s :=
  (pollEnter_silent b s a budget).bind Silent.framed fun _ t _ =>
    (pollLoop_silent _ b _ t).bind Silent.framed fun e u _ => by
      split <;> exact pollExit_silent b u a _ _

theorem pollReady_silent (a budget : Nat) : (pollReady b a budget s).Stays Silent s := by
  refine .after Silent.framed (t := (s.setSm .polling).setPoll a budget) ⟨rfl, rfl, .rfl, rfl⟩ ?_
  refine (readTimer_quiet b _).silent.bind Silent.framed fun n t _ => ?_
  refine .after Silent.framed (t := t.setPollStart n) ⟨rfl, rfl, .rfl, rfl⟩ ?_
  refine (pollLoop_silent _ b _ _).bind Silent.framed fun e u _ => ?_
  split
  · exact .ok_of ⟨rfl, rfl, .rfl, rfl⟩
  · exact (pollExit_silent b u a _ _).andReturn Silent.framed

/-! ### Lock bits, flags, the probe and Identify -/

theorem Silent.setLocks (l : List Bool) : Silent s (s.setLocks b l) :=
  (Quiet.setBank b s _).silent

theorem Silent.drawn : Silent s s.drawn := ⟨rfl, rfl, .rfl, rfl⟩

theorem setLocks_drawn_silent (l : List Bool) : Silent s (s.setLocks b l).drawn :=
  Silent.framed.trans (Silent.setLocks b s l) (.drawn _)

theorem gateLocks_silent (i : Nat) (k : Kind) : Silent s (gateLocks b i k s) := by
  unfold gateLocks
  split <;> exact setLocks_drawn_silent b s _

theorem openLocks_silent : Silent s (s.openLocks b) := by
  unfold State.openLocks
  split
  · exact .refl s
  · exact setLocks_drawn_silent b s _

theorem protectLocks_silent (i : Nat) (lock : Bool) (k : Kind) :
    Silent s (protectLocks b i lock k s) := by
  unfold protectLocks
  split
  · refine Silent.framed.trans (openLocks_silent b s) ?_
    simp only
    split
    · exact Silent.setLocks b _ _
    · exact setLocks_drawn_silent b _ _
  · split
    · exact Silent.setLocks b s _
    · exact setLocks_drawn_silent b s _

theorem protectFlag_silent (i : Nat) (lock : Bool) (k : Kind) :
    Silent s (protectFlag b i lock k s) := by
  unfold protectFlag
  split
  · exact (Quiet.setBank b s _).silent
  · exact .refl s

theorem probeLocks_silent : Silent s (probeLocks b s) := by
  unfold probeLocks
  split
  · exact Silent.setLocks b s _
  · exact .refl s

theorem protectIntel_silent (i : Nat) (lock : Bool) : (protectIntel b i lock s).Stays Silent s :=
  (issue_silent b s _).bind Silent.framed fun _ t _ =>
    (poll_silent b t _ _ _).bind Silent.framed fun k u _ =>
      .ok_of (Silent.framed.trans (protectLocks_silent b u i lock k)
        (protectFlag_silent b _ i lock k))

theorem protect_silent (i : Nat) (lock : Bool) : (protect b i lock s).Stays Silent s := by
  unfold protect
  split
  · exact protectIntel_silent b s i lock
  · exact .ok_of (Quiet.setBank b s _).silent
  · exact .stop_refused _

theorem probeProtection_silent : (probeProtection b s).Stays Silent s :=
  .ite (fun _ => .ok Silent.framed ()) fun _ =>
    (readIdEnter_quiet b s).silent.bind Silent.framed fun _ t _ =>
    (probeSectors_quiet b _ 0 t).silent.bind Silent.framed fun _ u _ =>
    .after Silent.framed (probeLocks_silent b u) (bankReset_silent b _ _)

end

/-! ### Host operations without an erase or a program -/

theorem relock_silent (b : Nat) : ∀ (js : List Nat) (s : State), (relock b js s).Stays Silent s
  | [], _ => .ok Silent.framed _
  | j :: js, s => (protectIntel_silent b s j true).bind Silent.framed fun _ t _ =>
      .ite (fun _ => .ok Silent.framed _) fun _ => relock_silent b js t

theorem protectSector_silent (b : Nat) (s : State) (i : Nat) (lock : Bool) :
    (protectSector b i lock s).Stays Silent s :=
  .ite (fun _ => (protectIntel_silent b s i false).bind Silent.framed fun _ t _ =>
    .ite (fun _ => .ok Silent.framed _) fun _ => relock_silent b _ t)
    fun _ => protect_silent b s i lock

theorem protectSectors_silent (b start stop : Nat) (lock : Bool) : ∀ (n i : Nat) (s : State),
    (protectSectors b start stop lock i n s).Stays Silent s
  | 0, _, _ => .ok Silent.framed _
  | n + 1, i, s => .ite
      (fun _ => (protectSector_silent b s i lock).bind Silent.framed fun _ t _ =>
        .ite (fun _ => .ok Silent.framed _) fun _ =>
          protectSectors_silent b start stop lock n (i + 1) t)
      fun _ => protectSectors_silent b start stop lock n (i + 1) s

theorem flashProtect_silent (b : Nat) (s : State) (flag : ProtectFlag) (start stop : Nat) :
    (flashProtect flag start stop b s).Stays Silent s :=
  .ite (fun _ => .ok Silent.framed _) fun _ => .ite (fun _ => .ok Silent.framed _) fun _ =>
    (protectSectors_silent b _ _ _ _ _ s).andReturn Silent.framed

theorem initBank_silent {b : Nat} {s : State} (hb : b < s.banks.length) :
    (initBank b s).Stays Silent s :=
  Res.Stays.bind Silent.framed
    (.ite (fun _ => (identify_quiet hb).stays.silent) fun _ => .ok Silent.framed ())
    fun _ t _ => .ite (fun _ => .ok Silent.framed ()) fun _ => probeProtection_silent b t

theorem initBanks_silent : ∀ (n b : Nat) {s : State}, b + n ≤ s.banks.length →
    (initBanks b n s).Stays Silent s
  | 0, _, _, _ => .ok Silent.framed ()
  | n + 1, b, _, hb => (initBank_silent (by omega)).bind Silent.framed fun _ _ ht =>
      initBanks_silent n (b + 1) (by rw [ht.count]; omega)

theorem flashInit_silent (s : State) : (flashInit s).Stays Silent s :=
  .ite (fun _ => .stop_refused _) fun _ =>
    (initBanks_silent _ 0 (Nat.zero_add _).le).bind Silent.framed fun _ _ _ =>
      .ok_of ⟨rfl, rfl, .rfl, rfl⟩

/-! ### Rows -/

section
variable (b : Nat) (s : State)

theorem commandRow_silent (a : Nat) (c : Command) : (commandRow b a c s).Stays Silent s :=
  (writeCommand_quiet b s a c).silent.bind Silent.framed fun _ _ _ => .ok_of ⟨rfl, rfl, .rfl, rfl⟩

theorem identRow_silent (off : Nat) (c : Command) : (identRow b off c s).Stays Silent s :=
  asNothing_stays Silent.framed (writeCommand_quiet b s _ c).silent

theorem resetRow_silent (a : Nat) (c : Command) : (resetRow b a c s).Stays Silent s :=
  (writeCommand_quiet b s a c).silent.bind Silent.framed fun _ t _ => .ok_of (by
    split
    · exact ⟨rfl, rfl, .rfl, rfl⟩
    · exact .refl t)

theorem statusRow_silent (a : Nat) (test : Word → Word → Verdict) :
    (statusRow b a test s).Stays Silent s :=
  (busRead_quiet b s a).silent.bind Silent.framed fun w t _ => .ok_of (by
    split <;> exact ⟨rfl, rfl, .rfl, rfl⟩)

end

theorem onUnknown_stays {α : Type} {F : State → State → Prop} {b : Nat} {s : State}
    {body : State → Res α} (h : (body s).Stays F s) : (onUnknown b body s).Stays F s :=
  .ite (fun _ => h) fun _ => .stop_refused _

/-- A row that neither erases nor programs is silent, cut or not. -/
theorem exec_silent {i : Instr} {s t : State} (hi : isArrayOp i = false)
    (h : exec i s = .next t) : RanWithin Silent i s t := by
  have hS := Silent.framed
  cases i with
  | flashErase | writeBuff | eraseIntel | eraseAmd | programWordIntel | programWordAmd
  | programBufferIntel | writeMerged => cases hi
  | flashInit => exact .of_call h (flashInit_silent _)
  | flashGetSize b | flashPrintInfo b => exact .of_call h (onBank_stays fun _ => .ok hS _)
  | flashProtect flag start stop b =>
    exact .of_call h (onBank_stays fun _ => flashProtect_silent b _ flag start stop)
  | readId b | cfiQuery b => exact .of_call h (onBank_stays fun _ => identRow_silent b _ _ _)
  | resetIntel b a | resetAmd b a =>
    exact .of_call h (onBank_stays fun _ => resetRow_silent b _ a _)
  | clearStatus b a | blockErase b a | eraseConfirm b a | resume b a | program b a
  | writeToBuffer b a | bufferConfirm b a | lockSetup b a | lockSet b a | lockClear b a
  | sectorErase b a =>
    exact .of_call h (onBank_stays fun _ => onVariant_stays (commandRow_silent b _ a _))
  | eraseSetup b | amdProgram b =>
    exact .of_call h (onBank_stays fun _ => onVariant_stays (commandRow_silent b _ _ _))
  | unlock1 b | unlock2 b =>
    exact .of_call h (onBank_stays fun _ =>
      .ite (fun _ => commandRow_silent b _ _ _) fun _ => identRow_silent b _ _ _)
  | count b a n =>
    exact .of_call h (onBank_stays fun _ => onVariant_stays
      ((writeCount_quiet b _ a n).silent.bind hS fun _ _ _ => .ok_of ⟨rfl, rfl, .rfl, rfl⟩))
  | data b a d =>
    exact .of_call h (onBank_stays fun _ =>
      (writeData_quiet b _ a d).silent.bind hS fun _ _ _ => .ok_of ⟨rfl, rfl, .rfl, rfl⟩)
  | statusIntel b a | statusAmd b a =>
    exact .of_call h (onBank_stays fun _ => onVariant_stays (statusRow_silent b _ a _))
  | bankReset b a =>
    exact .of_call h (onBank_stays fun _ => (bankReset_silent b _ a).andReturn hS)
  | identReset b =>
    exact .of_call h (onBank_stays fun _ =>
      asNothing_stays hS (writeCommands_quiet b _ _).silent)
  | readIdEnter b =>
    exact .of_call h (onBank_stays fun _ => asNothing_stays hS (readIdEnter_quiet b _).silent)
  | identify b =>
    exact .of_call h (onBank_stays fun hb => beforeInit_stays (onUnknown_stays
      (asNothing_stays hS (identify_quiet hb).stays.silent)))
  | identCfi b =>
    exact .of_call h (onBank_stays fun hb => beforeInit_stays (onUnknown_stays
      ((identCfi_quiet hb).stays.silent.andReturn hS)))
  | identLegacy b m d =>
    refine .of_call h (onBank_stays fun _ => beforeInit_stays (onUnknown_stays ?_))
    split
    · exact (identLegacy_quiet b _ _ m d).silent.andReturn hS
    · exact .ok hS _
  | decodeCfi b =>
    exact .of_call h (onBank_stays fun _ => beforeInit_stays (onKnown_stays hS
      (asNothing_stays hS (decodeCfi_quiet b _).silent)))
  | decodeLegacy b =>
    refine .of_call h (onBank_stays fun _ => beforeInit_stays (onKnown_stays hS ?_))
    split
    · exact (decodeLegacy_quiet b _ _).silent.andReturn hS
    · exact .ok hS _
  | probeProtection b =>
    exact .of_call h (onBank_stays fun _ => beforeInit_stays (onKnown_stays hS
      (asNothing_stays hS (probeProtection_silent b _))))
  | poll b a budget k =>
    exact .of_call h (onBank_stays fun _ => (poll_silent b _ a budget _).andReturn hS)
  | pollReady b a budget =>
    exact .of_call h (onBank_stays fun _ => onVariant_stays
      ((pollReady_silent b _ a budget).andReturn hS))
  | protectIntel b j lock =>
    exact .of_call h (onBank_stays fun _ => onKnown_stays hS (onVariant_stays (onSector_stays
      ((protectIntel_silent b _ j lock).andReturn hS))))
  | protectAmd b j lock =>
    exact .of_call h (onBank_stays fun _ => onKnown_stays hS (onVariant_stays (onSector_stays
      (.ok_of (Quiet.setBank b _ _).silent))))
  | protectSector b j lock =>
    exact .of_call h (onBank_stays fun _ => onKnown_stays hS (onSector_stays
      ((protectSector_silent b _ j lock).andReturn hS)))

end Sys2Proof.Machine
end

section
/-! PROOFS. A system reset inside an operation (70_reset_and_hazards.md R129; O8). The rows that erase
or program change bytes of what they address only, and only such bytes are ever on record as the running
range (`Confined`); so the reset, which draws the bytes of that range, leaves every other one too. -/

namespace Sys2Proof.Machine

/-! ### Changes within a set of addresses -/

/-- Every byte of `[a, a + n)` is in `D`. -/
def Covers (D : Nat → Prop) (a n : Nat) : Prop := ∀ x, a ≤ x → x < a + n → D x

/-- The range on record, if any, is in `D`. -/
def State.RangeIn (s : State) (D : Nat → Prop) : Prop :=
  ∀ a n, s.position.bind Position.range = some (a, n) → Covers D a n

/-- Bytes outside `D` are as before, no range outside `D` is put on record, and a system reset is due
if it was. -/
structure Confined (D : Nat → Prop) (s t : State) : Prop where
  due : t.env.resetIn = none ↔ s.env.resetIn = none
  wf : Memory.wf s.memory = true → Memory.wf t.memory = true
  outside : Memory.wf s.memory = true → ∀ x, ¬ D x →
    Memory.read t.memory x = Memory.read s.memory x
  range : s.RangeIn D → t.RangeIn D

theorem Silent.confined {s t : State} (h : Silent s t) (D : Nat → Prop) : Confined D s t where
  due := h.due
  wf hm := by rwa [h.memory]
  outside _ _ _ := by rw [h.memory]
  range hr := by rwa [State.RangeIn, h.range]

theorem Confined.framed (D : Nat → Prop) : Framed (Confined D) where
  refl s := (Silent.refl s).confined D
  trans h k :=
    { due := k.due.trans h.due
      wf := fun hm => k.wf (h.wf hm)
      outside := fun hm x hx => (k.outside (h.wf hm) x hx).trans (h.outside hm x hx)
      range := fun hr => k.range (h.range hr) }
  resets h := h.due.mpr

section
variable {D : Nat → Prop} {a n : Nat}

/-- A byte outside `D` is outside every range in it. -/
theorem Covers.outside (h : Covers D a n) {x : Nat} (hx : ¬ D x) : x < a ∨ a + n ≤ x := by
  by_contra hin
  exact hx (h x (by omega) (by omega))

theorem Confined.setMemory {s : State} {m : Memory} (h : Covers D a n)
    (hwf : Memory.wf s.memory = true → Memory.wf m = true)
    (hread : Memory.wf s.memory = true → ∀ x, x < a ∨ a + n ≤ x →
      Memory.read m x = Memory.read s.memory x) : Confined D s (s.setMemory m) where
  due := .rfl
  wf := hwf
  outside hm x hx := hread hm x (h.outside hx)
  range := id

theorem drawMemory_confined (h : Covers D a n) (s : State) : Confined D s (s.drawMemory a n) :=
  (Confined.framed D).trans (Confined.setMemory h (fun hm => Memory.drawRange_wf hm)
    fun hm _ hx => Memory.read_drawRange hm hx) ((Silent.drawn _).confined D)

theorem eraseEffect_confined (h : Covers D a n) (k : Kind) (s : State) :
    Confined D s (eraseEffect a n k s) := by
  unfold eraseEffect
  split
  · exact .setMemory h (Memory.eraseRange_wf a n) fun hm x hx =>
      (Memory.read_eraseRange hm a n x).trans (if_neg (by omega))
  · exact drawMemory_confined h s

theorem programEffect_confined {b : Nat} {ds : List Word} {s : State}
    (h : Covers D a (ds.length * (s.bank b).bytes)) (k : Kind) :
    Confined D s (programEffect b a ds k s) := by
  unfold programEffect
  split
  · exact .setMemory h (programWordsAt_wf _ _ ds) fun hm _ hx =>
      programWordsAt_read_outside _ _ ds hm hx
  · exact drawMemory_confined h s

theorem Confined.setRange {s : State} {r : Option (Nat × Nat)}
    (h : ∀ a n, r = some (a, n) → Covers D a n) : Confined D s (s.setRange r) where
  due := .rfl
  wf := id
  outside _ _ _ := rfl
  range _ a n hr := by
    cases hp : s.position with
    | none => simp [State.setRange, hp] at hr
    | some p => exact h a n (by simpa [State.setRange, hp] using hr)

section
variable {α β : Type} {b : Nat} {s : State} {r : Res α} {k : α → State → Res β}

theorem withRange_confined {body : State → Res α} (h : Covers D a n)
    (hbody : (body (s.setRange (some (a, n)))).Stays (Confined D) (s.setRange (some (a, n)))) :
    (withRange a n body s).Stays (Confined D) s :=
  .after (Confined.framed D)
    (.setRange fun _ _ he => by obtain ⟨rfl, rfl⟩ := Prod.mk.inj (Option.some.inj he); exact h)
    (hbody.bind (Confined.framed D) fun _ _ _ => .ok_of (.setRange nofun))

theorem Res.Stays.confined (h : r.Stays Silent s) (D : Nat → Prop) : r.Stays (Confined D) s :=
  h.weaken fun _ hf => hf.confined D

/-- A piece that leaves the bank's registers, and then one that rests on them. -/
theorem Res.Stays.leaving (h : r.Stays (Confined D) s) (hregs : r.Stays (RegsFrame b) s)
    (hk : ∀ a t, RegsFrame b s t → (k a t).Stays (Confined D) t) :
    (r.bind k).Stays (Confined D) s :=
  (h.and hregs).bind (Confined.framed D) fun a t _ ⟨_, hf, _⟩ => hk a t hf

end
end

/-! ### Erase -/

theorem eraseIntelSteps_silent (b i : Nat) (s : State) : (eraseIntelSteps b i s).Stays Silent s :=
  (issue_silent b s _).bind Silent.framed fun _ t _ =>
    (poll_silent b t _ _ _).bind Silent.framed fun r u _ =>
      .after Silent.framed (gateLocks_silent b u i r) (.ite (fun _ => .ok Silent.framed _) fun _ =>
        (issue_silent b _ _).bind Silent.framed fun _ v _ => poll_silent b v _ _ _)

theorem eraseAmdSteps_silent (b i : Nat) (s : State) : (eraseAmdSteps b i s).Stays Silent s :=
  (issue_silent b s _).bind Silent.framed fun _ t _ => poll_silent b t _ _ _

/-- The extent of sector `i` is in `D`. -/
def Bank.SectorIn (bk : Bank) (D : Nat → Prop) (i : Nat) : Prop :=
  ∀ x, bk.sectorStart i ≤ x → x < bk.sectorEnd i → D x

section
variable {D : Nat → Prop} {b i : Nat} {s : State} (hD : (s.bank b).SectorIn D i)
include hD

theorem erasing_confined {steps : State → Res Kind} (hs : ∀ t, (steps t).Stays Silent t) :
    (erasing b i steps s).Stays (Confined D) s := by
  have hcover : Covers D ((s.bank b).sectorStart i)
      ((s.bank b).sectorEnd i - (s.bank b).sectorStart i) :=
    fun x h1 h2 => hD x h1 (by omega)
  unfold erasing
  refine withRange_confined hcover ?_
  exact ((hs _).confined D).bind (Confined.framed D) fun r t _ =>
    .ok_of (eraseEffect_confined hcover r t)

theorem eraseIntel_confined : (eraseIntel b i s).Stays (Confined D) s :=
  erasing_confined hD fun t => eraseIntelSteps_silent b i t

theorem eraseAmd_confined : (eraseAmd b i s).Stays (Confined D) s :=
  erasing_confined hD fun t => eraseAmdSteps_silent b i t

theorem erase_confined : (erase b i s).Stays (Confined D) s := by
  unfold erase
  split
  · exact eraseIntel_confined hD
  · exact eraseAmd_confined hD
  · exact .stop_refused _

end

theorem Bank.SameRegs.sectorIn {x y : Bank} (h : x.SameRegs y) {D : Nat → Prop} {i : Nat} :
    y.SectorIn D i ↔ x.SectorIn D i := by
  simp only [Bank.SectorIn, h.sameBuilt.sectorStart, h.sameBuilt.sectorEnd]

theorem eraseSectors_confined {D : Nat → Prop} {b : Nat} : ∀ (n i erased skipped : Nat) {s : State},
    b < s.banks.length →
    (∀ j, i ≤ j → j < i + n → (s.bank b).sectorProtected j = false → (s.bank b).SectorIn D j) →
    (eraseSectors b i n erased skipped s).Stays (Confined D) s
  | 0, _, _, _, _, _, _ => .ok (Confined.framed D) _
  | n + 1, i, _, _, s, hb, hD => by
    refine .ite (fun _ => eraseSectors_confined n (i + 1) _ _ hb fun j h1 h2 =>
      hD j (by omega) (by omega)) fun hopen => ?_
    have hin := hD i le_rfl (by omega) (Bool.eq_false_of_not_eq_true hopen)
    refine (erase_confined hin).leaving (erase_stays (RegsFrame.opClosed b) hb i) fun r t ht => ?_
    refine .ite (fun _ => .ok (Confined.framed D) _) fun _ =>
      eraseSectors_confined n (i + 1) _ _ (ht.lt hb) fun j h1 h2 hp => ?_
    rw [ht.regs.sectorProtected] at hp
    exact ht.regs.sectorIn.mpr (hD j (by omega) (by omega) hp)

theorem flashErase_confined {D : Nat → Prop} {b first last : Nat} {s : State}
    (hb : b < s.banks.length) (hD : ∀ j, first ≤ j → j ≤ last →
      (s.bank b).sectorProtected j = false → (s.bank b).SectorIn D j) :
    (flashErase b first last s).Stays (Confined D) s :=
  .ite (fun _ => .ok (Confined.framed D) _) fun _ => .ite (fun _ => .ok (Confined.framed D) _)
    fun _ => (eraseSectors_confined _ first _ _ hb fun j h1 h2 => hD j h1 (by omega)).andReturn
      (Confined.framed D)

/-! ### Program -/

theorem irqSave_silent (s : State) : Silent s (irqSave s) := ⟨rfl, rfl, .rfl, rfl⟩

theorem irqRestore_silent (s : State) : Silent s (irqRestore s) := ⟨rfl, rfl, .rfl, rfl⟩

theorem programSteps_silent (b a : Nat) (d : Word) (cs : List (Nat × Command)) (at_ : Nat)
    (s : State) : (programSteps b a d cs at_ s).Stays Silent s :=
  .after Silent.framed (irqSave_silent s) <|
    (issue_silent b _ cs).bind Silent.framed fun _ t _ =>
    (writeData_quiet b t a d).silent.bind Silent.framed fun _ u _ =>
    .after Silent.framed (irqRestore_silent u) (poll_silent b _ _ _ _)

theorem bufferSteps_silent (b a : Nat) (ds : List Word) (base : Nat) (s : State) :
    (bufferSteps b a ds base s).Stays Silent s :=
  .after Silent.framed (irqSave_silent s) <|
    (issue_silent b _ _).bind Silent.framed fun _ t _ =>
    (pollReady_silent b t _ _).bind Silent.framed fun _ u _ =>
    .ite (fun _ => .ok_of (irqRestore_silent u)) fun _ =>
    (writeCount_quiet b u _ _).silent.bind Silent.framed fun _ v _ =>
    (writeDataFrom_quiet b ds a v).silent.bind Silent.framed fun _ v _ =>
    (writeCommand_quiet b v _ _).silent.bind Silent.framed fun _ v _ =>
    .after Silent.framed (irqRestore_silent v) (poll_silent b _ _ _ _)

section
variable {D : Nat → Prop} {b a : Nat} {s : State} (hb : b < s.banks.length)
include hb

section
variable (hD : Covers D a (s.bank b).bytes)
include hD

theorem programming_confined {d : Word} {steps : Nat → State → Res Kind}
    (hs : ∀ i t, (steps i t).Stays Silent t)
    (hr : ∀ i t, b < t.banks.length → (steps i t).Stays (RegsFrame b) t) :
    (programming b a d steps s).Stays (Confined D) s := by
  have hO := RegsFrame.opClosed b
  unfold programming
  split
  · exact .stop_refused _
  · refine withRange_confined hD ?_
    refine ((busRead_quiet b _ a).silent.confined D).leaving (busRead_stays hO.toBusClosed a)
      fun old u hu => ?_
    refine .ite (fun _ => .ok (Confined.framed D) _) fun _ => ?_
    refine ((hs _ u).confined D).leaving (hr _ u (hu.lt hb)) fun r v hv =>
      .ok_of (programEffect_confined ?_ r)
    rw [List.length_singleton, Nat.one_mul, (hu.regs.trans hv.regs).sameBuilt.bytes]
    exact hD

theorem programWordIntel_confined (d : Word) : (programWordIntel b a d s).Stays (Confined D) s :=
  programming_confined hb hD (fun _ t => programSteps_silent b a d _ _ t)
    fun _ _ hb => programSteps_stays (RegsFrame.opClosed b) hb a d _ _

theorem programWordAmd_confined (d : Word) : (programWordAmd b a d s).Stays (Confined D) s :=
  programming_confined hb hD (fun _ t => programSteps_silent b a d _ _ t)
    fun _ _ hb => programSteps_stays (RegsFrame.opClosed b) hb a d _ _

theorem programWord_confined (d : Word) : (programWord b a d s).Stays (Confined D) s := by
  unfold programWord
  split
  · exact programWordIntel_confined hb hD d
  · exact programWordAmd_confined hb hD d
  · exact .stop_refused _

end

theorem programBufferIntel_confined {ds : List Word}
    (hD : Covers D a (ds.length * (s.bank b).bytes)) :
    (programBufferIntel b a ds s).Stays (Confined D) s := by
  have hO := RegsFrame.opClosed b
  refine .ite (fun _ => .stop_refused _) fun _ => ?_
  split
  · exact .stop_refused _
  · refine .ite (fun _ => .stop_refused _) fun _ => withRange_confined hD ?_
    refine ((readWords_quiet b _ a _).silent.confined D).leaving (readWords_stays hO.toBusClosed _ a)
      fun olds u hu => ?_
    split
    · exact .ok (Confined.framed D) _
    · refine ((bufferSteps_silent b a ds _ u).confined D).leaving
        (bufferSteps_stays hO (hu.lt hb) a ds _) fun r v hv => .ok_of (programEffect_confined ?_ r)
      rw [(hu.regs.trans hv.regs).sameBuilt.bytes]
      exact hD

/-- The word merged into is aligned: its read faults otherwise (20_memory.md R37). -/
theorem writeMerged_confined {off : Nat} {bs : List Byte}
    (hD : a % (s.bank b).bytes = 0 → bs ≠ [] → off + bs.length ≤ (s.bank b).bytes →
      Covers D a (s.bank b).bytes) : (writeMerged b a off bs s).Stays (Confined D) s := by
  refine .ite (fun _ => .stop_refused _) fun hfit => ?_
  obtain ⟨hne, hoff⟩ := not_or.mp hfit
  by_cases ha : a % (s.bank b).bytes = 0
  · refine ((busRead_quiet b s a).silent.confined D).leaving
      (busRead_stays (RegsFrame.opClosed b).toBusClosed a) fun _ t ht =>
      programWord_confined (ht.lt hb) ?_ _
    rw [ht.regs.sameBuilt.bytes]
    exact hD ha hne (Nat.le_of_not_lt hoff)
  · rw [busRead, if_pos ha]
    trivial

end

/-! ### write_buff -/

/-- The words that cover `[dest, stop)` (43_facade.md R109). -/
def Bank.InWords (bk : Bank) (dest stop x : Nat) : Prop := bk.wordStart dest ≤ x ∧ x < bk.wordStop stop

/-- A write of `[dest, stop)` to bank `b`, `bk` at its start, has the `n` bytes from `p` on left. -/
structure State.Left (s : State) (bk : Bank) (b dest stop p n : Nat) : Prop where
  hasBank : b < s.banks.length
  built : bk.SameBuilt (s.bank b)
  start : dest ≤ p
  reach : p + n = stop

/-- What a part of `write_buff` may change, and what it leaves to write. -/
def Res.Writes (r : Res Progress) (bk : Bank) (b dest stop : Nat) (s : State) : Prop :=
  r.Leads (Confined (bk.InWords dest stop)) s fun p t => t.Left bk b dest stop p.at_ p.rest.length

section
variable {s t : State} {bk : Bank} {b dest stop p n m : Nat} {bs : List Byte}

theorem State.Left.next (h : s.Left bk b dest stop p n) (f : RegsFrame b s t) (hm : m ≤ n) :
    t.Left bk b dest stop (p + m) (n - m) where
  hasBank := f.lt h.hasBank
  built := h.built.trans f.regs.sameBuilt
  start := h.start.trans (Nat.le_add_right p m)
  reach := by have := h.reach; omega

theorem State.Left.still (h : s.Left bk b dest stop p n) (f : RegsFrame b s t) :
    t.Left bk b dest stop p n := h.next f (Nat.zero_le n)

/-- Bytes still to write. -/
theorem State.Left.covers (h : s.Left bk b dest stop p n) (hm : m ≤ n) :
    Covers (bk.InWords dest stop) p m := fun x h1 h2 =>
  ⟨Bank.wordStart_le_self.trans (h.start.trans h1), by
    have := h.reach
    have := bk.le_wordStop (x := stop)
    omega⟩

/-- A word some of whose bytes are still to write. -/
theorem State.Left.covers_word {a off : Nat} (h : s.Left bk b dest stop p n)
    (ha : a % bk.bytes = 0) (hp : a + off = p) (hm : 0 < m) (hfit : off + m ≤ bk.bytes)
    (hmn : m ≤ n) : Covers (bk.InWords dest stop) a bk.bytes := by
  obtain ⟨hstart, hstop⟩ := Bank.word_covers ha hm hfit
  have hlow : bk.wordStart dest ≤ bk.wordStart (a + off) := Bank.wordStart_le (hp ▸ h.start)
  have hhigh : bk.wordStop (a + off + m) ≤ bk.wordStop stop :=
    Bank.wordStop_le (by have := h.reach; omega)
  exact fun x h1 h2 => ⟨by omega, by omega⟩

/-- Nothing more is written of the bytes from `p` on. -/
theorem Res.Writes.nothing (hs : s.Left bk b dest stop p bs.length) (k : Kind) :
    (Res.ok { kind := k, at_ := p, rest := bs } s).Writes bk b dest stop s :=
  .ok (Confined.framed _) hs

section
variable {α : Type}

/-- A piece of the write, and then one that leaves bytes to write. -/
theorem Res.Stays.writes {r : Res α} {k : α → State → Res Progress}
    (h : r.Stays (Confined (bk.InWords dest stop)) s) (hregs : r.Stays (RegsFrame b) s)
    (hk : ∀ a t, RegsFrame b s t → (k a t).Writes bk b dest stop t) :
    (r.bind k).Writes bk b dest stop s :=
  (h.and hregs).bind (Confined.framed _) fun a t _ ⟨_, hf, _⟩ => hk a t hf

theorem Res.Writes.bind {r : Res Progress} {k : Progress → State → Res α}
    (h : r.Writes bk b dest stop s) (hk : ∀ p t, t.Left bk b dest stop p.at_ p.rest.length →
      (k p t).Stays (Confined (bk.InWords dest stop)) t) :
    (r.bind k).Stays (Confined (bk.InWords dest stop)) s :=
  Res.Leads.bind (Confined.framed _) h fun p t _ ht => hk p t ht

end

/-- Step 1. -/
theorem writeHead_writes (hs : s.Left bk b dest stop p bs.length) :
    (writeHead b p bs s).Writes bk b dest stop s := by
  have hbytes := hs.built.bytes
  have hO := RegsFrame.opClosed b
  simp only [writeHead, hbytes]
  split
  · exact .nothing hs _
  · generalize hk : min (bk.bytes - p % bk.bytes) bs.length = k
    have hle : k ≤ bs.length := hk ▸ Nat.min_le_right _ _
    have hmod := Nat.mod_lt p bk.bytes_pos
    have hlow := Nat.mod_le p bk.bytes
    have hmerged : (writeMerged b (p - p % bk.bytes) (p % bk.bytes) (bs.take k) s).Stays
        (Confined (bk.InWords dest stop)) s := by
      refine writeMerged_confined hs.hasBank fun ha hne hfit => ?_
      rw [hbytes] at ha hfit ⊢
      exact hs.covers_word ha (by omega) (List.length_pos_iff.mpr hne) hfit
        (List.length_take_le' ..)
    refine hmerged.writes (writeMerged_stays hO hs.hasBank _ _ _) fun r t hf => .nothing ?_ r
    rw [List.length_drop]
    exact hs.next hf hle

theorem chunkBytes_le (bk : Bank) (p : Nat) : chunkBytes bk p ≤ bk.bufferSize := by
  unfold chunkBytes
  split
  · exact (Nat.min_le_left _ _).trans (Nat.sub_le ..)
  · exact Nat.sub_le ..

/-- Step 2a. -/
theorem writeBuffered_writes : ∀ (fuel : Nat) {p : Nat} {bs : List Byte} {s : State},
    s.Left bk b dest stop p bs.length → (writeBuffered b fuel p bs s).Writes bk b dest stop s
  | 0, _, _, _, hs => .nothing hs _
  | fuel + 1, p, bs, s, hs => by
    have hO := RegsFrame.opClosed b
    rw [writeBuffered]
    simp only [hs.built.bufferSize, hs.built.chunkBytes, hs.built.bytes]
    split
    · exact .nothing hs _
    · next hmore =>
      obtain ⟨-, hlen⟩ := not_or.mp hmore
      have hchunk : chunkBytes bk p ≤ bs.length :=
        (chunkBytes_le bk p).trans (Nat.le_of_not_lt hlen)
      have hprogram : (programBufferIntel b p (wordsOf s.params.hostByteOrder bk.bytes
          (chunkBytes bk p / bk.bytes) (bs.take (chunkBytes bk p))) s).Stays
          (Confined (bk.InWords dest stop)) s := by
        refine programBufferIntel_confined hs.hasBank ?_
        rw [wordsOf_eq_wordsAt, length_wordsAt, hs.built.bytes]
        exact hs.covers ((Nat.div_mul_le_self ..).trans hchunk)
      refine hprogram.writes (programBufferIntel_stays hO hs.hasBank _ _) fun r t hf => ?_
      split
      · exact .nothing (hs.still hf) _
      · refine writeBuffered_writes fuel ?_
        rw [List.length_drop]
        exact hs.next hf hchunk

/-- Step 2b. -/
theorem writeBody_writes : ∀ (fuel : Nat) {p : Nat} {bs : List Byte} {s : State},
    s.Left bk b dest stop p bs.length → (writeBody b fuel p bs s).Writes bk b dest stop s
  | 0, _, _, _, hs => .nothing hs _
  | fuel + 1, p, bs, s, hs => by
    have hO := RegsFrame.opClosed b
    rw [writeBody]
    simp only [hs.built.bytes]
    split
    · exact .nothing hs _
    · next hlen =>
      have hword : bk.bytes ≤ bs.length := Nat.le_of_not_lt hlen
      have hcover := hs.covers hword
      rw [← hs.built.bytes] at hcover
      refine (programWord_confined hs.hasBank hcover _).writes
        (programWord_stays hO hs.hasBank _ _) fun r t hf => ?_
      split
      · exact .nothing (hs.still hf) _
      · refine writeBody_writes fuel ?_
        rw [List.length_drop]
        exact hs.next hf hword

/-- Step 3. -/
theorem writeTail_confined (hs : s.Left bk b dest stop p bs.length) :
    (writeTail b p bs s).Stays (Confined (bk.InWords dest stop)) s := by
  refine .ite (fun _ => .ok (Confined.framed _) _) fun _ =>
    writeMerged_confined hs.hasBank fun ha hne hfit => ?_
  rw [hs.built.bytes] at ha hfit ⊢
  exact hs.covers_word ha (Nat.add_zero p) (List.length_pos_iff.mpr hne) hfit le_rfl

theorem writeSteps_confined (hb : b < s.banks.length) (src : List Byte) (dest : Nat) :
    (writeSteps b src dest s).Stays
      (Confined ((s.bank b).InWords dest (dest + src.length))) s := by
  have hF := Confined.framed ((s.bank b).InWords dest (dest + src.length))
  refine (writeHead_writes ⟨hb, .refl _, le_rfl, rfl⟩).bind fun h t ht => ?_
  refine .ite (fun _ => .ok hF _) fun _ => ?_
  refine (writeBuffered_writes _ ht).bind fun u t ht => ?_
  refine .ite (fun _ => .ok hF _) fun _ => ?_
  refine (writeBody_writes _ ht).bind fun v t ht => ?_
  exact .ite (fun _ => .ok hF _) fun _ => writeTail_confined ht

theorem writeBuff_confined (hb : b < s.banks.length) (src : List Byte) (dest len : Nat) :
    (writeBuff b src dest len s).Stays
      (Confined ((s.bank b).InWords dest (dest + src.length))) s := by
  have hF := Confined.framed ((s.bank b).InWords dest (dest + src.length))
  refine .ite (fun _ => .stop_refused _) fun _ => ?_
  refine .ite (fun _ => .ok hF _) fun _ => ?_
  refine .ite (fun _ => .ok hF _) fun _ => ?_
  exact .ite (fun _ => .ok hF _) fun _ => (writeSteps_confined hb src dest).andReturn hF

end

/-! ### Rows, and the reset -/

/-- A row that erases or programs is confined to the bytes it may change, cut or not. -/
theorem exec_confined {i : Instr} {b : Nat} {s t : State} (hi : isArrayOp i = true)
    (hbank : bankOf i = some b) (h : exec i s = .next t) :
    RanWithin (Confined fun x => mayChange (s.bank b) x i) i s t := by
  have hF := Confined.framed fun x => mayChange (s.bank b) x i
  cases i with
  | flashErase b first last =>
    cases hbank
    exact .of_call h (onBank_stays fun hb => flashErase_confined hb
      fun j h1 h2 hp _ h3 h4 => ⟨j, h1, h2, hp, h3, h4⟩)
  | writeBuff b src dest len =>
    cases hbank
    exact .of_call h (onBank_stays fun hb => writeBuff_confined hb src dest len)
  | eraseIntel b j =>
    cases hbank
    exact .of_call h (onBank_stays fun _ => onKnown_stays hF (onVariant_stays (onSector_stays
      ((eraseIntel_confined fun _ h1 h2 => ⟨h1, h2⟩).andReturn hF))))
  | eraseAmd b j =>
    cases hbank
    exact .of_call h (onBank_stays fun _ => onKnown_stays hF (onVariant_stays (onSector_stays
      ((eraseAmd_confined fun _ h1 h2 => ⟨h1, h2⟩).andReturn hF))))
  | programWordIntel b a d =>
    cases hbank
    exact .of_call h (onBank_stays fun hb => onKnown_stays hF (onVariant_stays
      ((programWordIntel_confined hb (fun _ h1 h2 => ⟨h1, h2⟩) _).andReturn hF)))
  | programWordAmd b a d =>
    cases hbank
    exact .of_call h (onBank_stays fun hb => onKnown_stays hF (onVariant_stays
      ((programWordAmd_confined hb (fun _ h1 h2 => ⟨h1, h2⟩) _).andReturn hF)))
  | programBufferIntel b a ds =>
    cases hbank
    exact .of_call h (onBank_stays fun hb => onKnown_stays hF (onVariant_stays
      ((programBufferIntel_confined hb fun _ h1 h2 => ⟨h1, by
        rwa [List.length_map] at h2⟩).andReturn hF)))
  | writeMerged b a off bs =>
    cases hbank
    exact .of_call h (onBank_stays fun hb => onKnown_stays hF
      ((writeMerged_confined hb fun _ _ _ _ h1 h2 => ⟨h1, h2⟩).andReturn hF))
  | _ => cases hi

theorem bankOf_of_isArrayOp {i : Instr} (h : isArrayOp i = true) : ∃ b, bankOf i = some b := by
  cases i with
  | flashInit => cases h
  | _ => exact ⟨_, rfl⟩

/-- A row that a system reset was due in and that ends with none due has been cut. -/
theorem RanWithin.interrupted {F : State → State → Prop} {i : Instr} {s t : State}
    (h : RanWithin F i s t) (hF : ∀ u, F (s.enter i) u → u.env.resetIn = none →
      s.env.resetIn = none) (hs : s.env.resetIn ≠ none) (ht : t.env.resetIn = none) :
    ∃ u, F (s.enter i) u ∧ t = u.interruptedReset := by
  rcases h with ⟨r, u, hf, rfl⟩ | ⟨-, hcut⟩
  · exact absurd (hF u hf ht) hs
  · exact hcut

/-- The reset draws the bytes of the range on record and leaves every other. -/
theorem State.RangeIn.read_interruptedReset {u : State} {D : Nat → Prop} (h : u.RangeIn D)
    (hm : Memory.wf u.memory = true) {x : Nat} (hx : ¬ D x) :
    Memory.read u.interruptedReset.memory x = Memory.read u.memory x := by
  cases hr : u.position.bind Position.range with
  | none => rw [State.interruptedReset_memory_of_none hr]
  | some r =>
    have hmem : u.interruptedReset.memory = Memory.drawRange u.env.draws u.memory r.1 r.2 := by
      simp [State.interruptedReset, State.systemReset, hr]
    rw [hmem]
    exact Memory.read_drawRange hm ((h r.1 r.2 hr).outside hx)

/-- A row cut by a reset. -/
theorem exec_interrupted {i : Instr} {s t : State} (hs : s.env.resetIn ≠ none)
    (h : exec i s = .next t) (ht : t.env.resetIn = none) :
    (∃ u : State, t = u.interruptedReset) ∧ (isArrayOp i = false → t.memory = s.memory) ∧
      (Memory.wf s.memory = true → ∀ b, bankOf i = some b → ∀ x, ¬ mayChange (s.bank b) x i →
        Memory.read t.memory x = Memory.read s.memory x) := by
  cases hi : isArrayOp i with
  | false =>
    obtain ⟨u, hu, rfl⟩ := (exec_silent hi h).interrupted (fun _ hf => hf.due.mp) hs ht
    have hmem := (State.interruptedReset_memory_of_none hu.range).trans hu.memory
    exact ⟨⟨u, rfl⟩, fun _ => hmem, fun _ _ _ x _ => congrArg (Memory.read · x) hmem⟩
  | true =>
    obtain ⟨b, hb⟩ := bankOf_of_isArrayOp hi
    obtain ⟨u, hu, rfl⟩ := (exec_confined hi hb h).interrupted (fun _ hf => hf.due.mp) hs ht
    refine ⟨⟨u, rfl⟩, nofun, fun hm c hc x hx => ?_⟩
    obtain rfl : b = c := Option.some.inj (hb.symm.trans hc)
    have hrange := hu.range (s := s.enter i) nofun
    exact (hrange.read_interruptedReset (hu.wf hm) hx).trans (hu.outside hm x hx)

/-- What every row leaves, cut or not. -/
theorem Kept.unchanged {s t : State} (h : Kept s t) : t.params = s.params ∧ t.calls = s.calls ∧
    t.banks.length = s.banks.length ∧
    ∀ b < s.banks.length, (t.bank b).baseAddress = (s.bank b).baseAddress := by
  rcases h with ⟨-, hk⟩ | ⟨-, u, hf, rfl⟩
  · exact ⟨hk.params, hk.calls, hk.count, fun b _ => hk.bases b⟩
  · refine ⟨hf.params, hf.calls, u.interruptedReset_count.trans hf.count, fun b hb => ?_⟩
    obtain ⟨l, hl⟩ := u.interruptedReset_bank (hf.count ▸ hb)
    rw [hl]
    exact hf.bases b

/-- Settles O8: a cut row ends in the reset of a state it came to (`exec_interrupted`), and up to
there it has changed no byte outside what it addresses and put none on record
(`exec_silent`, `exec_confined`). -/
theorem interruptedOperationResets : Obligations.InterruptedOperationResets := by
  intro i s t hs h ht
  obtain ⟨⟨u, rfl⟩, hkept, hconfined⟩ := exec_interrupted hs h ht
  obtain ⟨hparams, hcalls, hcount, hbases⟩ := (exec_keeps h).unchanged
  refine ⟨rfl, rfl, rfl, rfl, hparams, hcalls, hcount, fun b hb => ?_, hkept,
    fun hinv => hconfined hinv.memory⟩
  obtain ⟨l, hl⟩ := u.interruptedReset_bank (c := b) (by rwa [← hcount, u.interruptedReset_count] at hb)
  have hbase : (u.bank b).baseAddress = (s.bank b).baseAddress := by
    rw [← hbases b hb, hl]
    rfl
  exact ⟨l, by rw [hl, hbase]⟩

end Sys2Proof.Machine
end
